-- ==== Sys2Proof/Word.lean ====
section
/-! DEFINITION. The words of the bus, the numbers of circuits, stations, inputs and master tags, and the
fixed-length tables that hold one record for each of them. -/

namespace Sys2Proof

/-- Eight bits of a cell. -/
abbrev Byte := BitVec 8

/-- A cell: a 16-bit little-endian word at an even byte address (00_scope.md, Cells). -/
abbrev Word := BitVec 16

/-- A 20-bit bus address, A19-A0 (09_passing_through_the_part.md, section 9.1). -/
abbrev Address := BitVec 20

/-- Circuits 0..383 (00_scope.md, Numbering). -/
abbrev CircuitId := Fin 384

/-- Stations 0..111; 96..111 are virtual (00_scope.md, Numbering). -/
abbrev StationId := Fin 112

/-- Inputs 0..15 of a station (00_scope.md, Numbering). -/
abbrev InputId := Fin 16

/-- Master tags 0..7 (00_scope.md, Numbering). -/
abbrev TagId := Fin 8

/-- Every circuit, in ascending order. -/
def allCircuits : List CircuitId := List.finRange 384

/-- Every station, in ascending order. -/
def allStations : List StationId := List.finRange 112

/-- Every input, in ascending order. -/
def allInputs : List InputId := List.finRange 16

/-- A table of exactly `n` records of one shape, in ascending index. -/
structure Table (n : Nat) (α : Type) where
  cells : List α
  length_eq : cells.length = n
  deriving DecidableEq, Repr

namespace Table

variable {n : Nat} {α : Type}

/-- Record `i` of a table. -/
def get (t : Table n α) (i : Fin n) : α :=
  t.cells[i.val]'(by rw [t.length_eq]; exact i.isLt)

/-- The table with record `i` replaced. -/
def set (t : Table n α) (i : Fin n) (x : α) : Table n α :=
  ⟨t.cells.set i.val x, by simp [t.length_eq]⟩

/-- The table in which each record `i` is `f i` of the record before. -/
def mapIdx (f : Fin n → α → α) (t : Table n α) : Table n α :=
  ⟨List.zipWith f (List.finRange n) t.cells, by simp [t.length_eq]⟩

/-- The table whose every record is `x`. -/
def fill (n : Nat) (x : α) : Table n α :=
  ⟨List.replicate n x, by simp⟩

end Table

end Sys2Proof
end

