-- ==== Sys2Proof/Syntax.lean ====
section
/-! DEFINITION. The commands of the block: one constructor for each row of spec/opcode_table.json. The table
gives its rows no operands and no bits; the operands here are what the rules of spec/ need. -/

namespace Sys2Proof

/-- The byte enables of an access: `lo` is BE0# asserted (even byte), `hi` is BE1# asserted (odd byte). -/
structure Lanes where
  lo : Bool
  hi : Bool
  deriving DecidableEq, Repr

/-- Both byte enables asserted is a 16-bit access (section 9.1). -/
def Lanes.both : Lanes := ⟨true, true⟩

/-- Neither byte enable asserted (R157). -/
def Lanes.neither : Lanes := ⟨false, false⟩

/-- An upstream read, as its master drives it. -/
structure ReadAccess where
  addr : Address
  lanes : Lanes
  tag : TagId
  deriving DecidableEq, Repr

/-- An upstream write, as its master drives it. -/
structure WriteAccess where
  addr : Address
  lanes : Lanes
  tag : TagId
  data : Word
  deriving DecidableEq, Repr

/-- An upstream access. -/
inductive Access where
  | read (a : ReadAccess)
  | write (a : WriteAccess)
  deriving DecidableEq, Repr

/-- The address of an access. -/
def Access.addr : Access → Address
  | .read a => a.addr
  | .write a => a.addr

/-- The byte enables of an access. -/
def Access.lanes : Access → Lanes
  | .read a => a.lanes
  | .write a => a.lanes

/-- What may be taken between two effects of a swap: a desk claim, a step of the Fade Engine (R175; log 5). -/
inductive Interlude where
  | deskClaim
  | step
  deriving DecidableEq, Repr

/-- The steps of the block, one constructor for each row of spec/opcode_table.json, in its order. -/
inductive Instr where
  /-- POWER (R47): power-on reset; `straps` is what BASE1-BASE0 read (R154). -/
  | power (straps : BitVec 2)
  /-- LINE_RESET (R162): the assertion of RST#. -/
  | lineReset
  /-- RST_RELEASE (R162): the release of RST#; `straps` is what BASE1-BASE0 read. -/
  | rstRelease (straps : BitVec 2)
  /-- EGR_ASSERTED (R132). -/
  | egrAsserted
  /-- EGR_RELEASED (R132). -/
  | egrReleased
  /-- DEBOUNCE_EXPIRES (R133). -/
  | debounceExpires
  /-- PASS_FALLS (R148). -/
  | passFalls
  /-- PASS_RISES (R149). -/
  | passRises
  /-- STEP (R49): an expiry of the 25 ms step timer. -/
  | step
  /-- LONG_PRESS_EXPIRES (R73), of one input's timer. -/
  | longPressExpires (station : StationId) (input : InputId)
  /-- SILENCE_EXPIRES (R80), of one station's timer. -/
  | silenceExpires (station : StationId)
  /-- AMEND_WINDOW_EXPIRES (R138). -/
  | amendWindowExpires
  /-- STATION_CELL_WRITE (R65): a write to a station cell, taken at its grant. -/
  | stationCellWrite (access : WriteAccess)
  /-- FORWARDED_ACCESS (R160): any other forwarded access, taken at its grant. -/
  | forwardedAccess (access : Access)
  /-- CIRCUIT_WINDOW_READ (R144). -/
  | circuitWindowRead (access : ReadAccess)
  /-- VIEW_WINDOW_READ (R36). -/
  | viewWindowRead (access : ReadAccess)
  /-- DESK_WRITE (R158). -/
  | deskWrite (access : WriteAccess)
  /-- DESK_WRITE_JOINS (R159). -/
  | deskWriteJoins
  /-- DESK_CLAIM (R34). -/
  | deskClaim
  /-- REFUSED_WRITE (R156). -/
  | refusedWrite (access : WriteAccess)
  /-- NO_BYTE_ACCESS (R157). -/
  | noByteAccess (access : Access)
  /-- PENDING_CAUSES_WRITE (R179). -/
  | pendingCausesWrite (value : Word)
  /-- ENABLE_MASK_WRITE (R180). -/
  | enableMaskWrite (value : Word)
  /-- CONTROL_CELL_WRITE (R169): a write to the parameter cell. -/
  | controlCellWrite (value : Word)
  /-- UNKNOWN_COMMAND (R169): a value of the command cell that names no command. -/
  | unknownCommand (value : Word)
  /-- COMMIT (R173). -/
  | commit
  /-- CLOSE_MAP (R140). -/
  | closeMap
  /-- SET_MODE (R127). -/
  | setMode
  /-- HOLD_FADES (R61). -/
  | holdFades
  /-- RESUME_FADES (R61). -/
  | resumeFades
  /-- AMEND_COMMAND (R137). -/
  | amendCommand
  /-- RESTORE_EGRESS (R134). -/
  | restoreEgress
  /-- CLEAR_FAULTS (R76). -/
  | clearFaults
  /-- CLEAR_COUNTERS (R171). -/
  | clearCounters
  /-- RELEASE_DESK (R172). -/
  | releaseDesk
  /-- RESTART (R177). -/
  | restart
  /-- WRITE_BACK_GRANT (R146). -/
  | writeBackGrant
  /-- LOADER_READ_GRANT (R173). -/
  | loaderReadGrant
  /-- FRAME_CLEAR_GRANT (R151). -/
  | frameClearGrant
  /-- TRANSFER_END (R160): MRDY ends the downstream transfer. -/
  | transferEnd
  /-- FRAME_CLEAR_ENDS (R152). -/
  | frameClearEnds
  /-- VALIDATION_ENDS (R174). -/
  | validationEnds
  /-- MAP_SWAP (R175); the k-th of `gaps` is what is taken between effects k and k + 1 of the swap. -/
  | mapSwap (gaps : List (List Interlude) := [])
  /-- TAKE_ENTRY (R100): up to `claims` of the claims of the entry, from where it stands; the row has six (R99; log 5). -/
  | takeEntry (claims : Nat := 6)
  /-- LOST_MARKER (R103): up to `claims` of the claims of the marker, from where it stands; the row has two. -/
  | lostMarker (claims : Nat := 2)
  /-- RETURNED_MARKER (R104). -/
  | returnedMarker
  /-- SET (R112). -/
  | set
  /-- TOGGLE (R113). -/
  | toggle
  /-- RAISE (R115). -/
  | raise
  /-- LOWER (R115). -/
  | lower
  /-- RELEASE (R116). -/
  | release
  /-- SCENE (R117). -/
  | scene
  /-- MODE (R118). -/
  | mode
  /-- HOLD (R119). -/
  | hold
  /-- RESUME (R119). -/
  | resume
  /-- AMEND (R120). -/
  | amend
  /-- RESTORE (R121). -/
  | restore
  deriving DecidableEq, Repr

end Sys2Proof
end

