-- ==== Sys2Proof/WellFormed.lean ====
section
/-! DEFINITION. Which commands are well formed: the checks on a command's operands alone that its row's own
words make. -/

namespace Sys2Proof

/-- At least one byte enable is asserted. -/
def Lanes.any (l : Lanes) : Bool := l.lo || l.hi

/-- The command codes run from 1 to 11 (R167); every other value names no command (R169). -/
def namesNoCommand (value : Word) : Bool := value.toNat == 0 || 12 ≤ value.toNat

/-- The operands of a command fit its row. An access that selects no byte is NO_BYTE_ACCESS whatever region it
hits (R157), and a value of 1..11 in the command cell names a command (R169). -/
def Instr.wellFormed : Instr → Bool
  | .stationCellWrite a => a.lanes.any
  | .circuitWindowRead a => a.lanes.any
  | .viewWindowRead a => a.lanes.any
  | .deskWrite a => a.lanes.any
  | .refusedWrite a => a.lanes.any
  | .noByteAccess a => !a.lanes.any
  | .unknownCommand v => namesNoCommand v
  | .power _ | .lineReset | .rstRelease _ | .egrAsserted | .egrReleased | .debounceExpires | .passFalls
  | .passRises | .step | .longPressExpires _ _ | .silenceExpires _ | .amendWindowExpires
  | .forwardedAccess _ | .deskWriteJoins | .deskClaim | .pendingCausesWrite _ | .enableMaskWrite _
  | .controlCellWrite _ | .commit | .closeMap | .setMode | .holdFades | .resumeFades | .amendCommand
  | .restoreEgress | .clearFaults | .clearCounters | .releaseDesk | .restart | .writeBackGrant
  | .loaderReadGrant | .frameClearGrant | .transferEnd | .frameClearEnds | .validationEnds | .mapSwap _
  | .takeEntry _ | .lostMarker _ | .returnedMarker | .set | .toggle | .raise | .lower | .release | .scene
  | .mode | .hold | .resume | .amend | .restore => true

end Sys2Proof
end

