-- ==== Sys2Proof/Decode.lean ====
section
/-! DEFINITION. The commands that words spell by the bits of spec/opcode_table.json: none, since no row of the
table gives bits. -/

namespace Sys2Proof

/-- The command that the `nbits` bits of `w` spell. Every row of the table has an empty list of fields and no
pattern, so no word spells a command (log 9). -/
def decodeTableWord (_nbits _w : Nat) : Option Instr := none

end Sys2Proof
end

