-- ==== Sys2Proof/Config.lean ====
section
/-! DEFINITION. The fixed sizes and durations of the CL-384, and the two values the manual leaves open
(what unwritten SRAM reads as, and the grain in which the model lets time pass). -/

namespace Sys2Proof.Config

/-- Level 1000 is full (00_scope.md, Levels). -/
def fullLevel : Nat := 1000

/-- Contribution records of the store (R25). -/
def poolSize : Nat := 1024

/-- The most contributions in one circuit's list (R27). -/
def listCapacity : Nat := 8

/-- Entries of the Desk Write Queue (R159). -/
def deskQueueCapacity : Nat := 16

/-- Input events of the Event Queue; markers do not count (R86). -/
def eventCapacity : Nat := 64

/-- Counters stop here (R181). -/
def counterMax : Nat := 65535

/-- Consecutive upstream grants after which a waiting internal requester goes first (R161). -/
def runLimit : Nat := 4

/-- Cells of the map image (R173). -/
def imageCells : Nat := 20008

/-- Circuit cells of the two frames that a frame clear writes (R151). -/
def clearCells : Nat := 768

/-- Period of the step timer in ms (R48). -/
def stepMs : Nat := 25

/-- Long-press time in ms (R73). -/
def longPressMs : Nat := 600

/-- Egress debounce in ms (R132). -/
def debounceMs : Nat := 40

/-- One unit of a silence limit in ms (R80). -/
def silenceUnitMs : Nat := 500

/-- The amend window in ms (R137). -/
def amendMs : Nat := 120000

/-- How many ms pass in one step on an empty queue of commands.
DESIGN CHOICE (log 8): the largest grain that divides every duration above. -/
def tickMs : Nat := 5

/-- What a byte of SRAM that nothing has written reads as.
DESIGN CHOICE (log 1), unsafe: the spec gives no power-on contents of SRAM. -/
def unwrittenByte : Byte := 0

end Sys2Proof.Config
end

