-- ==== Sys2Proof/Machine/State.lean ====
section
/-! DEFINITION. Everything the CL-384 holds, as plain data, and the machine right after POWER. -/

namespace Sys2Proof.Machine

/-! ### Owners, classes and modes (00_scope.md, Conventions) -/

/-- The four classes, highest first. -/
inductive Cls where
  | prompt | desk | house | local_
  deriving DecidableEq, Repr

/-- Whoever asks for a level: a station or a desk tag. -/
inductive Owner where
  | station (s : StationId)
  | desk (t : TagId)
  deriving DecidableEq, Repr

/-- The five house modes, in the order of their codes (R167). -/
inductive HouseMode where
  | open_ | prepare | performance | interval | night
  deriving DecidableEq, Repr

/-- The eleven kinds of action a map can carry, in code order (R12, R168). -/
inductive ActionKind where
  | set | toggle | raise | lower | release | scene | mode | hold | resume | amend | restore
  deriving DecidableEq, Repr

/-- How a circuit's winning class is combined (R6). -/
inductive MergeRule where
  | latest | highest
  deriving DecidableEq, Repr

/-- How changes of an input become events (R10). -/
inductive Trigger where
  | unused | momentary | maintained
  deriving DecidableEq, Repr

/-! ### Contributions, slots and circuits (chapter 2) -/

/-- State of a contribution with the optional parts that state has (R24). -/
inductive Movement where
  | steady
  | fading (start steps index : Nat)
  | ramp (start steps index : Nat) (heldBy : InputId)
  | leaving (rate : Nat)
  deriving DecidableEq, Repr

/-- A contribution record (R23). -/
structure Contribution where
  owner : Owner
  cls : Cls
  current : Nat
  target : Nat
  movement : Movement
  deriving DecidableEq, Repr

/-- The movement a create or a renewal asks for (R29). -/
inductive Ask where
  | snap (level : Nat)
  | fade (level time : Nat)
  | ramp (target time : Nat) (heldBy : InputId)
  deriving DecidableEq, Repr

/-- An egress slot (R37). -/
inductive Slot where
  | empty
  | active
  | leaving (level rate : Nat)
  deriving DecidableEq, Repr

/-- What the Contribution Store and the Merge Unit hold for one circuit: its list front first (R26), its egress
slot (R37), its stored effective level (R44) and its two owed flags (R45). -/
structure CircuitState where
  list : List Contribution
  slot : Slot
  level : Nat
  owedA : Bool
  owedB : Bool
  deriving DecidableEq, Repr

/-! ### Station runtime (chapter 4) -/

/-- Long phase of an input; in TIMING, the ms left on its long-press timer (R66). -/
inductive LongPhase where
  | idle
  | timing (remaining : Nat)
  | given
  deriving DecidableEq, Repr

/-- Present state, acted state and long phase of one input (R66). -/
structure InputState where
  closed : Bool
  acted : Bool
  phase : LongPhase
  deriving DecidableEq, Repr

/-- The four fault kinds of a station (R66). -/
structure FaultSet where
  contact : Bool
  gap : Bool
  line : Bool
  qloss : Bool
  deriving DecidableEq, Repr

/-- The tag set of an input event: a set of CONTACT, GAP and LINE (R85). -/
structure TagSet where
  contact : Bool
  gap : Bool
  line : Bool
  deriving DecidableEq, Repr

/-- Bytes +0 to +5 of a station's cell (R65, R166). -/
structure CellCopy where
  inputs : Word
  complements : Word
  sequence : Byte
  status : Byte
  deriving DecidableEq, Repr

/-- The runtime record of one station (R66). `silence` is none while the silence timer is idle, and otherwise
the ms elapsed since it last started. -/
structure StationState where
  copy : CellCopy
  inputs : Table 16 InputState
  baselineRequired : Bool
  faults : FaultSet
  suspect : Bool
  lost : Bool
  silence : Option Nat
  deriving DecidableEq, Repr

/-! ### Event queue and Action Unit (chapters 5 and 6) -/

/-- Kinds of input event, in code order from 1 (R167). -/
inductive EventKind where
  | press | release | tap | long | longEnd | on | off
  deriving DecidableEq, Repr

/-- Kinds of marker (R85). -/
inductive MarkerKind where
  | lost | returned
  deriving DecidableEq, Repr

/-- An entry of the Event Queue (R85). -/
inductive Entry where
  | input (station : StationId) (input : InputId) (kind : EventKind) (tags : TagSet)
  | marker (station : StationId) (kind : MarkerKind)
  deriving DecidableEq, Repr

/-- How far the entry that the Action Unit holds has come (R99): it has left the queue; its tags are recorded
(R100, step 1); its station is not SUSPECT (step 2); it has passed the tests; its first claim has ended ramps (R103,
R105, step 1); its sequence runs, with the pool index of the next action and how many are left (R108). -/
inductive Stage where
  | taken
  | recorded
  | trusted
  | passed
  | rampsEnded
  | running (next left : Nat)
  deriving DecidableEq, Repr

/-- The entry that the Action Unit holds, from its take until it is finished (R92, R99). -/
structure InFlight where
  entry : Entry
  stage : Stage
  deriving DecidableEq, Repr

/-- Reason codes 0 to 12 (R167). -/
inductive Reason where
  | noReason | unknown | badParameter | locked | closed | invalid | illegalTransition | notInShow
  | lineActive | notLatched | abandoned | poolExhausted | circuitFull
  deriving DecidableEq, Repr

/-- The event kind of a refusal: an input event's kind, or DESK WRITE (R123). -/
inductive RefusedKind where
  | event (kind : EventKind)
  | deskWrite
  deriving DecidableEq, Repr

/-- The last refusal record (R123); none stands for "none" in each field. -/
structure RefusalRecord where
  owner : Option Owner
  input : Option InputId
  kind : Option RefusedKind
  action : Option Nat
  reason : Reason
  deriving DecidableEq, Repr

/-! ### House State Unit and Frame Publisher (chapters 7 and 8) -/

/-- The egress state (R132); in PENDING, the ms the debounce has run. -/
inductive EgressState where
  | clear
  | pending (elapsed : Nat)
  | latchedActive
  | latchedCleared
  deriving DecidableEq, Repr

/-- The two frames (R143). -/
inductive Frame where
  | a | b
  deriving DecidableEq, Repr

/-! ### Ports (chapter 9) -/

/-- The regions of the window (R155). -/
inductive Region where
  | control | station | circuitWindow | viewWindow | frameA | frameB | mapRegion | other
  deriving DecidableEq, Repr

/-- An entry of the Desk Write Queue: tag, circuit and value (R158). -/
structure DeskEntry where
  tag : TagId
  circuit : CircuitId
  value : Word
  deriving DecidableEq, Repr

/-- The access the Upstream Port holds (R157). -/
inductive Port where
  | idle
  | waitGrant (access : Access)
  | waitSlot (entry : DeskEntry)
  deriving DecidableEq, Repr

/-- The data lines D15-D0 of an answered read: each lane with its byte, or not driven. -/
structure BusData where
  lo : Option Byte
  hi : Option Byte
  deriving DecidableEq, Repr

/-- A downstream bus cycle: MA19-MA0, direction, byte enables, and the data written or read. -/
structure BusCycle where
  addr : Nat
  write : Bool
  lanes : Lanes
  data : Word
  deriving DecidableEq, Repr

/-- Who was granted the transfer in progress (R160). `upstreamPast` is an upstream access granted before an
assertion of RST#, which the port no longer waits for (R162, log 21). A loader read names the image cell it reads and
whether its COMMIT has been abandoned since. -/
inductive Requester where
  | upstream
  | upstreamPast
  | writeBack
  | loader (index : Nat) (discarded : Bool)
  | frameClear
  deriving DecidableEq, Repr

/-- The downstream transfer in progress (R160). -/
structure Transfer where
  requester : Requester
  cycle : BusCycle
  deriving DecidableEq, Repr

/-! ### Map records (chapter 1, R168) -/

/-- One bank of the Map Store: the cells of the map image by their offset in the window, in the canonical form
of `Sparse` in Machine/Ops.lean. A cell that is not listed holds the empty map's value (R17), so `[]` is the
empty map. -/
abbrev Bank := List (Nat × Word)

/-- A sequence: a run of the action pool (R10). -/
structure SeqRef where
  start : Nat
  count : Nat
  deriving DecidableEq, Repr

/-- A circuit record, codes as the image holds them (R168). -/
structure CircuitRec where
  zone : Nat
  mergeCode : Nat
  egressMember : Bool
  profile : Nat
  rest : Nat
  deriving DecidableEq, Repr

/-- A station record, codes as the image holds them (R168). -/
structure StationRec where
  enabled : Bool
  dual : Bool
  releaseOnLoss : Bool
  night : Bool
  mayMode : Bool
  mayHold : Bool
  mayAmend : Bool
  mayRestore : Bool
  classCode : Nat
  inputsUsed : Nat
  silenceLimit : Nat
  inversion : Word
  deriving DecidableEq, Repr

/-- A binding record, codes as the image holds them (R168). -/
structure BindingRec where
  triggerCode : Nat
  press : SeqRef
  release : SeqRef
  long : SeqRef
  deriving DecidableEq, Repr

/-- An action record, codes as the image holds them (R168). -/
structure ActionRec where
  kindCode : Nat
  targetType : Nat
  targetIndex : Nat
  level : Nat
  profile : Nat
  exclusive : Bool
  param : Nat
  deriving DecidableEq, Repr

/-- The action whose claim comes next in the sequence of the entry being executed: the entry's station, input
and kind, the pool index, and the record (R108). -/
structure RunningAction where
  station : StationId
  input : InputId
  kind : EventKind
  index : Nat
  action : ActionRec
  deriving DecidableEq, Repr

/-! ### Control Block (chapters 10 and 11) -/

/-- Phase of a running COMMIT, with the cells loaded so far while it loads (R169, R173). -/
inductive CommitPhase where
  | loading (cells : Nat)
  | validating
  | swapPending
  deriving DecidableEq, Repr

/-- Command status (R169): IDLE; RUNNING a COMMIT or a RESTART; DONE with its detail 1; REFUSED with its reason
and both details. The details of a running command are computed from the state they describe. -/
inductive CommandStatus where
  | idle
  | commitRunning (phase : CommitPhase)
  | restartRunning
  | done (detail1 : Nat)
  | refused (reason : Reason) (detail1 detail2 : Nat)
  deriving DecidableEq, Repr

/-- The nine causes, in priority order (11_reporting_and_causes.md, section 11.2). -/
inductive Cause where
  | egress | loss | fault | queue | resource | refusal | command | mode | write
  deriving DecidableEq, Repr

/-- The names of the eight counters (R181). -/
inductive CounterName where
  | queueLosses | nightDrops | quarantineDrops | refusedActions | refusedDeskWrites | refusedOtherWrites
  | busyRefusals | flips
  deriving DecidableEq, Repr

/-- The eight counters, in the order of their cells (R181). -/
structure Counters where
  queueLosses : Nat
  nightDrops : Nat
  quarantineDrops : Nat
  refusedActions : Nat
  refusedDeskWrites : Nat
  refusedOtherWrites : Nat
  busyRefusals : Nat
  flips : Nat
  deriving DecidableEq, Repr

/-- The last reset taken (R182). -/
inductive ResetCause where
  | power | line | restart
  deriving DecidableEq, Repr

/-- The part has no bus error response and no exception (opening of 09_passing_through_the_part.md), and every
address of the bus exists: no step of the model faults, so there is no reason to fault (safe). -/
inductive Fault where
  deriving DecidableEq, Repr

/-- Why a command has no meaning. -/
inductive Refusal where
  /-- Raised only by an arm of exec whose command has no meaning yet (safe): no arm is left so. -/
  | notModelled (mnemonic : String)
  deriving DecidableEq, Repr

/-- Everything the part holds, the SRAM behind it, and the queue of commands that wait. -/
structure State where
  /-- The commands that wait, first in first out (the model's own, log 9). -/
  pending : List Instr
  /-- RST# is asserted (R162). -/
  rst : Bool
  /-- EGR# is asserted (R132). -/
  egrLine : Bool
  /-- PASS is high (R148). -/
  passHigh : Bool
  /-- The sampled base straps (R154). -/
  base : BitVec 2
  /-- What the part last drove on D15-D0 (R157, log 11). -/
  upData : BusData
  /-- The SRAM, in the canonical form of `Memory.wf`. -/
  mem : List Host.Cell
  /-- The access held by the Upstream Port (R157). -/
  port : Port
  /-- The Desk Write Queue, head first (R159). -/
  deskQueue : List DeskEntry
  /-- The downstream transfer in progress (R160). -/
  transfer : Option Transfer
  /-- Consecutive upstream grants (R161). -/
  runCount : Nat
  /-- Station runtime records (R66). -/
  stations : Table 112 StationState
  /-- The Event Queue, head first (R86). -/
  events : List Entry
  /-- SCANHOLD# is asserted (R94). -/
  scanhold : Bool
  /-- The entry being executed (R99). -/
  current : Option InFlight
  /-- The last refusal record (R123). -/
  lastRefusal : RefusalRecord
  /-- The active bank (R1). -/
  active : Bank
  /-- The standby bank (R1). -/
  standby : Bank
  /-- The map generation (R2). -/
  generation : Word
  /-- Lists, egress slots, stored levels and owed flags (R26, R37, R44, R45). -/
  circuits : Table 384 CircuitState
  /-- The fade hold flag (R61). -/
  hold : Bool
  /-- The ms of its period that the step timer has run (R48). -/
  stepElapsed : Nat
  /-- The mode (R127). -/
  mode : HouseMode
  /-- The egress state (R132). -/
  egress : EgressState
  /-- The ms left of the amend window, none while it is shut (R137). -/
  amend : Option Nat
  /-- The map-closed flag (R140). -/
  mapClosed : Bool
  /-- The front frame (R143). -/
  front : Frame
  /-- Cells a running frame clear has written, none while none runs (R151). -/
  clear : Option Nat
  /-- The command cell (R169). -/
  command : Word
  /-- The parameter cell (R169). -/
  parameter : Word
  /-- The command status and its details (R169). -/
  status : CommandStatus
  /-- The pending causes, bit by priority (R179). -/
  causes : BitVec 9
  /-- The enable mask (R180). -/
  mask : BitVec 9
  /-- The counters (R181). -/
  counters : Counters
  /-- The reset cause (R182). -/
  resetCause : ResetCause
  deriving DecidableEq, Repr

/-- No fault. -/
def FaultSet.none : FaultSet := ⟨false, false, false, false⟩

/-- An empty tag set. -/
def TagSet.none : TagSet := ⟨false, false, false⟩

/-- An input after POWER: open, OFF, IDLE (R84). -/
def InputState.initial : InputState := ⟨false, false, .idle⟩

/-- A station's runtime record after POWER (R84). -/
def StationState.initial : StationState where
  copy := ⟨0, 0, 0, 0⟩
  inputs := Table.fill 16 InputState.initial
  baselineRequired := true
  faults := FaultSet.none
  suspect := false
  lost := false
  silence := .none

/-- A circuit after POWER: no contribution, slot EMPTY, level 0, nothing owed (R47). -/
def CircuitState.initial : CircuitState := ⟨[], .empty, 0, false, false⟩

/-- The last refusal record after POWER (R123). -/
def RefusalRecord.initial : RefusalRecord := ⟨.none, .none, .none, .none, .noReason⟩

/-- The counters at 0 (R181). -/
def Counters.zero : Counters := ⟨0, 0, 0, 0, 0, 0, 0, 0⟩

/-- The machine right after POWER, with EGR# and RST# released, PASS low and straps 0 (DESIGN CHOICE, log 10):
each value is the POWER column of R47, R64, R84, R98, R126, R141, R153, R163, R170 and R182. -/
def State.reset : State where
  pending := []
  rst := false
  egrLine := false
  passHigh := false
  base := 0
  upData := ⟨.none, .none⟩
  mem := []
  port := .idle
  deskQueue := []
  transfer := .none
  runCount := 0
  stations := Table.fill 112 StationState.initial
  events := []
  scanhold := false
  current := .none
  lastRefusal := RefusalRecord.initial
  active := []
  standby := []
  generation := 0
  circuits := Table.fill 384 CircuitState.initial
  hold := false
  stepElapsed := 0
  mode := .open_
  egress := .clear
  amend := .none
  mapClosed := false
  front := .a
  clear := .some 0
  command := 0
  parameter := 0
  status := .idle
  causes := 0
  mask := 0
  counters := Counters.zero
  resetCause := .power

end Sys2Proof.Machine
end

