-- ==== Sys2Proof/Machine/Ops.lean ====
section
/-! DEFINITION. The named operations over cells, SRAM, banks, station and circuit records, causes and counters
that every meaning is written with. -/

namespace Sys2Proof.Machine

/-! ### Cells and bytes: a cell is a little-endian word (00_scope.md, Cells; R164) -/

/-- The byte of a cell at its even address. -/
def loByte (w : Word) : Byte := w.setWidth 8

/-- The byte of a cell at its odd address. -/
def hiByte (w : Word) : Byte := (w >>> 8).setWidth 8

/-- The cell with the two bytes. -/
def wordOf (lo hi : Byte) : Word := hi ++ lo

/-- A cell after a write of `data` to the lanes of `lanes`; the other byte is kept. -/
def mergeLanes (lanes : Lanes) (old data : Word) : Word :=
  wordOf (if lanes.lo then loByte data else loByte old) (if lanes.hi then hiByte data else hiByte old)

/-- What a read with these byte enables drives: the bytes it selects and no other lane (log 11). -/
def laneData (lanes : Lanes) (w : Word) : BusData :=
  ⟨if lanes.lo then some (loByte w) else none, if lanes.hi then some (hiByte w) else none⟩

/-- An answer of `w` in both bytes. -/
def bothBytes (w : Word) : BusData := ⟨some (loByte w), some (hiByte w)⟩

/-! ### Sparse data in canonical form: keys strictly rising, no entry equal to what an unlisted key reads as -/

/-- The value at a key; `dflt` where it is not listed. -/
def sparseRead {α : Type} (dflt : Nat → α) : List (Nat × α) → Nat → α
  | [], k => dflt k
  | (j, v) :: rest, k => if k = j then v else sparseRead dflt rest k

/-- The data with the value at a key replaced; writing what an unlisted key reads as removes the entry. -/
def sparseWrite {α : Type} [DecidableEq α] (dflt : Nat → α) : List (Nat × α) → Nat → α → List (Nat × α)
  | [], k, v => if v = dflt k then [] else [(k, v)]
  | (j, w) :: rest, k, v =>
    if k < j then (if v = dflt k then (j, w) :: rest else (k, v) :: (j, w) :: rest)
    else if k = j then (if v = dflt k then rest else (k, v) :: rest)
    else (j, w) :: sparseWrite dflt rest k v

/-- The canonical form. -/
def sparseWf {α : Type} [DecidableEq α] (dflt : Nat → α) : List (Nat × α) → Bool
  | [] => true
  | (k, v) :: rest => !decide (v = dflt k) && rest.all (fun p => decide (k < p.1)) && sparseWf dflt rest

/-! ### SRAM: 1 MiB of bytes -/

/-- Every byte of SRAM that nothing has written reads as this (log 1). -/
def unwritten (_ : Nat) : Byte := Config.unwrittenByte

/-- The byte of SRAM at an address. -/
def Memory.read (m : List Host.Cell) (a : Nat) : Byte := sparseRead unwritten m a

/-- SRAM after a write of one byte. -/
def Memory.write (m : List Host.Cell) (a : Nat) (v : Byte) : List Host.Cell := sparseWrite unwritten m a v

/-- The canonical form of SRAM, every address within the 20 bits of the bus. -/
def Memory.wf (m : List Host.Cell) : Bool :=
  sparseWf unwritten m && m.all (fun p => decide (p.1 < 2 ^ 20))

/-- The cell of SRAM whose even address is `a`. -/
def Memory.readCell (m : List Host.Cell) (a : Nat) : Word := wordOf (Memory.read m a) (Memory.read m (a + 1))

/-- SRAM after a write of the selected bytes of the cell whose even address is `a`. -/
def Memory.writeCell (m : List Host.Cell) (a : Nat) (lanes : Lanes) (data : Word) : List Host.Cell :=
  let m1 := if lanes.lo then Memory.write m a (loByte data) else m
  if lanes.hi then Memory.write m1 (a + 1) (hiByte data) else m1

/-- The even address of the cell that holds an address. -/
def cellAddress (a : Nat) : Nat := a / 2 * 2

/-! ### Banks -/

/-- What each cell of the empty map holds: 0, but 1000 for each zone ceiling and 1 for each station's inputs
used (R17; the paragraph after R168). -/
def emptyMapCell (offset : Nat) : Word :=
  if 0x2010 ≤ offset && offset < 0x2150 then 1000
  else if 0x2800 ≤ offset && offset < 0x2B80 && offset % 8 == 2 then 1
  else 0

/-- The cell of a bank at an offset of the map image. -/
def Bank.cell (b : Bank) (offset : Nat) : Word := sparseRead emptyMapCell b offset

/-- A bank after one cell of the image has been stored in it (R173). -/
def Bank.setCell (b : Bank) (offset : Nat) (v : Word) : Bank := sparseWrite emptyMapCell b offset v

/-- The canonical form of a bank. -/
def Bank.wf (b : Bank) : Bool := sparseWf emptyMapCell b

/-- The empty map (R17). -/
def Bank.empty : Bank := []

/-! ### Records of the state -/

/-- The runtime record of a station. -/
def State.station (s : State) (n : StationId) : StationState := s.stations.get n

/-- The state with one station's runtime record changed. -/
def State.modStation (s : State) (n : StationId) (f : StationState → StationState) : State :=
  { s with stations := s.stations.set n (f (s.stations.get n)) }

/-- The state with every station's runtime record changed. -/
def State.mapStations (s : State) (f : StationId → StationState → StationState) : State :=
  { s with stations := s.stations.mapIdx f }

/-- What the store and the merge hold for a circuit. -/
def State.circuit (s : State) (c : CircuitId) : CircuitState := s.circuits.get c

/-- The state with one circuit changed. -/
def State.modCircuit (s : State) (c : CircuitId) (f : CircuitState → CircuitState) : State :=
  { s with circuits := s.circuits.set c (f (s.circuits.get c)) }

/-- The state with every circuit changed. -/
def State.mapCircuits (s : State) (f : CircuitId → CircuitState → CircuitState) : State :=
  { s with circuits := s.circuits.mapIdx f }

/-- The number of records in the free pool (R25): those in no circuit's list. -/
def State.poolFree (s : State) : Nat :=
  Config.poolSize - (s.circuits.cells.map (fun cs => cs.list.length)).sum

/-! ### Causes and counters -/

/-- The bit of a cause: its priority counted from 0 (section 11.2). -/
def Cause.bit : Cause → Nat
  | .egress => 0
  | .loss => 1
  | .fault => 2
  | .queue => 3
  | .resource => 4
  | .refusal => 5
  | .command => 6
  | .mode => 7
  | .write => 8

/-- The causes with one of them set. -/
def Cause.mark (c : Cause) (causes : BitVec 9) : BitVec 9 := causes ||| BitVec.twoPow 9 c.bit

/-- Raising a cause sets its flag (R179). -/
def State.raiseCause (s : State) (c : Cause) : State := { s with causes := c.mark s.causes }

/-- One more, stopping at 65535 (R181). -/
def bump (n : Nat) : Nat := min (n + 1) Config.counterMax

/-- The counters with one of them raised by one. -/
def Counters.bump (c : Counters) : CounterName → Counters
  | .queueLosses => { c with queueLosses := Machine.bump c.queueLosses }
  | .nightDrops => { c with nightDrops := Machine.bump c.nightDrops }
  | .quarantineDrops => { c with quarantineDrops := Machine.bump c.quarantineDrops }
  | .refusedActions => { c with refusedActions := Machine.bump c.refusedActions }
  | .refusedDeskWrites => { c with refusedDeskWrites := Machine.bump c.refusedDeskWrites }
  | .refusedOtherWrites => { c with refusedOtherWrites := Machine.bump c.refusedOtherWrites }
  | .busyRefusals => { c with busyRefusals := Machine.bump c.busyRefusals }
  | .flips => { c with flips := Machine.bump c.flips }

/-- The value of one counter. -/
def Counters.value (c : Counters) : CounterName → Nat
  | .queueLosses => c.queueLosses
  | .nightDrops => c.nightDrops
  | .quarantineDrops => c.quarantineDrops
  | .refusedActions => c.refusedActions
  | .refusedDeskWrites => c.refusedDeskWrites
  | .refusedOtherWrites => c.refusedOtherWrites
  | .busyRefusals => c.busyRefusals
  | .flips => c.flips

/-- The state with one counter raised by one. -/
def State.count (s : State) (n : CounterName) : State := { s with counters := s.counters.bump n }

end Sys2Proof.Machine
end

