-- ==== Sys2Proof/Machine/Operands.lean ====
section
/-! DEFINITION. What the operands of a command and the fields of the map name: the window and its regions, the
records of a bank, target sets, profiles. -/

namespace Sys2Proof.Machine

/-! ### The window (R154, R155) -/

/-- The address of an offset of the window. -/
def windowAddress (base : BitVec 2) (offset : Nat) : Nat := base.toNat * 0x40000 + offset

/-- The offset of an address from the window base, A0 taken as 0; none outside the window. -/
def windowOffset (base : BitVec 2) (addr : Address) : Option Nat :=
  if addr.toNat / 0x10000 == base.toNat * 4 then some (cellAddress (addr.toNat % 0x10000)) else none

/-- The region an offset hits. -/
def regionOf (offset : Nat) : Region :=
  if offset < 0x0400 then .control
  else if offset < 0x0780 then .station
  else if 0x0800 ≤ offset && offset < 0x0B00 then .circuitWindow
  else if 0x0C00 ≤ offset && offset < 0x0F00 then .viewWindow
  else if 0x1000 ≤ offset && offset < 0x1300 then .frameA
  else if 0x1400 ≤ offset && offset < 0x1700 then .frameB
  else if 0x2000 ≤ offset then .mapRegion
  else .other

/-- The offset an access hits in the window as the straps were sampled. -/
def State.offsetOf (s : State) (addr : Address) : Option Nat := windowOffset s.base addr

/-- The region an access hits; none outside the window. -/
def State.regionAt (s : State) (addr : Address) : Option Region := (s.offsetOf addr).map regionOf

/-- The station whose cell holds an offset of the station region (R166). -/
def stationAt (offset : Nat) : Option StationId :=
  if h : (offset - 0x0400) / 8 < 112 then some ⟨(offset - 0x0400) / 8, h⟩ else none

/-- The circuit of an offset of the circuit window or of the view window that begins at `start` (R165). -/
def circuitAt (start offset : Nat) : Option CircuitId :=
  if h : (offset - start) / 2 < 384 then some ⟨(offset - start) / 2, h⟩ else none

/-- The offset of a circuit's cell in a frame (R143). -/
def frameOffset (f : Frame) (c : CircuitId) : Nat :=
  match f with
  | .a => 0x1000 + 2 * c.val
  | .b => 0x1400 + 2 * c.val

/-- The address of a circuit's cell in a frame. -/
def State.frameCell (s : State) (f : Frame) (c : CircuitId) : Nat := windowAddress s.base (frameOffset f c)

/-- The other frame. -/
def Frame.other : Frame → Frame
  | .a => .b
  | .b => .a

/-! ### Codes (R167, R168) -/

/-- The mode of a code 0..4. -/
def modeOfCode : Nat → Option HouseMode
  | 0 => some .open_
  | 1 => some .prepare
  | 2 => some .performance
  | 3 => some .interval
  | 4 => some .night
  | _ => none

/-- The code of a mode. -/
def HouseMode.code : HouseMode → Nat
  | .open_ => 0
  | .prepare => 1
  | .performance => 2
  | .interval => 3
  | .night => 4

/-- The action kind of a code 0..10. -/
def kindOfCode : Nat → Option ActionKind
  | 0 => some .set
  | 1 => some .toggle
  | 2 => some .raise
  | 3 => some .lower
  | 4 => some .release
  | 5 => some .scene
  | 6 => some .mode
  | 7 => some .hold
  | 8 => some .resume
  | 9 => some .amend
  | 10 => some .restore
  | _ => none

/-- The class of a station's class code: 0 LOCAL, 1 HOUSE, 2 PROMPT. A valid map holds no other code; one reads
as LOCAL (log 15). -/
def classOfCode : Nat → Cls
  | 1 => .house
  | 2 => .prompt
  | _ => .local_

/-- The merge rule of its code: 0 LATEST, 1 HIGHEST. A valid map holds no other code; one reads as LATEST
(log 15). -/
def mergeOfCode : Nat → MergeRule
  | 1 => .highest
  | _ => .latest

/-- The trigger of its code: 0 UNUSED, 1 MOMENTARY, 2 MAINTAINED. A valid map holds no other code; one reads as
UNUSED (log 15). -/
def triggerOfCode : Nat → Trigger
  | 1 => .momentary
  | 2 => .maintained
  | _ => .unused

/-! ### Records of a bank (R168) -/

/-- The fade time of a profile, in tenths of a second (R4). -/
def Bank.profileTime (b : Bank) (p : Nat) : Nat := (b.cell (0x2000 + 2 * p)).toNat

/-- Ceiling `k` of a zone: HOUSE then LOCAL for each mode in code order. -/
def Bank.ceilingCell (b : Bank) (zone k : Nat) : Nat := (b.cell (0x2010 + 20 * zone + 2 * k)).toNat

/-- The ceiling of a zone for a class in a mode; none for the classes that have no ceiling (R5). -/
def Bank.ceiling (b : Bank) (zone : Nat) (mode : HouseMode) : Cls → Option Nat
  | .house => some (b.ceilingCell zone (2 * mode.code))
  | .local_ => some (b.ceilingCell zone (2 * mode.code + 1))
  | .prompt => none
  | .desk => none

/-- Circuit record `c` (R6). -/
def Bank.circuitRec (b : Bank) (c : Nat) : CircuitRec :=
  let w := b.cell (0x2200 + 4 * c)
  let hi := (hiByte w).toNat
  { zone := (loByte w).toNat
    mergeCode := hi % 4
    egressMember := hi.testBit 2
    profile := hi / 8
    rest := (b.cell (0x2200 + 4 * c + 2)).toNat }

/-- Station record `n` (R7). -/
def Bank.stationRec (b : Bank) (n : Nat) : StationRec :=
  let w0 := b.cell (0x2800 + 8 * n)
  let w2 := b.cell (0x2800 + 8 * n + 2)
  let bits := (loByte w0).toNat
  { enabled := bits.testBit 0
    dual := bits.testBit 1
    releaseOnLoss := bits.testBit 2
    night := bits.testBit 3
    mayMode := bits.testBit 4
    mayHold := bits.testBit 5
    mayAmend := bits.testBit 6
    mayRestore := bits.testBit 7
    classCode := (hiByte w0).toNat
    inputsUsed := (loByte w2).toNat
    silenceLimit := (hiByte w2).toNat
    inversion := b.cell (0x2800 + 8 * n + 4) }

/-- A sequence cell: bits 0-10 start, bits 11-15 count. -/
def seqOf (w : Word) : SeqRef := ⟨w.toNat % 2048, w.toNat / 2048⟩

/-- Binding record `k`, which is station × 16 + input (R10). -/
def Bank.bindingRec (b : Bank) (k : Nat) : BindingRec :=
  { triggerCode := (loByte (b.cell (0x4800 + 8 * k))).toNat
    press := seqOf (b.cell (0x4800 + 8 * k + 2))
    release := seqOf (b.cell (0x4800 + 8 * k + 4))
    long := seqOf (b.cell (0x4800 + 8 * k + 6)) }

/-- Action record `k` (R12). -/
def Bank.actionRec (b : Bank) (k : Nat) : ActionRec :=
  let w0 := b.cell (0x8000 + 8 * k)
  let w6 := b.cell (0x8000 + 8 * k + 6)
  { kindCode := (loByte w0).toNat
    targetType := (hiByte w0).toNat
    targetIndex := (b.cell (0x8000 + 8 * k + 2)).toNat
    level := (b.cell (0x8000 + 8 * k + 4)).toNat
    profile := (loByte w6).toNat
    exclusive := (hiByte w6).toNat.testBit 0
    param := (hiByte w6).toNat / 2 }

/-- Group record `g`: member start and count (R15). -/
def Bank.groupRec (b : Bank) (g : Nat) : SeqRef :=
  ⟨(b.cell (0x2C00 + 4 * g)).toNat, (b.cell (0x2C00 + 4 * g + 2)).toNat⟩

/-- Scene record `n`: item start and count (R16). -/
def Bank.sceneRec (b : Bank) (n : Nat) : SeqRef :=
  ⟨(b.cell (0x2D00 + 4 * n)).toNat, (b.cell (0x2D00 + 4 * n + 2)).toNat⟩

/-- The circuit of group member record `k`. -/
def Bank.memberCircuit (b : Bank) (k : Nat) : Nat := (b.cell (0x3000 + 2 * k)).toNat

/-- The circuit of scene item record `k`. -/
def Bank.itemCircuit (b : Bank) (k : Nat) : Nat := (b.cell (0x3800 + 4 * k)).toNat

/-- The level of scene item record `k`. -/
def Bank.itemLevel (b : Bank) (k : Nat) : Nat := (b.cell (0x3800 + 4 * k + 2)).toNat

/-- The circuits of a group, in run order (R13). -/
def Bank.groupMembers (b : Bank) (g : Nat) : List Nat :=
  (List.range (b.groupRec g).count).map (fun k => b.memberCircuit ((b.groupRec g).start + k))

/-- The items of a scene: circuit and level (R16). -/
def Bank.sceneItems (b : Bank) (n : Nat) : List (Nat × Nat) :=
  (List.range (b.sceneRec n).count).map
    (fun k => (b.itemCircuit ((b.sceneRec n).start + k), b.itemLevel ((b.sceneRec n).start + k)))

/-- The binding of a station's input. -/
def Bank.binding (b : Bank) (n : StationId) (i : InputId) : BindingRec := b.bindingRec (n.val * 16 + i.val)

/-- The station record of a station. -/
def Bank.station (b : Bank) (n : StationId) : StationRec := b.stationRec n.val

/-- The circuit record of a circuit. -/
def Bank.circuit (b : Bank) (c : CircuitId) : CircuitRec := b.circuitRec c.val

/-- The class of a station's contributions. -/
def StationRec.cls (r : StationRec) : Cls := classOfCode r.classCode

/-- The trigger of a binding. -/
def BindingRec.trigger (r : BindingRec) : Trigger := triggerOfCode r.triggerCode

/-- The binding is MAINTAINED. -/
def BindingRec.maintained (r : BindingRec) : Bool := decide (r.trigger = .maintained)

/-! ### Target sets and profiles (R13, R14) -/

/-- The fade time of a circuit's default profile. -/
def Bank.defaultTime (b : Bank) (c : CircuitId) : Nat := b.profileTime (b.circuit c).profile

/-- The fade time a profile operand gives for a circuit: 0..7 names a profile, 8 is CIRCUIT DEFAULT. -/
def Bank.operandTime (b : Bank) (profile : Nat) (c : CircuitId) : Nat :=
  if profile < 8 then b.profileTime profile else b.defaultTime c

/-- The target set of an action with target type CIRCUIT (0), GROUP (1) or ZONE (2). -/
def Bank.inTarget (b : Bank) (a : ActionRec) : CircuitId → Bool :=
  match a.targetType with
  | 0 => fun c => c.val == a.targetIndex
  | 1 => let members := b.groupMembers a.targetIndex
         fun c => members.contains c.val
  | 2 => fun c => (b.circuit c).zone == a.targetIndex
  | _ => fun _ => false

/-- The level a scene gives a circuit; none for a circuit no item names. -/
def Bank.sceneLevel (b : Bank) (n : Nat) : CircuitId → Option Nat :=
  let items := b.sceneItems n
  fun c => (items.find? (fun item => item.1 == c.val)).map (fun item => item.2)

end Sys2Proof.Machine
end

