-- ==== Sys2Proof/Machine/Flags.lean ====
section
/-! DEFINITION. The flags and indications that are computed from what the part holds: fault sets, the top cause
and ATTN#, owed frames and flip pending, SCANHOLD#, the lock test, the command status. -/

namespace Sys2Proof.Machine

/-! ### Fault sets (R75, R85) -/

/-- Every kind of either set. -/
def FaultSet.union (a b : FaultSet) : FaultSet :=
  ⟨a.contact || b.contact, a.gap || b.gap, a.line || b.line, a.qloss || b.qloss⟩

/-- How many kinds a set holds. -/
def FaultSet.size (f : FaultSet) : Nat := f.contact.toNat + f.gap.toNat + f.line.toNat + f.qloss.toNat

/-- The set of QLOSS alone. -/
def FaultSet.qlossOnly : FaultSet := ⟨false, false, false, true⟩

/-- The faults a tag set carries. -/
def TagSet.faults (t : TagSet) : FaultSet := ⟨t.contact, t.gap, t.line, false⟩

/-- The tag set carries no fault. -/
def TagSet.isEmpty (t : TagSet) : Bool := !t.contact && !t.gap && !t.line

/-! ### Causes and ATTN# (R179, R180) -/

/-- The code of the cause of highest priority among these bits: 1 to 9, or 0 for NONE. -/
def topCauseCode (bits : BitVec 9) : Nat :=
  match (List.range 9).find? (fun k => bits.getLsbD k) with
  | some k => k + 1
  | none => 0

/-- The top cause: the highest that is both pending and enabled. -/
def State.topCause (s : State) : Nat := topCauseCode (s.causes &&& s.mask)

/-- ATTN# is asserted. -/
def State.attn (s : State) : Bool := s.topCause != 0

/-- A cause is pending. -/
def State.causePending (s : State) (c : Cause) : Bool := s.causes.getLsbD c.bit

/-! ### Owed flags, flip and flip pending (R145, R148, R149) -/

/-- The circuit's owed flag for a frame. -/
def CircuitState.owes (cs : CircuitState) : Frame → Bool
  | .a => cs.owedA
  | .b => cs.owedB

/-- The circuit with its owed flag for a frame cleared. -/
def CircuitState.clearOwed (cs : CircuitState) : Frame → CircuitState
  | .a => { cs with owedA := false }
  | .b => { cs with owedB := false }

/-- At least one owed flag of the frame is set. -/
def State.frameOwes (s : State) (f : Frame) : Bool := s.circuits.cells.any (fun cs => cs.owes f)

/-- The lowest-numbered circuit that the frame owes (R146). -/
def State.lowestOwed (s : State) (f : Frame) : Option CircuitId :=
  allCircuits.find? (fun c => (s.circuit c).owes f)

/-- The back frame (R143). -/
def State.back (s : State) : Frame := s.front.other

/-- A frame clear is running (R151). -/
def State.clearRunning (s : State) : Bool := s.clear.isSome

/-- A write-back write is in flight: granted and not yet taken by SRAM (R145). -/
def State.writeBackInFlight (s : State) : Bool :=
  match s.transfer with
  | some t => decide (t.requester = .writeBack)
  | none => false

/-- The back frame is clean (R145). -/
def State.backClean (s : State) : Bool := !s.frameOwes s.back && !s.writeBackInFlight

/-- Conditions 1, 2 and 4 of R148. -/
def State.flipReady (s : State) : Bool := s.backClean && s.frameOwes s.front && !s.clearRunning

/-- Flip pending (R149). -/
def State.flipPending (s : State) : Bool := s.flipReady && s.passHigh

/-! ### Event queue: count, markers, SCANHOLD# (R86, R94) -/

/-- The entry is an input event. -/
def Entry.isInput : Entry → Bool
  | .input _ _ _ _ => true
  | .marker _ _ => false

/-- The station of an entry. -/
def Entry.station : Entry → StationId
  | .input n _ _ _ => n
  | .marker n _ => n

/-- The input-event count of a queue. -/
def inputCount (l : List Entry) : Nat := l.countP Entry.isInput

/-- The marker a queue holds for a station. -/
def markerIn (l : List Entry) (n : StationId) : Option MarkerKind :=
  match l with
  | [] => none
  | .marker m k :: rest => if m = n then some k else markerIn rest n
  | .input _ _ _ _ :: rest => markerIn rest n

/-- The queue holds a marker of the station. -/
def State.markerQueued (s : State) (n : StationId) : Bool := (markerIn s.events n).isSome

/-- SCANHOLD# after the count has changed to `count`: asserted from 56, released up to 48, else as before. -/
def scanholdAfter (count : Nat) (before : Bool) : Bool :=
  if 56 ≤ count then true else if count ≤ 48 then false else before

/-! ### House state and commands (R139, R169, R99) -/

/-- The lock test: PERFORMANCE or INTERVAL with the amend window shut (R139). -/
def State.locked (s : State) : Bool :=
  (decide (s.mode = .performance) || decide (s.mode = .interval)) && s.amend.isNone

/-- A command is RUNNING (R169). -/
def CommandStatus.running : CommandStatus → Bool
  | .commitRunning _ => true
  | .restartRunning => true
  | .idle => false
  | .done _ => false
  | .refused _ _ _ => false

/-- The swap-pending indication of the Action Unit (R99): the running COMMIT has requested its swap. -/
def State.swapPending (s : State) : Bool := decide (s.status = .commitRunning .swapPending)

/-- RDY is low: the held access waits, its transfer runs, or RST# is asserted (R157, R162). -/
def State.rdyLow (s : State) : Bool :=
  s.rst || !decide (s.port = .idle) ||
    match s.transfer with
    | some t => decide (t.requester = .upstream)
    | none => false

end Sys2Proof.Machine
end

