-- ==== Sys2Proof/Machine/Merge.lean ====
section
/-! DEFINITION. The effective level of a circuit and the Merge Unit's recompute (R41 to R45). -/

namespace Sys2Proof.Machine

/-- The contributions of the winning class: the highest-ranked class present in the list (R41, step 3). -/
def winners (l : List Contribution) : List Contribution :=
  let of := fun k => l.filter (fun x => decide (x.cls = k))
  if !(of .prompt).isEmpty then of .prompt
  else if !(of .desk).isEmpty then of .desk
  else if !(of .house).isEmpty then of .house
  else of .local_

/-- The greatest current level of a list. -/
def highestLevel (l : List Contribution) : Nat := l.foldr (fun x m => max x.current m) 0

/-- The merged level of the winning class by its merge rule (R42). -/
def mergedLevel (rule : MergeRule) (l : List Contribution) : Nat :=
  match rule with
  | .latest => match l with
    | [] => 0
    | x :: _ => x.current
  | .highest => highestLevel l

/-- A merged level under the ceiling of its class, where the class has one (R41, step 4). -/
def capTo (ceiling : Option Nat) (level : Nat) : Nat :=
  match ceiling with
  | some m => min level m
  | none => level

/-- Steps 2 to 4 of R41: the level a list gives a circuit, its egress slot ignored (R43). -/
def listLevel (b : Bank) (mode : HouseMode) (c : CircuitId) (l : List Contribution) : Nat :=
  match winners l with
  | [] => (b.circuit c).rest
  | x :: xs =>
    capTo (b.ceiling (b.circuit c).zone mode x.cls)
      (mergedLevel (mergeOfCode (b.circuit c).mergeCode) (x :: xs))

/-- The effective level of a circuit (R41). -/
def effectiveLevel (b : Bank) (mode : HouseMode) (c : CircuitId) (cs : CircuitState) : Nat :=
  match cs.slot with
  | .active => Config.fullLevel
  | .leaving level _ => level
  | .empty => listLevel b mode c cs.list

/-- The Merge Unit stores a recomputed level and marks both owed flags when it differs (R45). -/
def CircuitState.store (cs : CircuitState) (level : Nat) : CircuitState :=
  if level = cs.level then cs else { cs with level := level, owedA := true, owedB := true }

/-- The recompute of one circuit (R44). -/
def recompute (b : Bank) (mode : HouseMode) (c : CircuitId) (cs : CircuitState) : CircuitState :=
  cs.store (effectiveLevel b mode c cs)

/-- The recompute of every circuit, as at a swap and at a change of mode (R44). -/
def State.recomputeAll (s : State) : State := s.mapCircuits (recompute s.active s.mode)

/-- A claim that gives each circuit `c` with `touch c` the list `f c` of its record, and recomputes it; the other
circuits are left as they are. -/
def State.updateLists (s : State) (touch : CircuitId → CircuitState → Bool)
    (f : CircuitId → CircuitState → List Contribution) : State :=
  s.mapCircuits (fun c cs =>
    if touch c cs then recompute s.active s.mode c { cs with list := f c cs } else cs)

/-- A claim that gives each circuit `c` with `touch c` the egress slot `f c`, and recomputes it. -/
def State.updateSlots (s : State) (touch : CircuitId → CircuitState → Bool)
    (f : CircuitId → CircuitState → Slot) : State :=
  s.mapCircuits (fun c cs =>
    if touch c cs then recompute s.active s.mode c { cs with slot := f c cs } else cs)

end Sys2Proof.Machine
end

