-- ==== Sys2Proof/Machine/Store.lean ====
section
/-! DEFINITION. The Contribution Store: what each kind of claim does to a circuit's list (R26 to R33), and the
claims on the egress slots (R38 to R40). -/

namespace Sys2Proof.Machine

/-- Rank of a class, highest first (R26). -/
def Cls.rank : Cls → Nat
  | .prompt => 0
  | .desk => 1
  | .house => 2
  | .local_ => 3

/-- The contribution belongs to an owner. -/
def Contribution.ownedBy (x : Contribution) (o : Owner) : Bool := decide (x.owner = o)

/-- The owner's contribution in a list (R27: at most one). -/
def ownContribution (l : List Contribution) (o : Owner) : Option Contribution :=
  l.find? (fun x => x.ownedBy o)

/-- The owner holds a contribution in a list. -/
def holds (l : List Contribution) (o : Owner) : Bool := l.any (fun x => x.ownedBy o)

/-- A list with a contribution placed at the front of its class segment (R26). -/
def insertFront (x : Contribution) : List Contribution → List Contribution
  | [] => [x]
  | y :: ys => if y.cls.rank < x.cls.rank then y :: insertFront x ys else x :: y :: ys

/-- A list without the contributions that satisfy `p`; the others keep their order (R33). -/
def removeWhere (p : Contribution → Bool) (l : List Contribution) : List Contribution :=
  l.filter (fun x => !p x)

/-! ### Movements (R29, R30, R31, R53) -/

/-- ceiling(a / b). -/
def ceilDiv (a b : Nat) : Nat := (a + b - 1) / b

/-- The distance between two levels. -/
def distance (a b : Nat) : Nat := (a - b) + (b - a)

/-- Steps of a ramp over a distance at a fade time: ceiling(4 × t × d / 1000), at least 1 (R4, R53). -/
def rampSteps (time d : Nat) : Nat := max 1 (ceilDiv (4 * time * d) 1000)

/-- Leaving rate of a fade time above 0: ceiling(1000 / (4 × t)) (R31). -/
def leavingRate (time : Nat) : Nat := ceilDiv 1000 (4 * time)

/-- A snap at fade time 0, otherwise a fade (R112). -/
def askLevel (level time : Nat) : Ask := if time = 0 then .snap level else .fade level time

/-- A contribution set on the movement that is asked for, from a level (R29, R30). -/
def Contribution.begin (x : Contribution) (start : Nat) : Ask → Contribution
  | .snap level => { x with current := level, target := level, movement := .steady }
  | .fade level time =>
    { x with current := start, target := level, movement := .fading start (4 * time) 0 }
  | .ramp target time heldBy =>
    if start = target then { x with current := start, target := target, movement := .steady }
    else { x with current := start, target := target,
                  movement := .ramp start (rampSteps time (distance start target)) 0 heldBy }

/-- The new record of a create, from the circuit's stored effective level (R29). -/
def createdFrom (o : Owner) (k : Cls) (level : Nat) (ask : Ask) : Contribution :=
  (Contribution.mk o k level level .steady).begin level ask

/-- The record of a renewal, from its own current level (R30). -/
def Contribution.renewed (x : Contribution) (ask : Ask) : Contribution := x.begin x.current ask

/-- Create or renew the owner's contribution on a circuit: a renewal when one is there, and in both cases the
record stands at the front of its captured class segment (R26, R29, R30). -/
def createOrRenew (o : Owner) (k : Cls) (ask : Ask) (cs : CircuitState) : List Contribution :=
  match ownContribution cs.list o with
  | some x => insertFront (x.renewed ask) (removeWhere (fun y => y.ownedBy o) cs.list)
  | none => insertFront (createdFrom o k cs.level ask) cs.list

/-- The leave of the contributions that satisfy `p` with a fade time: at fade time 0 they are removed at once,
otherwise they enter LEAVING in their places (R31). -/
def leaveWhere (p : Contribution → Bool) (time : Nat) (l : List Contribution) : List Contribution :=
  if time = 0 then removeWhere p l
  else l.map (fun x => if p x then { x with movement := .leaving (leavingRate time) } else x)

/-- A contribution is in state RAMP. -/
def Contribution.ramping (x : Contribution) : Bool :=
  match x.movement with
  | .ramp _ _ _ _ => true
  | .steady => false
  | .fading _ _ _ => false
  | .leaving _ => false

/-- A contribution is in state RAMP, held by an input. -/
def Contribution.heldBy (x : Contribution) (i : InputId) : Bool :=
  match x.movement with
  | .ramp _ _ _ j => decide (j = i)
  | .steady => false
  | .fading _ _ _ => false
  | .leaving _ => false

/-- A contribution is in state LEAVING. -/
def Contribution.isLeaving (x : Contribution) : Bool :=
  match x.movement with
  | .leaving _ => true
  | .steady => false
  | .fading _ _ _ => false
  | .ramp _ _ _ _ => false

/-- End of ramp: a RAMP contribution stands STEADY where it is; another is unchanged (R32). -/
def Contribution.endRamp (x : Contribution) : Contribution :=
  if x.ramping then { x with target := x.current, movement := .steady } else x

/-- The end-of-ramp claim on the contributions that satisfy `p`. -/
def endRampsWhere (p : Contribution → Bool) (l : List Contribution) : List Contribution :=
  l.map (fun x => if p x then x.endRamp else x)

/-- End of every ramp among the contributions that satisfy `p`, on every circuit (R32). -/
def State.endRamps (s : State) (p : Contribution → Bool) : State :=
  s.updateLists (fun _ cs => cs.list.any (fun x => p x && x.ramping)) (fun _ cs => endRampsWhere p cs.list)

/-- The contributions that satisfy `p` leave, on every circuit, with the circuit's default profile (R31). -/
def State.leaveByDefault (s : State) (p : Contribution → Bool) : State :=
  s.updateLists (fun _ cs => cs.list.any p) (fun c cs => leaveWhere p (s.active.defaultTime c) cs.list)

/-! ### Claims on the egress slots -/

/-- A slot that begins to leave from 1000 at a fade time; EMPTY at once at fade time 0 (R39). -/
def slotLeaving (time : Nat) : Slot :=
  if time = 0 then .empty else .leaving Config.fullLevel (leavingRate time)

/-- The latch claim (R38): every member of the active map becomes ACTIVE. -/
def State.latchSlots (s : State) : State :=
  s.updateSlots (fun c _ => (s.active.circuit c).egressMember) (fun _ _ => .active)

/-- The restore claim (R39): every ACTIVE slot leaves. -/
def State.restoreSlots (s : State) : State :=
  s.updateSlots (fun _ cs => decide (cs.slot = .active)) (fun c _ => slotLeaving (s.active.defaultTime c))

/-- One slot at a reconciliation (R40). -/
def reconcileSlot (member : Bool) (time : Nat) (slot : Slot) : Slot :=
  if member then .active
  else match slot with
    | .active => slotLeaving time
    | .leaving level rate => .leaving level rate
    | .empty => .empty

end Sys2Proof.Machine
end

