-- ==== Sys2Proof/Machine/Fade.lean ====
section
/-! DEFINITION. The Fade Engine: the 25 ms step in its three stages (R48 to R58), and the fade hold (R61). -/

namespace Sys2Proof.Machine

/-- The level after step `k` of `n` from `start` to `target`, truncated toward `start` (R50). -/
def fadeLevel (start target k n : Nat) : Nat :=
  if start ≤ target then start + (target - start) * k / n else start - (start - target) * k / n

/-- Stage 1 for one contribution: a FADING or RAMP contribution advances by one step and becomes STEADY on its
last (R50, R53). -/
def Contribution.advance (x : Contribution) : Contribution :=
  match x.movement with
  | .fading start steps index =>
    if index + 1 < steps then
      { x with current := fadeLevel start x.target (index + 1) steps,
               movement := .fading start steps (index + 1) }
    else { x with current := x.target, movement := .steady }
  | .ramp start steps index heldBy =>
    if index + 1 < steps then
      { x with current := fadeLevel start x.target (index + 1) steps,
               movement := .ramp start steps (index + 1) heldBy }
    else { x with current := x.target, movement := .steady }
  | .steady => x
  | .leaving _ => x

/-- A level moved toward another by exactly `rate`. -/
def moveToward (level target rate : Nat) : Nat := if level < target then level + rate else level - rate

/-- Stage 2 on a list (R56): `done` holds what this step has already handled, front first; each LEAVING
contribution is judged against the list without it, and removed when it has arrived. -/
def leavingStage (b : Bank) (mode : HouseMode) (c : CircuitId) (done : List Contribution) :
    List Contribution → List Contribution
  | [] => done
  | x :: rest =>
    match x.movement with
    | .leaving rate =>
      let target := listLevel b mode c (done ++ rest)
      if distance x.current target ≤ rate then leavingStage b mode c done rest
      else leavingStage b mode c (done ++ [{ x with current := moveToward x.current target rate }]) rest
    | .steady => leavingStage b mode c (done ++ [x]) rest
    | .fading _ _ _ => leavingStage b mode c (done ++ [x]) rest
    | .ramp _ _ _ _ => leavingStage b mode c (done ++ [x]) rest

/-- Stages 1 and 2 on a list, which the fade hold skips (R49, R62). -/
def stepList (b : Bank) (mode : HouseMode) (hold : Bool) (c : CircuitId) (l : List Contribution) :
    List Contribution :=
  if hold then l else leavingStage b mode c [] (l.map Contribution.advance)

/-- Stage 3 on a slot, given the list level (R58). -/
def stepSlot (listed : Nat) : Slot → Slot
  | .leaving level rate =>
    if distance level listed ≤ rate then .empty else .leaving (moveToward level listed rate) rate
  | .active => .active
  | .empty => .empty

/-- The step has left the contributions' levels and the slot of a circuit as they were: a contribution that goes is a
level that goes. -/
def sameLevels (before after : CircuitState) : Bool :=
  decide (after.list.map (fun x => x.current) = before.list.map (fun x => x.current)) &&
    decide (after.slot = before.slot)

/-- One step of one circuit, with the recompute that ends it where the step changed the circuit's list, its list levels
or its slot (R49, R44). -/
def stepCircuit (b : Bank) (mode : HouseMode) (hold : Bool) (c : CircuitId) (cs : CircuitState) : CircuitState :=
  let l := stepList b mode hold c cs.list
  let moved := { cs with list := l, slot := stepSlot (listLevel b mode c l) cs.slot }
  if sameLevels cs moved then moved else recompute b mode c moved

/-- The step claim covers every circuit, and the timer starts its next period (R48, R49). -/
def State.fadeStep (s : State) : State :=
  { s.mapCircuits (stepCircuit s.active s.mode s.hold) with stepElapsed := 0 }

/-- STEP (R49). -/
def execStep (s : State) : Host.Outcome State Fault Refusal := .next s.fadeStep

end Sys2Proof.Machine
end

