-- ==== Sys2Proof/Machine/Queue.lean ====
section
/-! DEFINITION. Recording of faults and SUSPECT (R75), and the Event Queue: joins, losses, offers and markers
(R86 to R91). -/

namespace Sys2Proof.Machine

/-! ### Faults and SUSPECT -/

/-- A long-press timer in TIMING stops and the phase becomes IDLE; LONG-GIVEN stays (R73). -/
def InputState.stopTimer (i : InputState) : InputState :=
  match i.phase with
  | .timing _ => { i with phase := .idle }
  | .idle => i
  | .given => i

/-- Every long-press timer of a station stops. -/
def StationState.stopTimers (st : StationState) : StationState :=
  { st with inputs := st.inputs.mapIdx (fun _ i => i.stopTimer) }

/-- SUSPECT is set on a station: its long-press timers stop and its ramps end (R75). -/
def State.setSuspect (s : State) (n : StationId) : State :=
  (s.modStation n (fun st => { st.stopTimers with suspect := true })).endRamps
    (fun x => x.ownedBy (.station n))

/-- One recording of a set of fault kinds on a station (R75); an empty set records nothing. -/
def State.recordFaults (s : State) (n : StationId) (f : FaultSet) : State :=
  if f.size = 0 then s
  else
    let s1 := (s.modStation n (fun st => { st with faults := st.faults.union f })).raiseCause .fault
    if 2 ≤ (s1.station n).faults.size && !(s1.station n).suspect then s1.setSuspect n else s1

/-! ### Offers -/

/-- An input event joins at the tail and SCANHOLD# follows the count (R88, R94). -/
def State.joinInput (s : State) (e : Entry) : State :=
  { s with events := s.events ++ [e], scanhold := scanholdAfter (inputCount (s.events ++ [e])) s.scanhold }

/-- A marker joins at the tail, whatever the count (R90). -/
def State.joinMarker (s : State) (n : StationId) (k : MarkerKind) : State :=
  { s with events := s.events ++ [.marker n k] }

/-- The input events of an offer are placed in order while fewer than 64 are queued; the others are lost. -/
def State.placeInputs (s : State) : List Entry → State × List Entry
  | [] => (s, [])
  | e :: rest =>
    if inputCount s.events < Config.eventCapacity then (s.joinInput e).placeInputs rest
    else ((s.placeInputs rest).1, e :: (s.placeInputs rest).2)

/-- What the queue does for a lost event: QLOSS on its station, cause QUEUE, the counter (R88). -/
def State.loseInput (s : State) (e : Entry) : State :=
  ((s.recordFaults e.station FaultSet.qlossOnly).raiseCause .queue).count .queueLosses

/-- An offer of input events: all are placed, and then the lost ones are handled (R88, R89). -/
def State.offerInputs (s : State) (offer : List Entry) : State :=
  (s.placeInputs offer).2.foldl State.loseInput (s.placeInputs offer).1

/-- A RETURNED marker of the station is changed into LOST where it stands (R90). -/
def convertMarker (n : StationId) (e : Entry) : Entry :=
  if e = .marker n .returned then .marker n .lost else e

/-- A LOST marker is offered when a station's silence timer expires (R90). -/
def State.offerLost (s : State) (n : StationId) : State :=
  match markerIn s.events n with
  | none => s.joinMarker n .lost
  | some .returned => { s with events := s.events.map (convertMarker n) }
  | some .lost => s

/-- A return removes the station's LOST marker from wherever it stands, or makes a RETURNED marker when the
queue holds no marker of the station (R91). -/
def State.offerReturn (s : State) (n : StationId) : State :=
  match markerIn s.events n with
  | none => s.joinMarker n .returned
  | some .returned => s
  | some .lost => { s with events := s.events.filter (fun e => !decide (e = .marker n .lost)) }

/-- An input event with no tags. -/
def plainInput (n : StationId) (i : InputId) (k : EventKind) : Entry := .input n i k TagSet.none

end Sys2Proof.Machine
end

