-- ==== Sys2Proof/Machine/Monitor.lean ====
section
/-! DEFINITION. The Station Monitor: the cell copy, evaluating writes, baseline and re-assertion, and its
timers (chapter 4). -/

namespace Sys2Proof.Machine

/-- The inputs below a station's inputs used, ascending (R68). -/
def StationRec.used (r : StationRec) : List InputId := allInputs.filter (fun i => decide (i.val < r.inputsUsed))

/-- A DUAL station's input has a CONTACT fault: its two raw bits are equal (R69). -/
def contactFault (r : StationRec) (copy : CellCopy) (i : InputId) : Bool :=
  r.dual && (copy.inputs.getLsbD i.val == copy.complements.getLsbD i.val)

/-- The present state of an input after inversion; an input at fault keeps its old one (R68, R69). -/
def presentState (r : StationRec) (copy : CellCopy) (i : InputId) (old : Bool) : Bool :=
  if contactFault r copy i then old else xor (copy.inputs.getLsbD i.val) (r.inversion.getLsbD i.val)

/-- The fault set of an evaluating write (R69 to R71): `reference` is the sequence byte the copy held before. -/
def faultsFound (r : StationRec) (copy : CellCopy) (reference : Byte) (baseline : Bool) : TagSet :=
  { contact := r.used.any (contactFault r copy)
    gap := !baseline && !decide (copy.sequence = reference) && !decide (copy.sequence = reference + 1)
    line := copy.status.getLsbD 7 }

/-- What an opening makes of an input with a long sequence, by its long phase (R72). -/
def openingEvent : LongPhase → Option EventKind
  | .timing _ => some .tap
  | .given => some .longEnd
  | .idle => none

/-- One input at an ordinary evaluating write: its new record and the event it makes (R72). -/
def changeInput (b : BindingRec) (suspect : Bool) (i : InputState) (closed : Bool) : InputState × Option EventKind :=
  if i.closed = closed then (i, none)
  else if suspect then ({ i with closed := closed, phase := .idle }, none)
  else match b.trigger with
    | .unused => ({ i with closed := closed, phase := .idle }, none)
    | .maintained => ({ i with closed := closed, phase := .idle }, some (if closed then .on else .off))
    | .momentary =>
      if b.long.count = 0 then
        ({ i with closed := closed, phase := .idle }, some (if closed then .press else .release))
      else if closed then ({ i with closed := closed, phase := .timing Config.longPressMs }, none)
      else ({ i with closed := closed, phase := .idle }, openingEvent i.phase)

/-- Input `i` of a station at an ordinary evaluating write; inputs at or above inputs used keep their records. -/
def evaluateInput (b : Bank) (n : StationId) (st : StationState) (i : InputId) : InputState × Option EventKind :=
  let r := b.station n
  if i.val < r.inputsUsed then
    changeInput (b.binding n i) st.suspect (st.inputs.get i) (presentState r st.copy i (st.inputs.get i).closed)
  else (st.inputs.get i, none)

/-- Input `i` of a station at a baseline: its present state is recorded and its phase becomes IDLE (R77). -/
def baselineInput (r : StationRec) (st : StationState) (i : InputId) : InputState :=
  let old := st.inputs.get i
  { old with
    closed := if i.val < r.inputsUsed then presentState r st.copy i old.closed else old.closed
    phase := .idle }

/-- The input events of an ordinary evaluating write, ascending (R72). -/
def changeEvents (b : Bank) (n : StationId) (st : StationState) : List Entry :=
  (b.station n).used.filterMap (fun i => (evaluateInput b n st i).2.map (plainInput n i))

/-- Re-assertion events of a station (R78), against the acted states `acted`. -/
def reassertEvents (b : Bank) (n : StationId) (st : StationState) (acted : InputId → Bool) : List Entry :=
  if st.suspect then []
  else (b.station n).used.filterMap (fun i =>
    if (b.binding n i).maintained && (st.inputs.get i).closed != acted i then
      some (plainInput n i (if (st.inputs.get i).closed then .on else .off))
    else none)

/-- The acted states as they stand. -/
def StationState.actedOf (st : StationState) (i : InputId) : Bool := (st.inputs.get i).acted

/-- A LOST marker of the station has been taken from the queue and is not yet executed (R92, R103). -/
def State.executingLost (s : State) (n : StationId) : Bool :=
  match s.current with
  | some f => decide (f.entry = .marker n .lost)
  | none => false

/-- The acted states a returning station's re-assertion compares with (R78, R103): while its LOST marker is
being executed, those the marker is to leave. -/
def State.returningActed (s : State) (n : StationId) (i : InputId) : Bool :=
  if s.executingLost n && (s.active.station n).releaseOnLoss && (s.active.binding n i).maintained then false
  else (s.station n).actedOf i

/-- The tag set is put on the first event of an offer (R74). -/
def tagFirst (t : TagSet) : List Entry → List Entry
  | [] => []
  | .input n i k _ :: rest => .input n i k t :: rest
  | .marker n k :: rest => .marker n k :: rest

/-- The write's events are offered and its faults handled: on the first event that joins, or at once when none
does (R74, R89). -/
def State.offerWrite (s : State) (n : StationId) (found : TagSet) (evs : List Entry) : State :=
  if !evs.isEmpty && decide (inputCount s.events < Config.eventCapacity) then s.offerInputs (tagFirst found evs)
  else (s.recordFaults n found.faults).offerInputs evs

/-- Step 7 of R67: the silence timer restarts from zero if the limit is above 0. -/
def State.restartSilence (s : State) (n : StationId) : State :=
  s.modStation n (fun st =>
    { st with silence := if (s.active.station n).silenceLimit = 0 then none else some 0 })

/-- Step 1 of R67: a LOST station returns (R81). -/
def State.returnStation (s : State) (n : StationId) : State :=
  (s.modStation n (fun st => { st with lost := false, baselineRequired := true })).offerReturn n

/-- An ordinary evaluating write, steps 2 to 6 of R67. -/
def State.ordinaryWrite (s : State) (n : StationId) (reference : Byte) : State :=
  let st := s.station n
  let found := faultsFound (s.active.station n) st.copy reference false
  let s1 := s.modStation n (fun st => { st with inputs := st.inputs.mapIdx (fun i _ => (evaluateInput s.active n st i).1) })
  s1.offerWrite n found (changeEvents s.active n st)

/-- A baseline, steps 2 to 6 of R67 (R77); `returning` says whether the write returned the station. -/
def State.baselineWrite (s : State) (n : StationId) (reference : Byte) (returning : Bool) : State :=
  let r := s.active.station n
  let found := faultsFound r (s.station n).copy reference true
  let s1 := s.modStation n (fun st =>
    { st with inputs := st.inputs.mapIdx (fun i _ => baselineInput r st i), baselineRequired := false })
  let acted := if returning then s1.returningActed n else (s1.station n).actedOf
  s1.offerWrite n found (reassertEvents s.active n (s1.station n) acted)

/-- An evaluating write of an enabled station, the copy already updated (R67). -/
def State.evaluate (s : State) (n : StationId) (reference : Byte) : State :=
  let returning := (s.station n).lost
  let s1 := if returning then s.returnStation n else s
  let s2 := if (s1.station n).baselineRequired then s1.baselineWrite n reference returning
            else s1.ordinaryWrite n reference
  s2.restartSilence n

/-- The copy after a write to the cell at byte `k` (0, 2, 4 or 6) of the station's eight (R65, R166). -/
def CellCopy.write (copy : CellCopy) (k : Nat) (lanes : Lanes) (data : Word) : CellCopy :=
  match k with
  | 0 => { copy with inputs := mergeLanes lanes copy.inputs data }
  | 2 => { copy with complements := mergeLanes lanes copy.complements data }
  | 4 => { copy with sequence := if lanes.lo then loByte data else copy.sequence,
                     status := if lanes.hi then hiByte data else copy.status }
  | _ => copy

/-- The part's work on a granted station write (R65): the copy of an enabled station is updated, and the cell is
evaluated when the write covers byte +4. -/
def State.monitorWrite (s : State) (n : StationId) (k : Nat) (lanes : Lanes) (data : Word) : State :=
  if (s.active.station n).enabled then
    let s1 := s.modStation n (fun st => { st with copy := st.copy.write k lanes data })
    if k == 4 && lanes.lo then s1.evaluate n (s.station n).copy.sequence else s1
  else s

/-! ### The two timers of a station -/

/-- The long-press timer of an input has run out (R73). -/
def InputState.due (i : InputState) : Bool := decide (i.phase = .timing 0)

/-- The silence timer of a station has reached its limit (R80). -/
def StationState.silenceDue (st : StationState) (limit : Nat) : Bool :=
  match st.silence with
  | some ms => limit ≠ 0 && limit * Config.silenceUnitMs ≤ ms
  | none => false

/-- LONG_PRESS_EXPIRES (R73): the timer has run out and RST# does not pause it, so the phase becomes LONG-GIVEN and a
LONG is offered. A timer with time left does not expire (log 7). -/
def execLongPressExpires (n : StationId) (i : InputId) (s : State) : Host.Outcome State Fault Refusal :=
  if ((s.station n).inputs.get i).due && !s.rst then
    .next ((s.modStation n (fun st =>
      { st with inputs := st.inputs.set i { st.inputs.get i with phase := .given } })).offerInputs
        [plainInput n i .long])
  else .next s

/-- SILENCE_EXPIRES (R80): the timer has reached its limit and RST# does not pause it, so the station becomes LOST. A
timer with time left does not expire (log 7). -/
def execSilenceExpires (n : StationId) (s : State) : Host.Outcome State Fault Refusal :=
  if (s.station n).silenceDue (s.active.station n).silenceLimit && !s.rst then
    .next ((s.modStation n (fun st =>
      { st.stopTimers with lost := true, silence := none, baselineRequired := true })).offerLost n)
  else .next s

end Sys2Proof.Machine
end

