-- ==== Sys2Proof/Machine/House.lean ====
section
/-! DEFINITION. The House State Unit: mode changes (R127 to R131), the egress state (R132 to R136), the amend
window (R137, R138) and the fade hold's requests, with the commands that are events at the unit. -/

namespace Sys2Proof.Machine

/-! ### The mode -/

/-- Legal transitions (R127). -/
def legalTransition : HouseMode → HouseMode → Bool
  | .open_, .prepare => true
  | .open_, .night => true
  | .prepare, .performance => true
  | .prepare, .open_ => true
  | .performance, .interval => true
  | .performance, .open_ => true
  | .interval, .performance => true
  | .interval, .open_ => true
  | .night, .open_ => true
  | _, _ => false

/-- The owner is a station with the night flag in a map (R129). -/
def nightServed (b : Bank) : Owner → Bool
  | .station n => (b.station n).night
  | .desk _ => false

/-- The claim of entry into NIGHT (R129, step 1), taken in the mode that is left: every ramp ends, and every
contribution of an owner not served at night leaves with its circuit's default profile. -/
def State.nightClaim (s : State) : State :=
  s.updateLists (fun _ cs => cs.list.any (fun x => x.ramping || !nightServed s.active x.owner))
    (fun c cs => leaveWhere (fun x => !nightServed s.active x.owner) (s.active.defaultTime c)
      (endRampsWhere (fun _ => true) cs.list))

/-- Entry into NIGHT (R129): its claim, then the hold is cleared and the amend window closes. -/
def State.enterNight (s : State) : State := { s.nightClaim with hold := false, amend := none }

/-- A station that entry into OPEN or the lift of quarantine may re-assert: enabled, not LOST, not requiring a
baseline (R76, R130). -/
def State.mayReassert (s : State) (n : StationId) : Bool :=
  (s.active.station n).enabled && !(s.station n).lost && !(s.station n).baselineRequired

/-- The re-assertion events of a station against its acted states as they stand (R78). -/
def State.reassertion (s : State) (n : StationId) : List Entry :=
  reassertEvents s.active n (s.station n) (s.station n).actedOf

/-- The offer of entry into OPEN from NIGHT: every station it covers, ascending (R87, R130). -/
def State.openingOffer (s : State) : List Entry :=
  allStations.flatMap (fun n => if s.mayReassert n then s.reassertion n else [])

/-- Entry into OPEN (R130): the hold is cleared, the amend window closes, and from NIGHT the stations are
re-asserted. -/
def State.enterOpen (s : State) : State :=
  let s1 := { s with hold := false, amend := none }
  if s.mode = .night then s1.offerInputs s1.openingOffer else s1

/-- The effects of entering a mode that R129 to R131 give besides those of R128. -/
def State.enterEffects (s : State) : HouseMode → State
  | .night => s.enterNight
  | .open_ => s.enterOpen
  | .prepare => s
  | .performance => s
  | .interval => s

/-- An accepted change of mode (R128): the effects of entering it, the new mode, the recompute of every circuit,
and cause MODE. -/
def State.changeMode (s : State) (m : HouseMode) : State :=
  ({ s.enterEffects m with mode := m }).recomputeAll.raiseCause .mode

/-- A request for a mode (R127): the present mode changes nothing, a legal transition is made, any other is
refused ILLEGAL TRANSITION. -/
def State.requestMode (s : State) (m : HouseMode) : Except Reason State :=
  if m = s.mode then .ok s
  else if legalTransition s.mode m then .ok (s.changeMode m)
  else .error .illegalTransition

/-! ### The amend window -/

/-- A request to open the amend window (R137). -/
def State.requestAmend (s : State) : Except Reason State :=
  if s.mode = .performance || s.mode = .interval then .ok { s with amend := some Config.amendMs }
  else .error .notInShow

/-- AMEND_WINDOW_EXPIRES (R138): the open window has no time left and shuts. A window with time left, as one that an
AMEND has just restarted, does not expire (R120, log 7). -/
def execAmendWindowExpires (s : State) : Host.Outcome State Fault Refusal :=
  if s.amend = some 0 then .next { s with amend := none } else .next s

/-! ### The egress state -/

/-- EGR# sampled at POWER and at RESTART (R141). -/
def sampledEgress (line : Bool) : EgressState := if line then .pending 0 else .clear

/-- A request to restore the egress state (R134). -/
def State.requestRestore (s : State) : Except Reason State :=
  match s.egress with
  | .latchedCleared => .ok (({ s with egress := .clear }).raiseCause .egress).restoreSlots
  | .latchedActive => .error .lineActive
  | .pending _ => .error .lineActive
  | .clear => .error .notLatched

/-- EGR_ASSERTED (R132). -/
def execEgrAsserted (s : State) : Host.Outcome State Fault Refusal :=
  let s1 := { s with egrLine := true }
  match s.egress with
  | .clear => .next { s1 with egress := .pending 0 }
  | .latchedCleared => .next (({ s1 with egress := .latchedActive }).raiseCause .egress)
  | .pending _ => .next s1
  | .latchedActive => .next s1

/-- EGR_RELEASED (R132). -/
def execEgrReleased (s : State) : Host.Outcome State Fault Refusal :=
  let s1 := { s with egrLine := false }
  match s.egress with
  | .pending _ => .next { s1 with egress := .clear }
  | .latchedActive => .next (({ s1 with egress := .latchedCleared }).raiseCause .egress)
  | .clear => .next s1
  | .latchedCleared => .next s1

/-- The debounce has run its 40 ms (R132). -/
def EgressState.debounceDue : EgressState → Bool
  | .pending ms => Config.debounceMs ≤ ms
  | .clear => false
  | .latchedActive => false
  | .latchedCleared => false

/-- DEBOUNCE_EXPIRES (R133): in PENDING, the 40 ms having run, the latch is taken. A debounce with time left does not
expire (log 7). -/
def execDebounceExpires (s : State) : Host.Outcome State Fault Refusal :=
  if s.egress.debounceDue then .next (({ s with egress := .latchedActive }).raiseCause .egress).latchSlots
  else .next s

end Sys2Proof.Machine
end

