-- ==== Sys2Proof/Machine/Actions.lean ====
section
/-! DEFINITION. The Action Unit: taking an entry claim by claim (R99 to R108), the two markers (R103, R104), and the
claim of each kind of action (R109 to R123). -/

namespace Sys2Proof.Machine

/-! ### Taking an entry -/

/-- The sequence an event kind selects (R105). -/
def BindingRec.sequence (b : BindingRec) : EventKind → SeqRef
  | .press => b.press
  | .tap => b.press
  | .on => b.press
  | .long => b.long
  | .release => b.release
  | .longEnd => b.release
  | .off => b.release

/-- The kinds that end the ramps held by their input (R105). -/
def EventKind.endsHold : EventKind → Bool
  | .release => true
  | .longEnd => true
  | .off => true
  | .press => false
  | .tap => false
  | .on => false
  | .long => false

/-- The acted state an executed kind leaves (R107); none for the kinds that leave it as it was. -/
def EventKind.actedAfter : EventKind → Option Bool
  | .on => some true
  | .off => some false
  | .press => none
  | .release => none
  | .tap => none
  | .long => none
  | .longEnd => none

/-- The acted state of one input set. -/
def StationState.setActed (st : StationState) (i : InputId) (v : Bool) : StationState :=
  { st with inputs := st.inputs.set i { st.inputs.get i with acted := v } }

/-- The entry in flight for an input event: its sequence, or none when it runs no action (R11, R105). -/
def sequenceInFlight (b : Bank) (n : StationId) (i : InputId) (k : EventKind) (t : TagSet) : Option InFlight :=
  let binding := b.binding n i
  let run := binding.sequence k
  if binding.trigger = .unused || (b.station n).inputsUsed ≤ i.val || run.count = 0 then none
  else some ⟨.input n i k t, .running run.start run.count⟩

/-- The entry stands at a stage. -/
def State.holdAt (s : State) (e : Entry) (stage : Stage) : State := { s with current := some ⟨e, stage⟩ }

/-- The entry is finished: dropped, executed, or its sequence run (R99, R102). -/
def State.finishEntry (s : State) : State := { s with current := none }

/-- The head leaves the queue and is held; for an input event SCANHOLD# follows the count (R92, R94). -/
def State.popEntry (s : State) (e : Entry) (rest : List Entry) : State :=
  { s with events := rest,
           scanhold := if e.isInput then scanholdAfter (inputCount rest) s.scanhold else s.scanhold,
           current := some ⟨e, .taken⟩ }

/-- Step 1 of R100: a tag set is recorded. -/
def State.recordTags (s : State) : Entry → State
  | .input n _ _ t => s.recordFaults n t.faults
  | .marker _ _ => s

/-- Step 2 of R100: an entry of a SUSPECT station is a quarantine drop (R102). -/
def State.testSuspect (s : State) (e : Entry) : State :=
  if (s.station e.station).suspect then (s.count .quarantineDrops).finishEntry else s.holdAt e .trusted

/-- Steps 3 and 4 of R100, which no swap divides: the silent drop and the night drop (R102). -/
def State.testMapAndMode (s : State) (e : Entry) : State :=
  let n := e.station
  if !(s.active.station n).enabled then s.finishEntry
  else if s.mode = .night && !(s.active.station n).night then (s.count .nightDrops).finishEntry
  else s.holdAt e .passed

/-- Step 1 of R105: the kinds that end a hold end the ramps held by their input (R106). -/
def State.endHeldRamps (s : State) (n : StationId) (i : InputId) (k : EventKind) : State :=
  if k.endsHold then s.endRamps (fun x => x.ownedBy (.station n) && x.heldBy i) else s

/-- Steps 2 and 3 of R105: the input's acted state is set (R107), and its sequence begins. -/
def State.beginSequence (s : State) (n : StationId) (i : InputId) (k : EventKind) (t : TagSet) : State :=
  let s1 := match k.actedAfter with
    | some v => s.modStation n (fun st => st.setActed i v)
    | none => s
  { s1 with current := sequenceInFlight s.active n i k t }

/-- The next claim of TAKE_ENTRY on the entry held (R99, R100, R105). A marker that has passed the tests is left to the
row of its own kind, and a running sequence to the rows of its actions. -/
def State.entryClaim (s : State) (e : Entry) : Stage → State
  | .taken => (s.recordTags e).holdAt e .recorded
  | .recorded => s.testSuspect e
  | .trusted => s.testMapAndMode e
  | .passed => match e with
    | .input n i k _ => (s.endHeldRamps n i k).holdAt e .rampsEnded
    | .marker _ _ => s
  | .rampsEnded => match e with
    | .input n i k t => s.beginSequence n i k t
    | .marker _ _ => s
  | .running _ _ => s

/-- One claim of TAKE_ENTRY: the next of the entry held, or, at an idle point with no swap pending, the take of the
head (R92, R99). -/
def State.takeClaim (s : State) : State :=
  match s.current with
  | some f => s.entryClaim f.entry f.stage
  | none =>
    if s.swapPending then s
    else match s.events with
      | [] => s
      | e :: rest => s.popEntry e rest

/-- Up to so many claims of TAKE_ENTRY on one entry: a finished entry has no further claim. -/
def State.takeClaims : Nat → State → State
  | 0, s => s
  | claims + 1, s =>
    if s.takeClaim.current = none then s.takeClaim else State.takeClaims claims s.takeClaim

/-- TAKE_ENTRY (R92, R99, R100, R105): up to `claims` claims of the entry held, or of the head. Between two presentations
other commands may be taken, as between two claims (R99). -/
def execTakeEntry (s : State) (claims : Nat := 6) : Host.Outcome State Fault Refusal := .next (s.takeClaims claims)

/-! ### Markers -/

/-- The acted states of a station's MAINTAINED inputs become OFF (R103). -/
def State.clearActedMaintained (s : State) (n : StationId) : State :=
  s.modStation n (fun st =>
    { st with inputs := st.inputs.mapIdx (fun i x =>
        if (s.active.binding n i).maintained then { x with acted := false } else x) })

/-- The first claim of a LOST marker (R103, step 1): every ramp of the station ends. -/
def State.lostRamps (s : State) (n : StationId) : State := s.endRamps (fun x => x.ownedBy (.station n))

/-- The rest of a LOST marker (R103, steps 2 and 3): under policy RELEASE every contribution of the station leaves and
its acted states become OFF; LOSS is raised and the marker is finished. -/
def State.lostPolicy (s : State) (n : StationId) : State :=
  let s1 := if (s.active.station n).releaseOnLoss then
      (s.leaveByDefault (fun x => x.ownedBy (.station n))).clearActedMaintained n
    else s
  (s1.raiseCause .loss).finishEntry

/-- The next claim of LOST_MARKER (R103): its ramps end, then its loss policy is applied and it is finished. -/
def State.lostClaim (s : State) : State :=
  match s.current with
  | some ⟨.marker n .lost, .passed⟩ => (s.lostRamps n).holdAt (.marker n .lost) .rampsEnded
  | some ⟨.marker n .lost, .rampsEnded⟩ => s.lostPolicy n
  | _ => s

/-- Up to so many claims of LOST_MARKER. -/
def State.lostClaims : Nat → State → State
  | 0, s => s
  | claims + 1, s => State.lostClaims claims s.lostClaim

/-- LOST_MARKER (R103): up to `claims` claims of the held LOST marker. Between two presentations other commands may be
taken, as between two claims (R99). -/
def execLostMarker (s : State) (claims : Nat := 2) : Host.Outcome State Fault Refusal := .next (s.lostClaims claims)

/-- RETURNED_MARKER (R104): the held RETURNED marker that has passed its tests raises LOSS and is finished. -/
def execReturnedMarker (s : State) : Host.Outcome State Fault Refusal :=
  match s.current with
  | some ⟨.marker _ .returned, .passed⟩ => .next (s.raiseCause .loss).finishEntry
  | _ => .next s

/-! ### The claim of one action -/

/-- The next action of the sequence in flight, when it is of the kind `k` (R108). -/
def State.runningAction (s : State) (k : ActionKind) : Option RunningAction :=
  match s.current with
  | some ⟨.input n i ek _, .running next left⟩ =>
    if left ≠ 0 ∧ kindOfCode (s.active.actionRec next).kindCode = some k then
      some ⟨n, i, ek, next, s.active.actionRec next⟩
    else none
  | _ => none

/-- The sequence after one of its actions: the next action, or the entry finished (R108). -/
def InFlight.advance : InFlight → Option InFlight
  | ⟨e, .running next left⟩ => if left ≤ 1 then none else some ⟨e, .running (next + 1) (left - 1)⟩
  | f => some f

/-- The sequence in flight goes on to its next action, or the entry is finished (R108). -/
def State.finishAction (s : State) : State :=
  { s with current := match s.current with
      | some f => f.advance
      | none => none }

/-- The cause a refusal of an action raises (R122). -/
def Reason.cause : Reason → Cause
  | .poolExhausted => .resource
  | .circuitFull => .resource
  | .noReason => .refusal
  | .unknown => .refusal
  | .badParameter => .refusal
  | .locked => .refusal
  | .closed => .refusal
  | .invalid => .refusal
  | .illegalTransition => .refusal
  | .notInShow => .refusal
  | .lineActive => .refusal
  | .notLatched => .refusal
  | .abandoned => .refusal

/-- A refused action: its cause, the counter, the last refusal record (R122, R123). -/
def State.refuseAction (s : State) (a : RunningAction) (r : Reason) : State :=
  { (s.raiseCause r.cause).count .refusedActions with
    lastRefusal := ⟨some (.station a.station), some a.input, some (.event a.kind), some a.index, r⟩ }

/-- One action of a sequence: its claim is accepted or refused, and the sequence goes on either way (R108). -/
def State.runAction (s : State) (k : ActionKind) (claim : RunningAction → Except Reason State) : State :=
  match s.runningAction k with
  | none => s
  | some a =>
    match claim a with
    | .ok t => t.finishAction
    | .error r => (s.refuseAction a r).finishAction

/-! ### The resource check and creates over a set of circuits (R110, R111) -/

/-- A circuit needs a record: the claim asks something of it and the owner holds no contribution there. -/
def State.needsRecord (s : State) (o : Owner) (ask : CircuitId → Option Ask) (c : CircuitId) : Bool :=
  (ask c).isSome && !holds (s.circuit c).list o

/-- How many records a claim needs. -/
def State.recordsNeeded (s : State) (o : Owner) (ask : CircuitId → Option Ask) : Nat :=
  allCircuits.countP (s.needsRecord o ask)

/-- The resource check (R110): the pool first, then every circuit that needs a record. -/
def State.resourceCheck (s : State) (o : Owner) (ask : CircuitId → Option Ask) : Option Reason :=
  if s.poolFree < s.recordsNeeded o ask then some .poolExhausted
  else if allCircuits.any (fun c => s.needsRecord o ask c && decide (Config.listCapacity ≤ (s.circuit c).list.length))
    then some .circuitFull
  else none

/-- The creates and renewals of a claim (R29, R30). -/
def State.applyAsks (s : State) (o : Owner) (k : Cls) (ask : CircuitId → Option Ask) : State :=
  s.updateLists (fun c _ => (ask c).isSome)
    (fun c cs => match ask c with
      | some a => createOrRenew o k a cs
      | none => cs.list)

/-- A claim of creates and renewals, all or nothing (R111). -/
def State.claimAsks (s : State) (n : StationId) (ask : CircuitId → Option Ask) : Except Reason State :=
  match s.resourceCheck (.station n) ask with
  | some r => .error r
  | none => .ok (s.applyAsks (.station n) (s.active.station n).cls ask)

/-- The contributions that satisfy `p` leave on the circuits of `touch`, with a profile operand (R14, R31). -/
def State.leaveWith (s : State) (touch : CircuitId → Bool) (p : Contribution → Bool) (profile : Nat) : State :=
  s.updateLists (fun c cs => touch c && cs.list.any p)
    (fun c cs => leaveWhere p (s.active.operandTime profile c) cs.list)

/-- What SET asks of each circuit: its level, with the profile's fade time there (R112). -/
def Bank.asksLevel (b : Bank) (a : ActionRec) : CircuitId → Option Ask :=
  let target := b.inTarget a
  fun c => if target c then some (askLevel a.level (b.operandTime a.profile c)) else none

/-- What RAISE and LOWER ask of each circuit: a ramp held by the input (R115). -/
def Bank.asksRamp (b : Bank) (a : ActionRec) (target : Nat) (i : InputId) : CircuitId → Option Ask :=
  let hit := b.inTarget a
  fun c => if hit c then some (.ramp target (b.operandTime a.profile c) i) else none

/-- What SCENE asks of each circuit: its item's level (R117). -/
def Bank.asksScene (b : Bank) (a : ActionRec) : CircuitId → Option Ask :=
  let level := b.sceneLevel a.param
  fun c => (level c).map (fun v => askLevel v (b.operandTime a.profile c))

/-- A contribution is present for a TOGGLE that judges class `k` (R113). -/
def presentFor (k : Cls) (x : Contribution) : Bool := decide (x.cls = k) && !x.isLeaving

/-- The claim of SET (R112). -/
def State.claimSet (s : State) (a : RunningAction) : Except Reason State :=
  s.claimAsks a.station (s.active.asksLevel a.action)

/-- The claim of TOGGLE (R113, R114). -/
def State.claimToggle (s : State) (a : RunningAction) : Except Reason State :=
  let k := (s.active.station a.station).cls
  let target := s.active.inTarget a.action
  if allCircuits.any (fun c => target c && (s.circuit c).list.any (presentFor k)) then
    .ok (s.leaveWith target (fun x => decide (x.cls = k)) a.action.profile)
  else s.claimAsks a.station (s.active.asksLevel a.action)

/-- The claim of RAISE or LOWER toward a target level (R115). -/
def State.claimRamp (s : State) (target : Nat) (a : RunningAction) : Except Reason State :=
  s.claimAsks a.station (s.active.asksRamp a.action target a.input)

/-- The claim of RELEASE (R116). -/
def State.claimRelease (s : State) (a : RunningAction) : Except Reason State :=
  .ok (s.leaveWith (s.active.inTarget a.action) (fun x => x.ownedBy (.station a.station)) a.action.profile)

/-- The claim of SCENE (R117). -/
def State.claimScene (s : State) (a : RunningAction) : Except Reason State :=
  match s.claimAsks a.station (s.active.asksScene a.action) with
  | .error r => .error r
  | .ok t =>
    if a.action.exclusive then
      .ok (t.leaveWith (fun c => (s.active.asksScene a.action c).isNone)
        (fun x => x.ownedBy (.station a.station)) a.action.profile)
    else .ok t

/-- The claim of MODE (R118). A valid map holds no parameter above 4; one names no reachable mode (log 15). -/
def State.claimMode (s : State) (a : RunningAction) : Except Reason State :=
  match modeOfCode a.action.param with
  | some m => s.requestMode m
  | none => .error .illegalTransition

/-! ### The meanings -/

/-- SET (R112). -/
def execSet (s : State) : Host.Outcome State Fault Refusal := .next (s.runAction .set s.claimSet)

/-- TOGGLE (R113). -/
def execToggle (s : State) : Host.Outcome State Fault Refusal := .next (s.runAction .toggle s.claimToggle)

/-- RAISE (R115): a ramp toward 1000. -/
def execRaise (s : State) : Host.Outcome State Fault Refusal :=
  .next (s.runAction .raise (s.claimRamp Config.fullLevel))

/-- LOWER (R115): a ramp toward 0. -/
def execLower (s : State) : Host.Outcome State Fault Refusal := .next (s.runAction .lower (s.claimRamp 0))

/-- RELEASE (R116). -/
def execRelease (s : State) : Host.Outcome State Fault Refusal := .next (s.runAction .release s.claimRelease)

/-- SCENE (R117). -/
def execScene (s : State) : Host.Outcome State Fault Refusal := .next (s.runAction .scene s.claimScene)

/-- MODE (R118). -/
def execMode (s : State) : Host.Outcome State Fault Refusal := .next (s.runAction .mode s.claimMode)

/-- HOLD (R119). -/
def execHold (s : State) : Host.Outcome State Fault Refusal :=
  .next (s.runAction .hold (fun _ => .ok { s with hold := true }))

/-- RESUME (R119). -/
def execResume (s : State) : Host.Outcome State Fault Refusal :=
  .next (s.runAction .resume (fun _ => .ok { s with hold := false }))

/-- AMEND (R120). -/
def execAmend (s : State) : Host.Outcome State Fault Refusal :=
  .next (s.runAction .amend (fun _ => s.requestAmend))

/-- RESTORE (R121). -/
def execRestore (s : State) : Host.Outcome State Fault Refusal :=
  .next (s.runAction .restore (fun _ => s.requestRestore))

end Sys2Proof.Machine
end

