-- ==== Sys2Proof/Machine/Ports.lean ====
section
/-! DEFINITION. The Upstream Port, the arbiter of the downstream port, the Desk Write Queue and desk claims
(chapter 9; R34 to R36). -/

namespace Sys2Proof.Machine

/-! ### Whether the port takes an access, and whether the arbiter grants it -/

/-- The transfer in progress is that of an upstream access granted since the last assertion of RST#, so its strobe has
not ended (R157, R162). -/
def State.upstreamInTransfer (s : State) : Bool :=
  match s.transfer with
  | some t => decide (t.requester = .upstream)
  | none => false

/-- The port is idle and may take an access: none held, none in transfer, RST# released (R157, R162). -/
def State.upstreamReady (s : State) : Bool := !s.rst && decide (s.port = .idle) && !s.upstreamInTransfer

/-- The port may take this access: it is idle, or it holds this one waiting for its grant. -/
def State.portTakes (s : State) (a : Access) : Bool :=
  !s.rst && !s.upstreamInTransfer && (decide (s.port = .idle) || decide (s.port = .waitGrant a))

/-- An upstream access waits for its grant. -/
def State.upstreamWaits (s : State) : Bool :=
  match s.port with
  | .waitGrant _ => true
  | .waitSlot _ => false
  | .idle => false

/-- Write-back requests the port (R146). -/
def State.writeBackRequests (s : State) : Bool := !s.clearRunning && s.frameOwes s.back

/-- The Map Loader requests the port (R160). -/
def State.loaderRequests (s : State) : Bool :=
  match s.status with
  | .commitRunning (.loading _) => true
  | .commitRunning .validating => false
  | .commitRunning .swapPending => false
  | .idle => false
  | .restartRunning => false
  | .done _ => false
  | .refused _ _ _ => false

/-- The frame clear requests the port (R151). -/
def State.clearRequests (s : State) : Bool :=
  match s.clear with
  | some n => decide (n < Config.clearCells)
  | none => false

/-- Some internal requester waits. -/
def State.internalWaits (s : State) : Bool := s.writeBackRequests || s.loaderRequests || s.clearRequests

/-- The port is free and the arbiter grants a waiting upstream access (R160, R161). -/
def State.grantsUpstream (s : State) : Bool :=
  s.transfer.isNone && !(s.runCount == Config.runLimit && s.internalWaits)

/-- The port is free and the arbiter grants an internal requester (R160, R161). -/
def State.grantsInternal (s : State) : Bool :=
  s.transfer.isNone && (!s.upstreamWaits || s.runCount == Config.runLimit)

/-- An access to be forwarded (R157): the port takes it and, at its grant, `work` is done; while it is not
granted the port holds it. -/
def State.takeAtGrant (s : State) (a : Access) (work : State → State) : State :=
  if !s.portTakes a then s
  else if s.grantsUpstream then work { s with port := .idle, runCount := min (s.runCount + 1) Config.runLimit }
  else { s with port := .waitGrant a }

/-- A granted downstream read of the cell that holds `addr`. -/
def State.startRead (s : State) (addr : Nat) (lanes : Lanes) : State :=
  { s with transfer := some ⟨.upstream, ⟨addr, false, lanes, Memory.readCell s.mem (cellAddress addr)⟩⟩ }

/-- A granted downstream write of the selected bytes of the cell that holds `addr`. -/
def State.startWrite (s : State) (addr : Nat) (lanes : Lanes) (data : Word) : State :=
  { s with mem := Memory.writeCell s.mem (cellAddress addr) lanes data,
           transfer := some ⟨.upstream, ⟨addr, true, lanes, data⟩⟩ }

/-! ### Forwarded accesses -/

/-- The downstream address of a forwarded access: unchanged outside the window, with A0 taken as 0 inside it
(R154, R155). -/
def State.downstreamAddress (s : State) (addr : Address) : Nat :=
  match s.offsetOf addr with
  | some offset => windowAddress s.base offset
  | none => addr.toNat

/-- An access is forwarded by the row FORWARDED_ACCESS (R154, R155): it lies outside the window, or selects a
byte of a region that forwards it, other than a station write. -/
def State.forwards (s : State) (a : Access) : Bool :=
  match s.regionAt a.addr with
  | none => true
  | some region =>
    a.lanes.any &&
      match region, a with
      | .station, .read _ => true
      | .frameA, .read _ => true
      | .frameB, .read _ => true
      | .mapRegion, .read _ => true
      | .mapRegion, .write _ => !s.mapClosed
      | .other, .read _ => true
      | .other, .write _ => true
      | .station, .write _ => false
      | .frameA, .write _ => false
      | .frameB, .write _ => false
      | .control, _ => false
      | .circuitWindow, _ => false
      | .viewWindow, _ => false

/-- FORWARDED_ACCESS (R160). -/
def execForwardedAccess (a : Access) (s : State) : Host.Outcome State Fault Refusal :=
  if s.forwards a then
    .next (s.takeAtGrant a (fun t =>
      match a with
      | .read r => t.startRead (s.downstreamAddress r.addr) r.lanes
      | .write w => t.startWrite (s.downstreamAddress w.addr) w.lanes w.data))
  else .next s

/-- The station and the byte of its cell that a station write addresses: none when the access is not to the
station region or selects no byte. -/
def State.stationTarget (s : State) (a : WriteAccess) : Option (StationId × Nat) :=
  match s.offsetOf a.addr with
  | some offset =>
    if regionOf offset = .station && a.lanes.any then (stationAt offset).map (fun n => (n, (offset - 0x0400) % 8))
    else none
  | none => none

/-- STATION_CELL_WRITE (R65, R157): at its grant the write goes to SRAM and the Station Monitor does its work. -/
def execStationCellWrite (a : WriteAccess) (s : State) : Host.Outcome State Fault Refusal :=
  match s.stationTarget a with
  | some (n, k) =>
    .next (s.takeAtGrant (.write a) (fun t =>
      (t.startWrite (s.downstreamAddress a.addr) a.lanes a.data).monitorWrite n k a.lanes a.data))
  | none => .next s

/-- The circuit a circuit-window access addresses. -/
def State.windowCircuit (s : State) (addr : Address) (lanes : Lanes) : Option CircuitId :=
  match s.offsetOf addr with
  | some offset => if regionOf offset = .circuitWindow && lanes.any then circuitAt 0x0800 offset else none
  | none => none

/-- CIRCUIT_WINDOW_READ (R144): redirected at its grant to the cell of the frame that is front then, or answered
0 in both bytes at once while a frame clear runs. -/
def execCircuitWindowRead (a : ReadAccess) (s : State) : Host.Outcome State Fault Refusal :=
  match s.windowCircuit a.addr a.lanes with
  | some c =>
    if s.clearRunning then
      .next (if s.portTakes (.read a) then { s with port := .idle, upData := bothBytes 0 } else s)
    else .next (s.takeAtGrant (.read a) (fun t => t.startRead (t.frameCell t.front c) a.lanes))
  | none => .next s

/-! ### Accesses the part answers or takes itself -/

/-- The circuit a view-window access addresses. -/
def State.viewCircuit (s : State) (addr : Address) (lanes : Lanes) : Option CircuitId :=
  match s.offsetOf addr with
  | some offset => if regionOf offset = .viewWindow && lanes.any then circuitAt 0x0C00 offset else none
  | none => none

/-- What the view window answers a tag for a circuit (R36). -/
def State.viewAnswer (s : State) (t : TagId) (c : CircuitId) : Word :=
  match ownContribution (s.circuit c).list (.desk t) with
  | some x => BitVec.ofNat 16 x.current
  | none => 0xFFFF

/-- VIEW_WINDOW_READ (R36, R155). -/
def execViewWindowRead (a : ReadAccess) (s : State) : Host.Outcome State Fault Refusal :=
  match s.viewCircuit a.addr a.lanes with
  | some c =>
    .next (if s.upstreamReady then { s with upData := laneData a.lanes (s.viewAnswer a.tag c) } else s)
  | none => .next s

/-- A desk write's value is accepted: 0..1000, or FFFFh (R158). -/
def deskValueOk (v : Word) : Bool := v.toNat ≤ Config.fullLevel || v = 0xFFFF

/-- The writable cells of the control block (R157, R167). -/
def controlWritable (offset : Nat) : Bool :=
  offset == 0x0000 || offset == 0x0002 || offset == 0x0020 || offset == 0x0022

/-- Which counter a write refused at the port raises; none for a write that is not refused (R156). -/
def State.refusalCounter (s : State) (a : WriteAccess) : Option CounterName :=
  match s.offsetOf a.addr with
  | none => none
  | some offset =>
    if !a.lanes.any then none
    else match regionOf offset with
      | .circuitWindow =>
        if a.lanes = Lanes.both && deskValueOk a.data then none else some .refusedDeskWrites
      | .viewWindow => some .refusedOtherWrites
      | .frameA => some .refusedOtherWrites
      | .frameB => some .refusedOtherWrites
      | .mapRegion => if s.mapClosed then some .refusedOtherWrites else none
      | .control =>
        if a.lanes = Lanes.both && controlWritable offset then none else some .refusedOtherWrites
      | .station => none
      | .other => none

/-- A write refused at the port: counted, and WRITE raised (R156). -/
def State.refuseWrite (s : State) (n : CounterName) : State := (s.count n).raiseCause .write

/-- REFUSED_WRITE (R156). -/
def execRefusedWrite (a : WriteAccess) (s : State) : Host.Outcome State Fault Refusal :=
  match s.refusalCounter a with
  | some n => .next (if s.upstreamReady then s.refuseWrite n else s)
  | none => .next s

/-- NO_BYTE_ACCESS (R157): an access inside the window with neither byte enable is taken at once; a read is
answered 0. -/
def execNoByteAccess (a : Access) (s : State) : Host.Outcome State Fault Refusal :=
  if s.upstreamReady && (s.offsetOf a.addr).isSome && !a.lanes.any then
    match a with
    | .read _ => .next { s with upData := bothBytes 0 }
    | .write _ => .next s
  else .next s

/-! ### Desk writes and desk claims -/

/-- An accepted desk write joins the queue, or waits for a slot (R159). -/
def State.acceptDesk (s : State) (d : DeskEntry) : State :=
  if s.deskQueue.length < Config.deskQueueCapacity then { s with deskQueue := s.deskQueue ++ [d] }
  else { s with port := .waitSlot d }

/-- DESK_WRITE (R158): judged on width, then on value. -/
def execDeskWrite (a : WriteAccess) (s : State) : Host.Outcome State Fault Refusal :=
  match s.windowCircuit a.addr a.lanes with
  | some c =>
    if !s.upstreamReady then .next s
    else if a.lanes = Lanes.both && deskValueOk a.data then .next (s.acceptDesk ⟨a.tag, c, a.data⟩)
    else .next (s.refuseWrite .refusedDeskWrites)
  | none => .next s

/-- The desk write waiting at the port joins at the tail when a slot is free (R159). -/
def State.joinWaiting (s : State) : State :=
  match s.port with
  | .waitSlot d =>
    if s.deskQueue.length < Config.deskQueueCapacity then { s with port := .idle, deskQueue := s.deskQueue ++ [d] }
    else s
  | .waitGrant _ => s
  | .idle => s

/-- DESK_WRITE_JOINS (R159): the waiting desk write joins when a slot is free. R159 has it join as soon as the take that
frees the slot is made, so this is also within DESK_CLAIM (log 23). -/
def execDeskWriteJoins (s : State) : Host.Outcome State Fault Refusal := .next s.joinWaiting

/-- A refused desk claim: RESOURCE, the counter, the last refusal record (R35). -/
def State.refuseDeskClaim (s : State) (t : TagId) (r : Reason) : State :=
  { (s.raiseCause .resource).count .refusedDeskWrites with
    lastRefusal := ⟨some (.desk t), none, some .deskWrite, none, r⟩ }

/-- Why a desk claim that needs a new record is refused: the pool is tested first (R35). -/
def State.deskRefusal (s : State) (c : CircuitId) : Option Reason :=
  if s.poolFree = 0 then some .poolExhausted
  else if Config.listCapacity ≤ (s.circuit c).list.length then some .circuitFull
  else none

/-- The desk tag's contribution on one circuit set to a level with a snap (R34). -/
def State.deskLevel (s : State) (t : TagId) (c : CircuitId) (level : Nat) : State :=
  s.updateLists (fun x _ => decide (x = c)) (fun _ cs => createOrRenew (.desk t) .desk (.snap level) cs)

/-- The desk tag's contribution on one circuit removed at once (R34). -/
def State.deskRemove (s : State) (t : TagId) (c : CircuitId) : State :=
  s.updateLists (fun x cs => decide (x = c) && holds cs.list (.desk t))
    (fun _ cs => removeWhere (fun x => x.ownedBy (.desk t)) cs.list)

/-- A desk claim (R34, R35). -/
def State.deskClaim (s : State) (d : DeskEntry) : State :=
  if d.value = 0xFFFF then s.deskRemove d.tag d.circuit
  else if holds (s.circuit d.circuit).list (.desk d.tag) then s.deskLevel d.tag d.circuit d.value.toNat
  else match s.deskRefusal d.circuit with
    | some r => s.refuseDeskClaim d.tag r
    | none => s.deskLevel d.tag d.circuit d.value.toNat

/-- The head entry leaves the Desk Write Queue, and a desk write waiting at the port joins as soon as it has (R159). -/
def State.deskHeadLeaves (s : State) (rest : List DeskEntry) : State := { s with deskQueue := rest }.joinWaiting

/-- The store takes the claim of the head entry of the Desk Write Queue, which leaves the queue (R34, R159). -/
def State.takeDeskClaim (s : State) : State :=
  match s.deskQueue with
  | d :: rest => (s.deskHeadLeaves rest).deskClaim d
  | [] => s

/-- DESK_CLAIM (R34, R159). -/
def execDeskClaim (s : State) : Host.Outcome State Fault Refusal := .next s.takeDeskClaim

end Sys2Proof.Machine
end

