-- ==== Sys2Proof/Machine/Commands.lean ====
section
/-! DEFINITION. Writes to the control block and the immediate commands (R169 to R172, R179, R180), and the take
of a COMMIT (R173). -/

namespace Sys2Proof.Machine

/-- A command finishes DONE (R169). -/
def State.commandDone (s : State) (detail1 : Nat) : State :=
  { s with status := .done detail1 }.raiseCause .command

/-- A command finishes REFUSED (R169). -/
def State.commandRefused (s : State) (r : Reason) (detail1 detail2 : Nat) : State :=
  { s with status := .refused r detail1 detail2 }.raiseCause .command

/-- A command whose claim another unit has judged finishes. -/
def State.settleCommand (s : State) : Except Reason State → State
  | .ok t => t.commandDone 0
  | .error r => s.commandRefused r 0 0

/-- A parameter outside its set (R169, R171). -/
def State.badParameter (s : State) : State := s.commandRefused .badParameter 1 0

/-- A 16-bit write to the command cell (R169): the value is stored, and the command is taken unless one is
RUNNING. -/
def State.offerCommand (s : State) (value : Word) (act : State → State) : State :=
  if !s.upstreamReady then s
  else if s.status.running then { s with command := value }.count .busyRefusals
  else act { s with command := value }

/-- PENDING_CAUSES_WRITE (R179): each flag written as 1 is cleared. -/
def execPendingCausesWrite (v : Word) (s : State) : Host.Outcome State Fault Refusal :=
  .next (if s.upstreamReady then { s with causes := s.causes &&& ~~~(v.setWidth 9) } else s)

/-- ENABLE_MASK_WRITE (R180): bits 0 to 8 are stored. -/
def execEnableMaskWrite (v : Word) (s : State) : Host.Outcome State Fault Refusal :=
  .next (if s.upstreamReady then { s with mask := v.setWidth 9 } else s)

/-- CONTROL_CELL_WRITE (R169): a write to the parameter cell only stores its value. -/
def execControlCellWrite (v : Word) (s : State) : Host.Outcome State Fault Refusal :=
  .next (if s.upstreamReady then { s with parameter := v } else s)

/-- UNKNOWN_COMMAND (R169): a value that names no command is refused UNKNOWN. A value that names one is no
UNKNOWN_COMMAND and does nothing here (log 3). -/
def execUnknownCommand (v : Word) (s : State) : Host.Outcome State Fault Refusal :=
  .next (if namesNoCommand v then s.offerCommand v (fun t => t.commandRefused .unknown 0 0) else s)

/-- The take of a COMMIT (R173). -/
def State.takeCommit (s : State) : State :=
  if s.mapClosed then s.commandRefused .closed 0 0
  else if s.locked then s.commandRefused .locked 0 0
  else { s with status := .commitRunning (.loading 0) }

/-- COMMIT (R173), command code 1. -/
def execCommit (s : State) : Host.Outcome State Fault Refusal := .next (s.offerCommand 1 State.takeCommit)

/-- CLOSE_MAP (R140), command code 2. -/
def execCloseMap (s : State) : Host.Outcome State Fault Refusal :=
  .next (s.offerCommand 2 (fun t => { t with mapClosed := true }.commandDone 0))

/-- SET_MODE (R127, R171), command code 3. -/
def execSetMode (s : State) : Host.Outcome State Fault Refusal :=
  .next (s.offerCommand 3 (fun t =>
    match modeOfCode t.parameter.toNat with
    | some m => t.settleCommand (t.requestMode m)
    | none => t.badParameter))

/-- HOLD_FADES (R61), command code 4. -/
def execHoldFades (s : State) : Host.Outcome State Fault Refusal :=
  .next (s.offerCommand 4 (fun t => { t with hold := true }.commandDone 0))

/-- RESUME_FADES (R61), command code 5. -/
def execResumeFades (s : State) : Host.Outcome State Fault Refusal :=
  .next (s.offerCommand 5 (fun t => { t with hold := false }.commandDone 0))

/-- AMEND_COMMAND (R137), command code 6. -/
def execAmendCommand (s : State) : Host.Outcome State Fault Refusal :=
  .next (s.offerCommand 6 (fun t => t.settleCommand t.requestAmend))

/-- RESTORE_EGRESS (R134), command code 7. -/
def execRestoreEgress (s : State) : Host.Outcome State Fault Refusal :=
  .next (s.offerCommand 7 (fun t => t.settleCommand t.requestRestore))

/-- CLEAR FAULTS on one station (R76): its flags and SUSPECT are cleared, and a station lifted from quarantine
is re-asserted. -/
def State.clearStation (s : State) (n : StationId) : State :=
  let s1 := s.modStation n (fun st => { st with faults := FaultSet.none, suspect := false })
  if (s.station n).suspect && s1.mayReassert n then s1.offerInputs (s1.reassertion n) else s1

/-- A CLEAR FAULTS is offered (R76, R171), command code 8: one station, or FFFFh for all in ascending order. -/
def State.clearFaults (s : State) : State :=
  s.offerCommand 8 (fun t =>
    if h : t.parameter.toNat < 112 then (t.clearStation ⟨t.parameter.toNat, h⟩).commandDone 0
    else if t.parameter = 0xFFFF then (allStations.foldl State.clearStation t).commandDone 0
    else t.badParameter)

/-- CLEAR_FAULTS (R76, R171). -/
def execClearFaults (s : State) : Host.Outcome State Fault Refusal := .next s.clearFaults

/-- CLEAR_COUNTERS (R171), command code 9. -/
def execClearCounters (s : State) : Host.Outcome State Fault Refusal :=
  .next (s.offerCommand 9 (fun t => { t with counters := Counters.zero }.commandDone 0))

/-- Every contribution of the owners that satisfy `p` removed at once, as one claim (R172). -/
def State.removeOwned (s : State) (p : Owner → Bool) : State :=
  s.updateLists (fun _ cs => cs.list.any (fun x => p x.owner)) (fun _ cs => removeWhere (fun x => p x.owner) cs.list)

/-- The owner is a desk tag. -/
def Owner.isDesk : Owner → Bool
  | .desk _ => true
  | .station _ => false

/-- RELEASE_DESK (R172), command code 10: one tag, or FFFFh for all. -/
def execReleaseDesk (s : State) : Host.Outcome State Fault Refusal :=
  .next (s.offerCommand 10 (fun t =>
    if h : t.parameter.toNat < 8 then
      (t.removeOwned (fun o => decide (o = .desk ⟨t.parameter.toNat, h⟩))).commandDone 0
    else if t.parameter = 0xFFFF then (t.removeOwned Owner.isDesk).commandDone 0
    else t.badParameter))

end Sys2Proof.Machine
end

