-- ==== Sys2Proof/Machine/Publish.lean ====
section
/-! DEFINITION. The Frame Publisher and the grants of the downstream port's internal requesters: write-back,
flips, the frame clear, loader reads, and the end of a transfer (chapter 8; R160, R173). -/

namespace Sys2Proof.Machine

/-- A flip (R148): the frames change roles and the flip count rises. -/
def State.flip (s : State) : State := { s with front := s.back }.count .flips

/-- A flip is taken when its four conditions hold (R148). -/
def State.tryFlip (s : State) : State := if s.flipReady && !s.passHigh then s.flip else s

/-- PASS_FALLS (R148, R149). -/
def execPassFalls (s : State) : Host.Outcome State Fault Refusal := .next { s with passHigh := false }.tryFlip

/-- PASS_RISES (R149): a flip that becomes due is held pending. -/
def execPassRises (s : State) : Host.Outcome State Fault Refusal := .next { s with passHigh := true }

/-- A 16-bit write that an internal requester has been granted: SRAM's cell at `addr` takes `data`. -/
def State.internalWrite (s : State) (r : Requester) (addr : Nat) (data : Word) : State :=
  { s with mem := Memory.writeCell s.mem addr Lanes.both data,
           transfer := some ⟨r, ⟨addr, true, Lanes.both, data⟩⟩,
           runCount := 0 }

/-- WRITE_BACK_GRANT (R146): the lowest circuit the back frame owes; its stored level is captured, its back flag
cleared, and the level written to its back cell. -/
def execWriteBackGrant (s : State) : Host.Outcome State Fault Refusal :=
  if s.grantsInternal && s.writeBackRequests then
    match s.lowestOwed s.back with
    | some c =>
      .next ((s.modCircuit c (fun cs => cs.clearOwed s.back)).internalWrite .writeBack (s.frameCell s.back c)
        (BitVec.ofNat 16 (s.circuit c).level))
    | none => .next s
  else .next s

/-- The offset of image cell `k` in the window: tables in ascending base order, the gaps skipped (R173). -/
def imageOffset (k : Nat) : Nat :=
  if k < 168 then 0x2000 + 2 * k
  else if k < 1384 then 0x2200 + 2 * (k - 168)
  else if k < 1576 then 0x2C00 + 2 * (k - 1384)
  else 0x3000 + 2 * (k - 1576)

/-- LOADER_READ_GRANT (R173): the next image cell is read, as SRAM holds it now; it reaches the standby bank when
the transfer ends (log 13). -/
def execLoaderReadGrant (s : State) : Host.Outcome State Fault Refusal :=
  match s.status with
  | .commitRunning (.loading k) =>
    if s.grantsInternal && !s.writeBackRequests then
      .next { s with
        transfer := some ⟨.loader k false, ⟨windowAddress s.base (imageOffset k), false, Lanes.both,
          Memory.readCell s.mem (windowAddress s.base (imageOffset k))⟩⟩
        runCount := 0 }
    else .next s
  | .commitRunning .validating => .next s
  | .commitRunning .swapPending => .next s
  | .idle => .next s
  | .restartRunning => .next s
  | .done _ => .next s
  | .refused _ _ _ => .next s

/-- The offset of the cell that write `k` of a frame clear writes: frame A, then frame B, ascending (R151). -/
def clearOffset (k : Nat) : Nat := if k < 384 then 0x1000 + 2 * k else 0x1400 + 2 * (k - 384)

/-- FRAME_CLEAR_GRANT (R151): the next circuit cell is written to 0. -/
def execFrameClearGrant (s : State) : Host.Outcome State Fault Refusal :=
  match s.clear with
  | some k =>
    if s.grantsInternal && s.clearRequests && !s.writeBackRequests && !s.loaderRequests then
      .next { s.internalWrite .frameClear (windowAddress s.base (clearOffset k)) 0 with clear := some (k + 1) }
    else .next s
  | none => .next s

/-- A loader read completes (R173): its cell reaches the standby bank and is counted, and the 20008th ends the
load. -/
def State.storeLoaded (s : State) (index : Nat) (data : Word) : State :=
  match s.status with
  | .commitRunning (.loading k) =>
    { s with standby := s.standby.setCell (imageOffset index) data,
             status := .commitRunning
               (if k + 1 < Config.imageCells then .loading (k + 1) else .validating) }
  | .commitRunning .validating => s
  | .commitRunning .swapPending => s
  | .idle => s
  | .restartRunning => s
  | .done _ => s
  | .refused _ _ _ => s

/-- The transfer of an upstream access has ended: a read drives the bytes it selected (R157). -/
def State.endUpstream (s : State) (cycle : BusCycle) : State :=
  if cycle.write then s else { s with upData := laneData cycle.lanes cycle.data }

/-- TRANSFER_END (R160): a forwarded read answers its master, a write-back write leaves flight and may complete
a flip, a loader read is stored unless its COMMIT was abandoned, a clear write is done. -/
def execTransferEnd (s : State) : Host.Outcome State Fault Refusal :=
  match s.transfer with
  | none => .next s
  | some t =>
    let s1 := { s with transfer := none }
    match t.requester with
    | .upstream => .next (s1.endUpstream t.cycle)
    | .upstreamPast => .next (s1.endUpstream t.cycle)
    | .writeBack => .next s1.tryFlip
    | .loader index discarded => .next (if discarded then s1 else s1.storeLoaded index t.cycle.data)
    | .frameClear => .next s1

/-- The marking at the end of a frame clear (R46): exactly the circuits whose stored level is not 0. -/
def CircuitState.remark (cs : CircuitState) : CircuitState :=
  { cs with owedA := cs.level != 0, owedB := cs.level != 0 }

/-- A clear write is in flight. -/
def State.clearWriteInFlight (s : State) : Bool :=
  match s.transfer with
  | some t => decide (t.requester = .frameClear)
  | none => false

/-- The 768th clear write has been taken by SRAM (R152). -/
def State.clearComplete (s : State) : Bool := decide (s.clear = some Config.clearCells) && !s.clearWriteInFlight

/-- A RESTART in progress finishes (R152, R177). -/
def State.finishRestart (s : State) : State :=
  if s.status = .restartRunning then s.commandDone 0 else s

/-- FRAME_CLEAR_ENDS (R152): the flags are marked anew, publication resumes, and a RESTART in progress is DONE. -/
def execFrameClearEnds (s : State) : Host.Outcome State Fault Refusal :=
  if s.clearComplete then
    .next { s.mapCircuits (fun _ cs => cs.remark) with clear := none }.finishRestart
  else .next s

end Sys2Proof.Machine
end

