-- ==== Sys2Proof/Machine/MapStore.lean ====
section
/-! DEFINITION. Validation of the standby bank (R19 to R22) and the swap of the banks, with what may be taken between
its effects (R124, R125, R174, R175, R83). -/

namespace Sys2Proof.Machine

/-! ### The checks of each table (R20, R21, R22) -/

/-- Profile record `k`: fade time 0..600. -/
def Bank.profileOk (b : Bank) (k : Nat) : Bool := b.profileTime k ≤ 600

/-- Zone record `k`: each of the ten ceilings 0..1000. -/
def Bank.zoneOk (b : Bank) (k : Nat) : Bool := (List.range 10).all (fun j => b.ceilingCell k j ≤ Config.fullLevel)

/-- Circuit record `k`. -/
def Bank.circuitOk (b : Bank) (k : Nat) : Bool :=
  let r := b.circuitRec k
  r.zone ≤ 15 && r.mergeCode ≤ 1 && r.profile ≤ 7 && r.rest ≤ Config.fullLevel

/-- Station record `k`; a virtual station's silence limit is 0 (R9). -/
def Bank.stationOk (b : Bank) (k : Nat) : Bool :=
  let r := b.stationRec k
  r.classCode ≤ 2 && 1 ≤ r.inputsUsed && r.inputsUsed ≤ 16 && r.silenceLimit ≤ 15 && (k < 96 || r.silenceLimit == 0)

/-- Group member record `k`. -/
def Bank.memberOk (b : Bank) (k : Nat) : Bool := b.memberCircuit k ≤ 383

/-- Scene item record `k`. -/
def Bank.itemOk (b : Bank) (k : Nat) : Bool := b.itemCircuit k ≤ 383 && b.itemLevel k ≤ Config.fullLevel

/-- Group record `k`: its ranges, its run within the member pool, and no circuit twice (R21). -/
def Bank.groupOk (b : Bank) (k : Nat) : Bool :=
  let r := b.groupRec k
  r.start ≤ 1023 && r.count ≤ 128 &&
    (r.count == 0 || (r.start + r.count ≤ 1024 && decide (b.groupMembers k).Nodup))

/-- Scene record `k`: its ranges, its run within the item pool, and no circuit twice (R21). -/
def Bank.sceneOk (b : Bank) (k : Nat) : Bool :=
  let r := b.sceneRec k
  r.start ≤ 1023 && r.count ≤ 256 &&
    (r.count == 0 || (r.start + r.count ≤ 1024 && decide ((b.sceneItems k).map (fun item => item.1)).Nodup))

/-- The target of an action on circuits: CIRCUIT 0..383, a defined GROUP 0..63, ZONE 0..15 (R12, R21). -/
def Bank.targetOk (b : Bank) (a : ActionRec) : Bool :=
  match a.targetType with
  | 0 => a.targetIndex ≤ 383
  | 1 => a.targetIndex ≤ 63 && (b.groupRec a.targetIndex).count != 0
  | 2 => a.targetIndex ≤ 15
  | _ => false

/-- Target type NONE with target index 0 and level 0, as every house-wide action and SCENE has (R12). -/
def ActionRec.noTarget (a : ActionRec) : Bool := a.targetType == 3 && a.targetIndex == 0 && a.level == 0

/-- The fields of each kind of action (R12, R20, R21). -/
def Bank.actionFieldsOk (b : Bank) (a : ActionRec) : ActionKind → Bool
  | .set => b.targetOk a && a.level ≤ Config.fullLevel && a.profile ≤ 8 && !a.exclusive && a.param == 0
  | .toggle => b.targetOk a && a.level ≤ Config.fullLevel && a.profile ≤ 8 && !a.exclusive && a.param == 0
  | .raise => b.targetOk a && a.level == 0 && a.profile ≤ 8 && !a.exclusive && a.param == 0
  | .lower => b.targetOk a && a.level == 0 && a.profile ≤ 8 && !a.exclusive && a.param == 0
  | .release => b.targetOk a && a.level == 0 && a.profile ≤ 8 && !a.exclusive && a.param == 0
  | .scene => a.noTarget && a.profile ≤ 8 && a.param ≤ 31 && (b.sceneRec a.param).count != 0
  | .mode => a.noTarget && a.profile == 0 && !a.exclusive && a.param ≤ 4
  | .hold => a.noTarget && a.profile == 0 && !a.exclusive && a.param == 0
  | .resume => a.noTarget && a.profile == 0 && !a.exclusive && a.param == 0
  | .amend => a.noTarget && a.profile == 0 && !a.exclusive && a.param == 0
  | .restore => a.noTarget && a.profile == 0 && !a.exclusive && a.param == 0

/-- Action record `k`. -/
def Bank.actionOk (b : Bank) (k : Nat) : Bool :=
  match kindOfCode (b.actionRec k).kindCode with
  | some kind => b.actionFieldsOk (b.actionRec k) kind
  | none => false

/-- The kinds of the actions of a sequence, as far as their codes name kinds. -/
def Bank.sequenceKinds (b : Bank) (q : SeqRef) : List ActionKind :=
  (List.range q.count).filterMap (fun j => kindOfCode (b.actionRec (q.start + j)).kindCode)

/-- The station has the privilege a kind of action needs (R8). -/
def StationRec.privileged (r : StationRec) : ActionKind → Bool
  | .mode => r.mayMode
  | .hold => r.mayHold
  | .resume => r.mayHold
  | .amend => r.mayAmend
  | .restore => r.mayRestore
  | .set => true
  | .toggle => true
  | .raise => true
  | .lower => true
  | .release => true
  | .scene => true

/-- RAISE and LOWER start a ramp (R22). -/
def ActionKind.ramps : ActionKind → Bool
  | .raise => true
  | .lower => true
  | .set => false
  | .toggle => false
  | .release => false
  | .scene => false
  | .mode => false
  | .hold => false
  | .resume => false
  | .amend => false
  | .restore => false

/-- A sequence's count and its run within the action pool (R20, R21). -/
def SeqRef.ok (q : SeqRef) : Bool := q.count ≤ 16 && q.start + q.count ≤ 2048

/-- Binding record `k`: its ranges, its runs, its station's privileges, and where a ramp may start (R22). -/
def Bank.bindingOk (b : Bank) (k : Nat) : Bool :=
  let r := b.bindingRec k
  let privileged := fun q => (b.sequenceKinds q).all (b.stationRec (k / 16)).privileged
  let noRamp := fun q => (b.sequenceKinds q).all (fun a => !a.ramps)
  r.triggerCode ≤ 2 && r.press.ok && r.release.ok && r.long.ok &&
    privileged r.press && privileged r.release && privileged r.long &&
    noRamp r.release && (r.long.count == 0 || noRamp r.press)

/-- The tables in the order of validation, each with its number, its records and its check (R19). -/
def validationTables (b : Bank) : List (Nat × Nat × (Nat → Bool)) :=
  [(1, 8, b.profileOk), (2, 16, b.zoneOk), (3, 384, b.circuitOk), (4, 112, b.stationOk), (5, 1024, b.memberOk),
   (6, 1024, b.itemOk), (7, 64, b.groupOk), (8, 32, b.sceneOk), (9, 2048, b.actionOk), (10, 1792, b.bindingOk)]

/-- Validation (R19): the table number and index of the first failing record; none for a valid map. -/
def Bank.firstFault (b : Bank) : Option (Nat × Nat) :=
  (validationTables b).findSome? (fun t =>
    ((List.range t.2.1).find? (fun k => !t.2.2 k)).map (fun k => (t.1, k)))

/-- Every record of every table passes (R19). -/
def Bank.valid (b : Bank) : Bool := b.firstFault.isNone

/-- VALIDATION_ENDS (R174): refused INVALID at the first failing record, or the swap is requested. -/
def execValidationEnds (s : State) : Host.Outcome State Fault Refusal :=
  if s.status = .commitRunning .validating then
    match s.standby.firstFault with
    | some (table, index) => .next (s.commandRefused .invalid table index)
    | none => .next { s with status := .commitRunning .swapPending }
  else .next s

/-! ### The swap -/

/-- The silence timer of an enabled station at a swap: from zero if the new limit is above 0 and it is not LOST
(R83). -/
def swapSilence (r : StationRec) (lost : Bool) : Option Nat :=
  if r.silenceLimit ≠ 0 && !lost then some 0 else none

/-- The swap's effects on one station's runtime (R83), from its old record to its new one. -/
def swapStation (old new : StationRec) (st : StationState) : StationState :=
  let st1 := st.stopTimers
  if !old.enabled && new.enabled then
    { st1 with baselineRequired := true, silence := swapSilence new st.lost }
  else if old.enabled && !new.enabled then
    { st1 with
      inputs := st1.inputs.mapIdx (fun _ i => { i with acted := false })
      lost := false
      silence := none
      baselineRequired := true }
  else if old.enabled && new.enabled then { st1 with silence := swapSilence new st.lost }
  else st1

/-- The owner is a station that the new map disables (R125). -/
def disabledBy (old new : Bank) : Owner → Bool
  | .station n => (old.station n).enabled && !(new.station n).enabled
  | .desk _ => false

/-- Effect 1 of R175: the banks are exchanged and the generation rises. -/
def State.exchangeBanks (s : State) : State :=
  { s with active := s.standby, standby := s.active, generation := s.generation + 1 }

/-- Effect 2 of R175: the amend window closes. -/
def State.closeAmend (s : State) : State := { s with amend := none }

/-- Effect 4 of R175: the stations' runtime, from the old map to the active one (R83). -/
def State.swapStations (s : State) (old : Bank) : State :=
  s.mapStations (fun n st => swapStation (old.station n) (s.active.station n) st)

/-- Effect 5 of R175: the contributions of the stations that the active map disables leave with the circuit's default
profile. -/
def State.leaveDisabled (s : State) (old : Bank) : State :=
  s.leaveByDefault (fun x => disabledBy old s.active x.owner)

/-- The latch is held (R136). -/
def EgressState.latched : EgressState → Bool
  | .latchedActive => true
  | .latchedCleared => true
  | .clear => false
  | .pending _ => false

/-- Effect 6 of R175 on one slot: reconciled against the new map while the egress state is latched. -/
def swapSlot (egress : EgressState) (new : Bank) (c : CircuitId) (slot : Slot) : Slot :=
  if egress.latched then reconcileSlot (new.circuit c).egressMember (new.defaultTime c) slot else slot

/-- Effect 6 of R175: the slots are reconciled against the active map (R40, R136). -/
def State.swapSlots (s : State) : State :=
  s.updateSlots (fun c cs => decide (swapSlot s.egress s.active c cs.slot ≠ cs.slot))
    (fun c cs => swapSlot s.egress s.active c cs.slot)

/-- One interlude is taken, as the row of its name takes it. -/
def State.interlude (s : State) : Interlude → State
  | .deskClaim => s.takeDeskClaim
  | .step => s.fadeStep

/-- Interludes are taken one after the other. -/
def State.interludes (s : State) (between : List Interlude) : State := between.foldl State.interlude s

/-- The effects of a swap in their order, with what is taken after each but the last (R175). -/
def State.runEffects : List (State → State) → List (List Interlude) → State → State
  | [], _, s => s
  | [effect], _, s => effect s
  | effect :: next :: rest, gaps, s =>
    State.runEffects (next :: rest) gaps.tail ((effect s).interludes (gaps.headD []))

/-- The eight effects of a swap from the map `old`, in the order of R175. -/
def swapEffects (old : Bank) : List (State → State) :=
  [State.exchangeBanks, State.closeAmend, fun s => s.endRamps (fun _ => true), fun s => s.swapStations old,
   fun s => s.leaveDisabled old, State.swapSlots, State.recomputeAll, fun s => s.commandDone s.generation.toNat]

/-- The swap that has passed its recheck (R175), with what is taken between its effects. -/
def State.swapBanks (s : State) (gaps : List (List Interlude)) : State :=
  State.runEffects (swapEffects s.active) gaps s

/-- MAP_SWAP (R124, R174, R175): at an idle point with a swap pending, the lock test is asked again and the swap
is taken or refused LOCKED. -/
def execMapSwap (s : State) (gaps : List (List Interlude) := []) : Host.Outcome State Fault Refusal :=
  if s.swapPending && decide (s.current = none) then
    .next (if s.locked then s.commandRefused .locked 0 0 else s.swapBanks gaps)
  else .next s

end Sys2Proof.Machine
end

