-- ==== Sys2Proof/Machine/Resets.lean ====
section
/-! DEFINITION. The three resets: POWER, RESTART, and the assertion and release of RST#. -/

namespace Sys2Proof.Machine

/-- POWER: every field takes the POWER column of its chapter's reset table. The straps and EGR# are sampled
(R141, R154); the lines, the SRAM and the queue of commands are outside the part and stand (log 2). -/
def execPower (straps : BitVec 2) (s : State) : Host.Outcome State Fault Refusal :=
  .next { State.reset with
    pending := s.pending
    rst := s.rst
    egrLine := s.egrLine
    passHigh := s.passHigh
    mem := s.mem
    base := straps
    egress := sampledEgress s.egrLine }

/-! ### RESTART -/

/-- The access held is a circuit-window read waiting for its grant. -/
def State.holdsWindowRead (s : State) : Bool :=
  match s.port with
  | .waitGrant (.read a) => (s.windowCircuit a.addr a.lanes).isSome
  | .waitGrant (.write _) => false
  | .waitSlot _ => false
  | .idle => false

/-- A frame clear begins (R151); a circuit-window read waiting for its grant is answered 0 (R157). -/
def State.beginFrameClear (s : State) : State :=
  let s1 := { s with front := .a, clear := some 0 }
  if s.holdsWindowRead then { s1 with port := .idle, upData := bothBytes 0 } else s1

/-- What RESTART sets as POWER sets it (R177, and the RESTART columns of the reset tables). -/
def State.restarted (s : State) : State :=
  { s with
    active := Bank.empty
    standby := Bank.empty
    generation := 0
    circuits := Table.fill 384 CircuitState.initial
    mode := .open_
    egress := sampledEgress s.egrLine
    amend := none
    hold := false
    events := []
    scanhold := false
    stations := Table.fill 112 StationState.initial
    deskQueue := []
    current := none
    lastRefusal := RefusalRecord.initial
    counters := Counters.zero
    causes := 0
    parameter := 0
    status := .restartRunning
    resetCause := .restart }

/-- RESTART (R177), command code 11. -/
def execRestart (s : State) : Host.Outcome State Fault Refusal :=
  .next (s.offerCommand 11 (fun t => t.restarted.beginFrameClear))

/-! ### RST# -/

/-- The cells a COMMIT has loaded in a phase (R169). -/
def CommitPhase.cells : CommitPhase → Nat
  | .loading k => k
  | .validating => Config.imageCells
  | .swapPending => Config.imageCells

/-- The number of a phase: 1 loading, 2 validating, 3 swap pending (R169). -/
def CommitPhase.number : CommitPhase → Nat
  | .loading _ => 1
  | .validating => 2
  | .swapPending => 3

/-- The command status a line reset leaves (R170, R176): a COMMIT is abandoned, a RESTART runs on. -/
def CommandStatus.afterLine : CommandStatus → CommandStatus
  | .commitRunning p => .refused .abandoned p.cells p.number
  | .restartRunning => .restartRunning
  | .idle => .idle
  | .done _ => .idle
  | .refused _ _ _ => .idle

/-- The transfer in progress at an assertion of RST# completes (R162): the port no longer waits for an upstream
access's (log 21), and a loader read is discarded, its COMMIT being abandoned (R160, R176). -/
def Requester.abandoned : Requester → Requester
  | .loader k _ => .loader k true
  | .upstream => .upstreamPast
  | .upstreamPast => .upstreamPast
  | .writeBack => .writeBack
  | .frameClear => .frameClear

/-- LINE_RESET (R162): the assertion of RST#. -/
def execLineReset (s : State) : Host.Outcome State Fault Refusal :=
  if s.rst then .next s
  else .next { s with
    rst := true
    port := .idle
    deskQueue := []
    runCount := 0
    causes := 0
    mask := 0
    resetCause := .line
    status := s.status.afterLine
    transfer := s.transfer.map (fun t => { t with requester := t.requester.abandoned }) }

/-- RST_RELEASE (R162, R84): the straps are sampled, each running silence timer restarts from zero, and the port
takes accesses again. -/
def execRstRelease (straps : BitVec 2) (s : State) : Host.Outcome State Fault Refusal :=
  if s.rst then
    .next { s.mapStations (fun _ st => { st with silence := st.silence.map (fun _ => 0) }) with
      rst := false
      base := straps }
  else .next s

end Sys2Proof.Machine
end

