-- ==== Sys2Proof/Machine/ControlBlock.lean ====
section
/-! DEFINITION. What a read of the control block answers (R157, R167, R178). It changes no state and the opcode
table has no row for it, so it is a function of the state (log 14). -/

namespace Sys2Proof.Machine

/-- The code of a command status (R167). -/
def CommandStatus.code : CommandStatus → Nat
  | .idle => 0
  | .commitRunning _ => 1
  | .restartRunning => 1
  | .done _ => 2
  | .refused _ _ _ => 3

/-- Reason codes (R167). -/
def Reason.code : Reason → Nat
  | .noReason => 0
  | .unknown => 1
  | .badParameter => 2
  | .locked => 3
  | .closed => 4
  | .invalid => 5
  | .illegalTransition => 6
  | .notInShow => 7
  | .lineActive => 8
  | .notLatched => 9
  | .abandoned => 10
  | .poolExhausted => 11
  | .circuitFull => 12

/-- The reason a command status carries (R169). Where the status is not REFUSED the spec states no reason, and the model's
choice is NONE (log 22). -/
def CommandStatus.reason : CommandStatus → Reason
  | .refused r _ _ => r
  | .idle => .noReason
  | .commitRunning _ => .noReason
  | .restartRunning => .noReason
  | .done _ => .noReason

/-- Detail 1 (R169). -/
def State.detail1 (s : State) : Nat :=
  match s.status with
  | .idle => 0
  | .commitRunning p => p.cells
  | .restartRunning => s.clear.getD 0
  | .done d => d
  | .refused _ d _ => d

/-- Detail 2 (R169). -/
def State.detail2 (s : State) : Nat :=
  match s.status with
  | .idle => 0
  | .commitRunning p => p.number
  | .restartRunning => 0
  | .done _ => 0
  | .refused _ _ d => d

/-- Egress state codes (R167). -/
def EgressState.code : EgressState → Nat
  | .clear => 0
  | .pending _ => 1
  | .latchedActive => 2
  | .latchedCleared => 3

/-- The amend seconds remaining, rounded up; 0 while the window is shut, at least 1 while it is open (R138). -/
def State.amendSeconds (s : State) : Nat :=
  match s.amend with
  | none => 0
  | some ms => max 1 ((ms + 999) / 1000)

/-- Reset cause codes (R182). -/
def ResetCause.code : ResetCause → Nat
  | .power => 1
  | .line => 2
  | .restart => 3

/-- Event kind codes of the last refusal record (R167). -/
def RefusedKind.code : RefusedKind → Nat
  | .event .press => 1
  | .event .release => 2
  | .event .tap => 3
  | .event .long => 4
  | .event .longEnd => 5
  | .event .on => 6
  | .event .off => 7
  | .deskWrite => 8

/-- The last refusal owner cell (R167). -/
def ownerCell : Option Owner → Nat
  | some (.station n) => n.val
  | some (.desk t) => 0x0100 + t.val
  | none => 0xFFFF

/-- The event kind cell; none reads 0. -/
def kindCell : Option RefusedKind → Nat
  | some k => k.code
  | none => 0

/-- The weight of a flag's bit. -/
def flagBit (k : Nat) (b : Bool) : Nat := if b then 2 ^ k else 0

/-- The status word of a station (R167, R178). -/
def State.statusWord (s : State) (n : StationId) : Nat :=
  let st := s.station n
  flagBit 0 (s.active.station n).enabled + flagBit 1 (!st.baselineRequired) + flagBit 2 st.lost +
    flagBit 3 st.suspect + flagBit 4 st.faults.contact + flagBit 5 st.faults.gap + flagBit 6 st.faults.line +
    flagBit 7 st.faults.qloss + flagBit 8 (s.markerQueued n)

/-- The front frame bit: 0 for A, 1 for B (R167). -/
def Frame.isB : Frame → Bool
  | .a => false
  | .b => true

/-- The status word cell of offset 0100h + 2 × s; 0 beyond the stations. -/
def State.stationCell (s : State) (offset : Nat) : Nat :=
  if h : (offset - 0x0100) / 2 < 112 then s.statusWord ⟨(offset - 0x0100) / 2, h⟩ else 0

/-- The number a control-block cell holds, by the even offset of the cell; a cell the layout does not name reads
0 (R157, R167). -/
def State.controlNumber (s : State) (offset : Nat) : Nat :=
  match offset with
  | 0x0000 => s.command.toNat
  | 0x0002 => s.parameter.toNat
  | 0x0006 => s.status.code + 256 * s.status.reason.code
  | 0x0008 => s.detail1
  | 0x000A => s.detail2
  | 0x0010 => s.mode.code
  | 0x0012 => s.egress.code + flagBit 8 s.egrLine
  | 0x0014 => flagBit 0 s.hold
  | 0x0016 => s.amendSeconds
  | 0x0018 => flagBit 0 s.mapClosed
  | 0x001A => s.generation.toNat
  | 0x0020 => s.causes.toNat
  | 0x0022 => s.mask.toNat
  | 0x0024 => s.topCause
  | 0x0028 => inputCount s.events
  | 0x002A => s.poolFree
  | 0x002C => flagBit 0 s.front.isB + flagBit 1 s.flipPending + flagBit 2 s.clearRunning
  | 0x002E => s.resetCause.code
  | 0x0030 => s.counters.queueLosses
  | 0x0032 => s.counters.nightDrops
  | 0x0034 => s.counters.quarantineDrops
  | 0x0036 => s.counters.refusedActions
  | 0x0038 => s.counters.refusedDeskWrites
  | 0x003A => s.counters.refusedOtherWrites
  | 0x003C => s.counters.busyRefusals
  | 0x003E => s.counters.flips
  | 0x0040 => ownerCell s.lastRefusal.owner
  | 0x0042 => (s.lastRefusal.input.map (fun i => i.val)).getD 0xFFFF
  | 0x0044 => kindCell s.lastRefusal.kind
  | 0x0046 => s.lastRefusal.action.getD 0xFFFF
  | 0x0048 => s.lastRefusal.reason.code
  | other => if 0x0100 ≤ other && other % 2 == 0 then s.stationCell other else 0

/-- A control-block cell. -/
def State.controlCell (s : State) (offset : Nat) : Word := BitVec.ofNat 16 (s.controlNumber offset)

/-- What an upstream read of the control block is answered: the whole cell or its one byte (R157); none for a
read elsewhere, or one the port does not take. -/
def State.controlRead (s : State) (a : ReadAccess) : Option BusData :=
  match s.offsetOf a.addr with
  | some offset =>
    if s.upstreamReady && decide (regionOf offset = .control) && a.lanes.any then
      some (laneData a.lanes (s.controlCell offset))
    else none
  | none => none

end Sys2Proof.Machine
end

