-- ==== Sys2Proof/Machine/Clock.lean ====
section
/-! DEFINITION. The passing of time on an empty queue of commands (log 8): the timers move by one tick, and the
expiries that have become due. -/

namespace Sys2Proof.Machine

/-- A long-press timer after one tick. -/
def InputState.tick (i : InputState) : InputState :=
  match i.phase with
  | .timing r => { i with phase := .timing (r - Config.tickMs) }
  | .idle => i
  | .given => i

/-- A station's timers after one tick. -/
def StationState.tick (st : StationState) : StationState :=
  { st with inputs := st.inputs.mapIdx (fun _ i => i.tick),
            silence := st.silence.map (fun ms => ms + Config.tickMs) }

/-- The debounce after one tick. -/
def EgressState.tick : EgressState → EgressState
  | .pending ms => .pending (ms + Config.tickMs)
  | .clear => .clear
  | .latchedActive => .latchedActive
  | .latchedCleared => .latchedCleared

/-- One tick passes. RST# pauses the long-press and silence timers and no other (R73, R80, R48, R132, R137). -/
def State.advanceTime (s : State) : State :=
  { s with
    stepElapsed := s.stepElapsed + Config.tickMs
    amend := s.amend.map (fun ms => ms - Config.tickMs)
    egress := s.egress.tick
    stations := if s.rst then s.stations else s.stations.mapIdx (fun _ st => st.tick) }

/-- The expiries due at one station, its inputs ascending and then its silence timer. -/
def State.stationDue (s : State) (n : StationId) : List Instr :=
  (allInputs.filter (fun i => ((s.station n).inputs.get i).due)).map (fun i => Instr.longPressExpires n i) ++
    (if (s.station n).silenceDue (s.active.station n).silenceLimit then [Instr.silenceExpires n] else [])

/-- The expiries that are due, in the order in which the model takes them on an empty queue (log 8). -/
def State.dueExpiries (s : State) : List Instr :=
  (if Config.stepMs ≤ s.stepElapsed then [Instr.step] else []) ++
  ((if s.egress.debounceDue then [Instr.debounceExpires] else []) ++
  ((if s.amend = some 0 then [Instr.amendWindowExpires] else []) ++
  (if s.rst then [] else allStations.flatMap s.stationDue)))

end Sys2Proof.Machine
end

