-- ==== Sys2Proof/Machine/Dispatch.lean ====
section
/-! DEFINITION. One arm for each row of spec/opcode_table.json, in its order. -/

namespace Sys2Proof.Machine

def exec (i : Instr) (s : State) : Host.Outcome State Fault Refusal :=
  match i with
  | .power straps => Sys2Proof.Machine.execPower straps s
  | .lineReset => Sys2Proof.Machine.execLineReset s
  | .rstRelease straps => Sys2Proof.Machine.execRstRelease straps s
  | .egrAsserted => Sys2Proof.Machine.execEgrAsserted s
  | .egrReleased => Sys2Proof.Machine.execEgrReleased s
  | .debounceExpires => Sys2Proof.Machine.execDebounceExpires s
  | .passFalls => Sys2Proof.Machine.execPassFalls s
  | .passRises => Sys2Proof.Machine.execPassRises s
  | .step => Sys2Proof.Machine.execStep s
  | .longPressExpires n j => Sys2Proof.Machine.execLongPressExpires n j s
  | .silenceExpires n => Sys2Proof.Machine.execSilenceExpires n s
  | .amendWindowExpires => Sys2Proof.Machine.execAmendWindowExpires s
  | .stationCellWrite a => Sys2Proof.Machine.execStationCellWrite a s
  | .forwardedAccess a => Sys2Proof.Machine.execForwardedAccess a s
  | .circuitWindowRead a => Sys2Proof.Machine.execCircuitWindowRead a s
  | .viewWindowRead a => Sys2Proof.Machine.execViewWindowRead a s
  | .deskWrite a => Sys2Proof.Machine.execDeskWrite a s
  | .deskWriteJoins => Sys2Proof.Machine.execDeskWriteJoins s
  | .deskClaim => Sys2Proof.Machine.execDeskClaim s
  | .refusedWrite a => Sys2Proof.Machine.execRefusedWrite a s
  | .noByteAccess a => Sys2Proof.Machine.execNoByteAccess a s
  | .pendingCausesWrite v => Sys2Proof.Machine.execPendingCausesWrite v s
  | .enableMaskWrite v => Sys2Proof.Machine.execEnableMaskWrite v s
  | .controlCellWrite v => Sys2Proof.Machine.execControlCellWrite v s
  | .unknownCommand v => Sys2Proof.Machine.execUnknownCommand v s
  | .commit => Sys2Proof.Machine.execCommit s
  | .closeMap => Sys2Proof.Machine.execCloseMap s
  | .setMode => Sys2Proof.Machine.execSetMode s
  | .holdFades => Sys2Proof.Machine.execHoldFades s
  | .resumeFades => Sys2Proof.Machine.execResumeFades s
  | .amendCommand => Sys2Proof.Machine.execAmendCommand s
  | .restoreEgress => Sys2Proof.Machine.execRestoreEgress s
  | .clearFaults => Sys2Proof.Machine.execClearFaults s
  | .clearCounters => Sys2Proof.Machine.execClearCounters s
  | .releaseDesk => Sys2Proof.Machine.execReleaseDesk s
  | .restart => Sys2Proof.Machine.execRestart s
  | .writeBackGrant => Sys2Proof.Machine.execWriteBackGrant s
  | .loaderReadGrant => Sys2Proof.Machine.execLoaderReadGrant s
  | .frameClearGrant => Sys2Proof.Machine.execFrameClearGrant s
  | .transferEnd => Sys2Proof.Machine.execTransferEnd s
  | .frameClearEnds => Sys2Proof.Machine.execFrameClearEnds s
  | .validationEnds => Sys2Proof.Machine.execValidationEnds s
  | .mapSwap gaps => Sys2Proof.Machine.execMapSwap s gaps
  | .takeEntry claims => Sys2Proof.Machine.execTakeEntry s claims
  | .lostMarker claims => Sys2Proof.Machine.execLostMarker s claims
  | .returnedMarker => Sys2Proof.Machine.execReturnedMarker s
  | .set => Sys2Proof.Machine.execSet s
  | .toggle => Sys2Proof.Machine.execToggle s
  | .raise => Sys2Proof.Machine.execRaise s
  | .lower => Sys2Proof.Machine.execLower s
  | .release => Sys2Proof.Machine.execRelease s
  | .scene => Sys2Proof.Machine.execScene s
  | .mode => Sys2Proof.Machine.execMode s
  | .hold => Sys2Proof.Machine.execHold s
  | .resume => Sys2Proof.Machine.execResume s
  | .amend => Sys2Proof.Machine.execAmend s
  | .restore => Sys2Proof.Machine.execRestore s

end Sys2Proof.Machine
end

