-- ==== Sys2Proof/Machine/Step.lean ====
section
/-! DEFINITION. One step of the block: the command at the front of the queue, or on an empty queue the passing
of time (log 8). -/

namespace Sys2Proof.Machine

/-- One step. The command at the front leaves the queue and is executed on the rest. On an empty queue the first
expiry that is due is taken, and when none is due 5 ms pass. -/
def step (s : State) : Host.Outcome State Fault Refusal :=
  match s.pending with
  | c :: rest => exec c { s with pending := rest }
  | [] =>
    match s.dueExpiries with
    | c :: _ => exec c s
    | [] => .next s.advanceTime

/-- The state with the command that a word spells at the front of its queue; no word spells one (log 9). -/
def State.withFetchWord (s : State) (nbits w : Nat) : State :=
  match decodeTableWord nbits w with
  | some c => { s with pending := c :: s.pending }
  | none => s

end Sys2Proof.Machine
end

