-- ==== Sys2Proof/Safety.lean ====
section
/-! DEFINITION. What the rules say is true of the part at every moment: the invariants that claims about steps
use, each from the rule it cites. -/

namespace Sys2Proof.Machine

/-- A list is in class order, holds at most 8 contributions and at most one of each owner (R26, R27). -/
structure ListOk (l : List Contribution) : Prop where
  short : l.length ≤ Config.listCapacity
  ordered : l.Pairwise (fun x y => x.cls.rank ≤ y.cls.rank)
  oneEach : (l.map (fun x => x.owner)).Nodup

/-- The records in all circuit lists. -/
def State.recordsInLists (s : State) : Nat := (s.circuits.cells.map (fun cs => cs.list.length)).sum

/-- The contribution store is in order: every list, and no more records in lists than the pool has (R25). -/
structure StoreOk (s : State) : Prop where
  lists : ∀ c, ListOk (s.circuit c).list
  pool : s.recordsInLists ≤ Config.poolSize

/-- The stored levels are the effective levels (R44). -/
def LevelsCurrent (s : State) : Prop :=
  ∀ c, (s.circuit c).level = effectiveLevel s.active s.mode c (s.circuit c)

/-- While the egress state is latched, every egress member of the active map shows 1000 (R41, R136). -/
def EscapeRoutesLit (s : State) : Prop :=
  s.egress.latched = true → ∀ c, (s.active.circuit c).egressMember = true →
    (s.circuit c).slot = .active ∧ (s.circuit c).level = Config.fullLevel

/-- The egress state agrees with the line: asserted exactly in PENDING and LATCHED-ACTIVE (R132). -/
def EgressFollowsLine (s : State) : Prop :=
  match s.egress with
  | .clear => s.egrLine = false
  | .pending _ => s.egrLine = true
  | .latchedActive => s.egrLine = true
  | .latchedCleared => s.egrLine = false

/-- The house is in a show: PERFORMANCE or INTERVAL. -/
def HouseMode.inShow : HouseMode → Bool
  | .performance => true
  | .interval => true
  | .open_ => false
  | .prepare => false
  | .night => false

/-- The amend window is shut outside a show (R138). -/
def WindowOnlyInShow (s : State) : Prop := s.mode.inShow = false → s.amend = none

/-- The active map has passed validation, and so has the standby map once its swap is requested (R1, R174). -/
structure MapsOk (s : State) : Prop where
  active : s.active.valid = true
  standby : s.swapPending = true → s.standby.valid = true

/-- A COMMIT runs. -/
def CommandStatus.commits : CommandStatus → Bool
  | .commitRunning _ => true
  | .idle => false
  | .restartRunning => false
  | .done _ => false
  | .refused _ _ _ => false

/-- No COMMIT is in flight while the map is closed (R140). -/
def ClosedMapQuiet (s : State) : Prop := s.mapClosed = true → s.status.commits = false

/-- The markers of one station in a queue. -/
def markersOf (n : StationId) (l : List Entry) : Nat :=
  l.countP (fun e => !e.isInput && decide (e.station = n))

/-- The event queue holds at most 64 input events and at most one marker of each station (R86). -/
structure QueueOk (s : State) : Prop where
  inputs : inputCount s.events ≤ Config.eventCapacity
  markers : ∀ n, markersOf n s.events ≤ 1

/-- SCANHOLD# is asserted from 56 input events and released up to 48 (R94). -/
structure HoldOffOk (s : State) : Prop where
  asserted : 56 ≤ inputCount s.events → s.scanhold = true
  released : inputCount s.events ≤ 48 → s.scanhold = false

/-- A station is SUSPECT exactly when two or more of its fault flags are set (R66, R75). -/
def QuarantineOk (s : State) : Prop := ∀ n, (s.station n).suspect = decide (2 ≤ (s.station n).faults.size)

/-- A silence timer runs exactly for an enabled station with a silence limit that is not LOST, and a LOST
station requires a baseline (R80). -/
structure SupervisionOk (s : State) : Prop where
  timers : ∀ n, (s.station n).silence.isSome =
    ((s.active.station n).enabled && (s.active.station n).silenceLimit != 0 && !(s.station n).lost)
  lost : ∀ n, (s.station n).lost = true → (s.station n).baselineRequired = true

/-- The ports: at most 16 desk writes queued, a write waiting at the port only while 16 are, a run count up to 4, and
while RST# is asserted nothing is held and the port waits for no transfer (R159, R161, R162). -/
structure PortsOk (s : State) : Prop where
  queue : s.deskQueue.length ≤ Config.deskQueueCapacity
  waits : ∀ d, s.port = .waitSlot d → Config.deskQueueCapacity ≤ s.deskQueue.length
  run : s.runCount ≤ Config.runLimit
  reset : s.rst = true → s.port = .idle ∧ s.deskQueue = [] ∧ s.upstreamInTransfer = false

/-- The values of desk writes that have been accepted (R158). -/
structure DeskValuesOk (s : State) : Prop where
  queued : ∀ d ∈ s.deskQueue, deskValueOk d.value = true
  waiting : ∀ d, s.port = .waitSlot d → deskValueOk d.value = true

/-- The movement of a contribution with its fade part or its rate in range (R23, R24, R50). -/
def MovementOk (x : Contribution) : Prop :=
  match x.movement with
  | .steady => x.current = x.target
  | .fading start steps index =>
    start ≤ Config.fullLevel ∧ index < steps ∧ 4 ≤ steps ∧ steps ≤ 2400 ∧
      x.current = fadeLevel start x.target index steps
  | .ramp start steps index _ =>
    start ≤ Config.fullLevel ∧ index < steps ∧ 1 ≤ steps ∧ steps ≤ 2400 ∧
      (x.target = 0 ∨ x.target = Config.fullLevel) ∧ x.current = fadeLevel start x.target index steps
  | .leaving rate => 1 ≤ rate ∧ rate ≤ 250

/-- A contribution's levels are levels, and its movement is in range (R23). -/
structure ContributionOk (x : Contribution) : Prop where
  current : x.current ≤ Config.fullLevel
  target : x.target ≤ Config.fullLevel
  movement : MovementOk x

/-- A slot that leaves holds a level and a rate in range (R37). -/
def SlotOk : Slot → Prop
  | .empty => True
  | .active => True
  | .leaving level rate => level ≤ Config.fullLevel ∧ 1 ≤ rate ∧ rate ≤ 250

/-- The actions left of the entry being executed lie in the action pool (R10, R108). -/
def FlightOk (s : State) : Prop := ∀ e next left, s.current = some ⟨e, .running next left⟩ → next + left ≤ 2048

/-- Every level held is from 0 to 1000 (00_scope.md, Levels; R23, R37, R41). It rests on valid maps and on
accepted desk values, so it names them too. -/
structure LevelsOk (s : State) : Prop where
  maps : MapsOk s
  desk : DeskValuesOk s
  contributions : ∀ c, ∀ x ∈ (s.circuit c).list, ContributionOk x
  slots : ∀ c, SlotOk (s.circuit c).slot
  stored : ∀ c, (s.circuit c).level ≤ Config.fullLevel
  flight : FlightOk s

/-- What the frames hold (R46, R145, R151). Outside a frame clear, a cell whose owed flag is clear holds its
circuit's stored level; a frame clear has written 0 to the cells it has passed. -/
structure FramesHold (s : State) : Prop where
  published : s.clear = none → ∀ f c, (s.circuit c).owes f = false →
    Memory.readCell s.mem (s.frameCell f c) = BitVec.ofNat 16 (s.circuit c).level
  cleared : ∀ k, s.clear = some k →
    ∀ j, j < k → j < Config.clearCells → Memory.readCell s.mem (windowAddress s.base (clearOffset j)) = 0
  range : ∀ k, s.clear = some k → k ≤ Config.clearCells

/-- A property of states that every step keeps: what `P` says of a state it says of the next. -/
def StepKeeps (P : State → Prop) : Prop := ∀ s t, step s = .next t → P s → P t

/-! ### The words of the rules, for the statements -/

/-- Both owed flags are set when the stored level has changed, and stand when it has not (R45). -/
def OwedFollows (before after : CircuitState) : Prop :=
  (after.level = before.level → after.owedA = before.owedA ∧ after.owedB = before.owedB) ∧
  (after.level ≠ before.level → after.owedA = true ∧ after.owedB = true)

/-- A circuit after a recompute: its stored level is its effective level, and its owed flags follow (R44, R45). -/
structure Recomputed (b : Bank) (mode : HouseMode) (c : CircuitId) (before after : CircuitState) : Prop where
  level : after.level = effectiveLevel b mode c after
  owed : OwedFollows before after

/-- `after` is `before` with the record of `x`'s owner, if it held one, taken out and `x` put at the front of its
class segment (R26). -/
def PlacedFront (x : Contribution) (before after : List Contribution) : Prop :=
  ∃ ahead behind, after = ahead ++ x :: behind ∧
    ahead ++ behind = before.filter (fun y => !decide (y.owner = x.owner)) ∧
    (∀ y ∈ ahead, y.cls.rank < x.cls.rank) ∧ (∀ y, behind.head? = some y → x.cls.rank ≤ y.cls.rank)

/-- The level a create starts from is the circuit's stored level; a renewal starts from the contribution's own
(R29, R30). -/
def startLevel (cs : CircuitState) (o : Owner) : Nat :=
  match ownContribution cs.list o with
  | some y => y.current
  | none => cs.level

/-- A create captures the class of the claim; a renewal keeps the captured class (R29, R30). -/
def capturedClass (cs : CircuitState) (o : Owner) (k : Cls) : Cls :=
  match ownContribution cs.list o with
  | some y => y.cls
  | none => k

/-- The owner's contribution goes to a level with a fade time: a snap at 0, otherwise a fade of 4 × t steps
(R29, R30, R112). -/
def GoesToLevel (o : Owner) (k : Cls) (level time : Nat) (before after : CircuitState) : Prop :=
  ∃ x, PlacedFront x before.list after.list ∧ x.owner = o ∧ x.cls = capturedClass before o k ∧ x.target = level ∧
    (time = 0 → x.current = level ∧ x.movement = .steady) ∧
    (time ≠ 0 → x.current = startLevel before o ∧ x.movement = .fading (startLevel before o) (4 * time) 0)

/-- The owner's contribution ramps to a target held by an input: N = ceiling(4 × t × d / 1000) steps, at least 1,
and STEADY at distance 0 (R4, R53, R115). -/
def RampsToward (o : Owner) (k : Cls) (target time : Nat) (input : InputId) (before after : CircuitState) : Prop :=
  ∃ x, PlacedFront x before.list after.list ∧ x.owner = o ∧ x.cls = capturedClass before o k ∧ x.target = target ∧
    x.current = startLevel before o ∧
    (startLevel before o = target → x.movement = .steady) ∧
    (startLevel before o ≠ target →
      x.movement = .ramp (startLevel before o)
        (max 1 ((4 * time * distance (startLevel before o) target + 999) / 1000)) 0 input)

/-- The contributions that satisfy `p` leave with a fade time: removed at 0, otherwise LEAVING in their places at
ceiling(1000 / (4 × t)) (R31). -/
def LeavesWith (p : Contribution → Bool) (time : Nat) (before after : List Contribution) : Prop :=
  (time = 0 → after = before.filter (fun x => !p x)) ∧
  (time ≠ 0 → after = before.map
    (fun x => if p x then { x with movement := .leaving ((1000 + 4 * time - 1) / (4 * time)) } else x))

/-- Every ramp that satisfies `p` stands STEADY where it is, and nothing else changes (R32). -/
def RampsEnded (p : Contribution → Bool) (before after : List Contribution) : Prop :=
  after = before.map (fun x => if p x && x.ramping then { x with target := x.current, movement := .steady } else x)

/-- The entry in flight has an action to run: record `a.index` of the pool, of kind code `code` (R108, R168). -/
def State.runs (s : State) (code : Nat) (a : RunningAction) : Prop :=
  ∃ tags left, s.current = some ⟨.input a.station a.input a.kind tags, .running a.index left⟩ ∧ left ≠ 0 ∧
    a.action = s.active.actionRec a.index ∧ a.action.kindCode = code

/-- What is in flight once an action has been taken: the next record, or nothing after the last (R108). -/
def State.afterAction (s : State) : Option InFlight :=
  match s.current with
  | some ⟨e, .running next left⟩ => if left ≤ 1 then none else some ⟨e, .running (next + 1) (left - 1)⟩
  | f => f

/-- The records that creates on the circuits `touch` need of an owner (R110). -/
def State.newRecords (s : State) (o : Owner) (touch : CircuitId → Bool) : Nat :=
  allCircuits.countP (fun c => touch c && !holds (s.circuit c).list o)

/-- The store can make every record the creates need (R110). -/
def State.hasRoom (s : State) (o : Owner) (touch : CircuitId → Bool) : Prop :=
  s.newRecords o touch ≤ s.poolFree ∧
  ∀ c, touch c = true → holds (s.circuit c).list o = false → (s.circuit c).list.length < Config.listCapacity

/-- A circuit that a scene's item names (R117). -/
def State.inScene (s : State) (a : ActionRec) (c : CircuitId) : Bool := (s.active.sceneLevel a.param c).isSome

/-- The part takes a command that is written now: the port is free and none is RUNNING (R157, R169). -/
def State.takesCommand (s : State) : Prop := s.upstreamReady = true ∧ s.status.running = false

/-- A forwarded access is granted now: the port takes it, no transfer is in progress, and the fairness rule does not
give the turn to an internal requester (R157, R160, R161). -/
def State.granted (s : State) (a : Access) : Prop :=
  s.rst = false ∧ (s.port = .idle ∨ s.port = .waitGrant a) ∧ s.transfer = none ∧
    (s.runCount < 4 ∨ s.internalWaits = false)

/-- A forwarded access that the port takes or already holds is not granted now: a transfer of another requester is in
progress, or the fairness rule gives the turn to an internal requester (R157, R160, R161). -/
def State.awaitsGrant (s : State) (a : Access) : Prop :=
  s.rst = false ∧ (s.port = .idle ∨ s.port = .waitGrant a) ∧ s.upstreamInTransfer = false ∧
    (s.transfer ≠ none ∨ (s.runCount = 4 ∧ s.internalWaits = true))

/-- The address of an offset of the window, with either value of A0 (R154). -/
def State.addresses (s : State) (addr : Address) (offset : Nat) : Prop :=
  offset % 2 = 0 ∧ offset < 0x10000 ∧
    (addr.toNat = windowAddress s.base offset ∨ addr.toNat = windowAddress s.base offset + 1)

/-- The legal transitions of the mode (R127). -/
def legalMoves : List (HouseMode × HouseMode) :=
  [(.open_, .prepare), (.open_, .night), (.prepare, .performance), (.prepare, .open_), (.performance, .interval),
   (.performance, .open_), (.interval, .performance), (.interval, .open_), (.night, .open_)]

/-- The record a refused action leaves (R123). -/
def RunningAction.refusal (a : RunningAction) (r : Reason) : RefusalRecord :=
  ⟨some (.station a.station), some a.input, some (.event a.kind), some a.index, r⟩

/-- The place of an input event among events in ascending station and input order. -/
def Entry.place : Entry → Nat
  | .input n i _ _ => 16 * n.val + i.val
  | .marker n _ => 16 * n.val

/-- A claim on lists (R44): a circuit that it touches takes a list related to its own by `claim`, keeps its slot and is
recomputed; another circuit is left as it is. -/
def ListsClaimed (touch : CircuitId → List Contribution → Bool)
    (claim : CircuitId → List Contribution → List Contribution → Prop) (s t : State) : Prop :=
  ∀ c,
    (touch c (s.circuit c).list = true → claim c (s.circuit c).list (t.circuit c).list ∧
      (t.circuit c).slot = (s.circuit c).slot ∧ Recomputed s.active s.mode c (s.circuit c) (t.circuit c)) ∧
    (touch c (s.circuit c).list = false → t.circuit c = s.circuit c)

/-- The end-of-ramp claim on the contributions that satisfy `p`, over every circuit (R32): a circuit that holds such a
ramp is recomputed, another is left as it is. -/
def RampsEndedOn (p : Contribution → Bool) : State → State → Prop :=
  ListsClaimed (fun _ l => l.any (fun x => p x && x.ramping)) (fun _ => RampsEnded p)

/-- The long-press timers of a station stop: TIMING becomes IDLE, and nothing else of its inputs changes (R73). -/
def TimersStopped (before after : StationState) : Prop :=
  ∀ i, (after.inputs.get i).closed = (before.inputs.get i).closed ∧
    (after.inputs.get i).acted = (before.inputs.get i).acted ∧
    (∀ r, (before.inputs.get i).phase = .timing r → (after.inputs.get i).phase = .idle) ∧
    ((∀ r, (before.inputs.get i).phase ≠ .timing r) → (after.inputs.get i).phase = (before.inputs.get i).phase)

/-- A set of fault kinds is recorded on a station (R75): its flags are set, and two flags or more set SUSPECT, which
stops its long-press timers and ends its ramps. -/
structure Records (f : FaultSet) (n : StationId) (s t : State) : Prop where
  faults : (t.station n).faults = (s.station n).faults.union f
  suspect : (t.station n).suspect =
    ((s.station n).suspect || (decide (f.size ≠ 0) && decide (2 ≤ (t.station n).faults.size)))
  unmoved : (t.station n).suspect = (s.station n).suspect →
    (t.station n).inputs = (s.station n).inputs ∧ t.circuits = s.circuits
  quarantined : (s.station n).suspect = false → (t.station n).suspect = true →
    TimersStopped (s.station n) (t.station n) ∧
      RampsEndedOn (fun x => decide (x.owner = .station n)) s t
  station : t.station n = { s.station n with
    faults := (t.station n).faults, suspect := (t.station n).suspect, inputs := (t.station n).inputs }
  others : ∀ m, m ≠ n → t.station m = s.station m

/-- A counter that has been raised `k` times by one (R181). -/
def raisedBy (k n : Nat) : Nat := if k = 0 then n else min (n + k) 65535

/-- What an offer of one station's input events, made by a write that found `tags` faults or by another event that
found none, leaves (R74, R88, R89, R94): the events that find fewer than 64 queued join at the tail in order, the
first with the tags; the others are lost and counted; the tags of an offer from which nothing joins, and QLOSS for a
loss, are recorded. -/
structure OfferedBy (tags : TagSet) (events : List Entry) (n : StationId) (s t : State) : Prop where
  queue : t.events = s.events ++ tagFirst tags (events.take (64 - inputCount s.events))
  scanhold : t.scanhold = (List.range (min events.length (64 - inputCount s.events))).foldl
    (fun h j => scanholdAfter (inputCount s.events + j + 1) h) s.scanhold
  records : Records
    ((if events = [] ∨ 64 ≤ inputCount s.events then tags.faults else FaultSet.none).union
      (if events.length ≤ 64 - inputCount s.events then FaultSet.none else FaultSet.qlossOnly)) n s t
  lossCount : t.counters =
    { s.counters with queueLosses := raisedBy (events.length - (64 - inputCount s.events)) s.counters.queueLosses }
  causes : ∀ c, t.causePending c = true ↔ s.causePending c = true ∨
    (c = .queue ∧ 64 - inputCount s.events < events.length) ∨
    (c = .fault ∧ (64 - inputCount s.events < events.length ∨
      ((events = [] ∨ 64 ≤ inputCount s.events) ∧ tags.faults.size ≠ 0)))
  frame : t = { s with events := t.events, scanhold := t.scanhold, stations := t.stations, circuits := t.circuits,
                       causes := t.causes, counters := t.counters }

/-- The re-assertion of one station (R78) against given acted states: the ON or OFF events of its MAINTAINED inputs
below inputs used whose present state differs from the acted state, ascending; none while it is SUSPECT. -/
def ReassertsAs (b : Bank) (n : StationId) (st : StationState) (acted : InputId → Bool) (events : List Entry) : Prop :=
  events.Pairwise (fun e f => e.place < f.place) ∧
  ∀ e, e ∈ events ↔ ∃ i : InputId, i.val < (b.station n).inputsUsed ∧ st.suspect = false ∧
    (b.binding n i).trigger = .maintained ∧ (st.inputs.get i).closed ≠ acted i ∧
    e = .input n i (if (st.inputs.get i).closed then .on else .off) ⟨false, false, false⟩

/-- The faults an evaluating write finds: CONTACT on a DUAL station with equal raw bits at a used input (R69), GAP
where the sequence byte is neither the old one nor the next, but never at a baseline (R70), and LINE from bit 7 of the
status byte (R71). -/
structure Finds (r : StationRec) (copy : CellCopy) (reference : Byte) (baseline : Bool) (found : TagSet) : Prop where
  contact : found.contact = true ↔ r.dual = true ∧ ∃ i : InputId, i.val < r.inputsUsed ∧
    copy.inputs.getLsbD i.val = copy.complements.getLsbD i.val
  gap : found.gap = true ↔ baseline = false ∧ copy.sequence.toNat ≠ reference.toNat ∧
    copy.sequence.toNat ≠ (reference.toNat + 1) % 256
  line : found.line = true ↔ copy.status.getLsbD 7 = true

/-- The command that an interlude is. -/
def commandOf : Interlude → Instr
  | .deskClaim => .deskClaim
  | .step => .step

/-- What is taken between two effects of a swap, each command whole and in its order (R175). -/
inductive TakenBetween : List Interlude → State → State → Prop where
  | nothing (s : State) : TakenBetween [] s s
  | command {i : Interlude} {rest : List Interlude} {s u t : State} : exec (commandOf i) s = .next u →
      TakenBetween rest u t → TakenBetween (i :: rest) s t

/-- The fault kinds of an entry's tag set; a marker carries none (R85). -/
def Entry.tagged : Entry → FaultSet
  | .input _ _ _ t => t.faults
  | .marker _ _ => FaultSet.none

/-- The head has left the queue, SCANHOLD# following the count (R92, R94), and its tags are recorded (R100, R101). -/
structure HeadTaken (e : Entry) (rest : List Entry) (s t : State) : Prop where
  records : Records e.tagged e.station s t
  scanhold : t.scanhold = if e.isInput then scanholdAfter (inputCount rest) s.scanhold else s.scanhold
  causes : t.causes = if e.tagged.size = 0 then s.causes else Cause.fault.mark s.causes
  frame : t = { s with events := rest, scanhold := t.scanhold, stations := t.stations, circuits := t.circuits,
                       causes := t.causes }

/-- Stage 2 of a step on one circuit (R49, R56): behind the contributions it has `done`, the step handles those of
`todo` one at a time, front first. A LEAVING one is removed when its distance from the level of the list without it is
at most its rate, and otherwise moves toward that level by exactly its rate. -/
inductive FrontFirst (b : Bank) (mode : HouseMode) (c : CircuitId) :
    List Contribution → List Contribution → List Contribution → Prop where
  | finished (done : List Contribution) : FrontFirst b mode c done [] done
  | kept {done todo after : List Contribution} {x : Contribution} : x.isLeaving = false →
      FrontFirst b mode c (done ++ [x]) todo after → FrontFirst b mode c done (x :: todo) after
  | arrives {done todo after : List Contribution} {x : Contribution} {rate : Nat} : x.movement = .leaving rate →
      distance x.current (listLevel b mode c (done ++ todo)) ≤ rate →
      FrontFirst b mode c done todo after → FrontFirst b mode c done (x :: todo) after
  | rises {done todo after : List Contribution} {x : Contribution} {rate : Nat} : x.movement = .leaving rate →
      x.current + rate < listLevel b mode c (done ++ todo) →
      FrontFirst b mode c (done ++ [{ x with current := x.current + rate }]) todo after →
      FrontFirst b mode c done (x :: todo) after
  | falls {done todo after : List Contribution} {x : Contribution} {rate : Nat} : x.movement = .leaving rate →
      listLevel b mode c (done ++ todo) + rate < x.current →
      FrontFirst b mode c (done ++ [{ x with current := x.current - rate }]) todo after →
      FrontFirst b mode c done (x :: todo) after

/-- The place of an expiry among those that are due together, in the order in which the model takes them (log 8). -/
def duePlace : Instr → Nat
  | .debounceExpires => 1
  | .amendWindowExpires => 2
  | .longPressExpires n i => 3 + 17 * n.val + i.val
  | .silenceExpires n => 19 + 17 * n.val
  | _ => 0

/-- Every circuit is recomputed under a map and a mode, its list and slot standing (R44). -/
def AllRecomputed (b : Bank) (mode : HouseMode) (s t : State) : Prop :=
  ∀ c, (t.circuit c).list = (s.circuit c).list ∧ (t.circuit c).slot = (s.circuit c).slot ∧
    Recomputed b mode c (s.circuit c) (t.circuit c)

end Sys2Proof.Machine
end

