-- ==== Sys2Proof/Certificates/Slice0/Obligations.lean ====
section
/-! DEFINITION. The statements about the CL-384 that are left to the provers. An equation
`exec c s = .next { s with … }` names everything the command changes and leaves every other register, list, counter
and byte of SRAM as it was. Where the next state `t` is described clause by clause, `t = { s with f := t.f, … }`
says the same: only the fields it names may differ. -/

open Sys2Proof Sys2Proof.Machine

/-! ### The machine: its queue of commands, and time -/

/-- The model's interface (logs 3, 9): the command at the front of the queue is executed on the rest. -/
def Obligations.StepTakesTheFrontCommand : Prop :=
  ∀ (c : Instr) (rest : List Instr) (s : State),
    step { s with pending := c :: rest } = exec c { s with pending := rest }

/-- The model's choice (log 8): on an empty queue a step takes the first expiry that is due, and when none is due
5 ms pass on the running timers, RST# pausing the long-press and silence timers (R73, R80) and no other. Due are the
step at 25 ms (R48), the debounce at 40 ms (R132), the amend window with no time left (R138), a long press with no time
left of its 600 ms (R73) and a silence timer at its limit of L × 500 ms (R80), and nothing else; that they stand in this
order, station by station, is the model's choice too (log 8). -/
def Obligations.IdleStepTakesADueExpiryOrLetsTimePass : Prop :=
  ∀ s : State, s.pending = [] →
    (∀ c l, s.dueExpiries = c :: l → step s = exec c s) ∧
    ((Instr.step ∈ s.dueExpiries ↔ 25 ≤ s.stepElapsed) ∧
      (Instr.debounceExpires ∈ s.dueExpiries ↔ ∃ ms, s.egress = .pending ms ∧ 40 ≤ ms) ∧
      (Instr.amendWindowExpires ∈ s.dueExpiries ↔ s.amend = some 0) ∧
      (∀ n i, Instr.longPressExpires n i ∈ s.dueExpiries ↔
        s.rst = false ∧ ((s.station n).inputs.get i).phase = .timing 0) ∧
      (∀ n, Instr.silenceExpires n ∈ s.dueExpiries ↔ s.rst = false ∧ (s.active.station n).silenceLimit ≠ 0 ∧
        ∃ ms, (s.station n).silence = some ms ∧ (s.active.station n).silenceLimit * 500 ≤ ms) ∧
      (∀ c ∈ s.dueExpiries, c = .step ∨ c = .debounceExpires ∨ c = .amendWindowExpires ∨
        (∃ n i, c = .longPressExpires n i) ∨ ∃ n, c = .silenceExpires n) ∧
      s.dueExpiries.Pairwise (fun c d => duePlace c < duePlace d)) ∧
    (s.dueExpiries = [] → ∃ t, step s = .next t ∧
      t.stepElapsed = s.stepElapsed + 5 ∧
      t.amend = s.amend.map (fun ms => ms - 5) ∧
      (∀ ms, s.egress = .pending ms → t.egress = .pending (ms + 5)) ∧
      ((∀ ms, s.egress ≠ .pending ms) → t.egress = s.egress) ∧
      (s.rst = true → t.stations = s.stations) ∧
      (s.rst = false → ∀ n,
        (t.station n).silence = (s.station n).silence.map (fun ms => ms + 5) ∧
        (∀ i, ((t.station n).inputs.get i).closed = ((s.station n).inputs.get i).closed ∧
          ((t.station n).inputs.get i).acted = ((s.station n).inputs.get i).acted ∧
          (∀ ms, ((s.station n).inputs.get i).phase = .timing ms →
            ((t.station n).inputs.get i).phase = .timing (ms - 5)) ∧
          ((∀ ms, ((s.station n).inputs.get i).phase ≠ .timing ms) →
            ((t.station n).inputs.get i).phase = ((s.station n).inputs.get i).phase)) ∧
        t.station n = { s.station n with inputs := (t.station n).inputs, silence := (t.station n).silence }) ∧
      t = { s with stepElapsed := t.stepElapsed, amend := t.amend, egress := t.egress, stations := t.stations })

/-- The model's choice (logs 3, 9): every command in every state gives a next state, also one that is not due there or
does not fit its row, and none touches the queue of commands that wait, which is the model's own. It agrees with the
opening of chapter 9: "The part has no bus error response". -/
def Obligations.EveryCommandCompletesAndKeepsTheQueue : Prop :=
  ∀ (c : Instr) (s : State), ∃ t, exec c s = .next t ∧ t.pending = s.pending

/-! ### Resets -/

/-- The POWER columns of R47, R64, R84, R98, R126, R141, R153, R163, R170 and R182, with the straps sampled (R154)
and EGR# sampled (R141). That SRAM and the external lines stand is the model's choice (log 2). -/
def Obligations.PowerGivesEveryRegisterItsPowerValue : Prop :=
  ∀ (straps : BitVec 2) (s : State), ∃ t, exec (.power straps) s = .next t ∧
    (t.active = Bank.empty ∧ t.standby = Bank.empty ∧ t.generation = 0) ∧
    ((∀ c, t.circuit c = ⟨[], .empty, 0, false, false⟩) ∧ t.poolFree = 1024) ∧
    (t.hold = false ∧ t.stepElapsed = 0) ∧
    (∀ n, (t.station n).copy = ⟨0, 0, 0, 0⟩ ∧ (∀ i, (t.station n).inputs.get i = ⟨false, false, .idle⟩) ∧
      (t.station n).baselineRequired = true ∧ (t.station n).faults = ⟨false, false, false, false⟩ ∧
      (t.station n).suspect = false ∧ (t.station n).lost = false ∧ (t.station n).silence = none) ∧
    (t.events = [] ∧ t.scanhold = false ∧ t.current = none ∧ t.swapPending = false) ∧
    t.lastRefusal = ⟨none, none, none, none, .noReason⟩ ∧
    (t.mode = .open_ ∧ t.amend = none ∧ t.mapClosed = false) ∧
    (s.egrLine = true → t.egress = .pending 0) ∧ (s.egrLine = false → t.egress = .clear) ∧
    (t.front = .a ∧ t.flipPending = false ∧ t.clear = some 0) ∧
    (t.base = straps ∧ t.port = .idle ∧ t.deskQueue = [] ∧ t.transfer = none ∧ t.runCount = 0) ∧
    (t.command = 0 ∧ t.parameter = 0 ∧ t.status = .idle ∧ t.detail1 = 0 ∧ t.detail2 = 0) ∧
    (t.causes = 0 ∧ t.mask = 0 ∧ t.topCause = 0 ∧ (∀ k, t.counters.value k = 0) ∧ t.resetCause = .power) ∧
    (t.mem = s.mem ∧ t.egrLine = s.egrLine ∧ t.passHigh = s.passHigh ∧ t.rst = s.rst)

/-- The assertion of RST# (R162, R176 and the LINE columns of the reset tables): the access held, the Desk Write
Queue, the run count, the causes and the mask are cleared, a COMMIT is abandoned, and everything else is kept. The
release (R162, R84) samples the straps and restarts every running silence timer from zero, and the port is idle and
takes an access, even while a transfer granted before the assertion still runs: that the port does not wait for that
transfer, which keeps its requester as an access of the past, is log 21. -/
def Obligations.RstLineClearsThePortsAndKeepsTheLighting : Prop :=
  (∀ s : State, s.rst = false → ∃ t, exec .lineReset s = .next t ∧
     t.rst = true ∧ t.port = .idle ∧ t.deskQueue = [] ∧ t.runCount = 0 ∧ t.causes = 0 ∧ t.mask = 0 ∧
     t.attn = false ∧ t.resetCause = .line ∧ t.swapPending = false ∧
     (∀ k, s.status = .commitRunning (.loading k) → t.status = .refused .abandoned k 1) ∧
     (s.status = .commitRunning .validating → t.status = .refused .abandoned 20008 2) ∧
     (s.status = .commitRunning .swapPending → t.status = .refused .abandoned 20008 3) ∧
     (s.status = .restartRunning → t.status = .restartRunning) ∧
     (s.status.running = false → t.status = .idle) ∧
     (s.transfer = none → t.transfer = none) ∧
     (∀ x, s.transfer = some x → ∃ y, t.transfer = some y ∧ y.cycle = x.cycle ∧
       (∀ k d, x.requester = .loader k d → y.requester = .loader k true) ∧
       (x.requester = .upstream → y.requester = .upstreamPast) ∧
       (x.requester ≠ .upstream → (∀ k d, x.requester ≠ .loader k d) → y.requester = x.requester)) ∧
     t.upstreamInTransfer = false ∧
     t = { s with rst := true, port := .idle, deskQueue := [], runCount := 0, causes := 0, mask := 0,
                  resetCause := .line, status := t.status, transfer := t.transfer }) ∧
  (∀ (straps : BitVec 2) (s : State), s.rst = true → ∃ t, exec (.rstRelease straps) s = .next t ∧
     t.rst = false ∧ t.base = straps ∧
     (∀ n, ((s.station n).silence = none → (t.station n).silence = none) ∧
       (∀ ms, (s.station n).silence = some ms → (t.station n).silence = some 0) ∧
       t.station n = { s.station n with silence := (t.station n).silence }) ∧
     t = { s with rst := false, base := straps, stations := t.stations } ∧
     (PortsOk s → t.upstreamReady = true ∧ t.rdyLow = false ∧ (∀ a, t.portTakes a = true) ∧
       (∀ a, t.forwards a = true → t.transfer ≠ none →
         exec (.forwardedAccess a) t = .next { t with port := .waitGrant a })))

/-- RESTART (R177): the lighting state takes its POWER values, the frame clear begins, and the map-closed flag, the
enable mask, the window base, the run count, the transfer in progress and SRAM are kept. -/
def Obligations.RestartReturnsTheLightingStateToItsBeginning : Prop :=
  ∀ s : State, s.takesCommand → ∃ t, exec .restart s = .next t ∧
    (t.command = 11 ∧ t.parameter = 0 ∧ t.status = .restartRunning ∧ t.resetCause = .restart) ∧
    (t.active = Bank.empty ∧ t.standby = Bank.empty ∧ t.generation = 0) ∧
    ((∀ c, t.circuit c = ⟨[], .empty, 0, false, false⟩) ∧ t.poolFree = 1024) ∧
    (t.mode = .open_ ∧ t.amend = none ∧ t.hold = false) ∧
    (s.egrLine = true → t.egress = .pending 0) ∧ (s.egrLine = false → t.egress = .clear) ∧
    (t.events = [] ∧ t.scanhold = false ∧ t.deskQueue = [] ∧ t.current = none ∧ t.swapPending = false) ∧
    (∀ n, (t.station n).copy = ⟨0, 0, 0, 0⟩ ∧ (∀ i, (t.station n).inputs.get i = ⟨false, false, .idle⟩) ∧
      (t.station n).baselineRequired = true ∧ (t.station n).faults = ⟨false, false, false, false⟩ ∧
      (t.station n).suspect = false ∧ (t.station n).lost = false ∧ (t.station n).silence = none) ∧
    t.lastRefusal = ⟨none, none, none, none, .noReason⟩ ∧ (∀ k, t.counters.value k = 0) ∧ t.causes = 0 ∧
    (t.front = .a ∧ t.clear = some 0 ∧ t.detail1 = 0 ∧ t.flipPending = false) ∧
    (t.mapClosed = s.mapClosed ∧ t.mask = s.mask ∧ t.base = s.base ∧ t.runCount = s.runCount ∧ t.port = s.port ∧
      t.transfer = s.transfer ∧ t.stepElapsed = s.stepElapsed ∧ t.mem = s.mem ∧ t.egrLine = s.egrLine ∧
      t.passHigh = s.passHigh ∧ t.rst = s.rst ∧ t.upData = s.upData)

/-- R182: POWER, the assertion of RST# and the take of a RESTART each set the reset cause, and nothing else changes
it; with them the Control Block's own state takes the values of the table of R182. -/
def Obligations.ResetCauseNamesTheLastReset : Prop :=
  (∀ straps s t, exec (.power straps) s = .next t →
    t.resetCause = .power ∧ t.causes = 0 ∧ t.mask = 0 ∧ t.topCause = 0 ∧ t.attn = false ∧
      (∀ k, t.counters.value k = 0) ∧ t.lastRefusal = RefusalRecord.initial) ∧
  (∀ s t, s.rst = false → exec .lineReset s = .next t →
    t.resetCause = .line ∧ t.causes = 0 ∧ t.mask = 0 ∧ t.topCause = 0 ∧ t.attn = false ∧
      t.counters = s.counters ∧ t.lastRefusal = s.lastRefusal) ∧
  (∀ s t, s.takesCommand → exec .restart s = .next t →
    t.resetCause = .restart ∧ t.causes = 0 ∧ t.mask = s.mask ∧
      (∀ k, t.counters.value k = 0) ∧ t.lastRefusal = RefusalRecord.initial) ∧
  (∀ s t, s.status = .restartRunning → s.clearComplete = true → exec .frameClearEnds s = .next t →
    t.status = .done 0 ∧ t.causePending .command = true ∧ t.mask = s.mask) ∧
  (∀ c s t, exec c s = .next t → t.resetCause ≠ s.resetCause →
    (∃ straps, c = .power straps) ∨ (c = .lineReset ∧ s.rst = false) ∨ (c = .restart ∧ s.takesCommand)) ∧
  (∀ c s t, exec c s = .next t → t.mask ≠ s.mask →
    (∃ straps, c = .power straps) ∨ c = .lineReset ∨ ∃ v, c = .enableMaskWrite v) ∧
  (ResetCause.power.code = 1 ∧ ResetCause.line.code = 2 ∧ ResetCause.restart.code = 3)

/-! ### Egress -/

/-- The table of R132, its two columns for the line: each state in which the line can move, and what it becomes. -/
def Obligations.EgressLineMovesTheEgressState : Prop :=
  ∀ s : State,
    (s.egress = .clear → exec .egrAsserted s = .next { s with egrLine := true, egress := .pending 0 }) ∧
    (s.egress = .latchedCleared → exec .egrAsserted s =
      .next { s with egrLine := true, egress := .latchedActive, causes := Cause.egress.mark s.causes }) ∧
    (s.egress = .clear → exec .egrReleased s = .next { s with egrLine := false }) ∧
    (∀ ms, s.egress = .pending ms → exec .egrReleased s = .next { s with egrLine := false, egress := .clear }) ∧
    (s.egress = .latchedActive → exec .egrReleased s =
      .next { s with egrLine := false, egress := .latchedCleared, causes := Cause.egress.mark s.causes })

/-- R38 with R132 and R133: the debounce expires in PENDING with its 40 ms run and every egress member of the active map
has its slot ACTIVE and shows 1000; the other circuits are untouched; and no change within the latch makes a claim on
the slots. A debounce that does not run or has time left does not expire (log 7). -/
def Obligations.DebounceExpiryLightsEveryEgressMember : Prop :=
  (∀ (s : State) (ms : Nat), s.egress = .pending ms → 40 ≤ ms → ∃ t, exec .debounceExpires s = .next t ∧
    t.egress = .latchedActive ∧ t.causes = Cause.egress.mark s.causes ∧
    (∀ c, (s.active.circuit c).egressMember = true →
      (t.circuit c).slot = .active ∧ (t.circuit c).list = (s.circuit c).list ∧ (t.circuit c).level = 1000 ∧
        OwedFollows (s.circuit c) (t.circuit c)) ∧
    (∀ c, (s.active.circuit c).egressMember = false → t.circuit c = s.circuit c) ∧
    t = { s with egress := t.egress, causes := t.causes, circuits := t.circuits }) ∧
  (∀ s : State, (∀ ms, s.egress = .pending ms → ms < 40) → exec .debounceExpires s = .next s) ∧
  (∀ s t, s.egress = .latchedCleared → exec .egrAsserted s = .next t → t.circuits = s.circuits) ∧
  (∀ s t, s.egress = .latchedActive → exec .egrReleased s = .next t → t.circuits = s.circuits)

/-- R134 with R39 and R121: a restore is judged by the egress state, alike for the command RESTORE_EGRESS and the
action RESTORE; accepted in LATCHED-CLEARED it makes every ACTIVE slot leave. -/
def Obligations.RestoreIsJudgedByTheEgressState : Prop :=
  let slots : State → State → Prop := fun s t => ∀ c,
    ((s.circuit c).slot = .active →
      (s.active.defaultTime c = 0 → (t.circuit c).slot = .empty) ∧
      (s.active.defaultTime c ≠ 0 → (t.circuit c).slot =
        .leaving 1000 ((1000 + 4 * s.active.defaultTime c - 1) / (4 * s.active.defaultTime c))) ∧
      (t.circuit c).list = (s.circuit c).list ∧ Recomputed s.active s.mode c (s.circuit c) (t.circuit c)) ∧
    ((s.circuit c).slot ≠ .active → t.circuit c = s.circuit c)
  (∀ s : State, s.takesCommand →
    (s.egress = .latchedCleared → ∃ t, exec .restoreEgress s = .next t ∧ slots s t ∧
      t = { s with command := 7, status := .done 0, egress := .clear, circuits := t.circuits,
                   causes := Cause.command.mark (Cause.egress.mark s.causes) }) ∧
    (s.egress = .latchedActive ∨ (∃ ms, s.egress = .pending ms) → exec .restoreEgress s =
      .next { s with command := 7, status := .refused .lineActive 0 0, causes := Cause.command.mark s.causes }) ∧
    (s.egress = .clear → exec .restoreEgress s =
      .next { s with command := 7, status := .refused .notLatched 0 0, causes := Cause.command.mark s.causes })) ∧
  (∀ (s : State) (a : RunningAction), s.runs 10 a →
    (s.egress = .latchedCleared → ∃ t, exec .restore s = .next t ∧ slots s t ∧
      t = { s with current := s.afterAction, egress := .clear, circuits := t.circuits,
                   causes := Cause.egress.mark s.causes }) ∧
    (s.egress = .latchedActive ∨ (∃ ms, s.egress = .pending ms) → exec .restore s =
      .next { s with current := s.afterAction, causes := Cause.refusal.mark s.causes,
                     counters := s.counters.bump .refusedActions, lastRefusal := a.refusal .lineActive }) ∧
    (s.egress = .clear → exec .restore s =
      .next { s with current := s.afterAction, causes := Cause.refusal.mark s.causes,
                     counters := s.counters.bump .refusedActions, lastRefusal := a.refusal .notLatched }))

/-! ### Steps and timers -/

/-- STEP (R49, R62): a circuit's list takes stages 1 and 2 unless the fade hold is set, its LEAVING slot takes stage 3
in either case (R58), the circuit is recomputed where its list, its list levels or its slot changed (R44), and nothing
but the circuits and the step timer changes. Where the stored levels are the effective levels, every circuit is as a
recompute leaves it. -/
def Obligations.StepTakesItsThreeStagesOnEveryCircuit : Prop :=
  ∀ s : State, ∃ t, exec .step s = .next t ∧
    (∀ c, (s.hold = true → (t.circuit c).list = (s.circuit c).list) ∧
      (s.hold = false → (t.circuit c).list =
        leavingStage s.active s.mode c [] ((s.circuit c).list.map Contribution.advance)) ∧
      ((s.circuit c).slot = .active → (t.circuit c).slot = .active) ∧
      ((s.circuit c).slot = .empty → (t.circuit c).slot = .empty) ∧
      (∀ level rate, (s.circuit c).slot = .leaving level rate →
        let listed := listLevel s.active s.mode c (t.circuit c).list
        (distance level listed ≤ rate → (t.circuit c).slot = .empty) ∧
        (rate < distance level listed → level < listed → (t.circuit c).slot = .leaving (level + rate) rate) ∧
        (rate < distance level listed → listed < level → (t.circuit c).slot = .leaving (level - rate) rate)) ∧
      (let same := (t.circuit c).list.map (fun x => x.current) = (s.circuit c).list.map (fun x => x.current) ∧
         (t.circuit c).slot = (s.circuit c).slot
       (same → t.circuit c = { s.circuit c with list := (t.circuit c).list }) ∧
       (¬ same → Recomputed s.active s.mode c (s.circuit c) (t.circuit c)))) ∧
    (LevelsCurrent s → ∀ c, Recomputed s.active s.mode c (s.circuit c) (t.circuit c)) ∧
    t = { s with circuits := t.circuits, stepElapsed := 0 }

/-- R50 and R53: at its step k of N a FADING or RAMP contribution stands at S + (T - S) × k / N, truncated toward S;
at step N it is STEADY at its target; its level stays between S and T at every step. -/
def Obligations.FadeStandsAtItsFractionTruncatedTowardTheStart : Prop :=
  (∀ (x : Contribution) (start steps index : Nat), x.movement = .fading start steps index →
    (index + 1 < steps → x.advance =
      { x with current := fadeLevel start x.target (index + 1) steps, movement := .fading start steps (index + 1) }) ∧
    (steps ≤ index + 1 → x.advance = { x with current := x.target, movement := .steady })) ∧
  (∀ (x : Contribution) (start steps index : Nat) (i : InputId), x.movement = .ramp start steps index i →
    (index + 1 < steps → x.advance =
      { x with current := fadeLevel start x.target (index + 1) steps,
               movement := .ramp start steps (index + 1) i }) ∧
    (steps ≤ index + 1 → x.advance = { x with current := x.target, movement := .steady })) ∧
  (∀ start target k steps : Nat, 0 < steps → k ≤ steps →
    (start ≤ target → (fadeLevel start target k steps - start) * steps ≤ (target - start) * k ∧
      (target - start) * k < (fadeLevel start target k steps - start + 1) * steps ∧
      start ≤ fadeLevel start target k steps ∧ fadeLevel start target k steps ≤ target) ∧
    (target ≤ start → (start - fadeLevel start target k steps) * steps ≤ (start - target) * k ∧
      (start - target) * k < (start - fadeLevel start target k steps + 1) * steps ∧
      target ≤ fadeLevel start target k steps ∧ fadeLevel start target k steps ≤ start)) ∧
  (∀ start target steps : Nat, 0 < steps → fadeLevel start target steps steps = target)

/-- R49 and R56: the LEAVING contributions of a circuit are handled one at a time, front first, each against the list as
the step has left it so far, and the list after the step is the one that comes of this. A single LEAVING contribution
whose distance from the level of the circuit without it is at most its rate is removed; otherwise it moves toward that
level by exactly its rate; the others are advanced and keep their places. -/
def Obligations.LeavingContributionChasesTheLevelWithoutIt : Prop :=
  (∀ (b : Bank) (mode : HouseMode) (c : CircuitId) (l after : List Contribution),
    FrontFirst b mode c [] (l.map Contribution.advance) after ↔ after = stepList b mode false c l) ∧
  (∀ (b : Bank) (mode : HouseMode) (c : CircuitId) (ahead behind : List Contribution) (x : Contribution) (rate : Nat),
    x.movement = .leaving rate → (∀ y ∈ ahead ++ behind, y.isLeaving = false) →
    let others := ahead.map Contribution.advance ++ behind.map Contribution.advance
    let target := listLevel b mode c others
    let after := stepList b mode false c (ahead ++ x :: behind)
    (distance x.current target ≤ rate → after = others) ∧
    (rate < distance x.current target → x.current < target → after =
      ahead.map Contribution.advance ++ { x with current := x.current + rate } :: behind.map Contribution.advance) ∧
    (rate < distance x.current target → target < x.current → after =
      ahead.map Contribution.advance ++ { x with current := x.current - rate } :: behind.map Contribution.advance))

/-- R73: the expiry of a long-press timer with no time left makes the phase LONG-GIVEN and offers a LONG (R88). R80 with
R90: a silence timer that has reached its limit of L × 500 ms makes its station LOST, stops its long-press timers, and the
queue then holds one LOST marker of the station: joined at the tail, converted in its place, or the one already there. A
timer that does not run, has time left (log 7) or is paused by RST# does not expire. -/
def Obligations.TimerExpiriesOfferALongAndLoseTheStation : Prop :=
  (∀ (s : State) (n : StationId) (i : InputId),
    (((s.station n).inputs.get i).phase = .timing 0 → s.rst = false →
      ∃ given t, exec (.longPressExpires n i) s = .next t ∧
        (given.station n).inputs.get i = { (s.station n).inputs.get i with phase := .given } ∧
        (∀ j, j ≠ i → (given.station n).inputs.get j = (s.station n).inputs.get j) ∧
        given.station n = { s.station n with inputs := (given.station n).inputs } ∧
        (∀ m, m ≠ n → given.station m = s.station m) ∧ given = { s with stations := given.stations } ∧
        OfferedBy TagSet.none [.input n i .long TagSet.none] n given t ∧
        ((t.station n).inputs.get i).phase = .given) ∧
    (((s.station n).inputs.get i).phase ≠ .timing 0 ∨ s.rst = true → exec (.longPressExpires n i) s = .next s)) ∧
  (∀ (s : State) (n : StationId),
    let limit := (s.active.station n).silenceLimit
    (∀ ms, (s.station n).silence = some ms → limit ≠ 0 → limit * 500 ≤ ms → s.rst = false →
      ∃ t, exec (.silenceExpires n) s = .next t ∧
        TimersStopped (s.station n) (t.station n) ∧
        t.station n = { s.station n with inputs := (t.station n).inputs, lost := true, silence := none,
                                         baselineRequired := true } ∧
        (∀ m, m ≠ n → t.station m = s.station m) ∧
        (markerIn s.events n = none → t.events = s.events ++ [.marker n .lost]) ∧
        (markerIn s.events n = some .returned → t.events =
          s.events.map (fun e => if e = .marker n .returned then .marker n .lost else e)) ∧
        (markerIn s.events n = some .lost → t.events = s.events) ∧
        t = { s with stations := t.stations, events := t.events }) ∧
    ((∀ ms, (s.station n).silence = some ms → limit = 0 ∨ ms < limit * 500) ∨ s.rst = true →
      exec (.silenceExpires n) s = .next s))

/-! ### Stations -/

/-- R65: a granted write to a station cell goes to SRAM; a disabled station's is otherwise ignored; a write that does
not cover byte +4 updates only the covered bytes of an enabled station's copy. R157, R160 and R161: a station write,
evaluating or not, that is not granted is held by the port and does nothing else; that the command presented again is
then its grant is log 4. That SRAM holds the bytes from the grant, before the transfer ends, is the model's reading
(log 13). -/
def Obligations.StationWriteReachesSramAndTheCopy : Prop :=
  ∀ (s : State) (w : WriteAccess) (n : StationId) (k : Nat),
    s.addresses w.addr (0x0400 + 8 * n.val + k) → k < 8 → w.lanes.any = true →
    let cell := windowAddress s.base (0x0400 + 8 * n.val + k)
    let sent : State := { s with
      port := .idle, runCount := min (s.runCount + 1) 4, mem := Memory.writeCell s.mem cell w.lanes w.data,
      transfer := some ⟨.upstream, ⟨cell, true, w.lanes, w.data⟩⟩ }
    (s.awaitsGrant (.write w) → exec (.stationCellWrite w) s = .next { s with port := .waitGrant (.write w) }) ∧
    (s.granted (.write w) → (s.active.station n).enabled = false → exec (.stationCellWrite w) s = .next sent) ∧
    (s.granted (.write w) → (s.active.station n).enabled = true → (k ≠ 4 ∨ w.lanes.lo = false) →
      ∃ t, exec (.stationCellWrite w) s = .next t ∧
        (t.station n).copy.inputs =
          (if k = 0 then mergeLanes w.lanes (s.station n).copy.inputs w.data else (s.station n).copy.inputs) ∧
        (t.station n).copy.complements =
          (if k = 2 then mergeLanes w.lanes (s.station n).copy.complements w.data
           else (s.station n).copy.complements) ∧
        (t.station n).copy.sequence = (s.station n).copy.sequence ∧
        (t.station n).copy.status =
          (if k = 4 ∧ w.lanes.hi = true then hiByte w.data else (s.station n).copy.status) ∧
        t.station n = { s.station n with copy := (t.station n).copy } ∧
        (∀ m, m ≠ n → t.station m = s.station m) ∧ t = { sent with stations := t.stations }) ∧
    (s.granted (.write w) → ∀ t, exec (.stationCellWrite w) s = .next t →
      t.mem = sent.mem ∧ t.transfer = sent.transfer ∧ t.port = .idle ∧ t.runCount = sent.runCount)

/-- R68, R69 and R72 for one input: how its present state is formed, and what a change of it makes by trigger, long
sequence and long phase. -/
def Obligations.InputChangeMakesTheEventOfItsTrigger : Prop :=
  (∀ (r : StationRec) (copy : CellCopy) (i : InputId) (old : Bool),
    let raw := copy.inputs.getLsbD i.val
    let fault := r.dual = true ∧ raw = copy.complements.getLsbD i.val
    (fault → presentState r copy i old = old) ∧
    (¬ fault → presentState r copy i old = xor raw (r.inversion.getLsbD i.val))) ∧
  (∀ (b : BindingRec) (suspect : Bool) (i : InputState), changeInput b suspect i i.closed = (i, none)) ∧
  (∀ (b : BindingRec) (i : InputState) (closed : Bool), i.closed ≠ closed →
    changeInput b true i closed = ({ i with closed := closed, phase := .idle }, none) ∧
    (b.trigger = .unused → changeInput b false i closed = ({ i with closed := closed, phase := .idle }, none)) ∧
    (b.trigger = .maintained → changeInput b false i closed =
      ({ i with closed := closed, phase := .idle }, some (if closed then .on else .off))) ∧
    (b.trigger = .momentary → b.long.count = 0 → changeInput b false i closed =
      ({ i with closed := closed, phase := .idle }, some (if closed then .press else .release))) ∧
    (b.trigger = .momentary → b.long.count ≠ 0 → closed = true → changeInput b false i closed =
      ({ i with closed := true, phase := .timing 600 }, none)) ∧
    (b.trigger = .momentary → b.long.count ≠ 0 → closed = false →
      changeInput b false i closed = ({ i with closed := false, phase := .idle },
        match i.phase with
        | .timing _ => some .tap
        | .given => some .longEnd
        | .idle => none)))

/-- R67 for a station that is enabled, not LOST and baselined: the copy is updated, each input below inputs used takes
its present state and the event its change makes (R72), the silence timer restarts if the silence limit is above 0, and
the faults found (R69, R70, R71) and the events made are handled as R74, R75 and R88 give. The write's bytes stand in
its cell of SRAM from the grant (log 13); a write not granted is in StationWriteReachesSramAndTheCopy. -/
def Obligations.OrdinaryEvaluatingWriteMakesEventsOfChanges : Prop :=
  ∀ (s : State) (w : WriteAccess) (n : StationId),
    s.addresses w.addr (0x0400 + 8 * n.val + 4) → w.lanes.lo = true → s.granted (.write w) →
    (s.active.station n).enabled = true → (s.station n).lost = false → (s.station n).baselineRequired = false →
    let r := s.active.station n
    let st : StationState := { s.station n with copy := { (s.station n).copy with
      sequence := loByte w.data
      status := if w.lanes.hi then hiByte w.data else (s.station n).copy.status } }
    let change := fun i : InputId => changeInput (s.active.binding n i) st.suspect (st.inputs.get i)
      (presentState r st.copy i (st.inputs.get i).closed)
    let cell := windowAddress s.base (0x0400 + 8 * n.val + 4)
    ∃ (changed t : State) (found : TagSet), exec (.stationCellWrite w) s = .next t ∧
      (∀ i, (changed.station n).inputs.get i = if i.val < r.inputsUsed then (change i).1 else st.inputs.get i) ∧
      changed.station n = { st with inputs := (changed.station n).inputs,
                                    silence := if r.silenceLimit = 0 then none else some 0 } ∧
      (∀ m, m ≠ n → changed.station m = s.station m) ∧
      changed = { s with port := .idle, runCount := min (s.runCount + 1) 4,
                         mem := Memory.writeCell s.mem cell w.lanes w.data,
                         transfer := some ⟨.upstream, ⟨cell, true, w.lanes, w.data⟩⟩,
                         stations := changed.stations } ∧
      Finds r st.copy (s.station n).copy.sequence false found ∧
      OfferedBy found
        (allInputs.filterMap (fun i => if i.val < r.inputsUsed then
          (change i).2.map (fun k => .input n i k TagSet.none) else none)) n changed t

/-- R77, R78, R81 and R91: a baseline records the present states without events of change, sets every long phase
IDLE, and offers ON or OFF for each MAINTAINED input that differs from its acted state; the baseline of a LOST station
first removes its queued LOST marker, or places a RETURNED marker. While the station's LOST marker is held,
taken and not yet executed, under loss policy RELEASE a return is re-asserted against OFF, which the marker is to leave
(R103; log 17); otherwise the acted states are those that stand. The write's bytes stand in its cell of SRAM from the
grant (log 13); a write not granted is in StationWriteReachesSramAndTheCopy. -/
def Obligations.BaselineWriteReassertsTheStation : Prop :=
  ∀ (s : State) (w : WriteAccess) (n : StationId),
    s.addresses w.addr (0x0400 + 8 * n.val + 4) → w.lanes.lo = true → s.granted (.write w) →
    (s.active.station n).enabled = true →
    ((s.station n).lost = false → (s.station n).baselineRequired = true) →
    let r := s.active.station n
    let st : StationState := { s.station n with copy := { (s.station n).copy with
      sequence := loByte w.data
      status := if w.lanes.hi then hiByte w.data else (s.station n).copy.status } }
    let cell := windowAddress s.base (0x0400 + 8 * n.val + 4)
    let leavesOff := (s.station n).lost = true ∧ (∃ stage, s.current = some ⟨.marker n .lost, stage⟩) ∧
      r.releaseOnLoss = true
    ∃ (recorded t : State) (made : List Entry) (found : TagSet), exec (.stationCellWrite w) s = .next t ∧
      (∀ i : InputId, (recorded.station n).inputs.get i =
        { closed := if i.val < r.inputsUsed then presentState r st.copy i (st.inputs.get i).closed
                    else (st.inputs.get i).closed
          acted := (st.inputs.get i).acted
          phase := .idle }) ∧
      recorded.station n = { st with inputs := (recorded.station n).inputs, lost := false, baselineRequired := false,
                                     silence := if r.silenceLimit = 0 then none else some 0 } ∧
      (∀ m, m ≠ n → recorded.station m = s.station m) ∧
      ((s.station n).lost = false → recorded.events = s.events) ∧
      ((s.station n).lost = true →
        (markerIn s.events n = some .lost →
          recorded.events = s.events.filter (fun e => !decide (e = .marker n .lost))) ∧
        (markerIn s.events n = none → recorded.events = s.events ++ [.marker n .returned]) ∧
        (markerIn s.events n = some .returned → recorded.events = s.events)) ∧
      recorded = { s with port := .idle, runCount := min (s.runCount + 1) 4,
                          mem := Memory.writeCell s.mem cell w.lanes w.data,
                          transfer := some ⟨.upstream, ⟨cell, true, w.lanes, w.data⟩⟩,
                          stations := recorded.stations, events := recorded.events } ∧
      (¬ leavesOff →
        ReassertsAs s.active n (recorded.station n) (fun i => ((s.station n).inputs.get i).acted) made) ∧
      (leavesOff → ReassertsAs s.active n (recorded.station n) (fun _ => false) made) ∧
      Finds r st.copy (s.station n).copy.sequence true found ∧
      OfferedBy found made n recorded t

/-- R76 and R171: CLEAR_FAULTS on one station clears its flags and SUSPECT; a station lifted from quarantine that may
be re-asserted offers its ON and OFF events. FFFFh does so for every station, with one offer for each that is lifted, in
ascending order (R87): the first events that find a free slot join and the others are lost, each leaving QLOSS on its
station, whose flags have just been cleared, so that it alone makes no station SUSPECT (R75, R78, R88, R89). A parameter
outside the set is refused. -/
def Obligations.ClearFaultsLiftsQuarantine : Prop :=
  let cleared : State → State → Prop := fun s u =>
    u = { s with command := 8, status := .done 0, causes := Cause.command.mark s.causes, stations := u.stations }
  let lifted : State → StationId → Prop := fun s n =>
    (s.station n).suspect = true ∧ (s.active.station n).enabled = true ∧ (s.station n).lost = false ∧
      (s.station n).baselineRequired = false
  let clean : StationState → StationState := fun st => { st with faults := FaultSet.none, suspect := false }
  ∀ s : State, s.takesCommand →
    (∀ n : StationId, s.parameter.toNat = n.val → ∃ u t, exec .clearFaults s = .next t ∧ cleared s u ∧
      u.station n = clean (s.station n) ∧ (∀ m, m ≠ n → u.station m = s.station m) ∧
      (¬ lifted s n → t = u) ∧
      (lifted s n → ∃ made,
        ReassertsAs s.active n (u.station n) (fun i => ((s.station n).inputs.get i).acted) made ∧ OfferedBy TagSet.none made n u t)) ∧
    (s.parameter = 0xFFFF → ∃ (t : State) (made : List Entry), exec .clearFaults s = .next t ∧
      made.Pairwise (fun e f => e.place < f.place) ∧
      (∀ e, e ∈ made ↔ ∃ (n : StationId) (i : InputId), lifted s n ∧ i.val < (s.active.station n).inputsUsed ∧
        (s.active.binding n i).trigger = .maintained ∧
        ((s.station n).inputs.get i).closed ≠ ((s.station n).inputs.get i).acted ∧
        e = .input n i (if ((s.station n).inputs.get i).closed then .on else .off) TagSet.none) ∧
      let free := 64 - inputCount s.events
      let lost := made.drop free
      t.events = s.events ++ made.take free ∧
      t.scanhold = (List.range (min made.length free)).foldl
        (fun h j => scanholdAfter (inputCount s.events + j + 1) h) s.scanhold ∧
      (∀ n, t.station n = { s.station n with
        faults := if lost.any (fun e => decide (e.station = n)) then FaultSet.qlossOnly else FaultSet.none
        suspect := false }) ∧
      t.counters = { s.counters with queueLosses := raisedBy lost.length s.counters.queueLosses } ∧
      (∀ c, t.causePending c = true ↔
        s.causePending c = true ∨ c = .command ∨ ((c = .queue ∨ c = .fault) ∧ lost ≠ [])) ∧
      t = { s with command := 8, status := .done 0, events := t.events, scanhold := t.scanhold,
                   stations := t.stations, counters := t.counters, causes := t.causes }) ∧
    (112 ≤ s.parameter.toNat → s.parameter ≠ 0xFFFF → exec .clearFaults s =
      .next { s with command := 8, status := .refused .badParameter 1 0, causes := Cause.command.mark s.causes })

/-! ### The event queue and the Action Unit -/

/-- R88, R89 and R94: of an offer of input events, those that find fewer than 64 queued join in order at the tail, the
others are lost and counted one by one, and SCANHOLD# follows the count. -/
def Obligations.OfferQueuesWhatFitsAndCountsTheLoss : Prop :=
  ∀ (s : State) (offer : List Entry), (∀ e ∈ offer, e.isInput = true) →
    let t := s.offerInputs offer
    let free := 64 - inputCount s.events
    t.events = s.events ++ offer.take free ∧
    t.counters = { s.counters with queueLosses := raisedBy (offer.length - free) s.counters.queueLosses } ∧
    t.scanhold = (List.range (min offer.length free)).foldl
      (fun h j => scanholdAfter (inputCount s.events + j + 1) h) s.scanhold ∧
    (offer.length ≤ free → t = { s with events := t.events, scanhold := t.scanhold }) ∧
    (∀ e ∈ offer.drop free, (t.station e.station).faults.qloss = true) ∧
    (∀ n, (∀ e ∈ offer.drop free, e.station ≠ n) → t.station n = s.station n) ∧
    (∀ c, t.causePending c = true ↔
      s.causePending c = true ∨ ((c = .queue ∨ c = .fault) ∧ free < offer.length)) ∧
    t = { s with events := t.events, scanhold := t.scanhold, stations := t.stations, circuits := t.circuits,
                 causes := t.causes, counters := t.counters }

/-- R92 and R100 to R102, claim by claim: the head leaves the queue and is held; its tags are recorded; it is dropped
for quarantine, or silently for a disabled station, or for night, each test made against the state found then; one that
passes them all is held to be executed. Several claims of one presentation are those claims one after the other, so that
any other command may be taken between two of them (R99); that the row is presented again for the claims that are left
is the model's form (log 5). Last, the row taken whole from an idle point. -/
def Obligations.TakeEntryDropsInTheOrderOfItsTests : Prop :=
  let night : State → Entry → Prop := fun s e => s.mode = .night ∧ (s.active.station e.station).night = false
  (∀ (s : State) (e : Entry) (rest : List Entry), s.current = none → s.swapPending = false → s.events = e :: rest →
    exec (.takeEntry 1) s = .next { s with
      events := rest, scanhold := if e.isInput then scanholdAfter (inputCount rest) s.scanhold else s.scanhold,
      current := some ⟨e, .taken⟩ }) ∧
  (∀ (s : State) (claims : Nat), s.current = none → s.swapPending = true ∨ s.events = [] →
    exec (.takeEntry claims) s = .next s) ∧
  (∀ (s : State) (e : Entry),
    (s.current = some ⟨e, .taken⟩ → ∃ t, exec (.takeEntry 1) s = .next t ∧ Records e.tagged e.station s t ∧
      t.causes = (if e.tagged.size = 0 then s.causes else Cause.fault.mark s.causes) ∧
      t = { s with stations := t.stations, circuits := t.circuits, causes := t.causes,
                   current := some ⟨e, .recorded⟩ }) ∧
    (s.current = some ⟨e, .recorded⟩ →
      ((s.station e.station).suspect = true → exec (.takeEntry 1) s =
        .next { s with counters := s.counters.bump .quarantineDrops, current := none }) ∧
      ((s.station e.station).suspect = false →
        exec (.takeEntry 1) s = .next { s with current := some ⟨e, .trusted⟩ })) ∧
    (s.current = some ⟨e, .trusted⟩ →
      ((s.active.station e.station).enabled = false → exec (.takeEntry 1) s = .next { s with current := none }) ∧
      ((s.active.station e.station).enabled = true → night s e → exec (.takeEntry 1) s =
        .next { s with counters := s.counters.bump .nightDrops, current := none }) ∧
      ((s.active.station e.station).enabled = true → ¬ night s e →
        exec (.takeEntry 1) s = .next { s with current := some ⟨e, .passed⟩ }))) ∧
  (∀ (s : State) (claims : Nat),
    (∀ n k, s.current = some ⟨.marker n k, .passed⟩ → exec (.takeEntry claims) s = .next s) ∧
    (∀ e next left, s.current = some ⟨e, .running next left⟩ → exec (.takeEntry claims) s = .next s)) ∧
  (∀ (s u : State) (claims : Nat), exec (.takeEntry 1) s = .next u →
    (u.current = none → exec (.takeEntry (claims + 1)) s = .next u) ∧
    (u.current ≠ none → exec (.takeEntry (claims + 1)) s = exec (.takeEntry claims) u)) ∧
  (∀ (s : State) (e : Entry) (rest : List Entry), s.current = none → s.swapPending = false → s.events = e :: rest →
    ∃ u t, exec (.takeEntry 6) s = .next t ∧ HeadTaken e rest s u ∧
      (let n := e.station
       let quarantined := (u.station n).suspect = true
       let passes := ¬ quarantined ∧ (u.active.station n).enabled = true ∧ ¬ night u e
       (quarantined → t = { u with counters := u.counters.bump .quarantineDrops }) ∧
       (¬ quarantined → (u.active.station n).enabled = false → t = u) ∧
       (¬ quarantined → (u.active.station n).enabled = true → night u e →
         t = { u with counters := u.counters.bump .nightDrops }) ∧
       (passes → ∀ k, e = .marker n k → t = { u with current := some ⟨e, .passed⟩ }) ∧
       (passes → e.isInput = true →
         t = { u with stations := t.stations, circuits := t.circuits, current := t.current } ∧
           ∀ m, m ≠ n → t.station m = u.station m)))

/-- R105 to R107 with R11: an input event that has passed the tests ends the ramps its input holds when its kind is
RELEASE, LONG-END or OFF; by its next claim it sets the acted state when it is ON or OFF, and begins the sequence its
kind selects, or none when the input is unused or the sequence is empty. Last, the row taken whole from an idle point,
with the tests said of the state before. -/
def Obligations.TakeEntryBeginsTheSequenceOfItsKind : Prop :=
  let ends : StationId → InputId → EventKind → State → State → Prop := fun n i k s t =>
    (k = .release ∨ k = .longEnd ∨ k = .off →
      RampsEndedOn (fun x => decide (x.owner = .station n) && x.heldBy i) s t) ∧
    (k = .press ∨ k = .tap ∨ k = .on ∨ k = .long → t.circuits = s.circuits)
  let begins : StationId → InputId → EventKind → TagSet → State → State → Prop := fun n i k tags u t =>
    let b := u.active.binding n i
    let run := match k with
      | .press => b.press
      | .tap => b.press
      | .on => b.press
      | .long => b.long
      | .release => b.release
      | .longEnd => b.release
      | .off => b.release
    (t.station n).inputs.get i = { (u.station n).inputs.get i with
      acted := if k = .on then true else if k = .off then false else ((u.station n).inputs.get i).acted } ∧
    (∀ j, j ≠ i → (t.station n).inputs.get j = (u.station n).inputs.get j) ∧
    t.station n = { u.station n with inputs := (t.station n).inputs } ∧
    (∀ m, m ≠ n → t.station m = u.station m) ∧
    (b.trigger = .unused ∨ (u.active.station n).inputsUsed ≤ i.val ∨ run.count = 0 → t.current = none) ∧
    (b.trigger ≠ .unused → i.val < (u.active.station n).inputsUsed → run.count ≠ 0 →
      t.current = some ⟨.input n i k tags, .running run.start run.count⟩)
  ∀ (s : State) (n : StationId) (i : InputId) (k : EventKind) (tags : TagSet),
    let e := Entry.input n i k tags
    (s.current = some ⟨e, .passed⟩ → ∃ t, exec (.takeEntry 1) s = .next t ∧ ends n i k s t ∧
      t = { s with circuits := t.circuits, current := some ⟨e, .rampsEnded⟩ }) ∧
    (s.current = some ⟨e, .rampsEnded⟩ → ∃ t, exec (.takeEntry 1) s = .next t ∧ begins n i k tags s t ∧
      t = { s with stations := t.stations, current := t.current }) ∧
    (∀ rest, s.current = none → s.swapPending = false → s.events = e :: rest → (s.station n).suspect = false →
      (tags.faults.size = 0 ∨ ((s.station n).faults.union tags.faults).size < 2) →
      (s.active.station n).enabled = true → (s.mode = .night → (s.active.station n).night = true) →
      ∃ u t, exec (.takeEntry 6) s = .next t ∧ HeadTaken e rest s u ∧ ends n i k u t ∧ begins n i k tags u t ∧
        t = { u with stations := t.stations, circuits := t.circuits, current := t.current })

/-- R103: the first claim of a LOST marker that has passed its tests ends the station's ramps; its second, taken on the
state found then, under policy RELEASE makes all the station's contributions leave with each circuit's default profile
and sets the acted states of its MAINTAINED inputs OFF; LOSS is raised and the marker is finished. The row taken whole is
the two, and where the stored levels were the effective levels it leaves every circuit as a recompute does. Between its
two claims any other command may be taken (R99, R103; that the row is presented again for its second is log 5). R104: a
RETURNED marker only raises LOSS. -/
def Obligations.MarkersApplyTheLossPolicy : Prop :=
  (∀ (s : State) (n : StationId),
    let own := fun x : Contribution => decide (x.owner = .station n)
    (s.current = some ⟨.marker n .lost, .passed⟩ →
      (∃ u, exec (.lostMarker 1) s = .next u ∧ RampsEndedOn own s u ∧
        u = { s with circuits := u.circuits, current := some ⟨.marker n .lost, .rampsEnded⟩ } ∧
        exec (.lostMarker 2) s = exec (.lostMarker 1) u) ∧
      (LevelsCurrent s → ∃ t, exec (.lostMarker 2) s = .next t ∧
        ∀ c, Recomputed s.active s.mode c (s.circuit c) (t.circuit c))) ∧
    (s.current = some ⟨.marker n .lost, .rampsEnded⟩ →
      ((s.active.station n).releaseOnLoss = false → exec (.lostMarker 1) s =
        .next { s with current := none, causes := Cause.loss.mark s.causes }) ∧
      ((s.active.station n).releaseOnLoss = true → ∃ t, exec (.lostMarker 1) s = .next t ∧
        ListsClaimed (fun _ l => l.any own) (fun c => LeavesWith own (s.active.defaultTime c)) s t ∧
        (∀ i, (t.station n).inputs.get i =
          if (s.active.binding n i).trigger = .maintained then { (s.station n).inputs.get i with acted := false }
          else (s.station n).inputs.get i) ∧
        t.station n = { s.station n with inputs := (t.station n).inputs } ∧
        (∀ m, m ≠ n → t.station m = s.station m) ∧
        t = { s with current := none, causes := Cause.loss.mark s.causes, stations := t.stations,
                     circuits := t.circuits }))) ∧
  (∀ (s : State) (n : StationId), s.current = some ⟨.marker n .returned, .passed⟩ →
    exec .returnedMarker s = .next { s with current := none, causes := Cause.loss.mark s.causes })

/-! ### Actions on circuits -/

/-- R112: SET, when the store can make the records it needs, sends the owner's contribution on each target circuit
to the level: a snap at fade time 0, a fade otherwise. The target set is one circuit, the members of a group, or the
circuits of a zone (R13), a profile operand names a profile or each circuit's default (R14), and a scene gives a circuit
the level of the item that names it (R16), each read from the cells of the map (R168). -/
def Obligations.SetSendsTheOwnersContributionToTheLevel : Prop :=
  (∀ (b : Bank) (a : ActionRec) (c : CircuitId),
    let word := fun offset => (b.cell offset).toNat
    (a.targetType = 0 → (b.inTarget a c = true ↔ c.val = a.targetIndex)) ∧
    (a.targetType = 1 → (b.inTarget a c = true ↔ ∃ k, k < word (0x2C00 + 4 * a.targetIndex + 2) ∧
      word (0x3000 + 2 * (word (0x2C00 + 4 * a.targetIndex) + k)) = c.val)) ∧
    (a.targetType = 2 → (b.inTarget a c = true ↔ word (0x2200 + 4 * c.val) % 256 = a.targetIndex)) ∧
    (a.targetType = 3 → b.inTarget a c = false) ∧
    (∀ p, p < 8 → b.operandTime p c = word (0x2000 + 2 * p)) ∧
    b.operandTime 8 c = word (0x2000 + 2 * (word (0x2200 + 4 * c.val) / 2048)) ∧
    (∀ scene, let item := fun k => word (0x2D00 + 4 * scene) + k
      (∀ k, k < word (0x2D00 + 4 * scene + 2) → word (0x3800 + 4 * item k) = c.val →
        (∀ j, j < k → word (0x3800 + 4 * item j) ≠ c.val) →
        b.sceneLevel scene c = some (word (0x3800 + 4 * item k + 2))) ∧
      ((∀ k, k < word (0x2D00 + 4 * scene + 2) → word (0x3800 + 4 * item k) ≠ c.val) →
        b.sceneLevel scene c = none))) ∧
  (∀ (s : State) (a : RunningAction), s.runs 0 a →
    s.hasRoom (.station a.station) (s.active.inTarget a.action) →
    ∃ t, exec .set s = .next t ∧
      (∀ c, s.active.inTarget a.action c = true →
        GoesToLevel (.station a.station) (s.active.station a.station).cls a.action.level
          (s.active.operandTime a.action.profile c) (s.circuit c) (t.circuit c) ∧
        (t.circuit c).slot = (s.circuit c).slot ∧ Recomputed s.active s.mode c (s.circuit c) (t.circuit c)) ∧
      (∀ c, s.active.inTarget a.action c = false → t.circuit c = s.circuit c) ∧
      t = { s with circuits := t.circuits, current := s.afterAction })

/-- R113 and R114: TOGGLE makes every contribution of its class on the target set leave when any of them is STEADY,
FADING or RAMP, whoever owns it; otherwise it acts as SET. -/
def Obligations.ToggleJudgesItsClassOverTheWholeTarget : Prop :=
  ∀ (s : State) (a : RunningAction), s.runs 1 a →
    let k := (s.active.station a.station).cls
    let target := s.active.inTarget a.action
    let ofClass := fun x : Contribution => decide (x.cls = k)
    ((∃ c, target c = true ∧ ∃ x ∈ (s.circuit c).list, x.cls = k ∧ x.isLeaving = false) →
      ∃ t, exec .toggle s = .next t ∧
        (∀ c, target c = true → (s.circuit c).list.any ofClass = true →
          LeavesWith ofClass (s.active.operandTime a.action.profile c) (s.circuit c).list (t.circuit c).list ∧
          (t.circuit c).slot = (s.circuit c).slot ∧ Recomputed s.active s.mode c (s.circuit c) (t.circuit c)) ∧
        (∀ c, target c = false ∨ (s.circuit c).list.any ofClass = false → t.circuit c = s.circuit c) ∧
        t = { s with circuits := t.circuits, current := s.afterAction }) ∧
    ((∀ c, target c = true → ∀ x ∈ (s.circuit c).list, x.cls = k → x.isLeaving = true) →
      s.hasRoom (.station a.station) target →
      ∃ t, exec .toggle s = .next t ∧
        (∀ c, target c = true →
          GoesToLevel (.station a.station) k a.action.level (s.active.operandTime a.action.profile c)
            (s.circuit c) (t.circuit c) ∧
          (t.circuit c).slot = (s.circuit c).slot ∧ Recomputed s.active s.mode c (s.circuit c) (t.circuit c)) ∧
        (∀ c, target c = false → t.circuit c = s.circuit c) ∧
        t = { s with circuits := t.circuits, current := s.afterAction })

/-- R115: RAISE and LOWER start a ramp toward 1000 or 0, held by the input of the entry. -/
def Obligations.RaiseAndLowerStartRampsHeldByTheInput : Prop :=
  let started : Nat → State → State → RunningAction → Prop := fun goal s t a =>
    (∀ c, s.active.inTarget a.action c = true →
      RampsToward (.station a.station) (s.active.station a.station).cls goal
        (s.active.operandTime a.action.profile c) a.input (s.circuit c) (t.circuit c) ∧
      (t.circuit c).slot = (s.circuit c).slot ∧ Recomputed s.active s.mode c (s.circuit c) (t.circuit c)) ∧
    (∀ c, s.active.inTarget a.action c = false → t.circuit c = s.circuit c) ∧
    t = { s with circuits := t.circuits, current := s.afterAction }
  ∀ (s : State) (a : RunningAction), s.hasRoom (.station a.station) (s.active.inTarget a.action) →
    (s.runs 2 a → ∃ t, exec .raise s = .next t ∧ started 1000 s t a) ∧
    (s.runs 3 a → ∃ t, exec .lower s = .next t ∧ started 0 s t a)

/-- R116: RELEASE makes the owner's contribution on each target circuit leave with the action's profile, in whatever
state it is; it touches no other contribution and is never refused. -/
def Obligations.ReleaseMakesTheOwnersContributionsLeave : Prop :=
  ∀ (s : State) (a : RunningAction), s.runs 4 a →
    let own := fun x : Contribution => decide (x.owner = .station a.station)
    ∃ t, exec .release s = .next t ∧
      (∀ c, s.active.inTarget a.action c = true → (s.circuit c).list.any own = true →
        LeavesWith own (s.active.operandTime a.action.profile c) (s.circuit c).list (t.circuit c).list ∧
        (t.circuit c).slot = (s.circuit c).slot ∧ Recomputed s.active s.mode c (s.circuit c) (t.circuit c)) ∧
      (∀ c, s.active.inTarget a.action c = false ∨ (s.circuit c).list.any own = false →
        t.circuit c = s.circuit c) ∧
      t = { s with circuits := t.circuits, current := s.afterAction }

/-- R117: SCENE sends the owner's contribution on each item's circuit to the item's level, and with the exclusive
flag makes the owner's contributions on every circuit outside the scene leave. -/
def Obligations.SceneSetsItsItemsAndLeavesTheOthers : Prop :=
  ∀ (s : State) (a : RunningAction), s.runs 5 a → s.hasRoom (.station a.station) (s.inScene a.action) →
    let own := fun x : Contribution => decide (x.owner = .station a.station)
    ∃ t, exec .scene s = .next t ∧
      (∀ c v, s.active.sceneLevel a.action.param c = some v →
        GoesToLevel (.station a.station) (s.active.station a.station).cls v
          (s.active.operandTime a.action.profile c) (s.circuit c) (t.circuit c) ∧
        (t.circuit c).slot = (s.circuit c).slot ∧ Recomputed s.active s.mode c (s.circuit c) (t.circuit c)) ∧
      (∀ c, s.inScene a.action c = false → a.action.exclusive = true → (s.circuit c).list.any own = true →
        LeavesWith own (s.active.operandTime a.action.profile c) (s.circuit c).list (t.circuit c).list ∧
        (t.circuit c).slot = (s.circuit c).slot ∧ Recomputed s.active s.mode c (s.circuit c) (t.circuit c)) ∧
      (∀ c, s.inScene a.action c = false → (a.action.exclusive = false ∨ (s.circuit c).list.any own = false) →
        t.circuit c = s.circuit c) ∧
      t = { s with circuits := t.circuits, current := s.afterAction }

/-- R110, R111, R122 and R123: an action that needs more records than are free is refused POOL EXHAUSTED, otherwise
one that needs a record on a circuit that holds 8 is refused CIRCUIT FULL; it changes no list, raises RESOURCE, is
counted, and overwrites the last refusal record; the sequence goes on. -/
def Obligations.ActionWithoutRoomIsRefusedWhole : Prop :=
  let refused : State → RunningAction → Reason → State := fun s a r =>
    { s with current := s.afterAction, causes := Cause.resource.mark s.causes,
             counters := s.counters.bump .refusedActions, lastRefusal := a.refusal r }
  let judged : State → RunningAction → (CircuitId → Bool) → Instr → Prop := fun s a touch i =>
    (s.poolFree < s.newRecords (.station a.station) touch → exec i s = .next (refused s a .poolExhausted)) ∧
    (s.newRecords (.station a.station) touch ≤ s.poolFree →
      (∃ c, touch c = true ∧ holds (s.circuit c).list (.station a.station) = false ∧
        8 ≤ (s.circuit c).list.length) → exec i s = .next (refused s a .circuitFull))
  ∀ (s : State) (a : RunningAction),
    (s.runs 0 a → judged s a (s.active.inTarget a.action) .set) ∧
    (s.runs 1 a →
      (∀ c, s.active.inTarget a.action c = true → ∀ x ∈ (s.circuit c).list,
        x.cls = (s.active.station a.station).cls → x.isLeaving = true) →
      judged s a (s.active.inTarget a.action) .toggle) ∧
    (s.runs 2 a → judged s a (s.active.inTarget a.action) .raise) ∧
    (s.runs 3 a → judged s a (s.active.inTarget a.action) .lower) ∧
    (s.runs 5 a → judged s a (s.inScene a.action) .scene)

/-! ### The house -/

/-- R127 and R128, for the command SET_MODE and the action MODE: the present mode is accepted and changes nothing, a
legal transition changes the mode, recomputes every circuit and raises MODE, any other is refused. Entry into PREPARE,
PERFORMANCE or INTERVAL does nothing more (R131). -/
def Obligations.ModeRequestsFollowTheTransitionTable : Prop :=
  (∀ a b : HouseMode, legalTransition a b = true ↔ (a, b) ∈ legalMoves) ∧
  (∀ (s : State) (m : HouseMode), s.takesCommand → s.parameter.toNat = m.code →
    (m = s.mode → exec .setMode s =
      .next { s with command := 3, status := .done 0, causes := Cause.command.mark s.causes }) ∧
    (m ≠ s.mode → (s.mode, m) ∉ legalMoves → exec .setMode s =
      .next { s with command := 3, status := .refused .illegalTransition 0 0,
                     causes := Cause.command.mark s.causes }) ∧
    ((s.mode, m) ∈ legalMoves → ∃ t, exec .setMode s = .next t ∧ t.mode = m ∧ t.command = 3 ∧ t.status = .done 0 ∧
      t.causePending .mode = true ∧ t.causePending .command = true ∧
      (∀ c, (t.circuit c).level = effectiveLevel s.active m c (t.circuit c)) ∧
      (m ≠ .open_ → m ≠ .night →
        (∀ c, (t.circuit c).list = (s.circuit c).list ∧ (t.circuit c).slot = (s.circuit c).slot ∧
          OwedFollows (s.circuit c) (t.circuit c)) ∧
        t = { s with command := 3, status := .done 0, mode := m, circuits := t.circuits,
                     causes := Cause.command.mark (Cause.mode.mark s.causes) }))) ∧
  (∀ s : State, s.takesCommand → 4 < s.parameter.toNat → exec .setMode s =
    .next { s with command := 3, status := .refused .badParameter 1 0, causes := Cause.command.mark s.causes }) ∧
  (∀ (s : State) (a : RunningAction) (m : HouseMode), s.runs 6 a → a.action.param = m.code →
    (m = s.mode → exec .mode s = .next { s with current := s.afterAction }) ∧
    (m ≠ s.mode → (s.mode, m) ∉ legalMoves → exec .mode s =
      .next { s with current := s.afterAction, causes := Cause.refusal.mark s.causes,
                     counters := s.counters.bump .refusedActions, lastRefusal := a.refusal .illegalTransition }) ∧
    ((s.mode, m) ∈ legalMoves → ∃ t, exec .mode s = .next t ∧ t.mode = m ∧ t.current = s.afterAction ∧
      t.causePending .mode = true ∧
      (∀ c, (t.circuit c).level = effectiveLevel s.active m c (t.circuit c)) ∧
      (m ≠ .open_ → m ≠ .night →
        (∀ c, (t.circuit c).list = (s.circuit c).list ∧ (t.circuit c).slot = (s.circuit c).slot ∧
          OwedFollows (s.circuit c) (t.circuit c)) ∧
        t = { s with current := s.afterAction, mode := m, circuits := t.circuits,
                     causes := Cause.mode.mark s.causes })))

/-- For the command SET_MODE and the action MODE. R129 and R63: entry into NIGHT takes one claim, which ends every ramp
and makes the contributions of every owner that is not a night-flagged station leave with the circuit's default profile,
clears the fade hold and closes the amend window, and every circuit is then recomputed in NIGHT (R128). That the claim's
own recompute is in the mode that is left, so that a level it moved and NIGHT brings back is owed (R45), is the model's
reading (log 6). R130: entry into OPEN clears the
fade hold, closes the amend window and makes nothing leave; from NIGHT it offers the re-assertion of every station that
is enabled, not LOST, baselined and not SUSPECT, in ascending order. -/
def Obligations.EntryIntoNightReleasesAndEntryIntoOpenReasserts : Prop :=
  let unflagged : Bank → Contribution → Bool := fun b x => match x.owner with
    | .station n => !(b.station n).night
    | .desk _ => true
  let released : State → State → Prop := fun s t => ∃ u : State,
    ListsClaimed (fun _ l => l.any (fun x => x.ramping || unflagged s.active x))
      (fun c before after => ∃ ended, RampsEnded (fun _ => true) before ended ∧
        LeavesWith (unflagged s.active) (s.active.defaultTime c) ended after) s u ∧
    AllRecomputed s.active .night u t
  let reassertion : State → List Entry → Prop := fun s made =>
    made.Pairwise (fun e f => e.place < f.place) ∧
    (∀ e, e ∈ made ↔ ∃ (n : StationId) (i : InputId), (s.active.station n).enabled = true ∧
      (s.station n).lost = false ∧ (s.station n).baselineRequired = false ∧ (s.station n).suspect = false ∧
      i.val < (s.active.station n).inputsUsed ∧ (s.active.binding n i).trigger = .maintained ∧
      ((s.station n).inputs.get i).closed ≠ ((s.station n).inputs.get i).acted ∧
      e = .input n i (if ((s.station n).inputs.get i).closed then .on else .off) ⟨false, false, false⟩)
  let offered : State → State → List Entry → Prop := fun s t made =>
    let free := 64 - inputCount s.events
    t.events = s.events ++ made.take free ∧
    t.scanhold = (List.range (min made.length free)).foldl
      (fun h j => scanholdAfter (inputCount s.events + j + 1) h) s.scanhold ∧
    (∀ e ∈ made.drop free, (t.station e.station).faults.qloss = true) ∧
    (∀ n, (∀ e ∈ made.drop free, e.station ≠ n) → t.station n = s.station n) ∧
    t.counters = { s.counters with queueLosses := raisedBy (made.length - free) s.counters.queueLosses } ∧
    (∀ k, k ≠ .mode → k ≠ .command →
      (t.causePending k = true ↔ s.causePending k = true ∨ ((k = .queue ∨ k = .fault) ∧ free < made.length))) ∧
    t.causePending .mode = true ∧
    (made.length ≤ free → AllRecomputed s.active .open_ s t)
  (∀ s : State, s.takesCommand → s.parameter.toNat = 4 → s.mode = .open_ →
    ∃ t, exec .setMode s = .next t ∧ released s t ∧
      t = { s with command := 3, status := .done 0, mode := .night, hold := false, amend := none,
                   circuits := t.circuits, causes := Cause.command.mark (Cause.mode.mark s.causes) }) ∧
  (∀ (s : State) (a : RunningAction), s.runs 6 a → a.action.param = 4 → s.mode = .open_ →
    ∃ t, exec .mode s = .next t ∧ released s t ∧
      t = { s with current := s.afterAction, mode := .night, hold := false, amend := none,
                   circuits := t.circuits, causes := Cause.mode.mark s.causes }) ∧
  (∀ s : State, s.takesCommand → s.parameter.toNat = 0 →
    (s.mode = .prepare ∨ s.mode = .performance ∨ s.mode = .interval → ∃ t, exec .setMode s = .next t ∧
      AllRecomputed s.active .open_ s t ∧
      t = { s with command := 3, status := .done 0, mode := .open_, hold := false, amend := none,
                   circuits := t.circuits, causes := Cause.command.mark (Cause.mode.mark s.causes) }) ∧
    (s.mode = .night → ∃ (t : State) (made : List Entry), exec .setMode s = .next t ∧
      reassertion s made ∧ offered s t made ∧ t.causePending .command = true ∧
      t = { s with command := 3, status := .done 0, mode := .open_, hold := false, amend := none,
                   circuits := t.circuits, causes := t.causes, counters := t.counters, stations := t.stations,
                   events := t.events, scanhold := t.scanhold })) ∧
  (∀ (s : State) (a : RunningAction), s.runs 6 a → a.action.param = 0 →
    (s.mode = .prepare ∨ s.mode = .performance ∨ s.mode = .interval → ∃ t, exec .mode s = .next t ∧
      AllRecomputed s.active .open_ s t ∧
      t = { s with current := s.afterAction, mode := .open_, hold := false, amend := none,
                   circuits := t.circuits, causes := Cause.mode.mark s.causes }) ∧
    (s.mode = .night → ∃ (t : State) (made : List Entry), exec .mode s = .next t ∧
      reassertion s made ∧ offered s t made ∧ t.causePending .command = s.causePending .command ∧
      t = { s with current := s.afterAction, mode := .open_, hold := false, amend := none,
                   circuits := t.circuits, causes := t.causes, counters := t.counters, stations := t.stations,
                   events := t.events, scanhold := t.scanhold }))

/-- R61 and R119: HOLD and HOLD_FADES set the fade hold flag, RESUME and RESUME_FADES clear it, whatever it was; no
contribution is touched and neither action is refused. -/
def Obligations.HoldAndResumeSetAndClearTheFadeHold : Prop :=
  (∀ s : State, s.takesCommand →
    exec .holdFades s =
      .next { s with command := 4, hold := true, status := .done 0, causes := Cause.command.mark s.causes } ∧
    exec .resumeFades s =
      .next { s with command := 5, hold := false, status := .done 0, causes := Cause.command.mark s.causes }) ∧
  (∀ (s : State) (a : RunningAction),
    (s.runs 7 a → exec .hold s = .next { s with hold := true, current := s.afterAction }) ∧
    (s.runs 8 a → exec .resume s = .next { s with hold := false, current := s.afterAction }))

/-- R120, R137 and R138: the amend window opens at, or restarts from, 120 s in PERFORMANCE and INTERVAL alone, and a
request in another mode is refused NOT IN SHOW; its expiry shuts it when no time is left, and a window that a request
has just restarted does not expire. That the row of an expiry changes nothing where the timer has time left is log 7. -/
def Obligations.AmendWindowOpensOnlyInAShow : Prop :=
  (∀ s : State, s.takesCommand →
    (s.mode = .performance ∨ s.mode = .interval → exec .amendCommand s =
      .next { s with command := 6, amend := some 120000, status := .done 0,
                     causes := Cause.command.mark s.causes }) ∧
    (s.mode = .open_ ∨ s.mode = .prepare ∨ s.mode = .night → exec .amendCommand s =
      .next { s with command := 6, status := .refused .notInShow 0 0, causes := Cause.command.mark s.causes })) ∧
  (∀ (s : State) (a : RunningAction), s.runs 9 a →
    (s.mode = .performance ∨ s.mode = .interval → exec .amend s =
      .next { s with amend := some 120000, current := s.afterAction }) ∧
    (s.mode = .open_ ∨ s.mode = .prepare ∨ s.mode = .night → exec .amend s =
      .next { s with current := s.afterAction, causes := Cause.refusal.mark s.causes,
                     counters := s.counters.bump .refusedActions, lastRefusal := a.refusal .notInShow })) ∧
  (∀ s : State, (s.amend = some 0 → exec .amendWindowExpires s = .next { s with amend := none }) ∧
    (s.amend ≠ some 0 → exec .amendWindowExpires s = .next s)) ∧
  (∀ (s t : State) (a : RunningAction), s.runs 9 a → s.mode = .performance ∨ s.mode = .interval →
    exec .amend s = .next t → exec .amendWindowExpires t = .next t ∧ t.amend = some 120000)

/-! ### The merge -/

/-- R41 and R42: the egress slot decides, then an empty list gives the rest level, and otherwise the highest class
present wins: the first contribution of its segment under LATEST, the greatest current level under HIGHEST, limited
for HOUSE and LOCAL by the ceiling of the zone in the mode. -/
def Obligations.EffectiveLevelIsDecidedByTheWinningClass : Prop :=
  ∀ (b : Bank) (mode : HouseMode) (c : CircuitId) (cs : CircuitState),
    (cs.slot = .active → effectiveLevel b mode c cs = 1000) ∧
    (∀ level rate, cs.slot = .leaving level rate → effectiveLevel b mode c cs = level) ∧
    (cs.slot = .empty → cs.list = [] → effectiveLevel b mode c cs = (b.circuit c).rest) ∧
    (∀ (k : Cls) (x : Contribution) (rest : List Contribution), cs.slot = .empty →
      cs.list.filter (fun y => decide (y.cls = k)) = x :: rest → (∀ y ∈ cs.list, k.rank ≤ y.cls.rank) →
      ∃ merged,
        ((b.circuit c).mergeCode = 0 → merged = x.current) ∧
        ((b.circuit c).mergeCode = 1 → (∀ y ∈ x :: rest, y.current ≤ merged) ∧ ∃ y ∈ x :: rest, y.current = merged) ∧
        (k = .prompt ∨ k = .desk → effectiveLevel b mode c cs = merged) ∧
        (k = .house → effectiveLevel b mode c cs =
          min merged (b.cell (0x2010 + 20 * (b.circuit c).zone + 4 * mode.code)).toNat) ∧
        (k = .local_ → effectiveLevel b mode c cs =
          min merged (b.cell (0x2010 + 20 * (b.circuit c).zone + 4 * mode.code + 2)).toNat))

/-- R45: a recompute that gives the stored level changes nothing; one that gives another stores it and sets the owed
flags of both frames. -/
def Obligations.RecomputeMarksBothFramesOnlyOnAChange : Prop :=
  ∀ (b : Bank) (mode : HouseMode) (c : CircuitId) (cs : CircuitState),
    (effectiveLevel b mode c cs = cs.level → recompute b mode c cs = cs) ∧
    (effectiveLevel b mode c cs ≠ cs.level → recompute b mode c cs =
      { cs with level := effectiveLevel b mode c cs, owedA := true, owedB := true })

/-! ### Frames -/

/-- R148 and R149: PASS falling, or a write-back write leaving flight with PASS low, takes a flip exactly when the back
frame is clean, the front frame owes and no frame clear runs; PASS rising takes none. -/
def Obligations.FlipIsTakenWhenItsFourConditionsHold : Prop :=
  (∀ s : State,
    let due := (∀ c, (s.circuit c).owes s.front.other = false) ∧ (∃ c, (s.circuit c).owes s.front = true) ∧
      s.clear = none
    let flipped : State → State := fun t =>
      { t with front := s.front.other, counters := s.counters.bump .flips }
    let inFlight := ∃ cycle, s.transfer = some ⟨.writeBack, cycle⟩
    (due → ¬ inFlight → exec .passFalls s = .next (flipped { s with passHigh := false })) ∧
    (¬ due ∨ inFlight → exec .passFalls s = .next { s with passHigh := false }) ∧
    exec .passRises s = .next { s with passHigh := true } ∧
    (inFlight → due → s.passHigh = false →
      exec .transferEnd s = .next (flipped { s with transfer := none })) ∧
    (inFlight → ¬ due ∨ s.passHigh = true → exec .transferEnd s = .next { s with transfer := none }) ∧
    (s.flipPending = true ↔ due ∧ ¬ inFlight ∧ s.passHigh = true)) ∧
  Frame.a.other = .b ∧ Frame.b.other = .a

/-- R146: a write-back grant writes the stored level of the lowest-numbered circuit the back frame owes into its cell
of the back frame and clears that one flag; every byte outside the cell reads as before. -/
def Obligations.WriteBackPaysTheLowestOwedCircuit : Prop :=
  ∀ (s : State) (c : CircuitId), Memory.wf s.mem = true → s.transfer = none → s.clear = none →
    (s.upstreamWaits = false ∨ s.runCount = 4) →
    (s.circuit c).owes s.front.other = true → (∀ d, d < c → (s.circuit d).owes s.front.other = false) →
    let cell := s.frameCell s.front.other c
    ∃ t, exec .writeBackGrant s = .next t ∧
      Memory.readCell t.mem cell = BitVec.ofNat 16 (s.circuit c).level ∧
      (∀ a, a ≠ cell → a ≠ cell + 1 → Memory.read t.mem a = Memory.read s.mem a) ∧
      t.circuit c = (s.circuit c).clearOwed s.front.other ∧ (∀ d, d ≠ c → t.circuit d = s.circuit d) ∧
      t.transfer = some ⟨.writeBack, ⟨cell, true, Lanes.both, BitVec.ofNat 16 (s.circuit c).level⟩⟩ ∧
      t = { s with mem := t.mem, circuits := t.circuits, transfer := t.transfer, runCount := 0 }

/-- R151 and R152: a frame-clear grant writes 0 into the next cell, frame A before frame B; when the 768th write has
been taken the owed flags are marked anew from the stored levels (R46), the clear ends, and a RESTART is DONE. -/
def Obligations.FrameClearZeroesBothFramesThenRemarks : Prop :=
  (∀ (s : State) (k : Nat), Memory.wf s.mem = true → s.clear = some k → k < 768 → s.transfer = none →
    (s.upstreamWaits = false ∨ s.runCount = 4) → (∀ j, s.status ≠ .commitRunning (.loading j)) →
    let cell := windowAddress s.base (if k < 384 then 0x1000 + 2 * k else 0x1400 + 2 * (k - 384))
    ∃ t, exec .frameClearGrant s = .next t ∧ Memory.readCell t.mem cell = 0 ∧
      (∀ a, a ≠ cell → a ≠ cell + 1 → Memory.read t.mem a = Memory.read s.mem a) ∧
      t.transfer = some ⟨.frameClear, ⟨cell, true, Lanes.both, 0⟩⟩ ∧
      t = { s with mem := t.mem, transfer := t.transfer, runCount := 0, clear := some (k + 1) }) ∧
  (∀ (s : State) (cycle : BusCycle), s.transfer = some ⟨.frameClear, cycle⟩ →
    exec .transferEnd s = .next { s with transfer := none }) ∧
  (∀ s : State, s.clear = some 768 → (∀ cycle, s.transfer ≠ some ⟨.frameClear, cycle⟩) →
    ∃ t, exec .frameClearEnds s = .next t ∧ t.clear = none ∧
      (∀ c, t.circuit c = { s.circuit c with owedA := decide ((s.circuit c).level ≠ 0),
                                             owedB := decide ((s.circuit c).level ≠ 0) }) ∧
      (s.status = .restartRunning → t = { s with clear := none, circuits := t.circuits, status := .done 0,
                                                 causes := Cause.command.mark s.causes }) ∧
      (s.status ≠ .restartRunning → t = { s with clear := none, circuits := t.circuits }))

/-! ### The upstream port -/

/-- R154, R155, R157, R160 and R161: which accesses this row forwards, by region, direction and the map-closed flag; a
forwarded access outside the window goes downstream unchanged, one inside it to its cell; it is granted when the port is
free and the fairness rule allows, and held otherwise (log 4); a write stores the selected bytes and no other; at the end of its
transfer a read drives the bytes it selected and a write is done. That SRAM takes a write and gives a read its data at
the grant is log 13; that the lanes a read does not select are not driven is log 11; that a transfer granted before an
assertion of RST# ends alike is log 21. -/
def Obligations.ForwardedAccessIsGrantedOrHeldAndAnswered : Prop :=
  (∀ (s : State) (a : Access),
    (a.addr.toNat / 0x10000 ≠ s.base.toNat * 4 → s.forwards a = true) ∧
    (∀ offset, s.addresses a.addr offset → a.lanes.any = false → s.forwards a = false) ∧
    (∀ offset, s.addresses a.addr offset → a.lanes.any = true →
      let reads := ∃ r, a = .read r
      (offset < 0x0400 → s.forwards a = false) ∧
      (0x0400 ≤ offset → offset < 0x0780 → (s.forwards a = true ↔ reads)) ∧
      (0x0800 ≤ offset → offset < 0x0B00 → s.forwards a = false) ∧
      (0x0C00 ≤ offset → offset < 0x0F00 → s.forwards a = false) ∧
      (0x1000 ≤ offset → offset < 0x1300 → (s.forwards a = true ↔ reads)) ∧
      (0x1400 ≤ offset → offset < 0x1700 → (s.forwards a = true ↔ reads)) ∧
      (0x2000 ≤ offset → (s.forwards a = true ↔ reads ∨ s.mapClosed = false)) ∧
      ((0x0780 ≤ offset ∧ offset < 0x0800) ∨ (0x0B00 ≤ offset ∧ offset < 0x0C00) ∨
        (0x0F00 ≤ offset ∧ offset < 0x1000) ∨ (0x1300 ≤ offset ∧ offset < 0x1400) ∨
        (0x1700 ≤ offset ∧ offset < 0x2000) → s.forwards a = true))) ∧
  (∀ (s : State) (a : Access), s.forwards a = true →
     let addr := a.addr.toNat
     let outside := addr / 0x10000 ≠ s.base.toNat * 4
     let dest := if outside then addr else addr / 2 * 2
     let cell := addr / 2 * 2
     (s.granted a →
       (∀ r, a = .read r → exec (.forwardedAccess a) s = .next { s with
         port := .idle, runCount := min (s.runCount + 1) 4,
         transfer := some ⟨.upstream, ⟨dest, false, r.lanes, Memory.readCell s.mem cell⟩⟩ }) ∧
       (∀ w, a = .write w → Memory.wf s.mem = true → ∃ t, exec (.forwardedAccess a) s = .next t ∧
         Memory.read t.mem cell = (if w.lanes.lo then loByte w.data else Memory.read s.mem cell) ∧
         Memory.read t.mem (cell + 1) = (if w.lanes.hi then hiByte w.data else Memory.read s.mem (cell + 1)) ∧
         (∀ x, x ≠ cell → x ≠ cell + 1 → Memory.read t.mem x = Memory.read s.mem x) ∧
         t = { s with port := .idle, runCount := min (s.runCount + 1) 4, mem := t.mem,
                      transfer := some ⟨.upstream, ⟨dest, true, w.lanes, w.data⟩⟩ })) ∧
     (s.awaitsGrant a → exec (.forwardedAccess a) s = .next { s with port := .waitGrant a })) ∧
  (∀ (s : State) (who : Requester) (addr : Nat) (lanes : Lanes) (data : Word),
   who = .upstream ∨ who = .upstreamPast →
   (s.transfer = some ⟨who, ⟨addr, false, lanes, data⟩⟩ → exec .transferEnd s =
     .next { s with transfer := none,
                    upData := ⟨if lanes.lo then some (loByte data) else none,
                               if lanes.hi then some (hiByte data) else none⟩ }) ∧
   (s.transfer = some ⟨who, ⟨addr, true, lanes, data⟩⟩ →
     exec .transferEnd s = .next { s with transfer := none }))

/-- R144: a granted read of the circuit window goes to the cell of the frame that is front at the grant; one that is not
granted is held by the port and does nothing else (R157, R160, R161; log 4); while a frame clear runs it is answered 0
in both bytes at once. That SRAM gives the read its data at the grant is the model's reading
(log 13). -/
def Obligations.CircuitWindowReadFollowsTheFrontFrame : Prop :=
  ∀ (s : State) (r : ReadAccess) (c : CircuitId),
    s.addresses r.addr (0x0800 + 2 * c.val) → r.lanes.any = true →
    (s.clear = none → s.granted (.read r) →
      let cell := windowAddress s.base ((match s.front with | .a => 0x1000 | .b => 0x1400) + 2 * c.val)
      exec (.circuitWindowRead r) s = .next { s with
        port := .idle, runCount := min (s.runCount + 1) 4,
        transfer := some ⟨.upstream, ⟨cell, false, r.lanes, Memory.readCell s.mem cell⟩⟩ }) ∧
    (s.clear = none → s.awaitsGrant (.read r) →
      exec (.circuitWindowRead r) s = .next { s with port := .waitGrant (.read r) }) ∧
    (∀ k, s.clear = some k → s.upstreamReady = true → exec (.circuitWindowRead r) s =
      .next { s with port := .idle, upData := ⟨some 0, some 0⟩ })

/-- R36: a read of the view window is answered with the current level of the reading tag's contribution on the
circuit, in whatever state, or FFFFh where it has none; a byte read with that byte (R155). That the lane a byte read does
not select is not driven is the model's choice (log 11). -/
def Obligations.ViewWindowReadAnswersTheTagsOwnLevel : Prop :=
  ∀ (s : State) (r : ReadAccess) (c : CircuitId),
    s.addresses r.addr (0x0C00 + 2 * c.val) → r.lanes.any = true → s.upstreamReady = true →
    let answer : Word → BusData := fun v =>
      ⟨if r.lanes.lo then some (loByte v) else none, if r.lanes.hi then some (hiByte v) else none⟩
    (∀ x, ownContribution (s.circuit c).list (.desk r.tag) = some x →
      exec (.viewWindowRead r) s = .next { s with upData := answer (BitVec.ofNat 16 x.current) }) ∧
    ((∀ x ∈ (s.circuit c).list, x.owner ≠ .desk r.tag) →
      exec (.viewWindowRead r) s = .next { s with upData := answer 0xFFFF })

/-- R158 and R159: a desk write is judged on its width and then its value; accepted, it joins the Desk Write Queue at
the tail, or waits at the port while 16 are held and joins when a slot is free (in a run, within the take that frees
it: the statement of DESK_CLAIM, log 23); refused, it is counted and raises WRITE. -/
def Obligations.DeskWriteIsJudgedOnWidthThenValue : Prop :=
  (∀ (s : State) (w : WriteAccess) (c : CircuitId),
    s.addresses w.addr (0x0800 + 2 * c.val) → w.lanes.any = true → s.upstreamReady = true →
    let refused : State := { s with counters := s.counters.bump .refusedDeskWrites,
                                    causes := Cause.write.mark s.causes }
    let accepted := w.data.toNat ≤ 1000 ∨ w.data = 0xFFFF
    ((w.lanes.lo && w.lanes.hi) = false → exec (.deskWrite w) s = .next refused) ∧
    ((w.lanes.lo && w.lanes.hi) = true → ¬ accepted → exec (.deskWrite w) s = .next refused) ∧
    ((w.lanes.lo && w.lanes.hi) = true → accepted → s.deskQueue.length < 16 → exec (.deskWrite w) s =
      .next { s with deskQueue := s.deskQueue ++ [⟨w.tag, c, w.data⟩] }) ∧
    ((w.lanes.lo && w.lanes.hi) = true → accepted → 16 ≤ s.deskQueue.length → exec (.deskWrite w) s =
      .next { s with port := .waitSlot ⟨w.tag, c, w.data⟩ })) ∧
  (∀ (s : State) (d : DeskEntry), s.port = .waitSlot d →
    (s.deskQueue.length < 16 → exec .deskWriteJoins s =
      .next { s with port := .idle, deskQueue := s.deskQueue ++ [d] }) ∧
    (16 ≤ s.deskQueue.length → exec .deskWriteJoins s = .next s))

/-- R34: a desk claim of a level snaps the tag's contribution on the circuit to it, renewing it or creating it in class
DESK; FFFFh removes the contribution at once and is no refusal where there is none. R35: a claim that needs a record is
refused POOL EXHAUSTED when the pool is empty, and otherwise CIRCUIT FULL when the circuit's list holds 8; it changes no
list, raises RESOURCE, is counted, and overwrites the last refusal record. R159: whatever the claim's outcome the head
leaves the queue, and a desk write waiting at the port for a slot joins at the tail as soon as it has; that this join is
within DESK_CLAIM, although DESK_WRITE_JOINS is a row of its own, is the model's reading (log 23, DEDUCED). -/
def Obligations.DeskClaimSnapsRemovesOrIsRefused : Prop :=
  let left : State → List DeskEntry → State := fun s rest =>
    match s.port with
    | .waitSlot w =>
      if rest.length < 16 then { s with port := .idle, deskQueue := rest ++ [w] } else { s with deskQueue := rest }
    | _ => { s with deskQueue := rest }
  (∀ (s : State) (d : DeskEntry) (rest : List DeskEntry), s.deskQueue = d :: rest →
     let own := fun x : Contribution => decide (x.owner = .desk d.tag)
     (d.value ≠ 0xFFFF →
       holds (s.circuit d.circuit).list (.desk d.tag) = true ∨
         (s.poolFree ≠ 0 ∧ (s.circuit d.circuit).list.length < 8) →
       ∃ t, exec .deskClaim s = .next t ∧
         GoesToLevel (.desk d.tag) .desk d.value.toNat 0 (s.circuit d.circuit) (t.circuit d.circuit) ∧
         (t.circuit d.circuit).slot = (s.circuit d.circuit).slot ∧
         Recomputed s.active s.mode d.circuit (s.circuit d.circuit) (t.circuit d.circuit) ∧
         (∀ c, c ≠ d.circuit → t.circuit c = s.circuit c) ∧
         t = { left s rest with circuits := t.circuits }) ∧
     (d.value = 0xFFFF → (s.circuit d.circuit).list.any own = true → ∃ t, exec .deskClaim s = .next t ∧
         (t.circuit d.circuit).list = (s.circuit d.circuit).list.filter (fun x => !own x) ∧
         (t.circuit d.circuit).slot = (s.circuit d.circuit).slot ∧
         Recomputed s.active s.mode d.circuit (s.circuit d.circuit) (t.circuit d.circuit) ∧
         (∀ c, c ≠ d.circuit → t.circuit c = s.circuit c) ∧
         t = { left s rest with circuits := t.circuits }) ∧
     (d.value = 0xFFFF → (s.circuit d.circuit).list.any own = false →
       exec .deskClaim s = .next (left s rest))) ∧
  (∀ (s : State) (d : DeskEntry) (rest : List DeskEntry), s.deskQueue = d :: rest → d.value ≠ 0xFFFF →
     holds (s.circuit d.circuit).list (.desk d.tag) = false →
     let refused : Reason → State := fun r =>
       { left s rest with causes := Cause.resource.mark s.causes,
                          counters := s.counters.bump .refusedDeskWrites,
                          lastRefusal := ⟨some (.desk d.tag), none, some .deskWrite, none, r⟩ }
     (s.poolFree = 0 → exec .deskClaim s = .next (refused .poolExhausted)) ∧
     (s.poolFree ≠ 0 → 8 ≤ (s.circuit d.circuit).list.length → exec .deskClaim s = .next (refused .circuitFull)))

/-- R156 and R157: each kind of refused write raises its counter by one and WRITE, and changes nothing else; an access
that selects no byte is taken at once and changes nothing, a read being answered 0 (R157), which the model drives on both
lanes (log 11). -/
def Obligations.RefusedWriteIsOnlyCounted : Prop :=
  (∀ (s : State) (w : WriteAccess) (offset : Nat),
    s.addresses w.addr offset → w.lanes.any = true → s.upstreamReady = true →
    let refused : CounterName → State := fun k =>
      { s with counters := s.counters.bump k, causes := Cause.write.mark s.causes }
    let wide := (w.lanes.lo && w.lanes.hi) = true
    (0x0800 ≤ offset → offset < 0x0B00 → ¬ wide ∨ (1000 < w.data.toNat ∧ w.data ≠ 0xFFFF) →
      exec (.refusedWrite w) s = .next (refused .refusedDeskWrites)) ∧
    (0x0C00 ≤ offset → offset < 0x0F00 → exec (.refusedWrite w) s = .next (refused .refusedOtherWrites)) ∧
    (0x1000 ≤ offset → offset < 0x1300 → exec (.refusedWrite w) s = .next (refused .refusedOtherWrites)) ∧
    (0x1400 ≤ offset → offset < 0x1700 → exec (.refusedWrite w) s = .next (refused .refusedOtherWrites)) ∧
    (0x2000 ≤ offset → s.mapClosed = true → exec (.refusedWrite w) s = .next (refused .refusedOtherWrites)) ∧
    (offset < 0x0400 → ¬ wide ∨ (offset ≠ 0 ∧ offset ≠ 2 ∧ offset ≠ 0x20 ∧ offset ≠ 0x22) →
      exec (.refusedWrite w) s = .next (refused .refusedOtherWrites))) ∧
  (∀ (s : State) (addr : Address) (tag : TagId) (data : Word) (offset : Nat),
    s.addresses addr offset → s.upstreamReady = true →
    exec (.noByteAccess (.read ⟨addr, ⟨false, false⟩, tag⟩)) s = .next { s with upData := ⟨some 0, some 0⟩ } ∧
    exec (.noByteAccess (.write ⟨addr, ⟨false, false⟩, tag, data⟩)) s = .next s)

/-! ### The control block -/

/-- R169, R179, R180 and R181: the pending-causes write clears the causes written as 1, the mask write stores bits 0 to
8, the parameter write only stores, ATTN# is asserted while a cause is both pending and enabled, raising a cause sets
its flag and no other, and a counter raised at 65535 stays there. R157, R167 and R178: a read of the control block is
answered with the cell at its offset, and each cell shows what the table of R167 gives, every other cell 0; the
seconds of the amend window are rounded up (R138). That such a read is a function of the state and no command is log 14;
that the lane a byte read does not select is not driven is log 11. The model's choices are also that an open window with
no time left reads 1 s (log 8) and that the reason of a status other than REFUSED reads NONE (log 22). -/
def Obligations.ControlCellWritesStoreAndClear : Prop :=
  (∀ (s : State) (v : Word), s.upstreamReady = true →
    (∃ t, exec (.pendingCausesWrite v) s = .next t ∧ t = { s with causes := t.causes } ∧
      ∀ k, k < 9 → t.causes.getLsbD k = (s.causes.getLsbD k && !v.getLsbD k)) ∧
    (∃ t, exec (.enableMaskWrite v) s = .next t ∧ t = { s with mask := t.mask } ∧
      ∀ k, k < 9 → t.mask.getLsbD k = v.getLsbD k) ∧
    exec (.controlCellWrite v) s = .next { s with parameter := v }) ∧
  (∀ s : State, (s.attn = true ↔ ∃ k, k < 9 ∧ s.causes.getLsbD k = true ∧ s.mask.getLsbD k = true) ∧
    (∀ k, k < 9 → s.causes.getLsbD k = true → s.mask.getLsbD k = true →
      (∀ j, j < k → s.causes.getLsbD j = false ∨ s.mask.getLsbD j = false) → s.topCause = k + 1)) ∧
  (∀ (c : Cause) (x : BitVec 9) (k : Nat), (c.mark x).getLsbD k = (x.getLsbD k || decide (k = c.bit))) ∧
  (∀ (x : Counters) (n m : CounterName),
    (x.bump n).value m = if m = n then min (x.value m + 1) 65535 else x.value m) ∧
  (∀ (s : State) (a : ReadAccess) (offset : Nat), s.addresses a.addr offset → a.lanes.any = true →
    s.upstreamReady = true →
    (offset < 0x0400 → s.controlRead a =
      some ⟨if a.lanes.lo then some (loByte (s.controlCell offset)) else none,
            if a.lanes.hi then some (hiByte (s.controlCell offset)) else none⟩) ∧
    (0x0400 ≤ offset → s.controlRead a = none)) ∧
  (∀ s : State,
    let number := fun offset n => s.controlCell offset = BitVec.ofNat 16 n
    (s.controlCell 0x0000 = s.command ∧ s.controlCell 0x0002 = s.parameter) ∧
    (s.status = .idle → number 0x0006 0 ∧ number 0x0008 0 ∧ number 0x000A 0) ∧
    (∀ k, s.status = .commitRunning (.loading k) → number 0x0006 1 ∧ number 0x0008 k ∧ number 0x000A 1) ∧
    (s.status = .commitRunning .validating → number 0x0006 1 ∧ number 0x0008 20008 ∧ number 0x000A 2) ∧
    (s.status = .commitRunning .swapPending → number 0x0006 1 ∧ number 0x0008 20008 ∧ number 0x000A 3) ∧
    (∀ k, s.status = .restartRunning → s.clear = some k → number 0x0006 1 ∧ number 0x0008 k ∧ number 0x000A 0) ∧
    (∀ d, s.status = .done d → number 0x0006 2 ∧ number 0x0008 d ∧ number 0x000A 0) ∧
    (∀ r d e, s.status = .refused r d e → number 0x0006 (3 + 256 * r.code) ∧ number 0x0008 d ∧ number 0x000A e) ∧
    number 0x0010 s.mode.code ∧
    (let line := if s.egrLine then 256 else 0
     (s.egress = .clear → number 0x0012 line) ∧ (∀ ms, s.egress = .pending ms → number 0x0012 (1 + line)) ∧
     (s.egress = .latchedActive → number 0x0012 (2 + line)) ∧
     (s.egress = .latchedCleared → number 0x0012 (3 + line))) ∧
    number 0x0014 (if s.hold then 1 else 0) ∧
    (s.amend = none → number 0x0016 0) ∧ (s.amend = some 0 → number 0x0016 1) ∧
    (∀ ms, s.amend = some ms → ms ≠ 0 → number 0x0016 ((ms + 999) / 1000)) ∧
    number 0x0018 (if s.mapClosed then 1 else 0) ∧ s.controlCell 0x001A = s.generation ∧
    s.controlCell 0x0020 = s.causes.setWidth 16 ∧ s.controlCell 0x0022 = s.mask.setWidth 16 ∧
    number 0x0024 s.topCause ∧ (s.attn = false → s.topCause = 0) ∧
    number 0x0028 (inputCount s.events) ∧ number 0x002A s.poolFree ∧
    number 0x002C ((if s.front = .b then 1 else 0) + (if s.flipPending then 2 else 0) +
      (if s.clear = none then 0 else 4)) ∧
    number 0x002E s.resetCause.code ∧
    number 0x0030 s.counters.queueLosses ∧ number 0x0032 s.counters.nightDrops ∧
    number 0x0034 s.counters.quarantineDrops ∧ number 0x0036 s.counters.refusedActions ∧
    number 0x0038 s.counters.refusedDeskWrites ∧ number 0x003A s.counters.refusedOtherWrites ∧
    number 0x003C s.counters.busyRefusals ∧ number 0x003E s.counters.flips ∧
    (s.lastRefusal.owner = none → number 0x0040 0xFFFF) ∧
    (∀ n, s.lastRefusal.owner = some (.station n) → number 0x0040 n.val) ∧
    (∀ k, s.lastRefusal.owner = some (.desk k) → number 0x0040 (0x0100 + k.val)) ∧
    (s.lastRefusal.input = none → number 0x0042 0xFFFF) ∧ (∀ i, s.lastRefusal.input = some i → number 0x0042 i.val) ∧
    (s.lastRefusal.kind = none → number 0x0044 0) ∧
    (∀ k, s.lastRefusal.kind = some k → number 0x0044 k.code) ∧
    (s.lastRefusal.action = none → number 0x0046 0xFFFF) ∧ (∀ k, s.lastRefusal.action = some k → number 0x0046 k) ∧
    number 0x0048 s.lastRefusal.reason.code ∧
    (∀ (n : StationId) (k : Nat), (s.controlCell (0x0100 + 2 * n.val)).getLsbD k =
      match k with
      | 0 => (s.active.station n).enabled
      | 1 => !(s.station n).baselineRequired
      | 2 => (s.station n).lost
      | 3 => (s.station n).suspect
      | 4 => (s.station n).faults.contact
      | 5 => (s.station n).faults.gap
      | 6 => (s.station n).faults.line
      | 7 => (s.station n).faults.qloss
      | 8 => (markerIn s.events n).isSome
      | _ => false) ∧
    (∀ offset, offset ∈ [0x0004, 0x000C, 0x000E, 0x001C, 0x001E, 0x0026] ∨ (0x004A ≤ offset ∧ offset < 0x0100) ∨
      0x01E0 ≤ offset → number offset 0)) ∧
  ([HouseMode.open_, .prepare, .performance, .interval, .night].map HouseMode.code = List.range 5 ∧
    [Reason.noReason, .unknown, .badParameter, .locked, .closed, .invalid, .illegalTransition, .notInShow, .lineActive,
      .notLatched, .abandoned, .poolExhausted, .circuitFull].map Reason.code = List.range 13 ∧
    [RefusedKind.event .press, .event .release, .event .tap, .event .long, .event .longEnd, .event .on, .event .off,
      .deskWrite].map RefusedKind.code = [1, 2, 3, 4, 5, 6, 7, 8] ∧
    [ResetCause.power, .line, .restart].map ResetCause.code = [1, 2, 3])

/-- R169: a command offered while one is RUNNING only stores its value and is counted; a value that names no command is
taken and refused UNKNOWN. -/
def Obligations.CommandIsCountedWhenBusyAndRefusedWhenUnknown : Prop :=
  (∀ s : State, s.upstreamReady = true → s.status.running = true →
    let busy : Word → State := fun v => { s with command := v, counters := s.counters.bump .busyRefusals }
    exec .commit s = .next (busy 1) ∧ exec .closeMap s = .next (busy 2) ∧ exec .setMode s = .next (busy 3) ∧
    exec .holdFades s = .next (busy 4) ∧ exec .resumeFades s = .next (busy 5) ∧
    exec .amendCommand s = .next (busy 6) ∧ exec .restoreEgress s = .next (busy 7) ∧
    exec .clearFaults s = .next (busy 8) ∧ exec .clearCounters s = .next (busy 9) ∧
    exec .releaseDesk s = .next (busy 10) ∧ exec .restart s = .next (busy 11) ∧
    (∀ v : Word, v.toNat = 0 ∨ 12 ≤ v.toNat → exec (.unknownCommand v) s = .next (busy v))) ∧
  (∀ (s : State) (v : Word), s.takesCommand → v.toNat = 0 ∨ 12 ≤ v.toNat →
    exec (.unknownCommand v) s =
      .next { s with command := v, status := .refused .unknown 0 0, causes := Cause.command.mark s.causes })

/-- R140, R171 and R172: CLOSE_MAP sets the map-closed flag, CLEAR_COUNTERS sets the eight counters to 0, RELEASE_DESK
removes every contribution of the named desk tag, or of every tag, at once; each is DONE. -/
def Obligations.ImmediateCommandsTakeEffectAtOnce : Prop :=
  ∀ s : State, s.takesCommand →
    exec .closeMap s = .next { s with command := 2, mapClosed := true, status := .done 0,
                                      causes := Cause.command.mark s.causes } ∧
    exec .clearCounters s = .next { s with command := 9, counters := ⟨0, 0, 0, 0, 0, 0, 0, 0⟩, status := .done 0,
                                           causes := Cause.command.mark s.causes } ∧
    (∀ p : Owner → Bool,
      ((∃ tag : TagId, s.parameter.toNat = tag.val ∧ p = fun o => decide (o = .desk tag)) ∨
        (s.parameter = 0xFFFF ∧ p = fun o => match o with | .desk _ => true | .station _ => false)) →
      ∃ t, exec .releaseDesk s = .next t ∧
        (∀ c, (t.circuit c).list = (s.circuit c).list.filter (fun x => !p x.owner) ∧
          (t.circuit c).slot = (s.circuit c).slot ∧
          ((s.circuit c).list.any (fun x => p x.owner) = true →
            Recomputed s.active s.mode c (s.circuit c) (t.circuit c)) ∧
          ((s.circuit c).list.any (fun x => p x.owner) = false → t.circuit c = s.circuit c)) ∧
        t = { s with command := 10, circuits := t.circuits, status := .done 0,
                     causes := Cause.command.mark s.causes }) ∧
    (8 ≤ s.parameter.toNat → s.parameter ≠ 0xFFFF → exec .releaseDesk s =
      .next { s with command := 10, status := .refused .badParameter 1 0, causes := Cause.command.mark s.causes })

/-- R173 and R139: a COMMIT is refused CLOSED while the map is closed, then LOCKED in PERFORMANCE or INTERVAL with the
amend window shut, and otherwise begins to load with 0 cells. A loader grant reads the next image cell as SRAM holds it;
when its transfer ends the cell stands in the same place of the standby bank and is counted, and the 20008th ends the
load; a read whose COMMIT was abandoned is discarded (R160). -/
def Obligations.CommitIsJudgedAtItsTakeAndLoadsCellByCell : Prop :=
  (∀ s : State, s.takesCommand →
     let shut := (s.mode = .performance ∨ s.mode = .interval) ∧ s.amend = none
     (s.mapClosed = true → exec .commit s =
       .next { s with command := 1, status := .refused .closed 0 0, causes := Cause.command.mark s.causes }) ∧
     (s.mapClosed = false → shut → exec .commit s =
       .next { s with command := 1, status := .refused .locked 0 0, causes := Cause.command.mark s.causes }) ∧
     (s.mapClosed = false → ¬ shut → exec .commit s =
       .next { s with command := 1, status := .commitRunning (.loading 0) })) ∧
  (∀ (s : State) (k : Nat), s.status = .commitRunning (.loading k) → s.transfer = none →
    (s.upstreamWaits = false ∨ s.runCount = 4) → s.writeBackRequests = false →
    let cell := windowAddress s.base (imageOffset k)
    exec .loaderReadGrant s = .next { s with
      runCount := 0,
      transfer := some ⟨.loader k false, ⟨cell, false, Lanes.both, Memory.readCell s.mem cell⟩⟩ }) ∧
  (∀ (s : State) (k : Nat) (cycle : BusCycle), s.transfer = some ⟨.loader k false, cycle⟩ →
    s.status = .commitRunning (.loading k) → ∃ t, exec .transferEnd s = .next t ∧
      (Bank.wf s.standby = true → t.standby.cell (imageOffset k) = cycle.data) ∧
      (∀ o, o ≠ imageOffset k → t.standby.cell o = s.standby.cell o) ∧
      (k + 1 < 20008 → t.status = .commitRunning (.loading (k + 1))) ∧
      (20008 ≤ k + 1 → t.status = .commitRunning .validating) ∧
      t = { s with transfer := none, standby := t.standby, status := t.status }) ∧
  (∀ (s : State) (k : Nat) (cycle : BusCycle), s.transfer = some ⟨.loader k true, cycle⟩ →
    exec .transferEnd s = .next { s with transfer := none }) ∧
  (imageOffset 0 = 0x2000 ∧ imageOffset 167 = 0x214E ∧ imageOffset 168 = 0x2200 ∧ imageOffset 1384 = 0x2C00 ∧
    imageOffset 1576 = 0x3000 ∧ imageOffset 4648 = 0x4800 ∧ imageOffset 11816 = 0x8000 ∧ imageOffset 20007 = 0xBFFE)

/-- R174: validation refuses the COMMIT INVALID with the table and index of the first failing record, or requests the
swap. The tables are checked in the order 1 to 10, the records of each in ascending index (R19). A record passes exactly
when its fields are in range (R20), its run and its references stand and nothing is named twice (R21), and its actions fit
the station's privileges and the placement of RAISE and LOWER (R22); its fields are read from its cells (R168). -/
def Obligations.ValidationReportsTheFirstFailingRecord : Prop :=
  (∀ s : State, s.status = .commitRunning .validating →
    (∀ table index, s.standby.firstFault = some (table, index) → exec .validationEnds s =
      .next { s with status := .refused .invalid table index, causes := Cause.command.mark s.causes }) ∧
    (s.standby.valid = true → exec .validationEnds s =
      .next { s with status := .commitRunning .swapPending })) ∧
  (∀ (b : Bank) (table index : Nat), b.firstFault = some (table, index) →
    ∃ size check, (table, size, check) ∈ validationTables b ∧ index < size ∧ check index = false ∧
      (∀ j, j < index → check j = true) ∧
      ∀ t' ∈ validationTables b, t'.1 < table → ∀ j, j < t'.2.1 → t'.2.2 j = true) ∧
  (∀ b : Bank, b.valid = true ↔ ∀ t ∈ validationTables b, ∀ j, j < t.2.1 → t.2.2 j = true) ∧
  Bank.empty.valid = true ∧
  (∀ b : Bank, validationTables b = [(1, 8, b.profileOk), (2, 16, b.zoneOk), (3, 384, b.circuitOk), (4, 112, b.stationOk),
    (5, 1024, b.memberOk), (6, 1024, b.itemOk), (7, 64, b.groupOk), (8, 32, b.sceneOk), (9, 2048, b.actionOk),
    (10, 1792, b.bindingOk)]) ∧
  (∀ (b : Bank) (k : Nat),
    let word := fun offset => (b.cell offset).toNat
    let sequence := fun offset => SeqRef.mk (word offset % 2048) (word offset / 2048)
    b.circuitRec k = ⟨word (0x2200 + 4 * k) % 256, word (0x2200 + 4 * k) / 256 % 4,
      (b.cell (0x2200 + 4 * k)).getLsbD 10, word (0x2200 + 4 * k) / 2048, word (0x2200 + 4 * k + 2)⟩ ∧
    (let bit := fun j => (b.cell (0x2800 + 8 * k)).getLsbD j
     b.stationRec k = ⟨bit 0, bit 1, bit 2, bit 3, bit 4, bit 5, bit 6, bit 7, word (0x2800 + 8 * k) / 256,
       word (0x2800 + 8 * k + 2) % 256, word (0x2800 + 8 * k + 2) / 256, b.cell (0x2800 + 8 * k + 4)⟩) ∧
    b.bindingRec k = ⟨word (0x4800 + 8 * k) % 256, sequence (0x4800 + 8 * k + 2), sequence (0x4800 + 8 * k + 4),
      sequence (0x4800 + 8 * k + 6)⟩ ∧
    b.actionRec k = ⟨word (0x8000 + 8 * k) % 256, word (0x8000 + 8 * k) / 256, word (0x8000 + 8 * k + 2),
      word (0x8000 + 8 * k + 4), word (0x8000 + 8 * k + 6) % 256, (b.cell (0x8000 + 8 * k + 6)).getLsbD 8,
      word (0x8000 + 8 * k + 6) / 512⟩) ∧
  (∀ (b : Bank) (k : Nat),
    let word := fun offset => (b.cell offset).toNat
    (b.profileOk k = true ↔ word (0x2000 + 2 * k) ≤ 600) ∧
    (b.zoneOk k = true ↔ ∀ j, j < 10 → word (0x2010 + 20 * k + 2 * j) ≤ 1000) ∧
    (b.circuitOk k = true ↔ (b.circuitRec k).zone ≤ 15 ∧ (b.circuitRec k).mergeCode ≤ 1 ∧
      (b.circuitRec k).profile ≤ 7 ∧ (b.circuitRec k).rest ≤ 1000) ∧
    (b.stationOk k = true ↔ (b.stationRec k).classCode ≤ 2 ∧ 1 ≤ (b.stationRec k).inputsUsed ∧
      (b.stationRec k).inputsUsed ≤ 16 ∧ (b.stationRec k).silenceLimit ≤ 15 ∧
      (96 ≤ k → (b.stationRec k).silenceLimit = 0)) ∧
    (b.memberOk k = true ↔ word (0x3000 + 2 * k) ≤ 383) ∧
    (b.itemOk k = true ↔ word (0x3800 + 4 * k) ≤ 383 ∧ word (0x3800 + 4 * k + 2) ≤ 1000) ∧
    (let start := word (0x2C00 + 4 * k)
     let count := word (0x2C00 + 4 * k + 2)
     b.groupOk k = true ↔ start ≤ 1023 ∧ count ≤ 128 ∧ (count ≠ 0 → start + count ≤ 1024 ∧
       ∀ i j, i < j → j < count → word (0x3000 + 2 * (start + i)) ≠ word (0x3000 + 2 * (start + j)))) ∧
    (let start := word (0x2D00 + 4 * k)
     let count := word (0x2D00 + 4 * k + 2)
     b.sceneOk k = true ↔ start ≤ 1023 ∧ count ≤ 256 ∧ (count ≠ 0 → start + count ≤ 1024 ∧
       ∀ i j, i < j → j < count → word (0x3800 + 4 * (start + i)) ≠ word (0x3800 + 4 * (start + j)))) ∧
    (let a := b.actionRec k
     let target := (a.targetType = 0 ∧ a.targetIndex ≤ 383) ∨
       (a.targetType = 1 ∧ a.targetIndex ≤ 63 ∧ word (0x2C00 + 4 * a.targetIndex + 2) ≠ 0) ∨
       (a.targetType = 2 ∧ a.targetIndex ≤ 15)
     let noTarget := a.targetType = 3 ∧ a.targetIndex = 0 ∧ a.level = 0
     b.actionOk k = true ↔
       (a.kindCode ≤ 1 ∧ target ∧ a.level ≤ 1000 ∧ a.profile ≤ 8 ∧ a.exclusive = false ∧ a.param = 0) ∨
       (2 ≤ a.kindCode ∧ a.kindCode ≤ 4 ∧ target ∧ a.level = 0 ∧ a.profile ≤ 8 ∧ a.exclusive = false ∧
         a.param = 0) ∨
       (a.kindCode = 5 ∧ noTarget ∧ a.profile ≤ 8 ∧ a.param ≤ 31 ∧ word (0x2D00 + 4 * a.param + 2) ≠ 0) ∨
       (a.kindCode = 6 ∧ noTarget ∧ a.profile = 0 ∧ a.exclusive = false ∧ a.param ≤ 4) ∨
       (7 ≤ a.kindCode ∧ a.kindCode ≤ 10 ∧ noTarget ∧ a.profile = 0 ∧ a.exclusive = false ∧ a.param = 0)) ∧
    (let r := b.bindingRec k
     let station := b.stationRec (k / 16)
     let inPool := fun q : SeqRef => q.count ≤ 16 ∧ q.start + q.count ≤ 2048
     let kinds := fun (q : SeqRef) (p : Nat → Prop) => ∀ j, j < q.count → p (b.actionRec (q.start + j)).kindCode
     let allowed := fun code => (code = 6 → station.mayMode = true) ∧ (code = 7 ∨ code = 8 → station.mayHold = true) ∧
       (code = 9 → station.mayAmend = true) ∧ (code = 10 → station.mayRestore = true)
     let noRamp := fun code : Nat => code ≠ 2 ∧ code ≠ 3
     b.bindingOk k = true ↔ r.triggerCode ≤ 2 ∧ inPool r.press ∧ inPool r.release ∧ inPool r.long ∧
       kinds r.press allowed ∧ kinds r.release allowed ∧ kinds r.long allowed ∧
       kinds r.release noRamp ∧ (r.long.count ≠ 0 → kinds r.press noRamp)))

/-- R139, R174 and R175: at an idle point with a swap pending, a locked map is refused LOCKED and nothing else changes;
otherwise the eight effects of R175 are taken in their order, with the desk claims and steps of `gaps` between them (log
5): the banks are exchanged and the generation rises; the amend window closes; every ramp ends; the stations take the
effects of R83; the contributions of the stations that the new map disables leave; slots are reconciled while latched
(R40); every circuit is recomputed against the new map; the COMMIT is DONE. Each claim recomputes the circuits it
touches (R44), so a level that one moves and a later one brings back is owed (R45). With nothing between, what the lists,
the slots and the stored levels come to is said whole. -/
def Obligations.SwapExchangesTheBanksWithAllItsEffects : Prop :=
  let disabled : Bank → Bank → Contribution → Bool := fun old new x => match x.owner with
    | .station n => (old.station n).enabled && !(new.station n).enabled
    | .desk _ => false
  let stations : Bank → State → State → Prop := fun old s t =>
    (∀ n, let before := (old.station n).enabled
      let now := (s.active.station n).enabled
      let limit := (s.active.station n).silenceLimit
      (∀ i, ((t.station n).inputs.get i).closed = ((s.station n).inputs.get i).closed ∧
        ((t.station n).inputs.get i).acted =
          (if before && !now then false else ((s.station n).inputs.get i).acted) ∧
        (∀ r, ((s.station n).inputs.get i).phase = .timing r → ((t.station n).inputs.get i).phase = .idle) ∧
        ((∀ r, ((s.station n).inputs.get i).phase ≠ .timing r) →
          ((t.station n).inputs.get i).phase = ((s.station n).inputs.get i).phase)) ∧
      (t.station n).baselineRequired = (if before = now then (s.station n).baselineRequired else true) ∧
      (t.station n).lost = (if before && !now then false else (s.station n).lost) ∧
      (now = true → (t.station n).silence = if limit ≠ 0 ∧ (s.station n).lost = false then some 0 else none) ∧
      (before = true → now = false → (t.station n).silence = none) ∧
      (before = false → now = false → (t.station n).silence = (s.station n).silence) ∧
      (t.station n).copy = (s.station n).copy ∧ (t.station n).faults = (s.station n).faults ∧
      (t.station n).suspect = (s.station n).suspect) ∧
    t = { s with stations := t.stations }
  let slot : Bank → CircuitId → Slot → Slot → Prop := fun b c before after =>
    ((b.circuit c).egressMember = true → after = .active) ∧
    ((b.circuit c).egressMember = false → before ≠ .active → after = before) ∧
    ((b.circuit c).egressMember = false → before = .active →
      (b.defaultTime c = 0 → after = .empty) ∧
      (b.defaultTime c ≠ 0 → after = .leaving 1000 ((1000 + 4 * b.defaultTime c - 1) / (4 * b.defaultTime c))))
  let slots : State → State → Prop := fun s t =>
    (s.egress.latched = false → t = s) ∧
    (s.egress.latched = true → ∀ c, slot s.active c (s.circuit c).slot (t.circuit c).slot ∧
      (t.circuit c).list = (s.circuit c).list ∧
      ((t.circuit c).slot = (s.circuit c).slot → t.circuit c = s.circuit c) ∧
      ((t.circuit c).slot ≠ (s.circuit c).slot → Recomputed s.active s.mode c (s.circuit c) (t.circuit c))) ∧
    t = { s with circuits := t.circuits }
  ∀ (gaps : List (List Interlude)) (s : State), s.status = .commitRunning .swapPending → s.current = none →
    let shut := (s.mode = .performance ∨ s.mode = .interval) ∧ s.amend = none
    let map := s.standby
    let gap := fun k => TakenBetween (gaps.getD k [])
    (shut → exec (.mapSwap gaps) s =
      .next { s with status := .refused .locked 0 0, causes := Cause.command.mark s.causes }) ∧
    (¬ shut → ∃ s1 u1 s2 u2 s3 u3 s4 u4 s5 u5 s6 u6 s7 u7 t, exec (.mapSwap gaps) s = .next t ∧
      s1 = { s with active := map, standby := s.active, generation := s.generation + 1 } ∧ gap 0 s1 u1 ∧
      s2 = { u1 with amend := none } ∧ gap 1 s2 u2 ∧
      (RampsEndedOn (fun _ => true) u2 s3 ∧ s3 = { u2 with circuits := s3.circuits }) ∧ gap 2 s3 u3 ∧
      stations s.active u3 s4 ∧ gap 3 s4 u4 ∧
      (ListsClaimed (fun _ l => l.any (disabled s.active map))
        (fun c => LeavesWith (disabled s.active map) (map.defaultTime c)) u4 s5 ∧
        s5 = { u4 with circuits := s5.circuits }) ∧ gap 4 s5 u5 ∧
      slots u5 s6 ∧ gap 5 s6 u6 ∧
      (AllRecomputed map s.mode u6 s7 ∧ s7 = { u6 with circuits := s7.circuits }) ∧ gap 6 s7 u7 ∧
      t = { u7 with status := .done (s.generation + 1).toNat, causes := Cause.command.mark u7.causes } ∧
      (t.active = map ∧ t.standby = s.active ∧ t.generation = s.generation + 1 ∧ t.mode = s.mode ∧
        t.egress = s.egress ∧ t.amend = none)) ∧
    (¬ shut → (∀ l ∈ gaps, l = []) → ∃ t, exec (.mapSwap gaps) s = .next t ∧
      (∀ c, (∃ ended, RampsEnded (fun _ => true) (s.circuit c).list ended ∧
          LeavesWith (disabled s.active map) (map.defaultTime c) ended (t.circuit c).list) ∧
        (s.egress.latched = false → (t.circuit c).slot = (s.circuit c).slot) ∧
        (s.egress.latched = true → slot map c (s.circuit c).slot (t.circuit c).slot) ∧
        (t.circuit c).level = effectiveLevel map s.mode c (t.circuit c) ∧
        ((t.circuit c).level ≠ (s.circuit c).level → (t.circuit c).owedA = true ∧ (t.circuit c).owedB = true) ∧
        ((s.circuit c).owedA = true → (t.circuit c).owedA = true) ∧
        ((s.circuit c).owedB = true → (t.circuit c).owedB = true)) ∧
      stations s.active { s with active := map } { s with active := map, stations := t.stations } ∧
      t = { s with active := map, standby := s.active, generation := s.generation + 1, amend := none,
                   status := .done (s.generation + 1).toNat, causes := Cause.command.mark s.causes,
                   circuits := t.circuits, stations := t.stations })

/-! ### What every step keeps -/

/-- The invariants of the statements below hold in the machine right after reset; the model's choices for the lines at
reset (log 10) take part in the agreement of the egress state with the line. -/
def Obligations.InvariantsHoldAtReset : Prop :=
  Memory.wf State.reset.mem = true ∧ StoreOk State.reset ∧ LevelsCurrent State.reset ∧
  EscapeRoutesLit State.reset ∧ EgressFollowsLine State.reset ∧ WindowOnlyInShow State.reset ∧
  ClosedMapQuiet State.reset ∧ QueueOk State.reset ∧ HoldOffOk State.reset ∧ QuarantineOk State.reset ∧
  SupervisionOk State.reset ∧ PortsOk State.reset ∧ LevelsOk State.reset ∧ FramesHold State.reset

/-- SRAM stays in its canonical form, every listed address within the 20 bits of the bus; and R159, R161 and R162: at
most 16 desk writes queued, a desk write waiting at the port only while 16 are (which rests on the model's reading of
log 23, DEDUCED), a run count of at most 4, nothing held while RST# is asserted. -/
def Obligations.EveryStepKeepsSramCanonicalAndThePortsInOrder : Prop :=
  StepKeeps (fun s => Memory.wf s.mem = true) ∧ StepKeeps PortsOk

/-- R25, R26 and R27: no more records in lists than the pool has, every list of at most 8, in class order, with at most
one contribution of each owner. -/
def Obligations.EveryStepKeepsTheContributionStoreInOrder : Prop := StepKeeps StoreOk

/-- R41, R44 and R136: the stored levels are the effective levels, and while the egress state is latched every egress
member of the active map shows 1000. -/
def Obligations.EveryStepKeepsLevelsCurrentAndEscapeRoutesLit : Prop :=
  StepKeeps LevelsCurrent ∧ StepKeeps EscapeRoutesLit

/-- R132, R138 and R140: the egress state agrees with the line, the amend window is shut outside a show, and no COMMIT
is in flight while the map is closed. -/
def Obligations.EveryStepKeepsTheHouseStateConsistent : Prop :=
  StepKeeps EgressFollowsLine ∧ StepKeeps WindowOnlyInShow ∧ StepKeeps ClosedMapQuiet

/-- R86, R94, R75 and R80: the queue holds at most 64 input events and one marker of each station, SCANHOLD# agrees with
the count, a station is SUSPECT exactly with two fault flags, and silence timers run exactly where R80 says. -/
def Obligations.EveryStepKeepsQueueAndSupervisionInOrder : Prop :=
  StepKeeps QueueOk ∧ StepKeeps HoldOffOk ∧ StepKeeps QuarantineOk ∧ StepKeeps SupervisionOk

/-- R1, R23, R37 and R41: the active map stays valid, and every level held lies from 0 to 1000, every movement in
range. -/
def Obligations.EveryStepKeepsEveryLevelInRange : Prop := StepKeeps LevelsOk

/-- R145 and R148: outside a frame clear, a frame's cell whose owed flag is clear holds the circuit's stored level.
Every command keeps this except a release of RST# that moves the window. So when a flip is taken, every cell of the
frame that becomes front holds the effective level its circuit has at that moment. R145 says it of a cell whose write has
left flight; that it holds from the grant of the write, in flight too, is the model's reading (log 13). -/
def Obligations.FlippedFrameHoldsEveryLevel : Prop :=
  (∀ (c : Instr) (s t : State), FramesHold s → Memory.wf s.mem = true → exec c s = .next t →
    (∀ straps, c = .rstRelease straps → straps = s.base) → FramesHold t) ∧
  (∀ (c : Instr) (s t : State), FramesHold s → s.clear = none → c = .passFalls ∨ c = .transferEnd →
    exec c s = .next t → t.front ≠ s.front →
    ∀ k, Memory.readCell t.mem (t.frameCell t.front k) = BitVec.ofNat 16 (t.circuit k).level)

/-- R1, R139 and R140: only POWER, RESTART and MAP_SWAP change the active map; a swap is taken only with a swap pending
at an idle point and the map unlocked; the map-closed flag is set by CLOSE_MAP and cleared by POWER alone; and while it
is set no command changes SRAM in the map region of the window. -/
def Obligations.MapChangesOnlyAtResetsAndUnlockedSwaps : Prop :=
  ∀ (c : Instr) (s t : State), exec c s = .next t →
    (t.active ≠ s.active →
      (∃ straps, c = .power straps) ∨ (c = .restart ∧ s.takesCommand) ∨
      ((∃ gaps, c = .mapSwap gaps) ∧ s.swapPending = true ∧ s.current = none ∧
        (s.mode = .performance ∨ s.mode = .interval → s.amend ≠ none) ∧ t.active = s.standby)) ∧
    (s.mapClosed = true → t.mapClosed = false → ∃ straps, c = .power straps) ∧
    (s.mapClosed = false → t.mapClosed = true → c = .closeMap) ∧
    (s.mapClosed = true → ∀ offset, 0x2000 ≤ offset → offset < 0x10000 →
      Memory.read t.mem (windowAddress s.base offset) = Memory.read s.mem (windowAddress s.base offset))

/-- R143, R146, R155 and R160: only four commands store into SRAM; every other leaves every byte as it was; and while no
frame clear runs no command changes a byte of the front frame (R146). That a write is stored at its grant, so that
TRANSFER_END stores nothing, is the model's reading (log 13), and that POWER keeps SRAM is its choice (log 2). -/
def Obligations.OnlyFourCommandsWriteSram : Prop :=
  ∀ (c : Instr) (s t : State), exec c s = .next t →
    ((∀ w, c ≠ .stationCellWrite w) → (∀ a, c ≠ .forwardedAccess a) → c ≠ .writeBackGrant → c ≠ .frameClearGrant →
      ∀ a, Memory.read t.mem a = Memory.read s.mem a) ∧
    (s.clear = none → ∀ k : CircuitId,
      Memory.readCell t.mem (s.frameCell s.front k) = Memory.readCell s.mem (s.frameCell s.front k))
end

