-- ==== Sys2Proof/Laws/Table.lean ====
section
/-! SUPPORT. Reading a table after it has been written, mapped or filled. -/

namespace Sys2Proof.Table

variable {n : Nat} {α : Type}

/-- Two tables with the same records are equal. -/
theorem ext_get {t u : Table n α} (h : ∀ i, t.get i = u.get i) : t = u := by
  obtain ⟨a, ha⟩ := t
  obtain ⟨b, hb⟩ := u
  have : a = b := by
    apply List.ext_getElem (by omega)
    intro i h1 h2
    exact h ⟨i, by omega⟩
  subst this
  rfl

@[simp] theorem get_set_self (t : Table n α) (i : Fin n) (x : α) : (t.set i x).get i = x := by
  simp [get, set]

theorem get_set_ne (t : Table n α) {i j : Fin n} (x : α) (h : i ≠ j) : (t.set i x).get j = t.get j := by
  have : i.val ≠ j.val := fun e => h (Fin.ext e)
  simp [get, set, List.getElem_set_ne this]

theorem get_set (t : Table n α) (i j : Fin n) (x : α) :
    (t.set i x).get j = if i = j then x else t.get j := by
  split
  · next h => subst h; simp
  · next h => exact get_set_ne t x h

@[simp] theorem get_mapIdx (f : Fin n → α → α) (t : Table n α) (i : Fin n) :
    (t.mapIdx f).get i = f i (t.get i) := by
  simp [get, mapIdx]

@[simp] theorem get_fill (x : α) (i : Fin n) : (fill n x).get i = x := by
  simp [get, fill]

/-- A record of a table is one of its cells. -/
theorem get_mem (t : Table n α) (i : Fin n) : t.get i ∈ t.cells := by
  simp [get]

/-- What a cell holds is some record. -/
theorem exists_get {t : Table n α} {x : α} (h : x ∈ t.cells) : ∃ i, t.get i = x := by
  obtain ⟨k, hk, e⟩ := List.getElem_of_mem h
  exact ⟨⟨k, by rw [← t.length_eq]; exact hk⟩, e⟩

/-- Some cell satisfies a test exactly when some record does. -/
theorem any_cells (t : Table n α) (p : α → Bool) : t.cells.any p = true ↔ ∃ i, p (t.get i) = true := by
  rw [List.any_eq_true]
  constructor
  · rintro ⟨x, hx, hp⟩
    obtain ⟨i, rfl⟩ := exists_get hx
    exact ⟨i, hp⟩
  · rintro ⟨i, hp⟩
    exact ⟨_, get_mem t i, hp⟩

end Sys2Proof.Table
end

