-- ==== Sys2Proof/Laws/State.lean ====
section
/-! SUPPORT. Every field of the state after every shared update of one field, each true by definition, and the
records of stations and circuits read through those updates. -/

namespace Sys2Proof.Machine.State

/-! ### raiseCause -/

@[simp] theorem pending_raiseCause (s : State) (c : Cause) :
    (s.raiseCause c).pending = s.pending := rfl
@[simp] theorem rst_raiseCause (s : State) (c : Cause) :
    (s.raiseCause c).rst = s.rst := rfl
@[simp] theorem egrLine_raiseCause (s : State) (c : Cause) :
    (s.raiseCause c).egrLine = s.egrLine := rfl
@[simp] theorem passHigh_raiseCause (s : State) (c : Cause) :
    (s.raiseCause c).passHigh = s.passHigh := rfl
@[simp] theorem base_raiseCause (s : State) (c : Cause) :
    (s.raiseCause c).base = s.base := rfl
@[simp] theorem upData_raiseCause (s : State) (c : Cause) :
    (s.raiseCause c).upData = s.upData := rfl
@[simp] theorem mem_raiseCause (s : State) (c : Cause) :
    (s.raiseCause c).mem = s.mem := rfl
@[simp] theorem port_raiseCause (s : State) (c : Cause) :
    (s.raiseCause c).port = s.port := rfl
@[simp] theorem deskQueue_raiseCause (s : State) (c : Cause) :
    (s.raiseCause c).deskQueue = s.deskQueue := rfl
@[simp] theorem transfer_raiseCause (s : State) (c : Cause) :
    (s.raiseCause c).transfer = s.transfer := rfl
@[simp] theorem runCount_raiseCause (s : State) (c : Cause) :
    (s.raiseCause c).runCount = s.runCount := rfl
@[simp] theorem stations_raiseCause (s : State) (c : Cause) :
    (s.raiseCause c).stations = s.stations := rfl
@[simp] theorem events_raiseCause (s : State) (c : Cause) :
    (s.raiseCause c).events = s.events := rfl
@[simp] theorem scanhold_raiseCause (s : State) (c : Cause) :
    (s.raiseCause c).scanhold = s.scanhold := rfl
@[simp] theorem current_raiseCause (s : State) (c : Cause) :
    (s.raiseCause c).current = s.current := rfl
@[simp] theorem lastRefusal_raiseCause (s : State) (c : Cause) :
    (s.raiseCause c).lastRefusal = s.lastRefusal := rfl
@[simp] theorem active_raiseCause (s : State) (c : Cause) :
    (s.raiseCause c).active = s.active := rfl
@[simp] theorem standby_raiseCause (s : State) (c : Cause) :
    (s.raiseCause c).standby = s.standby := rfl
@[simp] theorem generation_raiseCause (s : State) (c : Cause) :
    (s.raiseCause c).generation = s.generation := rfl
@[simp] theorem circuits_raiseCause (s : State) (c : Cause) :
    (s.raiseCause c).circuits = s.circuits := rfl
@[simp] theorem hold_raiseCause (s : State) (c : Cause) :
    (s.raiseCause c).hold = s.hold := rfl
@[simp] theorem stepElapsed_raiseCause (s : State) (c : Cause) :
    (s.raiseCause c).stepElapsed = s.stepElapsed := rfl
@[simp] theorem mode_raiseCause (s : State) (c : Cause) :
    (s.raiseCause c).mode = s.mode := rfl
@[simp] theorem egress_raiseCause (s : State) (c : Cause) :
    (s.raiseCause c).egress = s.egress := rfl
@[simp] theorem amend_raiseCause (s : State) (c : Cause) :
    (s.raiseCause c).amend = s.amend := rfl
@[simp] theorem mapClosed_raiseCause (s : State) (c : Cause) :
    (s.raiseCause c).mapClosed = s.mapClosed := rfl
@[simp] theorem front_raiseCause (s : State) (c : Cause) :
    (s.raiseCause c).front = s.front := rfl
@[simp] theorem clear_raiseCause (s : State) (c : Cause) :
    (s.raiseCause c).clear = s.clear := rfl
@[simp] theorem command_raiseCause (s : State) (c : Cause) :
    (s.raiseCause c).command = s.command := rfl
@[simp] theorem parameter_raiseCause (s : State) (c : Cause) :
    (s.raiseCause c).parameter = s.parameter := rfl
@[simp] theorem status_raiseCause (s : State) (c : Cause) :
    (s.raiseCause c).status = s.status := rfl
@[simp] theorem causes_raiseCause (s : State) (c : Cause) :
    (s.raiseCause c).causes = c.mark s.causes := rfl
@[simp] theorem mask_raiseCause (s : State) (c : Cause) :
    (s.raiseCause c).mask = s.mask := rfl
@[simp] theorem counters_raiseCause (s : State) (c : Cause) :
    (s.raiseCause c).counters = s.counters := rfl
@[simp] theorem resetCause_raiseCause (s : State) (c : Cause) :
    (s.raiseCause c).resetCause = s.resetCause := rfl

/-! ### count -/

@[simp] theorem pending_count (s : State) (n : CounterName) :
    (s.count n).pending = s.pending := rfl
@[simp] theorem rst_count (s : State) (n : CounterName) :
    (s.count n).rst = s.rst := rfl
@[simp] theorem egrLine_count (s : State) (n : CounterName) :
    (s.count n).egrLine = s.egrLine := rfl
@[simp] theorem passHigh_count (s : State) (n : CounterName) :
    (s.count n).passHigh = s.passHigh := rfl
@[simp] theorem base_count (s : State) (n : CounterName) :
    (s.count n).base = s.base := rfl
@[simp] theorem upData_count (s : State) (n : CounterName) :
    (s.count n).upData = s.upData := rfl
@[simp] theorem mem_count (s : State) (n : CounterName) :
    (s.count n).mem = s.mem := rfl
@[simp] theorem port_count (s : State) (n : CounterName) :
    (s.count n).port = s.port := rfl
@[simp] theorem deskQueue_count (s : State) (n : CounterName) :
    (s.count n).deskQueue = s.deskQueue := rfl
@[simp] theorem transfer_count (s : State) (n : CounterName) :
    (s.count n).transfer = s.transfer := rfl
@[simp] theorem runCount_count (s : State) (n : CounterName) :
    (s.count n).runCount = s.runCount := rfl
@[simp] theorem stations_count (s : State) (n : CounterName) :
    (s.count n).stations = s.stations := rfl
@[simp] theorem events_count (s : State) (n : CounterName) :
    (s.count n).events = s.events := rfl
@[simp] theorem scanhold_count (s : State) (n : CounterName) :
    (s.count n).scanhold = s.scanhold := rfl
@[simp] theorem current_count (s : State) (n : CounterName) :
    (s.count n).current = s.current := rfl
@[simp] theorem lastRefusal_count (s : State) (n : CounterName) :
    (s.count n).lastRefusal = s.lastRefusal := rfl
@[simp] theorem active_count (s : State) (n : CounterName) :
    (s.count n).active = s.active := rfl
@[simp] theorem standby_count (s : State) (n : CounterName) :
    (s.count n).standby = s.standby := rfl
@[simp] theorem generation_count (s : State) (n : CounterName) :
    (s.count n).generation = s.generation := rfl
@[simp] theorem circuits_count (s : State) (n : CounterName) :
    (s.count n).circuits = s.circuits := rfl
@[simp] theorem hold_count (s : State) (n : CounterName) :
    (s.count n).hold = s.hold := rfl
@[simp] theorem stepElapsed_count (s : State) (n : CounterName) :
    (s.count n).stepElapsed = s.stepElapsed := rfl
@[simp] theorem mode_count (s : State) (n : CounterName) :
    (s.count n).mode = s.mode := rfl
@[simp] theorem egress_count (s : State) (n : CounterName) :
    (s.count n).egress = s.egress := rfl
@[simp] theorem amend_count (s : State) (n : CounterName) :
    (s.count n).amend = s.amend := rfl
@[simp] theorem mapClosed_count (s : State) (n : CounterName) :
    (s.count n).mapClosed = s.mapClosed := rfl
@[simp] theorem front_count (s : State) (n : CounterName) :
    (s.count n).front = s.front := rfl
@[simp] theorem clear_count (s : State) (n : CounterName) :
    (s.count n).clear = s.clear := rfl
@[simp] theorem command_count (s : State) (n : CounterName) :
    (s.count n).command = s.command := rfl
@[simp] theorem parameter_count (s : State) (n : CounterName) :
    (s.count n).parameter = s.parameter := rfl
@[simp] theorem status_count (s : State) (n : CounterName) :
    (s.count n).status = s.status := rfl
@[simp] theorem causes_count (s : State) (n : CounterName) :
    (s.count n).causes = s.causes := rfl
@[simp] theorem mask_count (s : State) (n : CounterName) :
    (s.count n).mask = s.mask := rfl
@[simp] theorem counters_count (s : State) (n : CounterName) :
    (s.count n).counters = s.counters.bump n := rfl
@[simp] theorem resetCause_count (s : State) (n : CounterName) :
    (s.count n).resetCause = s.resetCause := rfl

/-! ### modStation -/

@[simp] theorem pending_modStation (s : State) (n : StationId) (f : StationState → StationState) :
    (s.modStation n f).pending = s.pending := rfl
@[simp] theorem rst_modStation (s : State) (n : StationId) (f : StationState → StationState) :
    (s.modStation n f).rst = s.rst := rfl
@[simp] theorem egrLine_modStation (s : State) (n : StationId) (f : StationState → StationState) :
    (s.modStation n f).egrLine = s.egrLine := rfl
@[simp] theorem passHigh_modStation (s : State) (n : StationId) (f : StationState → StationState) :
    (s.modStation n f).passHigh = s.passHigh := rfl
@[simp] theorem base_modStation (s : State) (n : StationId) (f : StationState → StationState) :
    (s.modStation n f).base = s.base := rfl
@[simp] theorem upData_modStation (s : State) (n : StationId) (f : StationState → StationState) :
    (s.modStation n f).upData = s.upData := rfl
@[simp] theorem mem_modStation (s : State) (n : StationId) (f : StationState → StationState) :
    (s.modStation n f).mem = s.mem := rfl
@[simp] theorem port_modStation (s : State) (n : StationId) (f : StationState → StationState) :
    (s.modStation n f).port = s.port := rfl
@[simp] theorem deskQueue_modStation (s : State) (n : StationId) (f : StationState → StationState) :
    (s.modStation n f).deskQueue = s.deskQueue := rfl
@[simp] theorem transfer_modStation (s : State) (n : StationId) (f : StationState → StationState) :
    (s.modStation n f).transfer = s.transfer := rfl
@[simp] theorem runCount_modStation (s : State) (n : StationId) (f : StationState → StationState) :
    (s.modStation n f).runCount = s.runCount := rfl
@[simp] theorem stations_modStation (s : State) (n : StationId) (f : StationState → StationState) :
    (s.modStation n f).stations = s.stations.set n (f (s.stations.get n)) := rfl
@[simp] theorem events_modStation (s : State) (n : StationId) (f : StationState → StationState) :
    (s.modStation n f).events = s.events := rfl
@[simp] theorem scanhold_modStation (s : State) (n : StationId) (f : StationState → StationState) :
    (s.modStation n f).scanhold = s.scanhold := rfl
@[simp] theorem current_modStation (s : State) (n : StationId) (f : StationState → StationState) :
    (s.modStation n f).current = s.current := rfl
@[simp] theorem lastRefusal_modStation (s : State) (n : StationId) (f : StationState → StationState) :
    (s.modStation n f).lastRefusal = s.lastRefusal := rfl
@[simp] theorem active_modStation (s : State) (n : StationId) (f : StationState → StationState) :
    (s.modStation n f).active = s.active := rfl
@[simp] theorem standby_modStation (s : State) (n : StationId) (f : StationState → StationState) :
    (s.modStation n f).standby = s.standby := rfl
@[simp] theorem generation_modStation (s : State) (n : StationId) (f : StationState → StationState) :
    (s.modStation n f).generation = s.generation := rfl
@[simp] theorem circuits_modStation (s : State) (n : StationId) (f : StationState → StationState) :
    (s.modStation n f).circuits = s.circuits := rfl
@[simp] theorem hold_modStation (s : State) (n : StationId) (f : StationState → StationState) :
    (s.modStation n f).hold = s.hold := rfl
@[simp] theorem stepElapsed_modStation (s : State) (n : StationId) (f : StationState → StationState) :
    (s.modStation n f).stepElapsed = s.stepElapsed := rfl
@[simp] theorem mode_modStation (s : State) (n : StationId) (f : StationState → StationState) :
    (s.modStation n f).mode = s.mode := rfl
@[simp] theorem egress_modStation (s : State) (n : StationId) (f : StationState → StationState) :
    (s.modStation n f).egress = s.egress := rfl
@[simp] theorem amend_modStation (s : State) (n : StationId) (f : StationState → StationState) :
    (s.modStation n f).amend = s.amend := rfl
@[simp] theorem mapClosed_modStation (s : State) (n : StationId) (f : StationState → StationState) :
    (s.modStation n f).mapClosed = s.mapClosed := rfl
@[simp] theorem front_modStation (s : State) (n : StationId) (f : StationState → StationState) :
    (s.modStation n f).front = s.front := rfl
@[simp] theorem clear_modStation (s : State) (n : StationId) (f : StationState → StationState) :
    (s.modStation n f).clear = s.clear := rfl
@[simp] theorem command_modStation (s : State) (n : StationId) (f : StationState → StationState) :
    (s.modStation n f).command = s.command := rfl
@[simp] theorem parameter_modStation (s : State) (n : StationId) (f : StationState → StationState) :
    (s.modStation n f).parameter = s.parameter := rfl
@[simp] theorem status_modStation (s : State) (n : StationId) (f : StationState → StationState) :
    (s.modStation n f).status = s.status := rfl
@[simp] theorem causes_modStation (s : State) (n : StationId) (f : StationState → StationState) :
    (s.modStation n f).causes = s.causes := rfl
@[simp] theorem mask_modStation (s : State) (n : StationId) (f : StationState → StationState) :
    (s.modStation n f).mask = s.mask := rfl
@[simp] theorem counters_modStation (s : State) (n : StationId) (f : StationState → StationState) :
    (s.modStation n f).counters = s.counters := rfl
@[simp] theorem resetCause_modStation (s : State) (n : StationId) (f : StationState → StationState) :
    (s.modStation n f).resetCause = s.resetCause := rfl

/-! ### mapStations -/

@[simp] theorem pending_mapStations (s : State) (f : StationId → StationState → StationState) :
    (s.mapStations f).pending = s.pending := rfl
@[simp] theorem rst_mapStations (s : State) (f : StationId → StationState → StationState) :
    (s.mapStations f).rst = s.rst := rfl
@[simp] theorem egrLine_mapStations (s : State) (f : StationId → StationState → StationState) :
    (s.mapStations f).egrLine = s.egrLine := rfl
@[simp] theorem passHigh_mapStations (s : State) (f : StationId → StationState → StationState) :
    (s.mapStations f).passHigh = s.passHigh := rfl
@[simp] theorem base_mapStations (s : State) (f : StationId → StationState → StationState) :
    (s.mapStations f).base = s.base := rfl
@[simp] theorem upData_mapStations (s : State) (f : StationId → StationState → StationState) :
    (s.mapStations f).upData = s.upData := rfl
@[simp] theorem mem_mapStations (s : State) (f : StationId → StationState → StationState) :
    (s.mapStations f).mem = s.mem := rfl
@[simp] theorem port_mapStations (s : State) (f : StationId → StationState → StationState) :
    (s.mapStations f).port = s.port := rfl
@[simp] theorem deskQueue_mapStations (s : State) (f : StationId → StationState → StationState) :
    (s.mapStations f).deskQueue = s.deskQueue := rfl
@[simp] theorem transfer_mapStations (s : State) (f : StationId → StationState → StationState) :
    (s.mapStations f).transfer = s.transfer := rfl
@[simp] theorem runCount_mapStations (s : State) (f : StationId → StationState → StationState) :
    (s.mapStations f).runCount = s.runCount := rfl
@[simp] theorem stations_mapStations (s : State) (f : StationId → StationState → StationState) :
    (s.mapStations f).stations = s.stations.mapIdx f := rfl
@[simp] theorem events_mapStations (s : State) (f : StationId → StationState → StationState) :
    (s.mapStations f).events = s.events := rfl
@[simp] theorem scanhold_mapStations (s : State) (f : StationId → StationState → StationState) :
    (s.mapStations f).scanhold = s.scanhold := rfl
@[simp] theorem current_mapStations (s : State) (f : StationId → StationState → StationState) :
    (s.mapStations f).current = s.current := rfl
@[simp] theorem lastRefusal_mapStations (s : State) (f : StationId → StationState → StationState) :
    (s.mapStations f).lastRefusal = s.lastRefusal := rfl
@[simp] theorem active_mapStations (s : State) (f : StationId → StationState → StationState) :
    (s.mapStations f).active = s.active := rfl
@[simp] theorem standby_mapStations (s : State) (f : StationId → StationState → StationState) :
    (s.mapStations f).standby = s.standby := rfl
@[simp] theorem generation_mapStations (s : State) (f : StationId → StationState → StationState) :
    (s.mapStations f).generation = s.generation := rfl
@[simp] theorem circuits_mapStations (s : State) (f : StationId → StationState → StationState) :
    (s.mapStations f).circuits = s.circuits := rfl
@[simp] theorem hold_mapStations (s : State) (f : StationId → StationState → StationState) :
    (s.mapStations f).hold = s.hold := rfl
@[simp] theorem stepElapsed_mapStations (s : State) (f : StationId → StationState → StationState) :
    (s.mapStations f).stepElapsed = s.stepElapsed := rfl
@[simp] theorem mode_mapStations (s : State) (f : StationId → StationState → StationState) :
    (s.mapStations f).mode = s.mode := rfl
@[simp] theorem egress_mapStations (s : State) (f : StationId → StationState → StationState) :
    (s.mapStations f).egress = s.egress := rfl
@[simp] theorem amend_mapStations (s : State) (f : StationId → StationState → StationState) :
    (s.mapStations f).amend = s.amend := rfl
@[simp] theorem mapClosed_mapStations (s : State) (f : StationId → StationState → StationState) :
    (s.mapStations f).mapClosed = s.mapClosed := rfl
@[simp] theorem front_mapStations (s : State) (f : StationId → StationState → StationState) :
    (s.mapStations f).front = s.front := rfl
@[simp] theorem clear_mapStations (s : State) (f : StationId → StationState → StationState) :
    (s.mapStations f).clear = s.clear := rfl
@[simp] theorem command_mapStations (s : State) (f : StationId → StationState → StationState) :
    (s.mapStations f).command = s.command := rfl
@[simp] theorem parameter_mapStations (s : State) (f : StationId → StationState → StationState) :
    (s.mapStations f).parameter = s.parameter := rfl
@[simp] theorem status_mapStations (s : State) (f : StationId → StationState → StationState) :
    (s.mapStations f).status = s.status := rfl
@[simp] theorem causes_mapStations (s : State) (f : StationId → StationState → StationState) :
    (s.mapStations f).causes = s.causes := rfl
@[simp] theorem mask_mapStations (s : State) (f : StationId → StationState → StationState) :
    (s.mapStations f).mask = s.mask := rfl
@[simp] theorem counters_mapStations (s : State) (f : StationId → StationState → StationState) :
    (s.mapStations f).counters = s.counters := rfl
@[simp] theorem resetCause_mapStations (s : State) (f : StationId → StationState → StationState) :
    (s.mapStations f).resetCause = s.resetCause := rfl

/-! ### modCircuit -/

@[simp] theorem pending_modCircuit (s : State) (c : CircuitId) (f : CircuitState → CircuitState) :
    (s.modCircuit c f).pending = s.pending := rfl
@[simp] theorem rst_modCircuit (s : State) (c : CircuitId) (f : CircuitState → CircuitState) :
    (s.modCircuit c f).rst = s.rst := rfl
@[simp] theorem egrLine_modCircuit (s : State) (c : CircuitId) (f : CircuitState → CircuitState) :
    (s.modCircuit c f).egrLine = s.egrLine := rfl
@[simp] theorem passHigh_modCircuit (s : State) (c : CircuitId) (f : CircuitState → CircuitState) :
    (s.modCircuit c f).passHigh = s.passHigh := rfl
@[simp] theorem base_modCircuit (s : State) (c : CircuitId) (f : CircuitState → CircuitState) :
    (s.modCircuit c f).base = s.base := rfl
@[simp] theorem upData_modCircuit (s : State) (c : CircuitId) (f : CircuitState → CircuitState) :
    (s.modCircuit c f).upData = s.upData := rfl
@[simp] theorem mem_modCircuit (s : State) (c : CircuitId) (f : CircuitState → CircuitState) :
    (s.modCircuit c f).mem = s.mem := rfl
@[simp] theorem port_modCircuit (s : State) (c : CircuitId) (f : CircuitState → CircuitState) :
    (s.modCircuit c f).port = s.port := rfl
@[simp] theorem deskQueue_modCircuit (s : State) (c : CircuitId) (f : CircuitState → CircuitState) :
    (s.modCircuit c f).deskQueue = s.deskQueue := rfl
@[simp] theorem transfer_modCircuit (s : State) (c : CircuitId) (f : CircuitState → CircuitState) :
    (s.modCircuit c f).transfer = s.transfer := rfl
@[simp] theorem runCount_modCircuit (s : State) (c : CircuitId) (f : CircuitState → CircuitState) :
    (s.modCircuit c f).runCount = s.runCount := rfl
@[simp] theorem stations_modCircuit (s : State) (c : CircuitId) (f : CircuitState → CircuitState) :
    (s.modCircuit c f).stations = s.stations := rfl
@[simp] theorem events_modCircuit (s : State) (c : CircuitId) (f : CircuitState → CircuitState) :
    (s.modCircuit c f).events = s.events := rfl
@[simp] theorem scanhold_modCircuit (s : State) (c : CircuitId) (f : CircuitState → CircuitState) :
    (s.modCircuit c f).scanhold = s.scanhold := rfl
@[simp] theorem current_modCircuit (s : State) (c : CircuitId) (f : CircuitState → CircuitState) :
    (s.modCircuit c f).current = s.current := rfl
@[simp] theorem lastRefusal_modCircuit (s : State) (c : CircuitId) (f : CircuitState → CircuitState) :
    (s.modCircuit c f).lastRefusal = s.lastRefusal := rfl
@[simp] theorem active_modCircuit (s : State) (c : CircuitId) (f : CircuitState → CircuitState) :
    (s.modCircuit c f).active = s.active := rfl
@[simp] theorem standby_modCircuit (s : State) (c : CircuitId) (f : CircuitState → CircuitState) :
    (s.modCircuit c f).standby = s.standby := rfl
@[simp] theorem generation_modCircuit (s : State) (c : CircuitId) (f : CircuitState → CircuitState) :
    (s.modCircuit c f).generation = s.generation := rfl
@[simp] theorem circuits_modCircuit (s : State) (c : CircuitId) (f : CircuitState → CircuitState) :
    (s.modCircuit c f).circuits = s.circuits.set c (f (s.circuits.get c)) := rfl
@[simp] theorem hold_modCircuit (s : State) (c : CircuitId) (f : CircuitState → CircuitState) :
    (s.modCircuit c f).hold = s.hold := rfl
@[simp] theorem stepElapsed_modCircuit (s : State) (c : CircuitId) (f : CircuitState → CircuitState) :
    (s.modCircuit c f).stepElapsed = s.stepElapsed := rfl
@[simp] theorem mode_modCircuit (s : State) (c : CircuitId) (f : CircuitState → CircuitState) :
    (s.modCircuit c f).mode = s.mode := rfl
@[simp] theorem egress_modCircuit (s : State) (c : CircuitId) (f : CircuitState → CircuitState) :
    (s.modCircuit c f).egress = s.egress := rfl
@[simp] theorem amend_modCircuit (s : State) (c : CircuitId) (f : CircuitState → CircuitState) :
    (s.modCircuit c f).amend = s.amend := rfl
@[simp] theorem mapClosed_modCircuit (s : State) (c : CircuitId) (f : CircuitState → CircuitState) :
    (s.modCircuit c f).mapClosed = s.mapClosed := rfl
@[simp] theorem front_modCircuit (s : State) (c : CircuitId) (f : CircuitState → CircuitState) :
    (s.modCircuit c f).front = s.front := rfl
@[simp] theorem clear_modCircuit (s : State) (c : CircuitId) (f : CircuitState → CircuitState) :
    (s.modCircuit c f).clear = s.clear := rfl
@[simp] theorem command_modCircuit (s : State) (c : CircuitId) (f : CircuitState → CircuitState) :
    (s.modCircuit c f).command = s.command := rfl
@[simp] theorem parameter_modCircuit (s : State) (c : CircuitId) (f : CircuitState → CircuitState) :
    (s.modCircuit c f).parameter = s.parameter := rfl
@[simp] theorem status_modCircuit (s : State) (c : CircuitId) (f : CircuitState → CircuitState) :
    (s.modCircuit c f).status = s.status := rfl
@[simp] theorem causes_modCircuit (s : State) (c : CircuitId) (f : CircuitState → CircuitState) :
    (s.modCircuit c f).causes = s.causes := rfl
@[simp] theorem mask_modCircuit (s : State) (c : CircuitId) (f : CircuitState → CircuitState) :
    (s.modCircuit c f).mask = s.mask := rfl
@[simp] theorem counters_modCircuit (s : State) (c : CircuitId) (f : CircuitState → CircuitState) :
    (s.modCircuit c f).counters = s.counters := rfl
@[simp] theorem resetCause_modCircuit (s : State) (c : CircuitId) (f : CircuitState → CircuitState) :
    (s.modCircuit c f).resetCause = s.resetCause := rfl

/-! ### mapCircuits -/

@[simp] theorem pending_mapCircuits (s : State) (f : CircuitId → CircuitState → CircuitState) :
    (s.mapCircuits f).pending = s.pending := rfl
@[simp] theorem rst_mapCircuits (s : State) (f : CircuitId → CircuitState → CircuitState) :
    (s.mapCircuits f).rst = s.rst := rfl
@[simp] theorem egrLine_mapCircuits (s : State) (f : CircuitId → CircuitState → CircuitState) :
    (s.mapCircuits f).egrLine = s.egrLine := rfl
@[simp] theorem passHigh_mapCircuits (s : State) (f : CircuitId → CircuitState → CircuitState) :
    (s.mapCircuits f).passHigh = s.passHigh := rfl
@[simp] theorem base_mapCircuits (s : State) (f : CircuitId → CircuitState → CircuitState) :
    (s.mapCircuits f).base = s.base := rfl
@[simp] theorem upData_mapCircuits (s : State) (f : CircuitId → CircuitState → CircuitState) :
    (s.mapCircuits f).upData = s.upData := rfl
@[simp] theorem mem_mapCircuits (s : State) (f : CircuitId → CircuitState → CircuitState) :
    (s.mapCircuits f).mem = s.mem := rfl
@[simp] theorem port_mapCircuits (s : State) (f : CircuitId → CircuitState → CircuitState) :
    (s.mapCircuits f).port = s.port := rfl
@[simp] theorem deskQueue_mapCircuits (s : State) (f : CircuitId → CircuitState → CircuitState) :
    (s.mapCircuits f).deskQueue = s.deskQueue := rfl
@[simp] theorem transfer_mapCircuits (s : State) (f : CircuitId → CircuitState → CircuitState) :
    (s.mapCircuits f).transfer = s.transfer := rfl
@[simp] theorem runCount_mapCircuits (s : State) (f : CircuitId → CircuitState → CircuitState) :
    (s.mapCircuits f).runCount = s.runCount := rfl
@[simp] theorem stations_mapCircuits (s : State) (f : CircuitId → CircuitState → CircuitState) :
    (s.mapCircuits f).stations = s.stations := rfl
@[simp] theorem events_mapCircuits (s : State) (f : CircuitId → CircuitState → CircuitState) :
    (s.mapCircuits f).events = s.events := rfl
@[simp] theorem scanhold_mapCircuits (s : State) (f : CircuitId → CircuitState → CircuitState) :
    (s.mapCircuits f).scanhold = s.scanhold := rfl
@[simp] theorem current_mapCircuits (s : State) (f : CircuitId → CircuitState → CircuitState) :
    (s.mapCircuits f).current = s.current := rfl
@[simp] theorem lastRefusal_mapCircuits (s : State) (f : CircuitId → CircuitState → CircuitState) :
    (s.mapCircuits f).lastRefusal = s.lastRefusal := rfl
@[simp] theorem active_mapCircuits (s : State) (f : CircuitId → CircuitState → CircuitState) :
    (s.mapCircuits f).active = s.active := rfl
@[simp] theorem standby_mapCircuits (s : State) (f : CircuitId → CircuitState → CircuitState) :
    (s.mapCircuits f).standby = s.standby := rfl
@[simp] theorem generation_mapCircuits (s : State) (f : CircuitId → CircuitState → CircuitState) :
    (s.mapCircuits f).generation = s.generation := rfl
@[simp] theorem circuits_mapCircuits (s : State) (f : CircuitId → CircuitState → CircuitState) :
    (s.mapCircuits f).circuits = s.circuits.mapIdx f := rfl
@[simp] theorem hold_mapCircuits (s : State) (f : CircuitId → CircuitState → CircuitState) :
    (s.mapCircuits f).hold = s.hold := rfl
@[simp] theorem stepElapsed_mapCircuits (s : State) (f : CircuitId → CircuitState → CircuitState) :
    (s.mapCircuits f).stepElapsed = s.stepElapsed := rfl
@[simp] theorem mode_mapCircuits (s : State) (f : CircuitId → CircuitState → CircuitState) :
    (s.mapCircuits f).mode = s.mode := rfl
@[simp] theorem egress_mapCircuits (s : State) (f : CircuitId → CircuitState → CircuitState) :
    (s.mapCircuits f).egress = s.egress := rfl
@[simp] theorem amend_mapCircuits (s : State) (f : CircuitId → CircuitState → CircuitState) :
    (s.mapCircuits f).amend = s.amend := rfl
@[simp] theorem mapClosed_mapCircuits (s : State) (f : CircuitId → CircuitState → CircuitState) :
    (s.mapCircuits f).mapClosed = s.mapClosed := rfl
@[simp] theorem front_mapCircuits (s : State) (f : CircuitId → CircuitState → CircuitState) :
    (s.mapCircuits f).front = s.front := rfl
@[simp] theorem clear_mapCircuits (s : State) (f : CircuitId → CircuitState → CircuitState) :
    (s.mapCircuits f).clear = s.clear := rfl
@[simp] theorem command_mapCircuits (s : State) (f : CircuitId → CircuitState → CircuitState) :
    (s.mapCircuits f).command = s.command := rfl
@[simp] theorem parameter_mapCircuits (s : State) (f : CircuitId → CircuitState → CircuitState) :
    (s.mapCircuits f).parameter = s.parameter := rfl
@[simp] theorem status_mapCircuits (s : State) (f : CircuitId → CircuitState → CircuitState) :
    (s.mapCircuits f).status = s.status := rfl
@[simp] theorem causes_mapCircuits (s : State) (f : CircuitId → CircuitState → CircuitState) :
    (s.mapCircuits f).causes = s.causes := rfl
@[simp] theorem mask_mapCircuits (s : State) (f : CircuitId → CircuitState → CircuitState) :
    (s.mapCircuits f).mask = s.mask := rfl
@[simp] theorem counters_mapCircuits (s : State) (f : CircuitId → CircuitState → CircuitState) :
    (s.mapCircuits f).counters = s.counters := rfl
@[simp] theorem resetCause_mapCircuits (s : State) (f : CircuitId → CircuitState → CircuitState) :
    (s.mapCircuits f).resetCause = s.resetCause := rfl

/-! ### Stations and circuits through the updates -/

@[simp] theorem station_raiseCause (s : State) (c : Cause) (n : StationId) :
    (s.raiseCause c).station n = s.station n := rfl
@[simp] theorem circuit_raiseCause (s : State) (c : Cause) (k : CircuitId) :
    (s.raiseCause c).circuit k = s.circuit k := rfl
@[simp] theorem station_count (s : State) (m : CounterName) (n : StationId) :
    (s.count m).station n = s.station n := rfl
@[simp] theorem circuit_count (s : State) (m : CounterName) (k : CircuitId) :
    (s.count m).circuit k = s.circuit k := rfl
@[simp] theorem circuit_modStation (s : State) (n : StationId) (f : StationState → StationState) (k : CircuitId) :
    (s.modStation n f).circuit k = s.circuit k := rfl
@[simp] theorem circuit_mapStations (s : State) (f : StationId → StationState → StationState) (k : CircuitId) :
    (s.mapStations f).circuit k = s.circuit k := rfl
@[simp] theorem station_modCircuit (s : State) (c : CircuitId) (f : CircuitState → CircuitState) (n : StationId) :
    (s.modCircuit c f).station n = s.station n := rfl
@[simp] theorem station_mapCircuits (s : State) (f : CircuitId → CircuitState → CircuitState) (n : StationId) :
    (s.mapCircuits f).station n = s.station n := rfl

@[simp] theorem station_modStation_self (s : State) (n : StationId) (f : StationState → StationState) :
    (s.modStation n f).station n = f (s.station n) := by
  simp [State.station]

theorem station_modStation_ne (s : State) {n m : StationId} (f : StationState → StationState) (h : n ≠ m) :
    (s.modStation n f).station m = s.station m := by
  simp [State.station, Table.get_set_ne _ _ h]

theorem station_modStation (s : State) (n m : StationId) (f : StationState → StationState) :
    (s.modStation n f).station m = if n = m then f (s.station n) else s.station m := by
  split
  · next h => subst h; simp
  · next h => exact station_modStation_ne s f h

@[simp] theorem station_mapStations (s : State) (f : StationId → StationState → StationState) (n : StationId) :
    (s.mapStations f).station n = f n (s.station n) := by
  simp [State.station]

@[simp] theorem circuit_modCircuit_self (s : State) (c : CircuitId) (f : CircuitState → CircuitState) :
    (s.modCircuit c f).circuit c = f (s.circuit c) := by
  simp [State.circuit]

theorem circuit_modCircuit_ne (s : State) {c k : CircuitId} (f : CircuitState → CircuitState) (h : c ≠ k) :
    (s.modCircuit c f).circuit k = s.circuit k := by
  simp [State.circuit, Table.get_set_ne _ _ h]

@[simp] theorem circuit_mapCircuits (s : State) (f : CircuitId → CircuitState → CircuitState) (c : CircuitId) :
    (s.mapCircuits f).circuit c = f c (s.circuit c) := by
  simp [State.circuit]

end Sys2Proof.Machine.State
end

