-- ==== Sys2Proof/Laws/Merge.lean ====
section
/-! SUPPORT. What a recompute, and a claim on the lists or the slots of circuits, can do. -/

namespace Sys2Proof.Machine

/-! ### Recompute -/

@[simp] theorem recompute_list (b : Bank) (mode : HouseMode) (c : CircuitId) (cs : CircuitState) :
    (recompute b mode c cs).list = cs.list := by
  unfold recompute CircuitState.store
  split <;> rfl

@[simp] theorem recompute_slot (b : Bank) (mode : HouseMode) (c : CircuitId) (cs : CircuitState) :
    (recompute b mode c cs).slot = cs.slot := by
  unfold recompute CircuitState.store
  split <;> rfl

/-- The effective level looks at the slot and the list alone. -/
theorem effectiveLevel_congr {b : Bank} {mode : HouseMode} {c : CircuitId} {x y : CircuitState}
    (hs : x.slot = y.slot) (hl : x.list = y.list) : effectiveLevel b mode c x = effectiveLevel b mode c y := by
  unfold effectiveLevel
  rw [hs, hl]

@[simp] theorem effectiveLevel_recompute (b : Bank) (mode : HouseMode) (c : CircuitId) (cs : CircuitState) :
    effectiveLevel b mode c (recompute b mode c cs) = effectiveLevel b mode c cs :=
  effectiveLevel_congr (recompute_slot b mode c cs) (recompute_list b mode c cs)

/-- A recompute stores the effective level. -/
theorem recompute_level (b : Bank) (mode : HouseMode) (c : CircuitId) (cs : CircuitState) :
    (recompute b mode c cs).level = effectiveLevel b mode c cs := by
  unfold recompute CircuitState.store
  split
  · next h => exact h.symm
  · rfl

/-- A recompute that finds the stored level leaves the circuit as it is. -/
theorem recompute_same {b : Bank} {mode : HouseMode} {c : CircuitId} {cs : CircuitState}
    (h : effectiveLevel b mode c cs = cs.level) : recompute b mode c cs = cs := by
  simp [recompute, CircuitState.store, h]

/-- A recompute that finds another level stores it and sets both owed flags. -/
theorem recompute_changed {b : Bank} {mode : HouseMode} {c : CircuitId} {cs : CircuitState}
    (h : effectiveLevel b mode c cs ≠ cs.level) :
    recompute b mode c cs = { cs with level := effectiveLevel b mode c cs, owedA := true, owedB := true } := by
  simp [recompute, CircuitState.store, h]

/-- A circuit whose list and slot have been set anew, once recomputed, against the circuit before. -/
theorem recomputed_recompute {b : Bank} {mode : HouseMode} {c : CircuitId} {before cs : CircuitState}
    (hl : cs.level = before.level) (ha : cs.owedA = before.owedA) (hb : cs.owedB = before.owedB) :
    Recomputed b mode c before (recompute b mode c cs) := by
  refine ⟨by rw [recompute_level, effectiveLevel_recompute], ?_, ?_⟩
  · intro h
    rw [recompute_level] at h
    rw [recompute_same (h.trans hl.symm)]
    exact ⟨ha, hb⟩
  · intro h
    rw [recompute_level] at h
    rw [recompute_changed (hl ▸ h)]
    exact ⟨rfl, rfl⟩

/-! ### Claims on lists and slots -/

@[simp] theorem circuit_updateLists (s : State) (touch : CircuitId → CircuitState → Bool)
    (f : CircuitId → CircuitState → List Contribution) (c : CircuitId) :
    (s.updateLists touch f).circuit c =
      if touch c (s.circuit c) then
        recompute s.active s.mode c { s.circuit c with list := f c (s.circuit c) }
      else s.circuit c :=
  Table.get_mapIdx _ _ _

@[simp] theorem circuit_updateSlots (s : State) (touch : CircuitId → CircuitState → Bool)
    (f : CircuitId → CircuitState → Slot) (c : CircuitId) :
    (s.updateSlots touch f).circuit c =
      if touch c (s.circuit c) then
        recompute s.active s.mode c { s.circuit c with slot := f c (s.circuit c) }
      else s.circuit c :=
  Table.get_mapIdx _ _ _

@[simp] theorem circuit_recomputeAll (s : State) (c : CircuitId) :
    s.recomputeAll.circuit c = recompute s.active s.mode c (s.circuit c) := by
  simp [State.recomputeAll, State.mapCircuits, State.circuit]

/-- A claim on lists changes circuits alone. -/
theorem frame_updateLists (s : State) (touch : CircuitId → CircuitState → Bool)
    (f : CircuitId → CircuitState → List Contribution) :
    s.updateLists touch f = { s with circuits := (s.updateLists touch f).circuits } := rfl

/-- A claim on slots changes circuits alone. -/
theorem frame_updateSlots (s : State) (touch : CircuitId → CircuitState → Bool)
    (f : CircuitId → CircuitState → Slot) :
    s.updateSlots touch f = { s with circuits := (s.updateSlots touch f).circuits } := rfl

/-- The recompute of every circuit changes circuits alone. -/
theorem frame_recomputeAll (s : State) :
    s.recomputeAll = { s with circuits := s.recomputeAll.circuits } := rfl

/-- Two states with the same circuits hold the same table. -/
theorem circuits_ext {s t : State} (h : ∀ c, s.circuit c = t.circuit c) : s.circuits = t.circuits :=
  Table.ext_get h

/-- Two states with the same stations hold the same table. -/
theorem stations_ext {s t : State} (h : ∀ n, s.station n = t.station n) : s.stations = t.stations :=
  Table.ext_get h

/-- A claim on lists, circuit by circuit: a touched one has its list replaced and is recomputed. -/
theorem touched_updateLists {s : State} {touch : CircuitId → CircuitState → Bool}
    {f : CircuitId → CircuitState → List Contribution} {c : CircuitId} (h : touch c (s.circuit c) = true) :
    ((s.updateLists touch f).circuit c).list = f c (s.circuit c) ∧
    ((s.updateLists touch f).circuit c).slot = (s.circuit c).slot ∧
    Recomputed s.active s.mode c (s.circuit c) ((s.updateLists touch f).circuit c) := by
  rw [circuit_updateLists, if_pos h]
  exact ⟨recompute_list .., recompute_slot .., recomputed_recompute rfl rfl rfl⟩

/-- A circuit that a claim on lists does not touch is as it was. -/
theorem untouched_updateLists {s : State} {touch : CircuitId → CircuitState → Bool}
    {f : CircuitId → CircuitState → List Contribution} {c : CircuitId} (h : touch c (s.circuit c) = false) :
    (s.updateLists touch f).circuit c = s.circuit c := by
  rw [circuit_updateLists, if_neg (by simp [h])]

/-- A claim on slots, circuit by circuit: a touched one has its slot replaced and is recomputed. -/
theorem touched_updateSlots {s : State} {touch : CircuitId → CircuitState → Bool}
    {f : CircuitId → CircuitState → Slot} {c : CircuitId} (h : touch c (s.circuit c) = true) :
    ((s.updateSlots touch f).circuit c).slot = f c (s.circuit c) ∧
    ((s.updateSlots touch f).circuit c).list = (s.circuit c).list ∧
    Recomputed s.active s.mode c (s.circuit c) ((s.updateSlots touch f).circuit c) := by
  rw [circuit_updateSlots, if_pos h]
  exact ⟨recompute_slot .., recompute_list .., recomputed_recompute rfl rfl rfl⟩

/-- A circuit that a claim on slots does not touch is as it was. -/
theorem untouched_updateSlots {s : State} {touch : CircuitId → CircuitState → Bool}
    {f : CircuitId → CircuitState → Slot} {c : CircuitId} (h : touch c (s.circuit c) = false) :
    (s.updateSlots touch f).circuit c = s.circuit c := by
  rw [circuit_updateSlots, if_neg (by simp [h])]

/-- A claim that touches no circuit changes nothing. -/
theorem updateLists_idle {s : State} {touch : CircuitId → CircuitState → Bool}
    {f : CircuitId → CircuitState → List Contribution} (h : ∀ c, touch c (s.circuit c) = false) :
    s.updateLists touch f = s := by
  rw [frame_updateLists]
  have : (s.updateLists touch f).circuits = s.circuits :=
    circuits_ext (fun c => untouched_updateLists (h c))
  rw [this]

/-! ### What the effective level reads of a list -/

/-- Lists of the same classes and current levels, place by place. -/
abbrev LevelForLevel : List Contribution → List Contribution → Prop :=
  List.Forall₂ (fun x y => x.cls = y.cls ∧ x.current = y.current)

theorem levelForLevel_of_maps {l m : List Contribution} (hc : l.map (fun x => x.cls) = m.map (fun x => x.cls))
    (hl : l.map (fun x => x.current) = m.map (fun x => x.current)) : LevelForLevel l m := by
  induction l generalizing m with
  | nil =>
    cases m with
    | nil => exact .nil
    | cons y m => cases hc
  | cons x l ih =>
    cases m with
    | nil => cases hc
    | cons y m =>
      simp only [List.map_cons, List.cons.injEq] at hc hl
      exact .cons ⟨hc.1, hl.1⟩ (ih hc.2 hl.2)

theorem LevelForLevel.ofClass {l m : List Contribution} (h : LevelForLevel l m) (k : Cls) :
    LevelForLevel (l.filter (fun x => decide (x.cls = k))) (m.filter (fun x => decide (x.cls = k))) := by
  induction h with
  | nil => exact .nil
  | @cons x y l m hxy _ ih =>
    simp only [List.filter_cons, hxy.1]
    split
    · exact .cons hxy ih
    · exact ih

theorem LevelForLevel.isEmpty_eq {l m : List Contribution} (h : LevelForLevel l m) : l.isEmpty = m.isEmpty := by
  cases h <;> rfl

theorem LevelForLevel.winners {l m : List Contribution} (h : LevelForLevel l m) :
    LevelForLevel (winners l) (winners m) := by
  unfold Machine.winners
  dsimp only
  simp only [(h.ofClass _).isEmpty_eq]
  repeat' split
  all_goals exact h.ofClass _

theorem LevelForLevel.highestLevel_eq {l m : List Contribution} (h : LevelForLevel l m) :
    highestLevel l = highestLevel m := by
  induction h with
  | nil => rfl
  | @cons x y l m hxy _ ih =>
    show max x.current (highestLevel l) = max y.current (highestLevel m)
    rw [hxy.2, ih]

/-- The effective level reads of a list only the classes and the current levels. -/
theorem effectiveLevel_of_levels {b : Bank} {mode : HouseMode} {c : CircuitId} {x y : CircuitState}
    (h : LevelForLevel y.list x.list) (hs : y.slot = x.slot) :
    effectiveLevel b mode c y = effectiveLevel b mode c x := by
  have hw := h.winners
  unfold effectiveLevel
  rw [hs]
  split
  · rfl
  · rfl
  · unfold listLevel
    generalize winners y.list = l at hw
    generalize winners x.list = m at hw
    cases hw with
    | nil => rfl
    | @cons p q l m hpq hw =>
      have hm : ∀ r, mergedLevel r (p :: l) = mergedLevel r (q :: m) := by
        intro r
        cases r with
        | latest => exact hpq.2
        | highest => exact LevelForLevel.highestLevel_eq (.cons hpq hw)
      simp only [hpq.1, hm]

end Sys2Proof.Machine
end

