-- ==== Sys2Proof/Laws/Store.lean ====
section
/-! SUPPORT. What each kind of claim does to a list, in the words of the rules, and that lists stay in order. -/

namespace Sys2Proof.Machine

/-! ### Whose contribution is in a list -/

theorem holds_eq_any (l : List Contribution) (o : Owner) :
    holds l o = l.any (fun x => decide (x.owner = o)) := rfl

theorem holds_false_iff {l : List Contribution} {o : Owner} :
    holds l o = false ↔ ∀ x ∈ l, x.owner ≠ o := by
  simp [holds, Contribution.ownedBy]

theorem holds_true_iff {l : List Contribution} {o : Owner} :
    holds l o = true ↔ ∃ x ∈ l, x.owner = o := by
  simp [holds, Contribution.ownedBy]

theorem ownContribution_eq_none {l : List Contribution} {o : Owner} :
    ownContribution l o = none ↔ holds l o = false := by
  simp [ownContribution, holds, Contribution.ownedBy]

theorem ownContribution_some {l : List Contribution} {o : Owner} {x : Contribution}
    (h : ownContribution l o = some x) : x ∈ l ∧ x.owner = o := by
  refine ⟨List.mem_of_find?_eq_some h, ?_⟩
  have := List.find?_some h
  simpa [Contribution.ownedBy] using this

theorem holds_of_ownContribution {l : List Contribution} {o : Owner} {x : Contribution}
    (h : ownContribution l o = some x) : holds l o = true :=
  holds_true_iff.2 ⟨x, (ownContribution_some h).1, (ownContribution_some h).2⟩

theorem ownContribution_of_holds {l : List Contribution} {o : Owner} (h : holds l o = true) :
    ∃ x, ownContribution l o = some x := by
  cases e : ownContribution l o with
  | none => rw [ownContribution_eq_none.1 e] at h; exact absurd h (by decide)
  | some x => exact ⟨x, rfl⟩

/-! ### Placing at the front of a class segment -/

/-- Where `insertFront` puts a contribution. -/
theorem insertFront_split (x : Contribution) (l : List Contribution) :
    ∃ ahead behind, insertFront x l = ahead ++ x :: behind ∧ ahead ++ behind = l ∧
      (∀ y ∈ ahead, y.cls.rank < x.cls.rank) ∧ (∀ y, behind.head? = some y → x.cls.rank ≤ y.cls.rank) := by
  induction l with
  | nil => exact ⟨[], [], by simp [insertFront]⟩
  | cons y ys ih =>
    by_cases h : y.cls.rank < x.cls.rank
    · obtain ⟨a, b, h1, h2, h3, h4⟩ := ih
      refine ⟨y :: a, b, by simp [insertFront, h, h1], by simp [h2], ?_, h4⟩
      intro z hz
      rcases List.mem_cons.1 hz with rfl | hz
      · exact h
      · exact h3 z hz
    · refine ⟨[], y :: ys, by simp [insertFront, h], by simp, by simp, ?_⟩
      intro z hz
      simp only [List.head?_cons, Option.some.injEq] at hz
      subst hz
      omega

theorem mem_insertFront {x y : Contribution} {l : List Contribution} :
    y ∈ insertFront x l ↔ y = x ∨ y ∈ l := by
  obtain ⟨a, b, h1, h2, -, -⟩ := insertFront_split x l
  rw [h1, ← h2]
  simp only [List.mem_append, List.mem_cons]
  tauto

theorem insertFront_length (x : Contribution) (l : List Contribution) :
    (insertFront x l).length = l.length + 1 := by
  obtain ⟨a, b, h1, h2, -, -⟩ := insertFront_split x l
  rw [h1, ← h2]
  simp
  omega

/-- The record a create or a renewal places. -/
theorem begin_owner (x : Contribution) (start : Nat) (ask : Ask) : (x.begin start ask).owner = x.owner := by
  cases ask <;> simp only [Contribution.begin]
  split <;> rfl

theorem begin_cls (x : Contribution) (start : Nat) (ask : Ask) : (x.begin start ask).cls = x.cls := by
  cases ask <;> simp only [Contribution.begin]
  split <;> rfl

/-- A list without an owner's contribution is itself. -/
theorem filter_not_owner_of_not_holds {l : List Contribution} {o : Owner} (h : holds l o = false) :
    l.filter (fun y => !decide (y.owner = o)) = l := by
  rw [List.filter_eq_self]
  intro y hy
  simpa using holds_false_iff.1 h y hy

/-- The one form of a create and of a renewal: a record of the owner, of the captured class, set on the movement
from the level it starts at, placed at the front of its class segment. -/
theorem createOrRenew_eq (o : Owner) (k : Cls) (ask : Ask) (cs : CircuitState) :
    ∃ base : Contribution, base.owner = o ∧ base.cls = capturedClass cs o k ∧
      createOrRenew o k ask cs = insertFront (base.begin (startLevel cs o) ask)
        (cs.list.filter (fun y => !decide (y.owner = o))) := by
  unfold createOrRenew capturedClass startLevel
  cases h : ownContribution cs.list o with
  | none =>
    exact ⟨⟨o, k, cs.level, cs.level, .steady⟩, rfl, rfl,
      by rw [filter_not_owner_of_not_holds (ownContribution_eq_none.1 h)]; rfl⟩
  | some x => exact ⟨x, (ownContribution_some h).2, rfl, rfl⟩

/-- A create or a renewal places its record at the front of its class segment (R26). -/
theorem createOrRenew_placed (o : Owner) (k : Cls) (ask : Ask) (cs : CircuitState) :
    ∃ base : Contribution, base.owner = o ∧ base.cls = capturedClass cs o k ∧
      PlacedFront (base.begin (startLevel cs o) ask) cs.list (createOrRenew o k ask cs) := by
  obtain ⟨base, ho, hk, e⟩ := createOrRenew_eq o k ask cs
  refine ⟨base, ho, hk, ?_⟩
  obtain ⟨a, b, h1, h2, h3, h4⟩ := insertFront_split (base.begin (startLevel cs o) ask)
    (cs.list.filter (fun y => !decide (y.owner = o)))
  exact ⟨a, b, by rw [e, h1], by rw [begin_owner, ho, h2], h3, h4⟩

/-- A snap or a fade of the owner's contribution (R112). -/
theorem createOrRenew_goes {o : Owner} {k : Cls} {level time : Nat} {before after : CircuitState}
    (h : after.list = createOrRenew o k (askLevel level time) before) :
    GoesToLevel o k level time before after := by
  obtain ⟨base, ho, hk, hp⟩ := createOrRenew_placed o k (askLevel level time) before
  rw [← h] at hp
  refine ⟨_, hp, (begin_owner ..).trans ho, (begin_cls ..).trans hk, ?_, ?_, ?_⟩
  · unfold askLevel
    split <;> rfl
  · intro h0
    simp [askLevel, h0, Contribution.begin]
  · intro h0
    simp [askLevel, h0, Contribution.begin]

/-- A ramp of the owner's contribution (R115). -/
theorem createOrRenew_ramps {o : Owner} {k : Cls} {target time : Nat} {i : InputId} {before after : CircuitState}
    (h : after.list = createOrRenew o k (.ramp target time i) before) :
    RampsToward o k target time i before after := by
  obtain ⟨base, ho, hk, hp⟩ := createOrRenew_placed o k (.ramp target time i) before
  rw [← h] at hp
  refine ⟨_, hp, (begin_owner ..).trans ho, (begin_cls ..).trans hk, ?_, ?_, ?_, ?_⟩
  · simp only [Contribution.begin]
    split <;> rfl
  · simp only [Contribution.begin]
    split <;> rfl
  · intro e
    simp [Contribution.begin, e]
  · intro e
    simp [Contribution.begin, e, rampSteps, ceilDiv]

/-! ### Leaving and end of ramp -/

/-- A leave is what R31 says. -/
theorem leavesWith_leaveWhere (p : Contribution → Bool) (time : Nat) (l : List Contribution) :
    LeavesWith p time l (leaveWhere p time l) := by
  constructor
  · intro h
    simp [leaveWhere, h, removeWhere]
  · intro h
    simp [leaveWhere, h, leavingRate, ceilDiv]

/-- An end of ramp is what R32 says. -/
theorem rampsEnded_endRampsWhere (p : Contribution → Bool) (l : List Contribution) :
    RampsEnded p l (endRampsWhere p l) := by
  unfold RampsEnded endRampsWhere
  congr 1
  funext x
  by_cases hp : p x = true <;> simp [hp, Contribution.endRamp]

/-- A list without such a ramp is left as it is. -/
theorem endRampsWhere_idle {p : Contribution → Bool} {l : List Contribution}
    (h : l.any (fun x => p x && x.ramping) = false) : endRampsWhere p l = l := by
  rw [rampsEnded_endRampsWhere p l]
  conv_rhs => rw [← List.map_id l]
  apply List.map_congr_left
  intro x hx
  have := List.any_eq_false.1 h x hx
  rw [if_neg this]
  rfl

/-- The end-of-ramp claim over every circuit is what R32 says, and changes circuits alone. -/
theorem rampsEndedOn_endRamps (s : State) (p : Contribution → Bool) : RampsEndedOn p s (s.endRamps p) := by
  intro c
  constructor
  · intro h
    obtain ⟨h1, h2, h3⟩ := touched_updateLists (s := s)
      (touch := fun _ cs => cs.list.any (fun x => p x && x.ramping))
      (f := fun _ cs => endRampsWhere p cs.list) (c := c) h
    refine ⟨?_, h2, h3⟩
    unfold State.endRamps
    rw [h1]
    exact rampsEnded_endRampsWhere p _
  · intro h
    exact untouched_updateLists h

theorem frame_endRamps (s : State) (p : Contribution → Bool) :
    s.endRamps p = { s with circuits := (s.endRamps p).circuits } := rfl

theorem frame_leaveByDefault (s : State) (p : Contribution → Bool) :
    s.leaveByDefault p = { s with circuits := (s.leaveByDefault p).circuits } := rfl

/-- Every ramp that satisfies `p` has ended on a circuit, whether or not it held one. -/
theorem rampsEnded_circuit_endRamps (s : State) (p : Contribution → Bool) (c : CircuitId) :
    RampsEnded p (s.circuit c).list ((s.endRamps p).circuit c).list ∧
      ((s.endRamps p).circuit c).slot = (s.circuit c).slot := by
  cases h : (s.circuit c).list.any (fun x => p x && x.ramping) with
  | true =>
    obtain ⟨h1, h2, -⟩ := (rampsEndedOn_endRamps s p c).1 h
    exact ⟨h1, h2⟩
  | false =>
    rw [(rampsEndedOn_endRamps s p c).2 h]
    refine ⟨?_, rfl⟩
    have := rampsEnded_endRampsWhere p (s.circuit c).list
    rwa [endRampsWhere_idle h] at this

/-! ### The free pool (R25) -/

/-- With every list empty the whole pool is free. -/
theorem poolFree_of_nil {s : State} (h : ∀ c, (s.circuit c).list = []) : s.poolFree = Config.poolSize := by
  have : (s.circuits.cells.map (fun cs => cs.list.length)).sum = 0 := by
    rw [List.sum_eq_zero_iff]
    intro k hk
    obtain ⟨cs, hcs, rfl⟩ := List.mem_map.1 hk
    obtain ⟨c, rfl⟩ := Table.exists_get hcs
    exact List.length_eq_zero_iff.2 (h c)
  unfold State.poolFree
  rw [this]
  rfl

/-! ### Lists stay in order (R26, R27) -/

theorem listOk_nil : ListOk [] := ⟨by decide, List.Pairwise.nil, List.nodup_nil⟩

/-- A sublist of a list in order is in order. -/
theorem ListOk.sublist {l m : List Contribution} (h : m.Sublist l) (hl : ListOk l) : ListOk m :=
  ⟨h.length_le.trans hl.short, hl.ordered.sublist h, hl.oneEach.sublist (h.map _)⟩

/-- A map that keeps owner and class keeps a list in order. -/
theorem ListOk.map {l : List Contribution} {f : Contribution → Contribution} (hl : ListOk l)
    (ho : ∀ x, (f x).owner = x.owner) (hc : ∀ x, (f x).cls = x.cls) : ListOk (l.map f) := by
  refine ⟨by simpa using hl.short, ?_, ?_⟩
  · rw [List.pairwise_map]
    simpa [hc] using hl.ordered
  · have : (l.map f).map (fun x => x.owner) = l.map (fun x => x.owner) := by simp [ho]
    rw [this]
    exact hl.oneEach

/-- Placing a contribution whose owner holds none keeps a list in order. -/
theorem ListOk.insertFront {l : List Contribution} {x : Contribution} (hl : ListOk l)
    (hx : holds l x.owner = false) (hs : l.length < Config.listCapacity) : ListOk (insertFront x l) := by
  obtain ⟨a, b, h1, h2, h3, h4⟩ := insertFront_split x l
  have hord := hl.ordered
  have hone := hl.oneEach
  rw [← h2] at hord hone
  refine ⟨by rw [insertFront_length]; exact hs, ?_, ?_⟩
  · rw [h1, List.pairwise_append]
    rw [List.pairwise_append] at hord
    refine ⟨hord.1, ?_, ?_⟩
    · rw [List.pairwise_cons]
      refine ⟨?_, hord.2.1⟩
      intro y hy
      cases b with
      | nil => simp at hy
      | cons z zs =>
        have hz := h4 z rfl
        rcases List.mem_cons.1 hy with rfl | hy
        · exact hz
        · exact hz.trans ((List.pairwise_cons.1 hord.2.1).1 y hy)
    · intro y hy z hz
      rcases List.mem_cons.1 hz with rfl | hz
      · exact (h3 y hy).le
      · exact hord.2.2 y hy z hz
  · rw [h1]
    have hx' := holds_false_iff.1 hx
    have : ((a ++ x :: b).map (fun y => y.owner)).Perm (x.owner :: (a ++ b).map (fun y => y.owner)) := by
      simp only [List.map_append, List.map_cons]
      exact List.perm_middle
    rw [this.nodup_iff, List.nodup_cons]
    refine ⟨?_, hone⟩
    rw [h2]
    simpa using hx'

theorem ListOk.removeWhere {l : List Contribution} (p : Contribution → Bool) (hl : ListOk l) :
    ListOk (removeWhere p l) := hl.sublist List.filter_sublist

theorem ListOk.leaveWhere {l : List Contribution} (p : Contribution → Bool) (time : Nat) (hl : ListOk l) :
    ListOk (leaveWhere p time l) := by
  unfold Machine.leaveWhere
  split
  · exact hl.removeWhere p
  · apply hl.map <;> intro x <;> split <;> rfl

theorem endRamp_owner (x : Contribution) : x.endRamp.owner = x.owner := by
  unfold Contribution.endRamp; split <;> rfl

theorem endRamp_cls (x : Contribution) : x.endRamp.cls = x.cls := by
  unfold Contribution.endRamp; split <;> rfl

theorem ListOk.endRampsWhere {l : List Contribution} (p : Contribution → Bool) (hl : ListOk l) :
    ListOk (endRampsWhere p l) := by
  apply hl.map <;> intro x <;> split
  · exact endRamp_owner x
  · rfl
  · exact endRamp_cls x
  · rfl

theorem leaveWhere_length_le (p : Contribution → Bool) (time : Nat) (l : List Contribution) :
    (leaveWhere p time l).length ≤ l.length := by
  unfold leaveWhere removeWhere
  split
  · exact List.length_filter_le ..
  · simp

theorem endRampsWhere_length (p : Contribution → Bool) (l : List Contribution) :
    (endRampsWhere p l).length = l.length := by simp [endRampsWhere]

end Sys2Proof.Machine
end

