-- ==== Sys2Proof/Laws/Actions.lean ====
section
/-! SUPPORT. How an offered command, the claims of an entry and one action of a sequence run: taken or not, accepted or
refused; and the resource check with the creates it lets through. -/

namespace Sys2Proof.Machine

/-! ### Commands of the command cell (R169) -/

/-- A command that is taken acts on the state in which its value is stored. -/
theorem offerCommand_taken {s : State} (h : s.takesCommand) (v : Word) (act : State → State) :
    s.offerCommand v act = act { s with command := v } := by
  unfold State.offerCommand
  rw [h.1, h.2]
  rfl

/-- A command offered while one is RUNNING is counted, and its value stored. -/
theorem offerCommand_busy {s : State} (h : s.upstreamReady = true) (hr : s.status.running = true) (v : Word)
    (act : State → State) :
    s.offerCommand v act = { s with command := v, counters := s.counters.bump .busyRefusals } := by
  unfold State.offerCommand
  rw [h, hr]
  rfl

/-! ### The claims of TAKE_ENTRY and LOST_MARKER (R99) -/

/-- A held entry takes the next claim of its stage. -/
theorem takeClaim_held {s : State} {e : Entry} {stage : Stage} (h : s.current = some ⟨e, stage⟩) :
    s.takeClaim = s.entryClaim e stage := by
  unfold State.takeClaim
  rw [h]

/-- At an idle point with no swap pending the head is taken. -/
theorem takeClaim_idle {s : State} {e : Entry} {rest : List Entry} (h1 : s.current = none)
    (h2 : s.swapPending = false) (h3 : s.events = e :: rest) : s.takeClaim = s.popEntry e rest := by
  unfold State.takeClaim
  rw [h1, h2, h3]
  rfl

/-- Claims go on while the entry is held. -/
theorem takeClaims_held {s : State} (h : s.takeClaim.current ≠ none) (k : Nat) :
    s.takeClaims (k + 1) = s.takeClaim.takeClaims k := if_neg h

/-- A finished entry has no further claim. -/
theorem takeClaims_finished {s : State} (h : s.takeClaim.current = none) (k : Nat) :
    s.takeClaims (k + 1) = s.takeClaim := if_pos h

theorem takeClaims_one (s : State) : s.takeClaims 1 = s.takeClaim := ite_self _

/-- Where the next claim changes nothing, no number of claims does. -/
theorem takeClaims_still {s : State} (h : s.takeClaim = s) (k : Nat) : s.takeClaims k = s := by
  induction k with
  | zero => rfl
  | succ k ih =>
    unfold State.takeClaims
    rw [h, ih, ite_self]

theorem lostClaim_passed {s : State} {n : StationId} (h : s.current = some ⟨.marker n .lost, .passed⟩) :
    s.lostClaim = (s.lostRamps n).holdAt (.marker n .lost) .rampsEnded := by
  unfold State.lostClaim
  rw [h]

theorem lostClaim_rampsEnded {s : State} {n : StationId} (h : s.current = some ⟨.marker n .lost, .rampsEnded⟩) :
    s.lostClaim = s.lostPolicy n := by
  unfold State.lostClaim
  rw [h]

/-! ### One action of a sequence (R108) -/

theorem runningAction_of_runs {s : State} {code : Nat} {a : RunningAction} {k : ActionKind} (h : s.runs code a)
    (hk : kindOfCode code = some k) : s.runningAction k = some a := by
  obtain ⟨tags, left, h1, h2, h3, h4⟩ := h
  unfold State.runningAction
  rw [h1]
  dsimp only
  rw [← h3, h4, if_pos ⟨h2, hk⟩]

theorem finishAction_eq {s t : State} (h : t.current = s.current) :
    t.finishAction = { t with current := s.afterAction } := by
  have e : (match t.current with
      | some f => f.advance
      | none => none) = s.afterAction := by
    unfold State.afterAction
    rw [h]
    cases s.current with
    | none => rfl
    | some f => obtain ⟨e, stage⟩ := f; cases stage <;> rfl
  rw [← e]
  rfl

/-- An action whose claim is accepted. -/
theorem runAction_ok {s t : State} {code : Nat} {a : RunningAction} {k : ActionKind}
    {claim : RunningAction → Except Reason State} (h : s.runs code a) (hk : kindOfCode code = some k)
    (hc : claim a = .ok t) (hcur : t.current = s.current) :
    s.runAction k claim = { t with current := s.afterAction } := by
  unfold State.runAction
  rw [runningAction_of_runs h hk]
  dsimp only
  rw [hc]
  exact finishAction_eq hcur

/-- An action whose claim is refused (R122, R123). -/
theorem runAction_refused {s : State} {code : Nat} {a : RunningAction} {k : ActionKind}
    {claim : RunningAction → Except Reason State} {r : Reason} (h : s.runs code a)
    (hk : kindOfCode code = some k) (hc : claim a = .error r) :
    s.runAction k claim = { s with
      current := s.afterAction
      causes := r.cause.mark s.causes
      counters := s.counters.bump .refusedActions
      lastRefusal := a.refusal r } := by
  unfold State.runAction
  rw [runningAction_of_runs h hk]
  dsimp only
  rw [hc]
  dsimp only
  rw [finishAction_eq (s := s) (t := s.refuseAction a r) rfl]
  rfl

/-! ### The resource check (R110) and what it lets through (R111) -/

/-- What a claim asks of a circuit is asked of the circuits of `touch` alone. -/
def AsksOf (touch : CircuitId → Bool) (ask : CircuitId → Option Ask) : Prop := ∀ c, (ask c).isSome = touch c

theorem recordsNeeded_eq {s : State} {o : Owner} {touch : CircuitId → Bool} {ask : CircuitId → Option Ask}
    (ht : AsksOf touch ask) : s.recordsNeeded o ask = s.newRecords o touch := by
  have h : s.needsRecord o ask = fun c => touch c && !holds (s.circuit c).list o := by
    funext c; unfold State.needsRecord; rw [ht c]
  unfold State.recordsNeeded State.newRecords
  rw [h]

theorem anyFull_iff {s : State} {o : Owner} {touch : CircuitId → Bool} {ask : CircuitId → Option Ask}
    (ht : AsksOf touch ask) :
    allCircuits.any (fun c => s.needsRecord o ask c && decide (Config.listCapacity ≤ (s.circuit c).list.length))
      = true ↔
    ∃ c, touch c = true ∧ holds (s.circuit c).list o = false ∧ Config.listCapacity ≤ (s.circuit c).list.length := by
  rw [List.any_eq_true]
  constructor
  · rintro ⟨c, -, h⟩
    refine ⟨c, ?_⟩
    simpa [State.needsRecord, ht c, and_assoc] using h
  · rintro ⟨c, h⟩
    refine ⟨c, List.mem_finRange c, ?_⟩
    simpa [State.needsRecord, ht c, and_assoc] using h

/-- A claim for which the store has room is accepted. -/
theorem claimAsks_ok {s : State} {n : StationId} {touch : CircuitId → Bool} {ask : CircuitId → Option Ask}
    (ht : AsksOf touch ask) (h : s.hasRoom (.station n) touch) :
    s.claimAsks n ask = .ok (s.applyAsks (.station n) (s.active.station n).cls ask) := by
  have h2 : ¬ allCircuits.any (fun c => s.needsRecord (.station n) ask c &&
      decide (Config.listCapacity ≤ (s.circuit c).list.length)) = true := by
    rw [anyFull_iff ht]
    rintro ⟨c, h3, h4, h5⟩
    have := h.2 c h3 h4
    omega
  have h1 : ¬ s.poolFree < s.recordsNeeded (.station n) ask := by
    rw [recordsNeeded_eq ht]
    have := h.1
    omega
  unfold State.claimAsks State.resourceCheck
  rw [if_neg h1, if_neg h2]

/-- A claim that needs more records than are free is refused POOL EXHAUSTED. -/
theorem claimAsks_poolExhausted {s : State} {n : StationId} {touch : CircuitId → Bool}
    {ask : CircuitId → Option Ask} (ht : AsksOf touch ask)
    (h : s.poolFree < s.newRecords (.station n) touch) : s.claimAsks n ask = .error .poolExhausted := by
  unfold State.claimAsks State.resourceCheck
  rw [recordsNeeded_eq ht, if_pos h]

/-- A claim that needs a record where 8 are held is refused CIRCUIT FULL. -/
theorem claimAsks_circuitFull {s : State} {n : StationId} {touch : CircuitId → Bool}
    {ask : CircuitId → Option Ask} (ht : AsksOf touch ask)
    (h : s.newRecords (.station n) touch ≤ s.poolFree)
    (hf : ∃ c, touch c = true ∧ holds (s.circuit c).list (.station n) = false ∧
      8 ≤ (s.circuit c).list.length) : s.claimAsks n ask = .error .circuitFull := by
  unfold State.claimAsks State.resourceCheck
  rw [recordsNeeded_eq ht, if_neg (by omega), if_pos ((anyFull_iff ht).2 hf)]

/-- A circuit of which a claim asks something. -/
theorem asked_applyAsks {s : State} {o : Owner} {k : Cls} {ask : CircuitId → Option Ask} {c : CircuitId} {a : Ask}
    (h : ask c = some a) :
    ((s.applyAsks o k ask).circuit c).list = createOrRenew o k a (s.circuit c) ∧
    ((s.applyAsks o k ask).circuit c).slot = (s.circuit c).slot ∧
    Recomputed s.active s.mode c (s.circuit c) ((s.applyAsks o k ask).circuit c) := by
  obtain ⟨h1, h2, h3⟩ := touched_updateLists (s := s) (touch := fun c _ => (ask c).isSome)
    (f := fun c cs => match ask c with
      | some a => createOrRenew o k a cs
      | none => cs.list) (c := c) (by simp [h])
  refine ⟨?_, h2, h3⟩
  refine h1.trans ?_
  simp only [h]

/-- A circuit of which a claim asks nothing. -/
theorem unasked_applyAsks {s : State} {o : Owner} {k : Cls} {ask : CircuitId → Option Ask} {c : CircuitId}
    (h : ask c = none) : (s.applyAsks o k ask).circuit c = s.circuit c :=
  untouched_updateLists (by simp [h])

/-- A leave over the circuits of `touch`, circuit by circuit. -/
theorem left_leaveWith {s : State} {touch : CircuitId → Bool} {p : Contribution → Bool} {profile : Nat}
    {c : CircuitId} (ht : touch c = true) (hp : (s.circuit c).list.any p = true) :
    LeavesWith p (s.active.operandTime profile c) (s.circuit c).list ((s.leaveWith touch p profile).circuit c).list ∧
    ((s.leaveWith touch p profile).circuit c).slot = (s.circuit c).slot ∧
    Recomputed s.active s.mode c (s.circuit c) ((s.leaveWith touch p profile).circuit c) := by
  obtain ⟨h1, h2, h3⟩ := touched_updateLists (s := s) (touch := fun c cs => touch c && cs.list.any p)
    (f := fun c cs => leaveWhere p (s.active.operandTime profile c) cs.list) (c := c) (by simp [ht, hp])
  refine ⟨?_, h2, h3⟩
  unfold State.leaveWith
  rw [h1]
  exact leavesWith_leaveWhere p _ _

/-- A circuit outside the leave, or without such a contribution. -/
theorem kept_leaveWith {s : State} {touch : CircuitId → Bool} {p : Contribution → Bool} {profile : Nat}
    {c : CircuitId} (h : touch c = false ∨ (s.circuit c).list.any p = false) :
    (s.leaveWith touch p profile).circuit c = s.circuit c := by
  apply untouched_updateLists
  rcases h with h | h <;> simp [h]

theorem frame_applyAsks (s : State) (o : Owner) (k : Cls) (ask : CircuitId → Option Ask) :
    s.applyAsks o k ask = { s with circuits := (s.applyAsks o k ask).circuits } := rfl

theorem frame_leaveWith (s : State) (touch : CircuitId → Bool) (p : Contribution → Bool) (profile : Nat) :
    s.leaveWith touch p profile = { s with circuits := (s.leaveWith touch p profile).circuits } := rfl

end Sys2Proof.Machine
end

