-- ==== Sys2Proof/Laws/Queue.lean ====
section
/-! SUPPORT. What recording faults, offering input events, losing them, and offering markers can do. -/

namespace Sys2Proof.Machine

/-! ### Causes and counters -/

theorem getLsbD_mark (c : Cause) (x : BitVec 9) (k : Nat) :
    (c.mark x).getLsbD k = (x.getLsbD k || decide (k = c.bit)) := by
  have hc : c.bit < 9 := by cases c <;> decide
  by_cases h : k = c.bit
  · subst h
    simp [Cause.mark, hc]
  · have h' : ¬ c.bit = k := fun e => h e.symm
    simp [Cause.mark, BitVec.getLsbD_twoPow, h, h']

theorem bit_inj {c d : Cause} : c.bit = d.bit ↔ c = d := by
  cases c <;> cases d <;> decide

theorem mark_pending (c d : Cause) (x : BitVec 9) :
    (d.mark x).getLsbD c.bit = true ↔ x.getLsbD c.bit = true ∨ c = d := by
  simp [getLsbD_mark, bit_inj]

/-- Marks may be set in any order. -/
theorem mark_comm (c d : Cause) (x : BitVec 9) : c.mark (d.mark x) = d.mark (c.mark x) := by
  unfold Cause.mark
  rw [BitVec.or_assoc, BitVec.or_assoc, BitVec.or_comm (BitVec.twoPow 9 d.bit)]

theorem mark_mark (c : Cause) (x : BitVec 9) : c.mark (c.mark x) = c.mark x := by
  unfold Cause.mark
  rw [BitVec.or_assoc, BitVec.or_self]

theorem causePending_raiseCause (s : State) (c d : Cause) :
    (s.raiseCause d).causePending c = true ↔ s.causePending c = true ∨ c = d := mark_pending c d s.causes

@[simp] theorem causePending_count (s : State) (c : Cause) (n : CounterName) :
    (s.count n).causePending c = s.causePending c := rfl

theorem raisedBy_zero (n : Nat) : raisedBy 0 n = n := rfl

theorem raisedBy_succ (k n : Nat) : raisedBy (k + 1) n = raisedBy k (bump n) := by
  unfold raisedBy bump Config.counterMax
  split <;> split <;> omega

theorem raisedBy_add (j k n : Nat) : raisedBy (j + k) n = raisedBy k (raisedBy j n) := by
  unfold raisedBy
  repeat' split
  all_goals omega

/-! ### Sets of fault kinds -/

theorem FaultSet.union_none (a : FaultSet) : a.union FaultSet.none = a := by
  cases a; simp [FaultSet.union, FaultSet.none]

theorem FaultSet.none_union (a : FaultSet) : FaultSet.none.union a = a := by
  cases a; simp [FaultSet.union, FaultSet.none]

theorem FaultSet.union_assoc (a b c : FaultSet) : (a.union b).union c = a.union (b.union c) := by
  simp [FaultSet.union, Bool.or_assoc]

theorem FaultSet.union_self (a : FaultSet) : a.union a = a := by
  cases a; simp [FaultSet.union]

theorem FaultSet.size_le_union (a b : FaultSet) : a.size ≤ (a.union b).size := by
  obtain ⟨a1, a2, a3, a4⟩ := a
  obtain ⟨b1, b2, b3, b4⟩ := b
  revert a1 a2 a3 a4 b1 b2 b3 b4
  decide

theorem FaultSet.size_eq_zero {a : FaultSet} : a.size = 0 ↔ a = FaultSet.none := by
  obtain ⟨a1, a2, a3, a4⟩ := a
  revert a1 a2 a3 a4
  decide

theorem FaultSet.size_none : FaultSet.none.size = 0 := rfl

theorem FaultSet.size_union_eq_zero {a b : FaultSet} : (a.union b).size = 0 ↔ a.size = 0 ∧ b.size = 0 := by
  obtain ⟨a1, a2, a3, a4⟩ := a
  obtain ⟨b1, b2, b3, b4⟩ := b
  revert a1 a2 a3 a4 b1 b2 b3 b4
  decide

/-! ### Stations read through claims on circuits -/

@[simp] theorem station_endRamps (s : State) (p : Contribution → Bool) (n : StationId) :
    (s.endRamps p).station n = s.station n := rfl

/-! ### Long-press timers -/

theorem timersStopped_stopTimers (st : StationState) : TimersStopped st st.stopTimers := by
  intro i
  have h : st.stopTimers.inputs.get i = (st.inputs.get i).stopTimer := by
    simp [StationState.stopTimers]
  rw [h]
  unfold InputState.stopTimer
  cases hp : (st.inputs.get i).phase <;> simp [hp]

/-! ### What the offers and the recordings leave alone -/

/-- Nothing but station records, circuits, the event queue, SCANHOLD#, causes and counters may differ. -/
def SameElsewhere (s t : State) : Prop :=
  t = { s with events := t.events, scanhold := t.scanhold, stations := t.stations, circuits := t.circuits,
               causes := t.causes, counters := t.counters }

theorem SameElsewhere.refl (s : State) : SameElsewhere s s := rfl

theorem SameElsewhere.trans {s u t : State} (h1 : SameElsewhere s u) (h2 : SameElsewhere u t) :
    SameElsewhere s t := by
  cases s; cases u; cases t
  simp only [SameElsewhere, State.mk.injEq] at *
  simp_all

theorem SameElsewhere.active {s t : State} (h : SameElsewhere s t) : t.active = s.active := by
  unfold SameElsewhere at h; rw [h]

theorem SameElsewhere.mode {s t : State} (h : SameElsewhere s t) : t.mode = s.mode := by
  unfold SameElsewhere at h; rw [h]

/-! ### Recording -/

/-- Nothing recorded. -/
theorem records_refl (n : StationId) (s : State) : Records FaultSet.none n s s where
  faults := (FaultSet.union_none _).symm
  suspect := by simp [FaultSet.size_none]
  unmoved := fun _ => ⟨rfl, rfl⟩
  quarantined := fun h1 h2 => by rw [h1] at h2; exact absurd h2 (by decide)
  station := rfl
  others := fun _ _ => rfl

/-- What `recordFaults` does: it records the set, raises FAULT when the set is not empty, and changes no more. -/
theorem recordFaults_records (s : State) (n : StationId) (f : FaultSet) : Records f n s (s.recordFaults n f) := by
  unfold State.recordFaults
  by_cases h0 : f.size = 0
  · rw [if_pos h0, FaultSet.size_eq_zero.1 h0]
    exact records_refl n s
  rw [if_neg h0]
  set s1 := (s.modStation n (fun st => { st with faults := st.faults.union f })).raiseCause .fault with hs1
  have hn : s1.station n = { s.station n with faults := (s.station n).faults.union f } := by
    simp [hs1]
  have hm : ∀ m, m ≠ n → s1.station m = s.station m := by
    intro m hm
    rw [hs1]
    simp [State.station_modStation_ne, Ne.symm hm]
  by_cases h2 : (2 ≤ (s1.station n).faults.size && !(s1.station n).suspect) = true
  · simp only [Bool.and_eq_true, decide_eq_true_eq, Bool.not_eq_true'] at h2
    have hsus : (s.station n).suspect = false := by rw [hn] at h2; exact h2.2
    have hsize : 2 ≤ ((s.station n).faults.union f).size := by rw [hn] at h2; exact h2.1
    have hcond : (decide (2 ≤ (s1.station n).faults.size) && !(s1.station n).suspect) = true := by
      simp [h2.1, h2.2]
    simp only [hcond, if_true]
    set u := s1.modStation n (fun st => { st.stopTimers with suspect := true }) with hu
    have hun : u.station n = { (s1.station n).stopTimers with suspect := true } := by simp [hu]
    have hset : s1.setSuspect n = u.endRamps (fun x => x.ownedBy (.station n)) := rfl
    have hts : (s1.setSuspect n).station n = u.station n := rfl
    refine ⟨?_, ?_, ?_, ?_, ?_, ?_⟩
    · rw [hts, hun, hn]; rfl
    · rw [hts, hun, hn]
      simp only [hsus, Bool.false_or]
      simp [h0, StationState.stopTimers, hsize]
    · intro h
      rw [hts, hun, hsus] at h
      exact absurd h (by simp)
    · intro _ _
      constructor
      · have := timersStopped_stopTimers (s1.station n)
        rw [hn] at this
        rw [hts, hun, hn]
        exact this
      · have := rampsEndedOn_endRamps u (fun x => x.ownedBy (.station n))
        exact this
    · rw [hts, hun, hn]; rfl
    · intro m hmn
      have : (s1.setSuspect n).station m = u.station m := rfl
      rw [this, hu, State.station_modStation_ne _ _ (Ne.symm hmn)]
      exact hm m hmn
  · have h2' : ¬ ((decide (2 ≤ (s1.station n).faults.size) && !(s1.station n).suspect) = true) := h2
    simp only [if_neg h2']
    have hsus : (s1.station n).suspect = (s.station n).suspect := by rw [hn]
    refine ⟨by rw [hn], ?_, ?_, ?_, by rw [hn], hm⟩
    · rw [hsus]
      cases hq : (s.station n).suspect with
      | true => simp
      | false =>
        rw [hsus, hq] at h2'
        simp only [Bool.not_false, Bool.and_true, decide_eq_true_eq] at h2'
        simp [h2']
    · intro _
      exact ⟨by rw [hn], rfl⟩
    · intro h1 h3
      rw [hsus, h1] at h3
      exact absurd h3 (by decide)

theorem recordFaults_causes (s : State) (n : StationId) (f : FaultSet) :
    (s.recordFaults n f).causes = if f.size = 0 then s.causes else Cause.fault.mark s.causes := by
  unfold State.recordFaults
  split
  · rfl
  · dsimp only
    split <;> rfl

theorem sameElsewhere_recordFaults (s : State) (n : StationId) (f : FaultSet) :
    SameElsewhere s (s.recordFaults n f) := by
  unfold State.recordFaults
  split
  · rfl
  · dsimp only
    split <;> rfl

theorem recordFaults_events (s : State) (n : StationId) (f : FaultSet) :
    (s.recordFaults n f).events = s.events ∧ (s.recordFaults n f).scanhold = s.scanhold ∧
      (s.recordFaults n f).counters = s.counters := by
  unfold State.recordFaults
  split
  · exact ⟨rfl, rfl, rfl⟩
  · dsimp only
    split <;> exact ⟨rfl, rfl, rfl⟩

/-- A recording is a matter of stations and circuits alone. -/
theorem Records.congr_right {f : FaultSet} {n : StationId} {s t u : State} (h : Records f n s t)
    (hs : u.stations = t.stations) (hc : u.circuits = t.circuits) : Records f n s u := by
  have e : ∀ m, u.station m = t.station m := fun m => by unfold State.station; rw [hs]
  have ec : ∀ c, u.circuit c = t.circuit c := fun c => by unfold State.circuit; rw [hc]
  refine ⟨by rw [e]; exact h.faults, by rw [e]; exact h.suspect, ?_, ?_, by rw [e]; exact h.station, ?_⟩
  · rw [e, hc]; exact h.unmoved
  · rw [e]
    intro h1 h2
    obtain ⟨a, b⟩ := h.quarantined h1 h2
    refine ⟨a, fun c => ?_⟩
    rw [ec]; exact b c
  · intro m hm
    rw [e]; exact h.others m hm

theorem Records.congr_left {f : FaultSet} {n : StationId} {s t u : State} (h : Records f n s t)
    (hs : u.stations = s.stations) (hc : u.circuits = s.circuits) (ha : u.active = s.active)
    (hm : u.mode = s.mode) : Records f n u t := by
  have e : ∀ m, u.station m = s.station m := fun m => by unfold State.station; rw [hs]
  have ec : ∀ c, u.circuit c = s.circuit c := fun c => by unfold State.circuit; rw [hc]
  refine ⟨by rw [e]; exact h.faults, by rw [e]; exact h.suspect, ?_, ?_, by rw [e]; exact h.station, ?_⟩
  · rw [e, hc]; exact h.unmoved
  · rw [e]
    intro h1 h2
    obtain ⟨a, b⟩ := h.quarantined h1 h2
    refine ⟨a, fun c => ?_⟩
    rw [ec, ha, hm]; exact b c
  · intro m hmn
    rw [e]; exact h.others m hmn

/-- What ends the ramps of `s` ends those of a state with the same circuits. -/
theorem RampsEndedOn.congr_left {p : Contribution → Bool} {s u t : State} (h : RampsEndedOn p u t)
    (hc : u.circuits = s.circuits) (ha : u.active = s.active) (hm : u.mode = s.mode) : RampsEndedOn p s t := by
  have e : ∀ c, u.circuit c = s.circuit c := fun c => by unfold State.circuit; rw [hc]
  intro c
  have := h c
  rw [e c, ha, hm] at this
  exact this

theorem RampsEndedOn.congr_right {p : Contribution → Bool} {s u t : State} (h : RampsEndedOn p s u)
    (hc : t.circuits = u.circuits) : RampsEndedOn p s t := by
  have e : ∀ c, t.circuit c = u.circuit c := fun c => by unfold State.circuit; rw [hc]
  intro c
  rw [e c]
  exact h c

/-- Two recordings on one station, one after the other. -/
theorem Records.trans {f g : FaultSet} {n : StationId} {s u t : State} (h1 : Records f n s u)
    (h2 : Records g n u t) (ha : u.active = s.active) (hm : u.mode = s.mode) : Records (f.union g) n s t := by
  have hsize : (u.station n).faults.size ≤ (t.station n).faults.size := by
    rw [h2.faults]; exact FaultSet.size_le_union ..
  have mono1 : (s.station n).suspect = true → (u.station n).suspect = true := by
    intro h; rw [h1.suspect, h]; rfl
  have mono2 : (u.station n).suspect = true → (t.station n).suspect = true := by
    intro h; rw [h2.suspect, h]; rfl
  refine ⟨?_, ?_, ?_, ?_, ?_, ?_⟩
  · rw [h2.faults, h1.faults, FaultSet.union_assoc]
  · rw [h2.suspect, h1.suspect]
    by_cases hg : g.size = 0
    · have e : (t.station n).faults = (u.station n).faults := by
        rw [h2.faults, FaultSet.size_eq_zero.1 hg, FaultSet.union_none]
      rw [e, FaultSet.size_eq_zero.1 hg, FaultSet.union_none]
      simp [FaultSet.size_none]
    · have hfg : (f.union g).size ≠ 0 := fun h => hg (FaultSet.size_union_eq_zero.1 h).2
      simp only [hg, hfg, ne_eq, not_false_eq_true, decide_true, Bool.true_and, Bool.or_assoc]
      by_cases h2' : 2 ≤ (t.station n).faults.size
      · simp [h2']
      · have : ¬ 2 ≤ (u.station n).faults.size := by omega
        simp [h2', this]
  · intro h
    cases hs : (s.station n).suspect with
    | true =>
      have hu := mono1 hs
      obtain ⟨a1, a2⟩ := h1.unmoved (by rw [hu, hs])
      obtain ⟨b1, b2⟩ := h2.unmoved (by rw [mono2 hu, hu])
      exact ⟨b1.trans a1, b2.trans a2⟩
    | false =>
      have ht : (t.station n).suspect = false := by rw [h, hs]
      have hu : (u.station n).suspect = false := by
        cases e : (u.station n).suspect with
        | false => rfl
        | true => rw [mono2 e] at ht; exact absurd ht (by decide)
      obtain ⟨a1, a2⟩ := h1.unmoved (by rw [hu, hs])
      obtain ⟨b1, b2⟩ := h2.unmoved (by rw [ht, hu])
      exact ⟨b1.trans a1, b2.trans a2⟩
  · intro hs ht
    cases hu : (u.station n).suspect with
    | true =>
      obtain ⟨a1, a2⟩ := h1.quarantined hs hu
      obtain ⟨b1, b2⟩ := h2.unmoved (by rw [ht, hu])
      exact ⟨fun i => by rw [b1]; exact a1 i, a2.congr_right b2⟩
    | false =>
      obtain ⟨a1, a2⟩ := h1.unmoved (by rw [hs, hu])
      obtain ⟨b1, b2⟩ := h2.quarantined hu ht
      refine ⟨fun i => ?_, b2.congr_left a2 ha hm⟩
      have := b1 i
      rw [a1] at this
      exact this
  · rw [h2.station, h1.station]
  · intro m hmn
    rw [h2.others m hmn, h1.others m hmn]

/-- A recording never lifts SUSPECT. -/
theorem Records.suspect_mono {f : FaultSet} {n : StationId} {s t : State} (h : Records f n s t)
    (hs : (s.station n).suspect = true) : (t.station n).suspect = true := by
  rw [h.suspect, hs]
  rfl

/-- A recording either leaves inputs and circuits alone, or sets SUSPECT. -/
theorem Records.cases {f : FaultSet} {n : StationId} {s t : State} (h : Records f n s t) :
    ((t.station n).suspect = (s.station n).suspect ∧ (t.station n).inputs = (s.station n).inputs ∧
      t.circuits = s.circuits) ∨
    ((s.station n).suspect = false ∧ (t.station n).suspect = true ∧ TimersStopped (s.station n) (t.station n) ∧
      RampsEndedOn (fun x => decide (x.owner = .station n)) s t) := by
  cases hs : (s.station n).suspect with
  | true =>
    have ht := h.suspect_mono hs
    exact .inl ⟨ht, h.unmoved (by rw [ht, hs])⟩
  | false =>
    cases ht : (t.station n).suspect with
    | false => exact .inl ⟨rfl, h.unmoved (by rw [ht, hs])⟩
    | true => exact .inr ⟨rfl, rfl, h.quarantined hs ht⟩

/-- A recording leaves every input's present and acted states alone, and makes no phase but IDLE anew. -/
theorem Records.timers {f : FaultSet} {n : StationId} {s t : State} (h : Records f n s t) (i : InputId) :
    ((t.station n).inputs.get i).closed = ((s.station n).inputs.get i).closed ∧
    ((t.station n).inputs.get i).acted = ((s.station n).inputs.get i).acted ∧
    ((∀ r, ((s.station n).inputs.get i).phase ≠ .timing r) →
      ((t.station n).inputs.get i).phase = ((s.station n).inputs.get i).phase) := by
  rcases h.cases with ⟨-, h1, -⟩ | ⟨-, -, h1, -⟩
  · rw [h1]
    exact ⟨rfl, rfl, fun _ => rfl⟩
  · exact ⟨(h1 i).1, (h1 i).2.1, (h1 i).2.2.2⟩

/-! ### Placing input events -/

theorem inputCount_append (l m : List Entry) : inputCount (l ++ m) = inputCount l + inputCount m :=
  List.countP_append

theorem inputCount_singleton {e : Entry} (h : e.isInput = true) : inputCount [e] = 1 := by
  simp [inputCount, h]

theorem inputCount_all {l : List Entry} (h : ∀ e ∈ l, e.isInput = true) : inputCount l = l.length :=
  List.countP_eq_length.2 h

/-- SCANHOLD# after `k` input events have joined one by one. -/
def scanholdJoins (count k : Nat) (h : Bool) : Bool :=
  (List.range k).foldl (fun h j => scanholdAfter (count + j + 1) h) h

theorem scanholdJoins_zero (count : Nat) (h : Bool) : scanholdJoins count 0 h = h := rfl

theorem scanholdJoins_succ (count k : Nat) (h : Bool) :
    scanholdJoins count (k + 1) h = scanholdJoins (count + 1) k (scanholdAfter (count + 1) h) := by
  unfold scanholdJoins
  rw [List.range_succ_eq_map, List.foldl_cons, List.foldl_map]
  congr 1
  funext h j
  congr 1
  omega

theorem scanholdJoins_add (count j k : Nat) (h : Bool) :
    scanholdJoins count (j + k) h = scanholdJoins (count + j) k (scanholdJoins count j h) := by
  induction j generalizing count h with
  | zero => rw [Nat.zero_add, Nat.add_zero, scanholdJoins_zero]
  | succ j ih =>
    rw [Nat.add_right_comm, scanholdJoins_succ, ih, scanholdJoins_succ]
    congr 1
    omega

/-- What placing an offer does: the events that find fewer than 64 queued join in order, the others are lost. -/
theorem placeInputs_eq (offer : List Entry) (hin : ∀ e ∈ offer, e.isInput = true) (s : State) :
    s.placeInputs offer =
      ({ s with
        events := s.events ++ offer.take (64 - inputCount s.events)
        scanhold := scanholdJoins (inputCount s.events) (min offer.length (64 - inputCount s.events)) s.scanhold },
       offer.drop (64 - inputCount s.events)) := by
  induction offer generalizing s with
  | nil => simp [State.placeInputs, scanholdJoins_zero]
  | cons e rest ih =>
    have he : e.isInput = true := hin e (by simp)
    have hr : ∀ x ∈ rest, x.isInput = true := fun x hx => hin x (by simp [hx])
    unfold State.placeInputs
    by_cases h : inputCount s.events < Config.eventCapacity
    · rw [if_pos h, ih hr]
      have h' : inputCount s.events < 64 := h
      have hc : inputCount (s.joinInput e).events = inputCount s.events + 1 := by
        simp [State.joinInput, inputCount_append, inputCount_singleton he]
      obtain ⟨k, hk⟩ : ∃ k, 64 - inputCount s.events = k + 1 := ⟨64 - inputCount s.events - 1, by omega⟩
      have hk' : 64 - (inputCount s.events + 1) = k := by omega
      rw [hc, hk', hk]
      have hmin : min (e :: rest).length (k + 1) = min rest.length k + 1 := by
        simp only [List.length_cons]; omega
      rw [hmin, scanholdJoins_succ]
      simp [State.joinInput, inputCount_append, inputCount_singleton he]
    · rw [if_neg h, ih hr]
      have h' : 64 - inputCount s.events = 0 := by
        have : ¬ inputCount s.events < 64 := h
        omega
      simp [h', scanholdJoins_zero]

/-! ### Losing input events -/

theorem loseInput_causes (s : State) (e : Entry) (c : Cause) :
    (s.loseInput e).causePending c = true ↔ s.causePending c = true ∨ c = .queue ∨ c = .fault := by
  have h : (s.recordFaults e.station FaultSet.qlossOnly).causePending c = true ↔
      s.causePending c = true ∨ c = .fault := by
    unfold State.causePending
    rw [recordFaults_causes, if_neg (by decide)]
    exact mark_pending c .fault s.causes
  unfold State.loseInput
  rw [causePending_count, causePending_raiseCause, h]
  tauto

theorem loseInput_eq (s : State) (e : Entry) :
    s.loseInput e = ((s.recordFaults e.station FaultSet.qlossOnly).raiseCause .queue).count .queueLosses := rfl

theorem sameElsewhere_loseInput (s : State) (e : Entry) : SameElsewhere s (s.loseInput e) := by
  rw [loseInput_eq]
  exact (sameElsewhere_recordFaults s e.station FaultSet.qlossOnly).trans
    (u := s.recordFaults e.station FaultSet.qlossOnly) rfl

theorem loseInput_queue (s : State) (e : Entry) :
    (s.loseInput e).events = s.events ∧ (s.loseInput e).scanhold = s.scanhold ∧
      (s.loseInput e).counters = s.counters.bump .queueLosses := by
  obtain ⟨h1, h2, h3⟩ := recordFaults_events s e.station FaultSet.qlossOnly
  rw [loseInput_eq]
  refine ⟨?_, ?_, ?_⟩
  · rw [State.events_count, State.events_raiseCause, h1]
  · rw [State.scanhold_count, State.scanhold_raiseCause, h2]
  · rw [State.counters_count, State.counters_raiseCause, h3]

theorem loseInput_records (s : State) (e : Entry) : Records FaultSet.qlossOnly e.station s (s.loseInput e) := by
  rw [loseInput_eq]
  exact (recordFaults_records s e.station FaultSet.qlossOnly).congr_right
    (by rw [State.stations_count, State.stations_raiseCause])
    (by rw [State.circuits_count, State.circuits_raiseCause])

/-- What losing a list of events does, whatever their stations. -/
theorem loseInputs_spec (lost : List Entry) (s : State) :
    let t := lost.foldl State.loseInput s
    t.counters = { s.counters with queueLosses := raisedBy lost.length s.counters.queueLosses } ∧
    (∀ c, t.causePending c = true ↔
      s.causePending c = true ∨ ((c = .queue ∨ c = .fault) ∧ lost ≠ [])) ∧
    (∀ e ∈ lost, (t.station e.station).faults.qloss = true) ∧
    (∀ n, (s.station n).faults.qloss = true → (t.station n).faults.qloss = true) ∧
    (∀ n, (∀ e ∈ lost, e.station ≠ n) → t.station n = s.station n) ∧
    t.events = s.events ∧ t.scanhold = s.scanhold ∧ SameElsewhere s t := by
  induction lost generalizing s with
  | nil => simp [raisedBy_zero, SameElsewhere.refl]
  | cons e rest ih =>
    obtain ⟨h1, h2, h3, h4, h5, h6, h7, h8⟩ := ih (s.loseInput e)
    obtain ⟨q1, q2, q3⟩ := loseInput_queue s e
    have hq : ∀ n, (s.station n).faults.qloss = true ∨ e.station = n →
        ((s.loseInput e).station n).faults.qloss = true := by
      intro n hn
      have hr := loseInput_records s e
      by_cases hen : e.station = n
      · subst hen
        rw [hr.faults]
        simp [FaultSet.union, FaultSet.qlossOnly]
      · rw [hr.others n (Ne.symm hen)]
        exact hn.resolve_right hen
    simp only [List.foldl_cons]
    refine ⟨?_, ?_, ?_, ?_, ?_, h6.trans q1, h7.trans q2, (sameElsewhere_loseInput s e).trans h8⟩
    · rw [h1, q3, List.length_cons, raisedBy_succ]
      rfl
    · intro c
      rw [h2 c, loseInput_causes]
      constructor
      · rintro ((h | h) | h)
        · exact .inl h
        · exact .inr ⟨h, by simp⟩
        · exact .inr ⟨h.1, by simp⟩
      · rintro (h | h)
        · exact .inl (.inl h)
        · exact .inl (.inr h.1)
    · intro x hx
      rcases List.mem_cons.1 hx with rfl | hx
      · exact h4 _ (hq _ (.inr rfl))
      · exact h3 x hx
    · intro n hn
      exact h4 n (hq n (.inl hn))
    · intro n hn
      rw [h5 n (fun x hx => hn x (by simp [hx]))]
      exact (loseInput_records s e).others n (Ne.symm (hn e (by simp)))

/-- Losing events of one station alone records QLOSS on it. -/
theorem loseInputs_records (lost : List Entry) (n : StationId) (hn : ∀ e ∈ lost, e.station = n) (s : State) :
    Records (if lost = [] then FaultSet.none else FaultSet.qlossOnly) n s (lost.foldl State.loseInput s) := by
  induction lost generalizing s with
  | nil => exact records_refl n s
  | cons e rest ih =>
    have he : e.station = n := hn e (by simp)
    have h1 := loseInput_records s e
    rw [he] at h1
    have h2 := ih (fun x hx => hn x (by simp [hx])) (s.loseInput e)
    have hf := sameElsewhere_loseInput s e
    have h3 := h1.trans h2 hf.active hf.mode
    rw [if_neg (by simp)]
    rw [List.foldl_cons]
    by_cases hr : rest = []
    · rw [if_pos hr, FaultSet.union_none] at h3
      exact h3
    · rw [if_neg hr, FaultSet.union_self] at h3
      exact h3

/-! ### Offers -/

/-- What an offer of input events does, whatever their stations (R88, R89, R94). -/
theorem offerInputs_spec (s : State) (offer : List Entry) (hin : ∀ e ∈ offer, e.isInput = true) :
    let t := s.offerInputs offer
    let free := 64 - inputCount s.events
    t.events = s.events ++ offer.take free ∧
    t.scanhold = scanholdJoins (inputCount s.events) (min offer.length free) s.scanhold ∧
    t.counters = { s.counters with queueLosses := raisedBy (offer.length - free) s.counters.queueLosses } ∧
    (∀ c, t.causePending c = true ↔
      s.causePending c = true ∨ ((c = .queue ∨ c = .fault) ∧ free < offer.length)) ∧
    (∀ e ∈ offer.drop free, (t.station e.station).faults.qloss = true) ∧
    (∀ n, (∀ e ∈ offer.drop free, e.station ≠ n) → t.station n = s.station n) ∧
    SameElsewhere s t := by
  intro t free
  have ht : t = (offer.drop free).foldl State.loseInput
      { s with events := s.events ++ offer.take free
               scanhold := scanholdJoins (inputCount s.events) (min offer.length free) s.scanhold } := by
    show s.offerInputs offer = _
    unfold State.offerInputs
    rw [placeInputs_eq offer hin s]
  obtain ⟨h1, h2, h3, -, h5, h6, h7, h8⟩ := loseInputs_spec (offer.drop free)
    { s with events := s.events ++ offer.take free
             scanhold := scanholdJoins (inputCount s.events) (min offer.length free) s.scanhold }
  rw [← ht] at h1 h2 h3 h5 h6 h7 h8
  refine ⟨h6, h7, ?_, ?_, h3, h5, ?_⟩
  · rw [h1, List.length_drop]
  · intro c
    rw [h2 c]
    have : offer.drop free ≠ [] ↔ free < offer.length := by simp
    rw [this]
    rfl
  · exact SameElsewhere.trans (s := s) (u := { s with
      events := s.events ++ offer.take free
      scanhold := scanholdJoins (inputCount s.events) (min offer.length free) s.scanhold }) rfl h8

/-- An offer of which every event joins changes the queue and SCANHOLD# alone. -/
theorem offerInputs_fits (s : State) (offer : List Entry) (hin : ∀ e ∈ offer, e.isInput = true)
    (h : offer.length ≤ 64 - inputCount s.events) :
    s.offerInputs offer = { s with
      events := s.events ++ offer
      scanhold := scanholdJoins (inputCount s.events) offer.length s.scanhold } := by
  unfold State.offerInputs
  rw [placeInputs_eq offer hin s, List.drop_of_length_le h, List.take_of_length_le h, Nat.min_eq_left h]
  rfl

/-- What an offer of one station's plain events does. -/
theorem offeredBy_offerInputs (s : State) (n : StationId) (offer : List Entry)
    (hin : ∀ e ∈ offer, e.isInput = true) (hn : ∀ e ∈ offer, e.station = n)
    (hplain : ∀ l, l <+: offer → tagFirst TagSet.none l = l) :
    OfferedBy TagSet.none offer n s (s.offerInputs offer) := by
  obtain ⟨h1, h2, h3, h4, -, -, h7⟩ := offerInputs_spec s offer hin
  have hrec : Records (if offer.length ≤ 64 - inputCount s.events then FaultSet.none else FaultSet.qlossOnly) n s
      (s.offerInputs offer) := by
    have h := loseInputs_records (offer.drop (64 - inputCount s.events)) n
      (fun e he => hn e (List.mem_of_mem_drop he))
      { s with events := s.events ++ offer.take (64 - inputCount s.events)
               scanhold := scanholdJoins (inputCount s.events)
                 (min offer.length (64 - inputCount s.events)) s.scanhold }
    have e : offer.drop (64 - inputCount s.events) = [] ↔ offer.length ≤ 64 - inputCount s.events := by simp
    simp only [e] at h
    have ht : s.offerInputs offer = (offer.drop (64 - inputCount s.events)).foldl State.loseInput
        { s with events := s.events ++ offer.take (64 - inputCount s.events)
                 scanhold := scanholdJoins (inputCount s.events)
                   (min offer.length (64 - inputCount s.events)) s.scanhold } := by
      unfold State.offerInputs
      rw [placeInputs_eq offer hin s]
    rw [← ht] at h
    exact h.congr_left rfl rfl rfl rfl
  refine ⟨?_, h2, ?_, h3, ?_, h7⟩
  · rw [h1, hplain _ (List.take_prefix ..)]
  · have : (if offer = [] ∨ 64 ≤ inputCount s.events then TagSet.none.faults else FaultSet.none) =
        FaultSet.none := by split <;> rfl
    rw [this, FaultSet.none_union]
    exact hrec
  · intro c
    rw [h4 c]
    have : TagSet.none.faults.size = 0 := rfl
    simp only [this]
    tauto

/-! ### Offers made by an evaluating write (R74, R89) -/

theorem tagFirst_length (t : TagSet) (l : List Entry) : (tagFirst t l).length = l.length := by
  cases l with
  | nil => rfl
  | cons e rest => cases e <;> rfl

theorem tagFirst_take (t : TagSet) (l : List Entry) (k : Nat) : (tagFirst t l).take k = tagFirst t (l.take k) := by
  cases l with
  | nil => simp [tagFirst]
  | cons e rest => cases k <;> cases e <;> rfl

theorem tagFirst_drop (t : TagSet) (l : List Entry) (k : Nat) (hk : k ≠ 0) :
    (tagFirst t l).drop k = l.drop k := by
  obtain ⟨k, rfl⟩ := Nat.exists_eq_succ_of_ne_zero hk
  cases l with
  | nil => simp [tagFirst]
  | cons e rest => cases e <;> rfl

theorem tagFirst_inputs {t : TagSet} {l : List Entry} {n : StationId}
    (h : ∀ e ∈ l, e.isInput = true ∧ e.station = n) : ∀ e ∈ tagFirst t l, e.isInput = true ∧ e.station = n := by
  cases l with
  | nil => exact h
  | cons e rest =>
    intro x hx
    cases e with
    | input m i k u =>
      rcases List.mem_cons.1 hx with rfl | hx
      · exact h (.input m i k u) (by simp)
      · exact h x (by simp [hx])
    | marker m k => exact h x hx

/-- What a write that found `tags` faults and made `evs` events of its station leaves. -/
theorem offeredBy_offerWrite (s : State) (n : StationId) (tags : TagSet) (evs : List Entry)
    (h : ∀ e ∈ evs, ∃ i k, e = plainInput n i k) : OfferedBy tags evs n s (s.offerWrite n tags evs) := by
  have hin : ∀ e ∈ evs, e.isInput = true ∧ e.station = n := by
    intro e he
    obtain ⟨i, k, rfl⟩ := h e he
    exact ⟨rfl, rfl⟩
  unfold State.offerWrite
  by_cases hc : (!evs.isEmpty && decide (inputCount s.events < Config.eventCapacity)) = true
  · rw [if_pos hc]
    simp only [Bool.and_eq_true, Bool.not_eq_true', List.isEmpty_eq_false_iff, decide_eq_true_eq] at hc
    obtain ⟨hne, hlt⟩ := hc
    have hlt' : inputCount s.events < 64 := hlt
    have hfree : 64 - inputCount s.events ≠ 0 := by omega
    have hcase : ¬ (evs = [] ∨ 64 ≤ inputCount s.events) := by
      rintro (h | h)
      · exact hne h
      · omega
    have hin' := tagFirst_inputs (t := tags) hin
    obtain ⟨h1, h2, h3, h4, -, -, h7⟩ := offerInputs_spec s (tagFirst tags evs) (fun e he => (hin' e he).1)
    rw [tagFirst_length] at h2 h3
    have hrec : Records (if evs.length ≤ 64 - inputCount s.events then FaultSet.none else FaultSet.qlossOnly) n s
        (s.offerInputs (tagFirst tags evs)) := by
      have hh := loseInputs_records ((tagFirst tags evs).drop (64 - inputCount s.events)) n
        (fun e he => (hin' e (List.mem_of_mem_drop he)).2)
        { s with events := s.events ++ (tagFirst tags evs).take (64 - inputCount s.events)
                 scanhold := scanholdJoins (inputCount s.events)
                   (min (tagFirst tags evs).length (64 - inputCount s.events)) s.scanhold }
      have e : (tagFirst tags evs).drop (64 - inputCount s.events) = [] ↔
          evs.length ≤ 64 - inputCount s.events := by simp [tagFirst_length]
      simp only [e] at hh
      have ht : s.offerInputs (tagFirst tags evs) =
          ((tagFirst tags evs).drop (64 - inputCount s.events)).foldl State.loseInput
          { s with events := s.events ++ (tagFirst tags evs).take (64 - inputCount s.events)
                   scanhold := scanholdJoins (inputCount s.events)
                     (min (tagFirst tags evs).length (64 - inputCount s.events)) s.scanhold } := by
        unfold State.offerInputs
        rw [placeInputs_eq _ (fun e he => (hin' e he).1) s]
      rw [← ht] at hh
      exact hh.congr_left rfl rfl rfl rfl
    refine ⟨by rw [h1, tagFirst_take], h2, ?_, h3, ?_, h7⟩
    · rw [if_neg hcase, FaultSet.none_union]
      exact hrec
    · intro c
      rw [h4 c, tagFirst_length]
      simp only [hcase, false_and, or_false]
      tauto
  · rw [if_neg hc]
    have hcase : evs = [] ∨ 64 ≤ inputCount s.events := by
      simp only [Bool.and_eq_true, Bool.not_eq_true', List.isEmpty_eq_false_iff, decide_eq_true_eq, not_and,
        not_lt] at hc
      by_cases he : evs = []
      · exact .inl he
      · exact .inr (hc he)
    obtain ⟨u, hu⟩ : ∃ u, u = s.recordFaults n tags.faults := ⟨_, rfl⟩
    rw [← hu]
    have hr := recordFaults_records s n tags.faults
    rw [← hu] at hr
    have hf := sameElsewhere_recordFaults s n tags.faults
    obtain ⟨hev, hsh, hct⟩ := recordFaults_events s n tags.faults
    rw [← hu] at hf hev hsh hct
    have hplain : ∀ l, l <+: evs → tagFirst TagSet.none l = l := by
      intro l hl
      cases l with
      | nil => rfl
      | cons e rest =>
        obtain ⟨i, k, rfl⟩ := h e (hl.subset (by simp))
        rfl
    have ho := offeredBy_offerInputs u n evs (fun e he => (hin e he).1) (fun e he => (hin e he).2) hplain
    have hjoin : evs.take (64 - inputCount s.events) = [] := by
      rcases hcase with rfl | h64
      · simp
      · simp [Nat.sub_eq_zero_of_le h64]
    have hrec2 := hr.trans ho.records hf.active hf.mode
    rw [hev] at hrec2
    have hnone : (if evs = [] ∨ 64 ≤ inputCount s.events then TagSet.none.faults else FaultSet.none) =
        FaultSet.none := by split <;> rfl
    rw [hnone, FaultSet.none_union] at hrec2
    refine ⟨?_, ?_, ?_, ?_, ?_, ?_⟩
    · rw [ho.queue, hev, hjoin]; rfl
    · rw [ho.scanhold, hev, hsh]
    · rw [if_pos hcase]; exact hrec2
    · rw [ho.lossCount, hev, hct]
    · intro c
      rw [ho.causes c, hev]
      have h0 : TagSet.none.faults.size = 0 := rfl
      have h1 : u.causePending c = true ↔ s.causePending c = true ∨ (c = .fault ∧ tags.faults.size ≠ 0) := by
        unfold State.causePending
        rw [hu, recordFaults_causes]
        split
        · next h => simp [h]
        · next h => rw [mark_pending]; simp [h]
      rw [h1]
      simp only [h0, hcase, true_and]
      tauto
    · have h8 : SameElsewhere u (u.offerInputs evs) := ho.frame
      have h9 : SameElsewhere s (u.offerInputs evs) := hf.trans h8
      unfold SameElsewhere at h9
      exact h9

/-! ### Markers -/

theorem frame_offerLost (s : State) (n : StationId) : s.offerLost n = { s with events := (s.offerLost n).events } := by
  unfold State.offerLost
  split <;> rfl

theorem frame_offerReturn (s : State) (n : StationId) :
    s.offerReturn n = { s with events := (s.offerReturn n).events } := by
  unfold State.offerReturn
  split <;> rfl

/-- What a silence expiry leaves in the queue (R90). -/
theorem offerLost_events (s : State) (n : StationId) :
    (markerIn s.events n = none → (s.offerLost n).events = s.events ++ [.marker n .lost]) ∧
    (markerIn s.events n = some .returned → (s.offerLost n).events = s.events.map (convertMarker n)) ∧
    (markerIn s.events n = some .lost → (s.offerLost n).events = s.events) := by
  unfold State.offerLost
  refine ⟨?_, ?_, ?_⟩ <;> (intro h; simp only [h, State.joinMarker])

/-- What a return leaves in the queue (R91). -/
theorem offerReturn_events (s : State) (n : StationId) :
    (markerIn s.events n = none → (s.offerReturn n).events = s.events ++ [.marker n .returned]) ∧
    (markerIn s.events n = some .returned → (s.offerReturn n).events = s.events) ∧
    (markerIn s.events n = some .lost →
      (s.offerReturn n).events = s.events.filter (fun e => !decide (e = .marker n .lost))) := by
  unfold State.offerReturn
  refine ⟨?_, ?_, ?_⟩ <;> (intro h; simp only [h, State.joinMarker])

end Sys2Proof.Machine
end

