-- ==== Sys2Proof/Laws/Frames.lean ====
section
/-! SUPPORT. What a step can change: for each command the fields of the state that it may change, said once
(`exec_changes`), and for each shared operation the fields it may change. -/

namespace Sys2Proof.Machine

/-- The fields of the state. -/
inductive Field where
  | pending | rst | egrLine | passHigh | base | upData | mem | port | deskQueue
  | transfer | runCount | stations | events | scanhold | current | lastRefusal | active | standby
  | generation | circuits | hold | stepElapsed | mode | egress | amend | mapClosed | front
  | clear | command | parameter | status | causes | mask | counters | resetCause
  deriving DecidableEq, Repr

/-- Two states hold the same in a field. -/
def Agree (s t : State) : Field → Prop
  | .pending => t.pending = s.pending
  | .rst => t.rst = s.rst
  | .egrLine => t.egrLine = s.egrLine
  | .passHigh => t.passHigh = s.passHigh
  | .base => t.base = s.base
  | .upData => t.upData = s.upData
  | .mem => t.mem = s.mem
  | .port => t.port = s.port
  | .deskQueue => t.deskQueue = s.deskQueue
  | .transfer => t.transfer = s.transfer
  | .runCount => t.runCount = s.runCount
  | .stations => t.stations = s.stations
  | .events => t.events = s.events
  | .scanhold => t.scanhold = s.scanhold
  | .current => t.current = s.current
  | .lastRefusal => t.lastRefusal = s.lastRefusal
  | .active => t.active = s.active
  | .standby => t.standby = s.standby
  | .generation => t.generation = s.generation
  | .circuits => t.circuits = s.circuits
  | .hold => t.hold = s.hold
  | .stepElapsed => t.stepElapsed = s.stepElapsed
  | .mode => t.mode = s.mode
  | .egress => t.egress = s.egress
  | .amend => t.amend = s.amend
  | .mapClosed => t.mapClosed = s.mapClosed
  | .front => t.front = s.front
  | .clear => t.clear = s.clear
  | .command => t.command = s.command
  | .parameter => t.parameter = s.parameter
  | .status => t.status = s.status
  | .causes => t.causes = s.causes
  | .mask => t.mask = s.mask
  | .counters => t.counters = s.counters
  | .resetCause => t.resetCause = s.resetCause

/-- Only fields of `fs` may differ. -/
def Changes (fs : List Field) (s t : State) : Prop := ∀ f, f ∉ fs → Agree s t f

theorem Agree.refl (s : State) (f : Field) : Agree s s f := by
  cases f <;> rfl

theorem Agree.trans {s u t : State} {f : Field} (h1 : Agree s u f) (h2 : Agree u t f) : Agree s t f := by
  cases f <;> exact Eq.trans h2 h1

/-- States that agree in every field are equal: how a frame `t = { s with … }` follows from `Changes`. -/
theorem eq_of_agree {s t : State} (h : ∀ f, Agree s t f) : t = s := by
  have h0 := h .pending
  have h1 := h .rst
  have h2 := h .egrLine
  have h3 := h .passHigh
  have h4 := h .base
  have h5 := h .upData
  have h6 := h .mem
  have h7 := h .port
  have h8 := h .deskQueue
  have h9 := h .transfer
  have h10 := h .runCount
  have h11 := h .stations
  have h12 := h .events
  have h13 := h .scanhold
  have h14 := h .current
  have h15 := h .lastRefusal
  have h16 := h .active
  have h17 := h .standby
  have h18 := h .generation
  have h19 := h .circuits
  have h20 := h .hold
  have h21 := h .stepElapsed
  have h22 := h .mode
  have h23 := h .egress
  have h24 := h .amend
  have h25 := h .mapClosed
  have h26 := h .front
  have h27 := h .clear
  have h28 := h .command
  have h29 := h .parameter
  have h30 := h .status
  have h31 := h .causes
  have h32 := h .mask
  have h33 := h .counters
  have h34 := h .resetCause
  cases s
  cases t
  simp only [Agree] at *
  simp_all

theorem Changes.refl (fs : List Field) (s : State) : Changes fs s s := fun f _ => Agree.refl s f

theorem Changes.trans {fs gs : List Field} {s u t : State} (h1 : Changes fs s u) (h2 : Changes gs u t) :
    Changes (fs ++ gs) s t := by
  intro f hf
  rw [List.mem_append, not_or] at hf
  exact (h1 f hf.1).trans (h2 f hf.2)

/-- A longer list of fields says less. -/
theorem Changes.mono {fs gs : List Field} {s t : State} (h : Changes fs s t) (hs : ∀ f ∈ fs, f ∈ gs) :
    Changes gs s t := fun f hf => h f (fun hm => hf (hs f hm))

/-- Two operations, one after the other, within one list of fields. -/
theorem Changes.then {fs gs hs : List Field} {s u t : State} (h1 : Changes fs s u) (h2 : Changes gs u t)
    (h : ∀ f ∈ fs ++ gs, f ∈ hs) : Changes hs s t := (h1.trans h2).mono h

/-! ### The shared operations -/

theorem changes_raiseCause (s : State) (c : Cause) : Changes [.causes] s (s.raiseCause c) := by
  intro f hf; cases f <;> first | exact absurd (by decide) hf | rfl

theorem changes_count (s : State) (n : CounterName) : Changes [.counters] s (s.count n) := by
  intro f hf; cases f <;> first | exact absurd (by decide) hf | rfl

theorem changes_modStation (s : State) (n : StationId) (g : StationState → StationState) :
    Changes [.stations] s (s.modStation n g) := by
  intro f hf; cases f <;> first | exact absurd (by decide) hf | rfl

theorem changes_mapCircuits (s : State) (g : CircuitId → CircuitState → CircuitState) :
    Changes [.circuits] s (s.mapCircuits g) := by
  intro f hf; cases f <;> first | exact absurd (by decide) hf | rfl

theorem changes_updateLists (s : State) (touch : CircuitId → CircuitState → Bool)
    (g : CircuitId → CircuitState → List Contribution) : Changes [.circuits] s (s.updateLists touch g) :=
  changes_mapCircuits s _

theorem changes_updateSlots (s : State) (touch : CircuitId → CircuitState → Bool)
    (g : CircuitId → CircuitState → Slot) : Changes [.circuits] s (s.updateSlots touch g) :=
  changes_mapCircuits s _

theorem changes_endRamps (s : State) (p : Contribution → Bool) : Changes [.circuits] s (s.endRamps p) :=
  changes_updateLists s _ _

theorem changes_leaveByDefault (s : State) (p : Contribution → Bool) :
    Changes [.circuits] s (s.leaveByDefault p) := changes_updateLists s _ _

/-- The fields an offer or a recording may change. -/
abbrev offerFields : List Field := [.events, .scanhold, .stations, .circuits, .causes, .counters]

theorem SameElsewhere.changes {s t : State} (h : SameElsewhere s t) : Changes offerFields s t := by
  intro f hf
  unfold SameElsewhere at h
  rw [h]
  cases f <;> first | exact absurd (by decide) hf | rfl

theorem changes_recordFaults (s : State) (n : StationId) (g : FaultSet) :
    Changes [.stations, .circuits, .causes] s (s.recordFaults n g) := by
  have h := (sameElsewhere_recordFaults s n g).changes
  obtain ⟨h1, h2, h3⟩ := recordFaults_events s n g
  intro f hf
  cases f with
  | events => exact h1
  | scanhold => exact h2
  | counters => exact h3
  | _ => first | exact h _ (by decide) | simp at hf

theorem changes_joinInput (s : State) (e : Entry) : Changes [.events, .scanhold] s (s.joinInput e) := by
  intro f hf; cases f <;> first | exact absurd (by decide) hf | rfl

theorem changes_placeInputs (s : State) (offer : List Entry) :
    Changes [.events, .scanhold] s (s.placeInputs offer).1 := by
  induction offer generalizing s with
  | nil => exact Changes.refl _ s
  | cons e rest ih =>
    unfold State.placeInputs
    split
    · exact (changes_joinInput s e).then (ih _) (by decide)
    · exact ih s

theorem changes_loseInputs (lost : List Entry) (s : State) :
    Changes offerFields s (lost.foldl State.loseInput s) := by
  induction lost generalizing s with
  | nil => exact Changes.refl _ s
  | cons e rest ih =>
    exact (sameElsewhere_loseInput s e).changes.then (ih _) (by decide)

theorem changes_offerInputs (s : State) (offer : List Entry) : Changes offerFields s (s.offerInputs offer) :=
  (changes_placeInputs s offer).then (changes_loseInputs _ _) (by decide)

theorem changes_offerLost (s : State) (n : StationId) : Changes [.events] s (s.offerLost n) := by
  rw [frame_offerLost]
  intro f hf; cases f <;> first | exact absurd (by decide) hf | rfl

theorem changes_offerReturn (s : State) (n : StationId) : Changes [.events] s (s.offerReturn n) := by
  rw [frame_offerReturn]
  intro f hf; cases f <;> first | exact absurd (by decide) hf | rfl

theorem changes_offerWrite (s : State) (n : StationId) (found : TagSet) (evs : List Entry) :
    Changes offerFields s (s.offerWrite n found evs) := by
  unfold State.offerWrite
  split
  · exact changes_offerInputs s _
  · exact (changes_recordFaults s n _).then (changes_offerInputs _ _) (by decide)

theorem changes_evaluate (s : State) (n : StationId) (reference : Byte) :
    Changes offerFields s (s.evaluate n reference) := by
  have h1 : Changes offerFields s (if (s.station n).lost then s.returnStation n else s) := by
    split
    · exact (changes_modStation s n _).then (changes_offerReturn _ n) (by decide)
    · exact Changes.refl _ s
  unfold State.evaluate
  dsimp only
  generalize (if (s.station n).lost then s.returnStation n else s) = u at h1 ⊢
  have h2 : Changes offerFields u (if (u.station n).baselineRequired
      then u.baselineWrite n reference (s.station n).lost else u.ordinaryWrite n reference) := by
    split
    · exact (changes_modStation u n _).then (changes_offerWrite _ n _ _) (by decide)
    · exact (changes_modStation u n _).then (changes_offerWrite _ n _ _) (by decide)
  generalize (if (u.station n).baselineRequired
      then u.baselineWrite n reference (s.station n).lost else u.ordinaryWrite n reference) = v at h2 ⊢
  have h4 : Changes [.stations] v (v.restartSilence n) := changes_modStation v n _
  exact (h1.then h2 (hs := offerFields) (by decide)).then h4 (by decide)

theorem changes_monitorWrite (s : State) (n : StationId) (k : Nat) (lanes : Lanes) (data : Word) :
    Changes offerFields s (s.monitorWrite n k lanes data) := by
  unfold State.monitorWrite
  split
  · dsimp only
    split
    · exact (changes_modStation s n _).then (changes_evaluate _ n _) (by decide)
    · exact (changes_modStation s n _).mono (by decide)
  · exact Changes.refl _ s

/-- The fields the take of an access may change, beside those of its work. -/
theorem changes_takeAtGrant {fs : List Field} (s : State) (a : Access) (work : State → State)
    (h : ∀ t, Changes fs t (work t)) : Changes ([.port, .runCount] ++ fs) s (s.takeAtGrant a work) := by
  unfold State.takeAtGrant
  split
  · exact Changes.refl _ s
  split
  · refine Changes.trans (u := { s with port := .idle, runCount := min (s.runCount + 1) Config.runLimit }) ?_ (h _)
    intro f hf; cases f <;> first | exact absurd (by decide) hf | rfl
  · refine Changes.mono (fs := [.port]) (fun f hf => ?_) (by simp)
    cases f <;> first | exact absurd (by decide) hf | rfl

theorem changes_startRead (s : State) (addr : Nat) (lanes : Lanes) :
    Changes [.transfer] s (s.startRead addr lanes) := by
  intro f hf; cases f <;> first | exact absurd (by decide) hf | rfl

theorem changes_startWrite (s : State) (addr : Nat) (lanes : Lanes) (data : Word) :
    Changes [.mem, .transfer] s (s.startWrite addr lanes data) := by
  intro f hf; cases f <;> first | exact absurd (by decide) hf | rfl

/-! ### Commands of the control block -/

theorem changes_commandDone (s : State) (d : Nat) : Changes [.status, .causes] s (s.commandDone d) := by
  intro f hf; cases f <;> first | exact absurd (by decide) hf | rfl

theorem changes_commandRefused (s : State) (r : Reason) (d e : Nat) :
    Changes [.status, .causes] s (s.commandRefused r d e) := by
  intro f hf; cases f <;> first | exact absurd (by decide) hf | rfl

/-- The fields an offered command may change, beside those of its act. -/
theorem changes_offerCommand {fs : List Field} (s : State) (v : Word) (act : State → State)
    (h : ∀ t, Changes fs t (act t)) : Changes ([.command, .counters] ++ fs) s (s.offerCommand v act) := by
  unfold State.offerCommand
  split
  · exact Changes.refl _ s
  split
  · refine Changes.mono (fs := [.command, .counters]) (fun f hf => ?_) (by simp)
    cases f <;> first | exact absurd (by decide) hf | rfl
  · refine Changes.trans (u := { s with command := v }) ?_ (h _)
    intro f hf; cases f <;> first | exact absurd (by decide) hf | rfl

/-- A request that is accepted with a change of `fs` alone, or refused. -/
def Requests (fs : List Field) (s : State) (r : Except Reason State) : Prop := ∀ t, r = .ok t → Changes fs s t

theorem changes_settleCommand {fs : List Field} {s : State} {r : Except Reason State} (h : Requests fs s r) :
    Changes (fs ++ [.status, .causes]) s (s.settleCommand r) := by
  unfold State.settleCommand
  cases r with
  | ok t => exact (h t rfl).trans (changes_commandDone t 0)
  | error r => exact (changes_commandRefused s r 0 0).mono (by simp +contextual)

/-- The fields a change of mode may change. -/
abbrev modeFields : List Field := [.mode, .hold, .amend] ++ offerFields

theorem changes_enterEffects (s : State) (m : HouseMode) : Changes modeFields s (s.enterEffects m) := by
  cases m with
  | open_ =>
    show Changes modeFields s s.enterOpen
    have h : Changes [.hold, .amend] s { s with hold := false, amend := none } := by
      intro f hf; cases f <;> first | exact absurd (by decide) hf | rfl
    unfold State.enterOpen
    dsimp only
    split
    · exact h.then (changes_offerInputs _ _) (by decide)
    · exact h.mono (by decide)
  | night =>
    have h : Changes [.hold, .amend] s.nightClaim s.enterNight := by
      intro f hf; cases f <;> first | exact absurd (by decide) hf | rfl
    exact (changes_updateLists s _ _).then h (by decide)
  | prepare => exact Changes.refl _ s
  | performance => exact Changes.refl _ s
  | interval => exact Changes.refl _ s

theorem changes_changeMode (s : State) (m : HouseMode) : Changes modeFields s (s.changeMode m) := by
  have h : Changes [.mode] (s.enterEffects m) { s.enterEffects m with mode := m } := by
    intro f hf; cases f <;> first | exact absurd (by decide) hf | rfl
  have h2 : Changes [.circuits] { s.enterEffects m with mode := m }
      ({ s.enterEffects m with mode := m } : State).recomputeAll := changes_mapCircuits _ _
  exact ((changes_enterEffects s m).then h (hs := modeFields) (by decide)).then
    (h2.trans (changes_raiseCause _ .mode)) (by decide)

theorem requests_requestMode (s : State) (m : HouseMode) : Requests modeFields s (s.requestMode m) := by
  intro t h
  unfold State.requestMode at h
  split at h
  · cases h; exact Changes.refl _ s
  split at h
  · cases h; exact changes_changeMode s m
  · cases h

theorem requests_requestAmend (s : State) : Requests [.amend] s s.requestAmend := by
  intro t h
  unfold State.requestAmend at h
  split at h
  · cases h
    intro f hf; cases f <;> first | exact absurd (by decide) hf | rfl
  · cases h

theorem requests_requestRestore (s : State) : Requests [.egress, .causes, .circuits] s s.requestRestore := by
  intro t h
  unfold State.requestRestore at h
  split at h
  · cases h
    intro f hf; cases f <;> first | exact absurd (by decide) hf | rfl
  all_goals cases h

theorem changes_clearStation (s : State) (n : StationId) : Changes offerFields s (s.clearStation n) := by
  unfold State.clearStation
  dsimp only
  split
  · exact (changes_modStation s n _).then (changes_offerInputs _ _) (by decide)
  · exact (changes_modStation s n _).mono (by decide)

theorem changes_clearStations (l : List StationId) (s : State) :
    Changes offerFields s (l.foldl State.clearStation s) := by
  induction l generalizing s with
  | nil => exact Changes.refl _ s
  | cons n rest ih => exact (changes_clearStation s n).then (ih _) (by decide)

/-! ### Actions -/

theorem changes_finishAction (s : State) : Changes [.current] s s.finishAction := by
  intro f hf; cases f <;> first | exact absurd (by decide) hf | rfl

theorem changes_refuseAction (s : State) (a : RunningAction) (r : Reason) :
    Changes [.causes, .counters, .lastRefusal] s (s.refuseAction a r) := by
  intro f hf; cases f <;> first | exact absurd (by decide) hf | rfl

/-- The fields one action may change, beside those of its claim. -/
theorem changes_runAction {fs : List Field} (s : State) (k : ActionKind)
    (claim : RunningAction → Except Reason State) (h : ∀ a, Requests fs s (claim a)) :
    Changes ([.current, .causes, .counters, .lastRefusal] ++ fs) s (s.runAction k claim) := by
  unfold State.runAction
  split
  · exact Changes.refl _ s
  · next a _ =>
    split
    · next t ht =>
      refine (h a t ht).then (changes_finishAction t) ?_
      intro f hf
      simp only [List.mem_append, List.mem_cons, List.not_mem_nil, or_false] at hf ⊢
      tauto
    · exact (changes_refuseAction s a _).then (changes_finishAction _) (by simp +contextual)

theorem requests_claimAsks (s : State) (n : StationId) (ask : CircuitId → Option Ask) :
    Requests [.circuits] s (s.claimAsks n ask) := by
  intro t h
  unfold State.claimAsks at h
  split at h
  · cases h
  · cases h; exact changes_updateLists s _ _

theorem requests_leaveWith (s : State) (touch : CircuitId → Bool) (p : Contribution → Bool) (profile : Nat) :
    Requests [.circuits] s (.ok (s.leaveWith touch p profile)) := by
  intro t h
  cases h
  exact changes_updateLists s _ _

theorem requests_claimToggle (s : State) (a : RunningAction) : Requests [.circuits] s (s.claimToggle a) := by
  unfold State.claimToggle
  dsimp only
  split
  · exact requests_leaveWith s _ _ _
  · exact requests_claimAsks s _ _

theorem requests_claimScene (s : State) (a : RunningAction) : Requests [.circuits] s (s.claimScene a) := by
  intro t h
  unfold State.claimScene at h
  split at h
  · cases h
  · next u hu =>
    have h1 := requests_claimAsks s _ _ u hu
    split at h
    · exact h1.then (requests_leaveWith u _ _ _ t h) (by decide)
    · cases h; exact h1

theorem requests_claimMode (s : State) (a : RunningAction) : Requests modeFields s (s.claimMode a) := by
  unfold State.claimMode
  split
  · exact requests_requestMode s _
  · intro t h; cases h

theorem changes_holdAt (s : State) (e : Entry) (stage : Stage) : Changes [.current] s (s.holdAt e stage) := by
  intro f hf; cases f <;> first | exact absurd (by decide) hf | rfl

theorem changes_finishEntry (s : State) : Changes [.current] s s.finishEntry := by
  intro f hf; cases f <;> first | exact absurd (by decide) hf | rfl

theorem changes_recordTags (s : State) (e : Entry) : Changes [.stations, .circuits, .causes] s (s.recordTags e) := by
  cases e with
  | input n i k t => exact changes_recordFaults s n _
  | marker n k => exact Changes.refl _ s

theorem changes_popEntry (s : State) (e : Entry) (rest : List Entry) :
    Changes [.events, .scanhold, .current] s (s.popEntry e rest) := by
  intro f hf; cases f <;> first | exact absurd (by decide) hf | rfl

theorem changes_testSuspect (s : State) (e : Entry) : Changes [.counters, .current] s (s.testSuspect e) := by
  unfold State.testSuspect
  split
  · exact (changes_count s _).trans (changes_finishEntry _)
  · exact (changes_holdAt s e _).mono (by decide)

theorem changes_testMapAndMode (s : State) (e : Entry) : Changes [.counters, .current] s (s.testMapAndMode e) := by
  unfold State.testMapAndMode
  dsimp only
  split
  · exact (changes_finishEntry s).mono (by decide)
  split
  · exact (changes_count s _).trans (changes_finishEntry _)
  · exact (changes_holdAt s e _).mono (by decide)

theorem changes_endHeldRamps (s : State) (n : StationId) (i : InputId) (k : EventKind) :
    Changes [.circuits] s (s.endHeldRamps n i k) := by
  unfold State.endHeldRamps
  split
  · exact changes_endRamps s _
  · exact Changes.refl _ s

theorem changes_beginSequence (s : State) (n : StationId) (i : InputId) (k : EventKind) (t : TagSet) :
    Changes [.stations, .current] s (s.beginSequence n i k t) := by
  have h : Changes [.stations] s (match k.actedAfter with
      | some v => s.modStation n (fun st => st.setActed i v)
      | none => s) := by
    split
    · exact changes_modStation s n _
    · exact Changes.refl _ s
  refine h.trans ?_
  intro f hf; cases f <;> first | exact absurd (by decide) hf | rfl

/-- The fields a claim of TAKE_ENTRY may change. -/
abbrev entryFields : List Field := [.events, .scanhold, .stations, .circuits, .causes, .counters, .current]

theorem changes_entryClaim (s : State) (e : Entry) (stage : Stage) :
    Changes [.stations, .circuits, .causes, .counters, .current] s (s.entryClaim e stage) := by
  cases stage with
  | taken => exact (changes_recordTags s e).then (changes_holdAt _ e _) (by decide)
  | recorded => exact (changes_testSuspect s e).mono (by decide)
  | trusted => exact (changes_testMapAndMode s e).mono (by decide)
  | passed =>
    cases e with
    | input n i k t => exact (changes_endHeldRamps s n i k).then (changes_holdAt _ _ _) (by decide)
    | marker n k => exact Changes.refl _ s
  | rampsEnded =>
    cases e with
    | input n i k t => exact (changes_beginSequence s n i k t).mono (by decide)
    | marker n k => exact Changes.refl _ s
  | running next left => exact Changes.refl _ s

theorem changes_takeClaim (s : State) : Changes entryFields s s.takeClaim := by
  unfold State.takeClaim
  split
  · exact (changes_entryClaim s _ _).mono (by decide)
  split
  · exact Changes.refl _ s
  split
  · exact Changes.refl _ s
  · exact (changes_popEntry s _ _).mono (by decide)

theorem changes_takeClaims (claims : Nat) (s : State) : Changes entryFields s (s.takeClaims claims) := by
  induction claims generalizing s with
  | zero => exact Changes.refl _ s
  | succ k ih =>
    unfold State.takeClaims
    split
    · exact changes_takeClaim s
    · exact (changes_takeClaim s).then (ih _) (by decide)

theorem changes_lostPolicy (s : State) (n : StationId) :
    Changes [.circuits, .stations, .causes, .current] s (s.lostPolicy n) := by
  have h : Changes [.circuits, .stations] s (if (s.active.station n).releaseOnLoss then
      (s.leaveByDefault (fun x => x.ownedBy (.station n))).clearActedMaintained n else s) := by
    split
    · exact (changes_leaveByDefault s _).then (changes_modStation _ n _) (by decide)
    · exact Changes.refl _ s
  refine h.then (gs := [.causes, .current]) ?_ (by decide)
  intro f hf; cases f <;> first | exact absurd (by decide) hf | rfl

theorem changes_lostClaim (s : State) : Changes [.circuits, .stations, .causes, .current] s s.lostClaim := by
  unfold State.lostClaim
  split
  · exact (changes_endRamps s _).then (changes_holdAt _ _ _) (by decide)
  · exact changes_lostPolicy s _
  · exact Changes.refl _ s

theorem changes_lostClaims (claims : Nat) (s : State) :
    Changes [.circuits, .stations, .causes, .current] s (s.lostClaims claims) := by
  induction claims generalizing s with
  | zero => exact Changes.refl _ s
  | succ k ih => exact (changes_lostClaim s).then (ih _) (by decide)

/-! ### The ports, the publisher and the swap -/

theorem changes_acceptDesk (s : State) (d : DeskEntry) : Changes [.deskQueue, .port] s (s.acceptDesk d) := by
  unfold State.acceptDesk
  split
  · intro f hf; cases f <;> first | exact absurd (by decide) hf | rfl
  · intro f hf; cases f <;> first | exact absurd (by decide) hf | rfl

theorem changes_refuseWrite (s : State) (n : CounterName) : Changes [.counters, .causes] s (s.refuseWrite n) :=
  (changes_count s n).trans (changes_raiseCause _ .write)

theorem changes_deskClaim (s : State) (d : DeskEntry) :
    Changes [.circuits, .causes, .counters, .lastRefusal] s (s.deskClaim d) := by
  unfold State.deskClaim
  split
  · exact (changes_updateLists s _ _).mono (by decide)
  split
  · exact (changes_updateLists s _ _).mono (by decide)
  split
  · intro f hf; cases f <;> first | exact absurd (by decide) hf | rfl
  · exact (changes_updateLists s _ _).mono (by decide)

theorem changes_endUpstream (s : State) (cycle : BusCycle) : Changes [.upData] s (s.endUpstream cycle) := by
  unfold State.endUpstream
  split
  · exact Changes.refl _ s
  · intro f hf; cases f <;> first | exact absurd (by decide) hf | rfl

theorem changes_tryFlip (s : State) : Changes [.front, .counters] s s.tryFlip := by
  unfold State.tryFlip
  split
  · intro f hf; cases f <;> first | exact absurd (by decide) hf | rfl
  · exact Changes.refl _ s

theorem changes_internalWrite (s : State) (r : Requester) (addr : Nat) (data : Word) :
    Changes [.mem, .transfer, .runCount] s (s.internalWrite r addr data) := by
  intro f hf; cases f <;> first | exact absurd (by decide) hf | rfl

theorem changes_storeLoaded (s : State) (k : Nat) (data : Word) :
    Changes [.standby, .status] s (s.storeLoaded k data) := by
  unfold State.storeLoaded
  split
  · intro f hf; cases f <;> first | exact absurd (by decide) hf | rfl
  all_goals exact Changes.refl _ s

theorem changes_finishRestart (s : State) : Changes [.status, .causes] s s.finishRestart := by
  unfold State.finishRestart
  split
  · exact changes_commandDone s 0
  · exact Changes.refl _ s

theorem changes_beginFrameClear (s : State) :
    Changes [.front, .clear, .port, .upData] s s.beginFrameClear := by
  unfold State.beginFrameClear
  dsimp only
  split
  · intro f hf; cases f <;> first | exact absurd (by decide) hf | rfl
  · intro f hf; cases f <;> first | exact absurd (by decide) hf | rfl

theorem changes_joinWaiting (s : State) : Changes [.port, .deskQueue] s s.joinWaiting := by
  unfold State.joinWaiting
  split
  · split
    · intro f hf; cases f <;> first | exact absurd (by decide) hf | rfl
    · exact Changes.refl _ s
  all_goals exact Changes.refl _ s

theorem changes_deskHeadLeaves (s : State) (rest : List DeskEntry) :
    Changes [.port, .deskQueue] s (s.deskHeadLeaves rest) := by
  have h : Changes [.deskQueue] s { s with deskQueue := rest } := by
    intro f hf; cases f <;> first | exact absurd (by decide) hf | rfl
  exact h.then (changes_joinWaiting _) (by decide)

theorem changes_takeDeskClaim (s : State) :
    Changes [.port, .deskQueue, .circuits, .causes, .counters, .lastRefusal] s s.takeDeskClaim := by
  unfold State.takeDeskClaim
  split
  · next d rest _ => exact (changes_deskHeadLeaves s rest).then (changes_deskClaim _ d) (by decide)
  · exact Changes.refl _ s

theorem changes_fadeStep (s : State) : Changes [.circuits, .stepElapsed] s s.fadeStep := by
  intro f hf; cases f <;> first | exact absurd (by decide) hf | rfl

theorem changes_clearFaults (s : State) : Changes ([.command, .status] ++ offerFields) s s.clearFaults := by
  refine (changes_offerCommand (fs := offerFields ++ [.status, .causes]) s _ _ ?_).mono (by decide)
  intro t
  split
  · exact (changes_clearStation t _).trans (changes_commandDone _ 0)
  split
  · exact (changes_clearStations _ t).trans (changes_commandDone _ 0)
  · exact (changes_commandRefused t _ _ _).mono (by decide)

/-! ### What is taken between the effects of a swap -/

/-- The fields an interlude may change. -/
abbrev interludeFields : List Field := [.port, .deskQueue, .lastRefusal, .stepElapsed, .circuits, .causes, .counters]

theorem changes_interlude (s : State) (i : Interlude) : Changes interludeFields s (s.interlude i) := by
  cases i with
  | deskClaim => exact (changes_takeDeskClaim s).mono (by decide)
  | step => exact (changes_fadeStep s).mono (by decide)

theorem changes_interludes (s : State) (between : List Interlude) :
    Changes interludeFields s (s.interludes between) := by
  unfold State.interludes
  induction between generalizing s with
  | nil => exact Changes.refl _ s
  | cons i rest ih => exact (changes_interlude s i).then (ih _) (by decide)

/-- What a row divided by interludes may change: what its effects may change, and what interludes may. -/
theorem changes_runEffects {fs : List Field} (effects : List (State → State)) (gaps : List (List Interlude))
    (s : State) (h : ∀ e ∈ effects, ∀ t, Changes fs t (e t)) :
    Changes (fs ++ interludeFields) s (State.runEffects effects gaps s) := by
  induction effects generalizing gaps s with
  | nil => exact Changes.refl _ s
  | cons e rest ih =>
    have he := h e (by simp) s
    cases rest with
    | nil => exact he.mono (fun f hf => List.mem_append_left _ hf)
    | cons next rest =>
      refine (he.trans (changes_interludes (e s) (gaps.headD []))).then
        (ih gaps.tail _ (fun e' he' => h e' (by simp [he']))) (fun f hf => ?_)
      rcases List.mem_append.1 hf with hf | hf <;> exact hf

/-- The fields the effects of a swap may change. -/
abbrev swapFields : List Field :=
  [.active, .standby, .generation, .amend, .stations, .circuits, .status, .causes]

theorem changes_swapEffects (old : Bank) : ∀ e ∈ swapEffects old, ∀ t, Changes swapFields t (e t) := by
  intro e he t
  simp only [swapEffects, List.mem_cons, List.not_mem_nil, or_false] at he
  rcases he with rfl | rfl | rfl | rfl | rfl | rfl | rfl | rfl
  · intro f hf; cases f <;> first | exact absurd (by decide) hf | rfl
  · intro f hf; cases f <;> first | exact absurd (by decide) hf | rfl
  · exact (changes_endRamps t _).mono (by decide)
  · intro f hf; cases f <;> first | exact absurd (by decide) hf | rfl
  · exact (changes_leaveByDefault t _).mono (by decide)
  · exact (changes_updateSlots t _ _).mono (by decide)
  · exact (changes_mapCircuits t _).mono (by decide)
  · exact (changes_commandDone t _).mono (by decide)

theorem changes_swapBanks (s : State) (gaps : List (List Interlude)) :
    Changes (swapFields ++ interludeFields) s (s.swapBanks gaps) :=
  changes_runEffects _ gaps s (changes_swapEffects _)

/-! ### The commands -/

/-- The fields the claims of SET, TOGGLE, RAISE, LOWER, RELEASE and SCENE may change. -/
abbrev claimFields : List Field := [.current, .causes, .counters, .lastRefusal, .circuits]

/-- The fields a command may change. -/
def touched : Instr → List Field
  | .power _ => [.base, .upData, .port, .deskQueue, .transfer, .runCount, .stations, .events, .scanhold, .current,
      .lastRefusal, .active, .standby, .generation, .circuits, .hold, .stepElapsed, .mode, .egress, .amend,
      .mapClosed, .front, .clear, .command, .parameter, .status, .causes, .mask, .counters, .resetCause]
  | .lineReset => [.rst, .port, .deskQueue, .runCount, .causes, .mask, .resetCause, .status, .transfer]
  | .rstRelease _ => [.rst, .base, .stations]
  | .egrAsserted => [.egrLine, .egress, .causes]
  | .egrReleased => [.egrLine, .egress, .causes]
  | .debounceExpires => [.egress, .causes, .circuits]
  | .passFalls => [.passHigh, .front, .counters]
  | .passRises => [.passHigh]
  | .step => [.circuits, .stepElapsed]
  | .longPressExpires _ _ => offerFields
  | .silenceExpires _ => [.stations, .events]
  | .amendWindowExpires => [.amend]
  | .stationCellWrite _ => [.port, .runCount, .mem, .transfer] ++ offerFields
  | .forwardedAccess _ => [.port, .runCount, .mem, .transfer]
  | .circuitWindowRead _ => [.port, .runCount, .transfer, .upData]
  | .viewWindowRead _ => [.upData]
  | .deskWrite _ => [.deskQueue, .port, .counters, .causes]
  | .deskWriteJoins => [.port, .deskQueue]
  | .deskClaim => [.port, .deskQueue, .circuits, .causes, .counters, .lastRefusal]
  | .refusedWrite _ => [.counters, .causes]
  | .noByteAccess _ => [.upData]
  | .pendingCausesWrite _ => [.causes]
  | .enableMaskWrite _ => [.mask]
  | .controlCellWrite _ => [.parameter]
  | .unknownCommand _ => [.command, .counters, .status, .causes]
  | .commit => [.command, .counters, .status, .causes]
  | .closeMap => [.command, .counters, .mapClosed, .status, .causes]
  | .setMode => [.command, .counters, .status, .causes] ++ modeFields
  | .holdFades => [.command, .counters, .hold, .status, .causes]
  | .resumeFades => [.command, .counters, .hold, .status, .causes]
  | .amendCommand => [.command, .counters, .amend, .status, .causes]
  | .restoreEgress => [.command, .counters, .egress, .circuits, .status, .causes]
  | .clearFaults => [.command, .status] ++ offerFields
  | .clearCounters => [.command, .counters, .status, .causes]
  | .releaseDesk => [.command, .counters, .circuits, .status, .causes]
  | .restart => [.command, .counters, .active, .standby, .generation, .circuits, .mode, .egress, .amend, .hold,
      .events, .scanhold, .stations, .deskQueue, .current, .lastRefusal, .causes, .parameter, .status, .resetCause,
      .front, .clear, .port, .upData]
  | .writeBackGrant => [.circuits, .mem, .transfer, .runCount]
  | .loaderReadGrant => [.transfer, .runCount]
  | .frameClearGrant => [.mem, .transfer, .runCount, .clear]
  | .transferEnd => [.transfer, .upData, .front, .counters, .standby, .status]
  | .frameClearEnds => [.circuits, .clear, .status, .causes]
  | .validationEnds => [.status, .causes]
  | .mapSwap _ => swapFields ++ interludeFields
  | .takeEntry _ => entryFields
  | .lostMarker _ => [.circuits, .stations, .causes, .current]
  | .returnedMarker => [.causes, .current]
  | .set => claimFields
  | .toggle => claimFields
  | .raise => claimFields
  | .lower => claimFields
  | .release => claimFields
  | .scene => claimFields
  | .mode => [.current, .causes, .counters, .lastRefusal] ++ modeFields
  | .hold => [.current, .causes, .counters, .lastRefusal, .hold]
  | .resume => [.current, .causes, .counters, .lastRefusal, .hold]
  | .amend => [.current, .causes, .counters, .lastRefusal, .amend]
  | .restore => [.current, .causes, .counters, .lastRefusal, .egress, .circuits]

/-- Every command completes, and changes only the fields `touched` lists for it. -/
theorem exec_changes (c : Instr) (s : State) : ∃ t, exec c s = .next t ∧ Changes (touched c) s t := by
  cases c with
  | power straps => exact ⟨_, rfl, by intro f hf; cases f <;> first | (simp [touched] at hf; done) | rfl⟩
  | lineReset =>
    show ∃ t, execLineReset s = _ ∧ _
    unfold execLineReset
    split
    · exact ⟨_, rfl, Changes.refl _ s⟩
    · exact ⟨_, rfl, by intro f hf; cases f <;> first | (simp [touched] at hf; done) | rfl⟩
  | rstRelease straps =>
    show ∃ t, execRstRelease straps s = _ ∧ _
    unfold execRstRelease
    split
    · exact ⟨_, rfl, by intro f hf; cases f <;> first | (simp [touched] at hf; done) | rfl⟩
    · exact ⟨_, rfl, Changes.refl _ s⟩
  | egrAsserted =>
    show ∃ t, execEgrAsserted s = _ ∧ _
    unfold execEgrAsserted
    dsimp only
    split <;> exact ⟨_, rfl, by intro f hf; cases f <;> first | (simp [touched] at hf; done) | rfl⟩
  | egrReleased =>
    show ∃ t, execEgrReleased s = _ ∧ _
    unfold execEgrReleased
    dsimp only
    split <;> exact ⟨_, rfl, by intro f hf; cases f <;> first | (simp [touched] at hf; done) | rfl⟩
  | debounceExpires =>
    show ∃ t, execDebounceExpires s = _ ∧ _
    unfold execDebounceExpires
    split
    · exact ⟨_, rfl, by intro f hf; cases f <;> first | (simp [touched] at hf; done) | rfl⟩
    · exact ⟨_, rfl, Changes.refl _ s⟩
  | passFalls =>
    have h : Changes [.passHigh] s { s with passHigh := false } := by
      intro f hf; cases f <;> first | exact absurd (by decide) hf | rfl
    exact ⟨_, rfl, h.then (changes_tryFlip _) (by decide)⟩
  | passRises => exact ⟨_, rfl, by intro f hf; cases f <;> first | (simp [touched] at hf; done) | rfl⟩
  | step => exact ⟨_, rfl, changes_fadeStep s⟩
  | longPressExpires n i =>
    show ∃ t, execLongPressExpires n i s = _ ∧ _
    unfold execLongPressExpires
    split
    · exact ⟨_, rfl, (changes_modStation s n _).then (changes_offerInputs _ _) (by simp only [touched]; decide)⟩
    · exact ⟨_, rfl, Changes.refl _ s⟩
  | silenceExpires n =>
    show ∃ t, execSilenceExpires n s = _ ∧ _
    unfold execSilenceExpires
    split
    · exact ⟨_, rfl, (changes_modStation s n _).then (changes_offerLost _ n) (by simp only [touched]; decide)⟩
    · exact ⟨_, rfl, Changes.refl _ s⟩
  | amendWindowExpires =>
    show ∃ t, execAmendWindowExpires s = _ ∧ _
    unfold execAmendWindowExpires
    split
    · exact ⟨_, rfl, by intro f hf; cases f <;> first | (simp [touched] at hf; done) | rfl⟩
    · exact ⟨_, rfl, Changes.refl _ s⟩
  | stationCellWrite a =>
    show ∃ t, execStationCellWrite a s = _ ∧ _
    unfold execStationCellWrite
    split
    · refine ⟨_, rfl, (changes_takeAtGrant (fs := [.mem, .transfer] ++ offerFields) s _ _ ?_).mono
        (by simp only [touched]; decide)⟩
      intro t
      exact (changes_startWrite t _ _ _).trans (changes_monitorWrite _ _ _ _ _)
    · exact ⟨_, rfl, Changes.refl _ s⟩
  | forwardedAccess a =>
    show ∃ t, execForwardedAccess a s = _ ∧ _
    unfold execForwardedAccess
    split
    · refine ⟨_, rfl, (changes_takeAtGrant (fs := [.mem, .transfer]) s _ _ ?_).mono
        (by simp only [touched]; decide)⟩
      intro t
      cases a with
      | read r => exact (changes_startRead t _ _).mono (by decide)
      | write w => exact changes_startWrite t _ _ _
    · exact ⟨_, rfl, Changes.refl _ s⟩
  | circuitWindowRead a =>
    show ∃ t, execCircuitWindowRead a s = _ ∧ _
    unfold execCircuitWindowRead
    split
    · split
      · refine ⟨_, rfl, ?_⟩
        split
        · intro f hf; cases f <;> first | (simp [touched] at hf; done) | rfl
        · exact Changes.refl _ s
      · exact ⟨_, rfl, (changes_takeAtGrant (fs := [.transfer]) s _ _
          (fun t => changes_startRead t _ _)).mono (by simp only [touched]; decide)⟩
    · exact ⟨_, rfl, Changes.refl _ s⟩
  | viewWindowRead a =>
    show ∃ t, execViewWindowRead a s = _ ∧ _
    unfold execViewWindowRead
    split
    · refine ⟨_, rfl, ?_⟩
      split
      · intro f hf; cases f <;> first | (simp [touched] at hf; done) | rfl
      · exact Changes.refl _ s
    · exact ⟨_, rfl, Changes.refl _ s⟩
  | deskWrite a =>
    show ∃ t, execDeskWrite a s = _ ∧ _
    unfold execDeskWrite
    split
    · split
      · exact ⟨_, rfl, Changes.refl _ s⟩
      split
      · exact ⟨_, rfl, (changes_acceptDesk s _).mono (by simp only [touched]; decide)⟩
      · exact ⟨_, rfl, (changes_refuseWrite s _).mono (by simp only [touched]; decide)⟩
    · exact ⟨_, rfl, Changes.refl _ s⟩
  | deskWriteJoins => exact ⟨_, rfl, changes_joinWaiting s⟩
  | deskClaim => exact ⟨_, rfl, changes_takeDeskClaim s⟩
  | refusedWrite a =>
    show ∃ t, execRefusedWrite a s = _ ∧ _
    unfold execRefusedWrite
    split
    · refine ⟨_, rfl, ?_⟩
      split
      · exact changes_refuseWrite s _
      · exact Changes.refl _ s
    · exact ⟨_, rfl, Changes.refl _ s⟩
  | noByteAccess a =>
    show ∃ t, execNoByteAccess a s = _ ∧ _
    unfold execNoByteAccess
    split
    · split
      · exact ⟨_, rfl, by intro f hf; cases f <;> first | (simp [touched] at hf; done) | rfl⟩
      · exact ⟨_, rfl, Changes.refl _ s⟩
    · exact ⟨_, rfl, Changes.refl _ s⟩
  | pendingCausesWrite v =>
    refine ⟨_, rfl, ?_⟩
    split
    · intro f hf; cases f <;> first | (simp [touched] at hf; done) | rfl
    · exact Changes.refl _ s
  | enableMaskWrite v =>
    refine ⟨_, rfl, ?_⟩
    split
    · intro f hf; cases f <;> first | (simp [touched] at hf; done) | rfl
    · exact Changes.refl _ s
  | controlCellWrite v =>
    refine ⟨_, rfl, ?_⟩
    split
    · intro f hf; cases f <;> first | (simp [touched] at hf; done) | rfl
    · exact Changes.refl _ s
  | unknownCommand v =>
    refine ⟨_, rfl, ?_⟩
    split
    · exact (changes_offerCommand s v _ (fun t => changes_commandRefused t _ _ _)).mono
        (by simp only [touched]; decide)
    · exact Changes.refl _ s
  | commit =>
    refine ⟨_, rfl, (changes_offerCommand (fs := [.status, .causes]) s _ _ ?_).mono (by decide)⟩
    intro t
    unfold State.takeCommit
    split
    · exact changes_commandRefused t _ _ _
    split
    · exact changes_commandRefused t _ _ _
    · intro f hf; cases f <;> first | exact absurd (by decide) hf | rfl
  | closeMap =>
    exact ⟨_, rfl, (changes_offerCommand (fs := [.mapClosed, .status, .causes]) s _ _
      (fun t => by intro f hf; cases f <;> first | exact absurd (by decide) hf | rfl)).mono (by decide)⟩
  | setMode =>
    refine ⟨_, rfl, (changes_offerCommand (fs := modeFields ++ [.status, .causes]) s _ _ ?_).mono (by decide)⟩
    intro t
    split
    · exact changes_settleCommand (requests_requestMode t _)
    · exact (changes_commandRefused t _ _ _).mono (by decide)
  | holdFades =>
    exact ⟨_, rfl, (changes_offerCommand (fs := [.hold, .status, .causes]) s _ _
      (fun t => by intro f hf; cases f <;> first | exact absurd (by decide) hf | rfl)).mono (by decide)⟩
  | resumeFades =>
    exact ⟨_, rfl, (changes_offerCommand (fs := [.hold, .status, .causes]) s _ _
      (fun t => by intro f hf; cases f <;> first | exact absurd (by decide) hf | rfl)).mono (by decide)⟩
  | amendCommand =>
    exact ⟨_, rfl, (changes_offerCommand s _ _
      (fun t => changes_settleCommand (requests_requestAmend t))).mono (by decide)⟩
  | restoreEgress =>
    exact ⟨_, rfl, (changes_offerCommand s _ _
      (fun t => changes_settleCommand (requests_requestRestore t))).mono (by decide)⟩
  | clearFaults => exact ⟨_, rfl, changes_clearFaults s⟩
  | clearCounters =>
    exact ⟨_, rfl, (changes_offerCommand (fs := [.counters, .status, .causes]) s _ _
      (fun t => by intro f hf; cases f <;> first | exact absurd (by decide) hf | rfl)).mono (by decide)⟩
  | releaseDesk =>
    refine ⟨_, rfl, (changes_offerCommand (fs := [.circuits, .status, .causes]) s _ _ ?_).mono (by decide)⟩
    intro t
    split
    · exact (changes_updateLists t _ _).trans (changes_commandDone _ 0)
    split
    · exact (changes_updateLists t _ _).trans (changes_commandDone _ 0)
    · exact (changes_commandRefused t _ _ _).mono (by decide)
  | restart =>
    refine ⟨_, rfl, (changes_offerCommand (fs := [.active, .standby, .generation, .circuits, .mode, .egress, .amend,
      .hold, .events, .scanhold, .stations, .deskQueue, .current, .lastRefusal, .counters, .causes, .parameter,
      .status, .resetCause] ++ [.front, .clear, .port, .upData]) s _ _ ?_).mono (by decide)⟩
    intro t
    refine Changes.trans (u := t.restarted) ?_ (changes_beginFrameClear _)
    intro f hf; cases f <;> first | exact absurd (by decide) hf | rfl
  | writeBackGrant =>
    show ∃ t, execWriteBackGrant s = _ ∧ _
    unfold execWriteBackGrant
    split
    · split
      · next c _ =>
        have h : Changes [.circuits] s (s.modCircuit c (fun cs => cs.clearOwed s.back)) := by
          intro f hf; cases f <;> first | exact absurd (by decide) hf | rfl
        exact ⟨_, rfl, h.then (changes_internalWrite _ _ _ _) (by decide)⟩
      · exact ⟨_, rfl, Changes.refl _ s⟩
    · exact ⟨_, rfl, Changes.refl _ s⟩
  | loaderReadGrant =>
    show ∃ t, execLoaderReadGrant s = _ ∧ _
    unfold execLoaderReadGrant
    split
    · split
      · exact ⟨_, rfl, by intro f hf; cases f <;> first | (simp [touched] at hf; done) | rfl⟩
      · exact ⟨_, rfl, Changes.refl _ s⟩
    all_goals exact ⟨_, rfl, Changes.refl _ s⟩
  | frameClearGrant =>
    show ∃ t, execFrameClearGrant s = _ ∧ _
    unfold execFrameClearGrant
    split
    · split
      · exact ⟨_, rfl, by intro f hf; cases f <;> first | (simp [touched] at hf; done) | rfl⟩
      · exact ⟨_, rfl, Changes.refl _ s⟩
    · exact ⟨_, rfl, Changes.refl _ s⟩
  | transferEnd =>
    have h : Changes [.transfer] s { s with transfer := none } := by
      intro f hf; cases f <;> first | exact absurd (by decide) hf | rfl
    show ∃ t, execTransferEnd s = _ ∧ _
    unfold execTransferEnd
    split
    · exact ⟨_, rfl, Changes.refl _ s⟩
    dsimp only
    split
    · exact ⟨_, rfl, h.then (changes_endUpstream _ _) (by decide)⟩
    · exact ⟨_, rfl, h.then (changes_endUpstream _ _) (by decide)⟩
    · exact ⟨_, rfl, h.then (changes_tryFlip _) (by decide)⟩
    · refine ⟨_, rfl, ?_⟩
      split
      · exact h.mono (by decide)
      · exact h.then (changes_storeLoaded _ _ _) (by decide)
    · exact ⟨_, rfl, h.mono (by decide)⟩
  | frameClearEnds =>
    show ∃ t, execFrameClearEnds s = _ ∧ _
    unfold execFrameClearEnds
    split
    · have h : Changes [.circuits, .clear] s { s.mapCircuits (fun _ cs => cs.remark) with clear := none } := by
        intro f hf; cases f <;> first | exact absurd (by decide) hf | rfl
      exact ⟨_, rfl, h.then (changes_finishRestart _) (by decide)⟩
    · exact ⟨_, rfl, Changes.refl _ s⟩
  | validationEnds =>
    show ∃ t, execValidationEnds s = _ ∧ _
    unfold execValidationEnds
    split
    · split
      · exact ⟨_, rfl, changes_commandRefused s _ _ _⟩
      · exact ⟨_, rfl, by intro f hf; cases f <;> first | (simp [touched] at hf; done) | rfl⟩
    · exact ⟨_, rfl, Changes.refl _ s⟩
  | mapSwap gaps =>
    show ∃ t, execMapSwap s gaps = _ ∧ _
    unfold execMapSwap
    split
    · refine ⟨_, rfl, ?_⟩
      split
      · exact (changes_commandRefused s _ _ _).mono (by simp only [touched]; decide)
      · exact changes_swapBanks s gaps
    · exact ⟨_, rfl, Changes.refl _ s⟩
  | takeEntry claims => exact ⟨_, rfl, changes_takeClaims claims s⟩
  | lostMarker claims => exact ⟨_, rfl, changes_lostClaims claims s⟩
  | returnedMarker =>
    show ∃ t, execReturnedMarker s = _ ∧ _
    unfold execReturnedMarker
    split
    · exact ⟨_, rfl, by intro f hf; cases f <;> first | (simp [touched] at hf; done) | rfl⟩
    all_goals exact ⟨_, rfl, Changes.refl _ s⟩
  | set => exact ⟨_, rfl, changes_runAction s _ _ (fun a => requests_claimAsks s _ _)⟩
  | toggle => exact ⟨_, rfl, changes_runAction s _ _ (fun a => requests_claimToggle s a)⟩
  | raise => exact ⟨_, rfl, changes_runAction s _ _ (fun a => requests_claimAsks s _ _)⟩
  | lower => exact ⟨_, rfl, changes_runAction s _ _ (fun a => requests_claimAsks s _ _)⟩
  | release => exact ⟨_, rfl, changes_runAction s _ _ (fun a => requests_leaveWith s _ _ _)⟩
  | scene => exact ⟨_, rfl, changes_runAction s _ _ (fun a => requests_claimScene s a)⟩
  | mode => exact ⟨_, rfl, changes_runAction s _ _ (fun a => requests_claimMode s a)⟩
  | hold =>
    exact ⟨_, rfl, changes_runAction (fs := [.hold]) s _ _ (fun a t h => by
      cases h
      intro f hf; cases f <;> first | exact absurd (by decide) hf | rfl)⟩
  | resume =>
    exact ⟨_, rfl, changes_runAction (fs := [.hold]) s _ _ (fun a t h => by
      cases h
      intro f hf; cases f <;> first | exact absurd (by decide) hf | rfl)⟩
  | amend => exact ⟨_, rfl, changes_runAction s _ _ (fun a => requests_requestAmend s)⟩
  | restore =>
    exact ⟨_, rfl, (changes_runAction s _ _ (fun a => requests_requestRestore s)).mono (by decide)⟩

/-- What a command leaves alone, for a next state it answers. -/
theorem changes_of_exec {c : Instr} {s t : State} (h : exec c s = .next t) : Changes (touched c) s t := by
  obtain ⟨u, hu, hc⟩ := exec_changes c s
  rw [h] at hu
  cases hu
  exact hc

end Sys2Proof.Machine
end

