-- ==== Sys2Proof/Laws/Circuits.lean ====
section
/-! SUPPORT. What a step can do to a circuit, said once: each command but the two that empty the store
(POWER and RESTART), the two that pay or re-mark frames, and MAP_SWAP moves a circuit by claims, each followed by
the recompute (`exec_moves`). The claims that a row is divided into are taken one after the other. -/

namespace Sys2Proof.Machine

/-! ### One claim on one circuit -/

/-- A list that a claim may give a circuit: it stays in order, it grows by at most `new`, and where `G` holds its
contributions stay in range. -/
structure ListFrom (G : Prop) (new : Nat) (x : CircuitState) (l : List Contribution) : Prop where
  ok : ListOk x.list → ListOk l
  length : l.length ≤ x.list.length + new
  levels : G → x.level ≤ 1000 → (∀ y ∈ x.list, ContributionOk y) → ∀ y ∈ l, ContributionOk y

/-- An egress slot that a claim may give a circuit: where `G` holds it stays in range, and where `A` holds an ACTIVE
slot stays ACTIVE. -/
structure SlotFrom (G A : Prop) (x : CircuitState) (slot : Slot) : Prop where
  range : G → x.level ≤ 1000 → (∀ y ∈ x.list, ContributionOk y) → SlotOk x.slot → SlotOk slot
  active : A → x.slot = .active → slot = .active

/-- A circuit is given a list and a slot, and is recomputed, or is left unrecomputed where they give it the effective
level it had. -/
def Moves (G A : Prop) (new : Nat) (b : Bank) (mode : HouseMode) (c : CircuitId) (x y : CircuitState) : Prop :=
  ∃ l slot, ListFrom G new x l ∧ SlotFrom G A x slot ∧
    (y = recompute b mode c { x with list := l, slot := slot } ∨
      (y = { x with list := l, slot := slot } ∧ effectiveLevel b mode c y = effectiveLevel b mode c x))

/-- Every circuit is moved by claims that take no record from the pool, under one map and mode. -/
structure MovesAll (G A : Prop) (s t : State) : Prop where
  active : t.active = s.active
  mode : t.mode = s.mode
  circuits : ∀ c, Relation.ReflTransGen (Moves G A 0 s.active s.mode c) (s.circuit c) (t.circuit c)

theorem MovesAll.of_same {G A : Prop} {s t : State} (ha : t.active = s.active) (hm : t.mode = s.mode)
    (hc : t.circuits = s.circuits) : MovesAll G A s t :=
  ⟨ha, hm, fun c => by unfold State.circuit; rw [hc]⟩

theorem MovesAll.refl (G A : Prop) (s : State) : MovesAll G A s s := .of_same rfl rfl rfl

theorem MovesAll.trans {G A : Prop} {s u t : State} (h1 : MovesAll G A s u) (h2 : MovesAll G A u t) : MovesAll G A s t := by
  refine ⟨h2.active.trans h1.active, h2.mode.trans h1.mode, fun c => (h1.circuits c).trans ?_⟩
  have := h2.circuits c
  rw [h1.active, h1.mode] at this
  exact this

/-- What leaves circuits, map and mode alone moves no circuit. -/
theorem MovesAll.of_changes {G A : Prop} {s t : State} {fs : List Field} (h : Changes fs s t)
    (h1 : Field.active ∉ fs) (h2 : Field.mode ∉ fs) (h3 : Field.circuits ∉ fs) : MovesAll G A s t :=
  .of_same (h .active h1) (h .mode h2) (h .circuits h3)

/-- A claim on lists moves circuits. -/
theorem movesAll_updateLists {G A : Prop} (s : State) {touch : CircuitId → CircuitState → Bool}
    {f : CircuitId → CircuitState → List Contribution}
    (h : ∀ c, touch c (s.circuit c) = true → ListFrom G 0 (s.circuit c) (f c (s.circuit c))) :
    MovesAll G A s (s.updateLists touch f) := by
  refine ⟨rfl, rfl, fun c => ?_⟩
  rw [circuit_updateLists]
  split
  · next ht => exact .single ⟨_, _, h c ht, ⟨fun _ _ _ hs => hs, fun _ hs => hs⟩, .inl rfl⟩
  · exact .refl

/-- A claim on slots moves circuits. -/
theorem movesAll_updateSlots {G A : Prop} (s : State) {touch : CircuitId → CircuitState → Bool}
    {f : CircuitId → CircuitState → Slot}
    (h : ∀ c, touch c (s.circuit c) = true → SlotFrom G A (s.circuit c) (f c (s.circuit c))) :
    MovesAll G A s (s.updateSlots touch f) := by
  refine ⟨rfl, rfl, fun c => ?_⟩
  rw [circuit_updateSlots]
  split
  · next ht => exact .single ⟨_, _, ⟨fun h => h, Nat.le_refl _, fun _ _ h => h⟩, h c ht, .inl rfl⟩
  · exact .refl

/-! ### The kinds of claim on a list -/

theorem leavingRate_range {time : Nat} (h0 : time ≠ 0) : 1 ≤ leavingRate time ∧ leavingRate time ≤ 250 := by
  unfold leavingRate ceilDiv
  constructor
  · rw [Nat.one_le_div_iff (by omega)]
    omega
  · rw [← Nat.lt_add_one_iff, Nat.div_lt_iff_lt_mul (by omega)]
    omega

theorem ContributionOk.endRamp {x : Contribution} (h : ContributionOk x) : ContributionOk x.endRamp := by
  unfold Contribution.endRamp
  split
  · exact ⟨h.current, h.current, rfl⟩
  · exact h

theorem listFrom_ends {G : Prop} (x : CircuitState) (p : Contribution → Bool) :
    ListFrom G 0 x (endRampsWhere p x.list) := by
  refine ⟨fun h => h.endRampsWhere p, (endRampsWhere_length p x.list).le, fun _ _ h y hy => ?_⟩
  obtain ⟨z, hz, rfl⟩ := List.mem_map.1 hy
  split
  · exact (h z hz).endRamp
  · exact h z hz

theorem listFrom_leaves {G : Prop} (x : CircuitState) (p : Contribution → Bool) (time : Nat) :
    ListFrom G 0 x (leaveWhere p time x.list) := by
  refine ⟨fun h => h.leaveWhere p time, leaveWhere_length_le p time x.list, fun _ _ h y hy => ?_⟩
  unfold leaveWhere at hy
  split at hy
  · exact h y (List.mem_filter.1 hy).1
  · next h0 =>
    obtain ⟨z, hz, rfl⟩ := List.mem_map.1 hy
    split
    · exact ⟨(h z hz).current, (h z hz).target, leavingRate_range h0⟩
    · exact h z hz

theorem listFrom_removes {G : Prop} (x : CircuitState) (p : Contribution → Bool) :
    ListFrom G 0 x (removeWhere p x.list) :=
  ⟨fun h => h.removeWhere p, List.length_filter_le .., fun _ _ h y hy => h y (List.mem_filter.1 hy).1⟩

/-- What a claim asks for is in range: levels up to 1000, fade times up to 600 (R4, R50, R53). -/
def AskOk : Ask → Prop
  | .snap level => level ≤ 1000
  | .fade level time => level ≤ 1000 ∧ time ≠ 0 ∧ time ≤ 600
  | .ramp target time _ => (target = 0 ∨ target = 1000) ∧ time ≤ 600

theorem askOk_askLevel {level time : Nat} (hl : level ≤ 1000) (ht : time ≤ 600) : AskOk (askLevel level time) := by
  unfold askLevel
  split
  · exact hl
  · next h => exact ⟨hl, h, ht⟩

theorem fadeLevel_zero (start target steps : Nat) : fadeLevel start target 0 steps = start := by
  unfold fadeLevel
  simp

theorem rampSteps_range {time d : Nat} (ht : time ≤ 600) (hd : d ≤ 1000) :
    1 ≤ rampSteps time d ∧ rampSteps time d ≤ 2400 := by
  unfold rampSteps ceilDiv
  have h : 4 * time * d ≤ 4 * 600 * 1000 := Nat.mul_le_mul (Nat.mul_le_mul_left 4 ht) hd
  omega

theorem contributionOk_begin {x : Contribution} {start : Nat} {ask : Ask} (hs : start ≤ 1000) (ha : AskOk ask) :
    ContributionOk (x.begin start ask) := by
  cases ask with
  | snap level => exact ⟨ha, ha, rfl⟩
  | fade level time =>
    obtain ⟨h1, h2, h3⟩ := ha
    refine ⟨hs, h1, ?_⟩
    show _ ∧ _ ∧ _ ∧ _ ∧ start = fadeLevel start level 0 (4 * time)
    exact ⟨hs, by omega, by omega, by omega, (fadeLevel_zero ..).symm⟩
  | ramp target time i =>
    obtain ⟨h1, h2⟩ := ha
    have ht : target ≤ 1000 := by omega
    simp only [Contribution.begin]
    by_cases h : start = target
    · rw [if_pos h]
      exact ⟨hs, ht, h⟩
    · rw [if_neg h]
      have hr := rampSteps_range (time := time) (d := distance start target) h2 (by unfold distance; omega)
      refine ⟨hs, ht, ?_⟩
      show _ ∧ _ ∧ _ ∧ _ ∧ _ ∧ start = fadeLevel start target 0 _
      exact ⟨hs, by omega, hr.1, hr.2, h1, (fadeLevel_zero ..).symm⟩

theorem startLevel_le {x : CircuitState} {o : Owner} (hl : x.level ≤ 1000) (h : ∀ y ∈ x.list, ContributionOk y) :
    startLevel x o ≤ 1000 := by
  unfold startLevel
  split
  · next y hy => exact (h y (ownContribution_some hy).1).current
  · exact hl

/-- The owner's other places are empty once its record is taken out. -/
theorem holds_filter_not (l : List Contribution) (o : Owner) :
    holds (l.filter (fun y => !decide (y.owner = o))) o = false := by
  rw [holds_false_iff]
  intro x hx
  simpa using (List.mem_filter.1 hx).2

theorem length_filter_not {l : List Contribution} {o : Owner} (h : holds l o = true) :
    (l.filter (fun y => !decide (y.owner = o))).length < l.length := by
  obtain ⟨x, hx, ho⟩ := holds_true_iff.1 h
  exact List.length_filter_lt_length_iff_exists.2 ⟨x, hx, by simp [ho]⟩

/-- A create needs a record and room for it; a renewal needs neither (R27, R29, R30). -/
theorem listFrom_places {G : Prop} {x : CircuitState} {o : Owner} {k : Cls} {ask : Ask}
    (hroom : holds x.list o = false → x.list.length < Config.listCapacity) (hask : G → AskOk ask) :
    ListFrom G (if holds x.list o then 0 else 1) x (createOrRenew o k ask x) := by
  obtain ⟨base, ho, -, e⟩ := createOrRenew_eq o k ask x
  have hlen : (x.list.filter (fun y => !decide (y.owner = o))).length < Config.listCapacity ∨
      Config.listCapacity < x.list.length := by
    cases h : holds x.list o with
    | true =>
      have := length_filter_not h
      omega
    | false => rw [filter_not_owner_of_not_holds h]; exact .inl (hroom h)
  refine ⟨fun h => ?_, ?_, fun g hl h y hy => ?_⟩
  · rw [e]
    have hshort := h.short
    refine (h.sublist List.filter_sublist).insertFront ?_ (by omega)
    rw [begin_owner, ho]
    exact holds_filter_not _ _
  · rw [e, insertFront_length]
    cases h : holds x.list o with
    | true =>
      have := length_filter_not h
      simp only [if_true]
      omega
    | false =>
      rw [filter_not_owner_of_not_holds h]
      simp
  · rw [e, mem_insertFront] at hy
    rcases hy with rfl | hy
    · exact contributionOk_begin (startLevel_le hl h) (hask g)
    · exact h y (List.mem_filter.1 hy).1

/-! ### The shared operations -/

theorem movesAll_endRamps {G A : Prop} (s : State) (p : Contribution → Bool) : MovesAll G A s (s.endRamps p) :=
  movesAll_updateLists s (fun _ _ => listFrom_ends _ p)

theorem movesAll_leaveByDefault {G A : Prop} (s : State) (p : Contribution → Bool) :
    MovesAll G A s (s.leaveByDefault p) :=
  movesAll_updateLists s (fun _ _ => listFrom_leaves _ p _)

theorem movesAll_leaveWith {G A : Prop} (s : State) (touch : CircuitId → Bool) (p : Contribution → Bool)
    (profile : Nat) : MovesAll G A s (s.leaveWith touch p profile) :=
  movesAll_updateLists s (fun _ _ => listFrom_leaves _ p _)

theorem movesAll_removeOwned {G A : Prop} (s : State) (p : Owner → Bool) : MovesAll G A s (s.removeOwned p) :=
  movesAll_updateLists s (fun _ _ => listFrom_removes _ _)

theorem movesAll_latchSlots {G A : Prop} (s : State) : MovesAll G A s s.latchSlots :=
  movesAll_updateSlots s (fun _ _ => ⟨fun _ _ _ _ => trivial, fun _ _ => rfl⟩)

theorem slotOk_slotLeaving (time : Nat) : SlotOk (slotLeaving time) := by
  unfold slotLeaving
  split
  · trivial
  · next h => exact ⟨Nat.le_refl _, leavingRate_range h⟩

theorem movesAll_restoreSlots {G : Prop} (s : State) : MovesAll G False s s.restoreSlots :=
  movesAll_updateSlots s (fun _ _ => ⟨fun _ _ _ _ => slotOk_slotLeaving _, fun h => h.elim⟩)

theorem movesAll_recordFaults {G A : Prop} (s : State) (n : StationId) (f : FaultSet) :
    MovesAll G A s (s.recordFaults n f) := by
  unfold State.recordFaults
  split
  · exact .refl G A s
  · dsimp only
    split
    · unfold State.setSuspect
      refine MovesAll.trans ?_ (movesAll_endRamps _ _)
      exact .of_same rfl rfl rfl
    · exact .of_same rfl rfl rfl

theorem movesAll_loseInputs {G A : Prop} (lost : List Entry) (s : State) :
    MovesAll G A s (lost.foldl State.loseInput s) := by
  induction lost generalizing s with
  | nil => exact .refl G A s
  | cons e rest ih =>
    have h : MovesAll G A s (s.loseInput e) := by
      rw [loseInput_eq]
      refine (movesAll_recordFaults s e.station FaultSet.qlossOnly).trans ?_
      generalize s.recordFaults e.station FaultSet.qlossOnly = u
      exact .of_same rfl rfl rfl
    exact h.trans (ih (s.loseInput e))

theorem movesAll_offerInputs {G A : Prop} (s : State) (offer : List Entry) : MovesAll G A s (s.offerInputs offer) :=
  (MovesAll.of_changes (changes_placeInputs s offer) (by decide) (by decide) (by decide)).trans
    (movesAll_loseInputs _ _)

theorem movesAll_offerWrite {G A : Prop} (s : State) (n : StationId) (found : TagSet) (evs : List Entry) :
    MovesAll G A s (s.offerWrite n found evs) := by
  unfold State.offerWrite
  split
  · exact movesAll_offerInputs s _
  · exact (movesAll_recordFaults s n _).trans (movesAll_offerInputs _ _)

theorem movesAll_modStation {G A : Prop} (s : State) (n : StationId) (g : StationState → StationState) :
    MovesAll G A s (s.modStation n g) := .of_same rfl rfl rfl

theorem movesAll_evaluate {G A : Prop} (s : State) (n : StationId) (reference : Byte) :
    MovesAll G A s (s.evaluate n reference) := by
  have h1 : MovesAll G A s (if (s.station n).lost then s.returnStation n else s) := by
    split
    · exact .of_changes ((changes_modStation s n _).trans (changes_offerReturn _ n)) (by decide) (by decide)
        (by decide)
    · exact .refl G A s
  unfold State.evaluate
  dsimp only
  generalize (if (s.station n).lost then s.returnStation n else s) = u at h1 ⊢
  have h2 : MovesAll G A u (if (u.station n).baselineRequired
      then u.baselineWrite n reference (s.station n).lost else u.ordinaryWrite n reference) := by
    split
    · exact (movesAll_modStation u n _).trans (movesAll_offerWrite _ n _ _)
    · exact (movesAll_modStation u n _).trans (movesAll_offerWrite _ n _ _)
  exact (h1.trans h2).trans (movesAll_modStation _ n _)

theorem movesAll_monitorWrite {G A : Prop} (s : State) (n : StationId) (k : Nat) (lanes : Lanes) (data : Word) :
    MovesAll G A s (s.monitorWrite n k lanes data) := by
  unfold State.monitorWrite
  split
  · dsimp only
    split
    · exact (movesAll_modStation s n _).trans (movesAll_evaluate _ n _)
    · exact movesAll_modStation s n _
  · exact .refl G A s

theorem movesAll_clearStation {G A : Prop} (s : State) (n : StationId) : MovesAll G A s (s.clearStation n) := by
  unfold State.clearStation
  dsimp only
  split
  · exact (movesAll_modStation s n _).trans (movesAll_offerInputs _ _)
  · exact movesAll_modStation s n _

theorem movesAll_clearStations {G A : Prop} (l : List StationId) (s : State) :
    MovesAll G A s (l.foldl State.clearStation s) := by
  induction l generalizing s with
  | nil => exact .refl G A s
  | cons n rest ih => exact (movesAll_clearStation s n).trans (ih _)

theorem movesAll_entryClaim {G A : Prop} (s : State) (e : Entry) (stage : Stage) :
    MovesAll G A s (s.entryClaim e stage) := by
  cases stage with
  | taken =>
    have h : MovesAll G A s (s.recordTags e) := by
      cases e with
      | input n i k t => exact movesAll_recordFaults s n _
      | marker n k => exact .refl G A s
    exact h.trans (.of_same rfl rfl rfl)
  | recorded => exact .of_changes (changes_testSuspect s e) (by decide) (by decide) (by decide)
  | trusted => exact .of_changes (changes_testMapAndMode s e) (by decide) (by decide) (by decide)
  | passed =>
    cases e with
    | input n i k t =>
      have h : MovesAll G A s (s.endHeldRamps n i k) := by
        unfold State.endHeldRamps
        split
        · exact movesAll_endRamps s _
        · exact .refl G A s
      exact h.trans (.of_same rfl rfl rfl)
    | marker n k => exact .refl G A s
  | rampsEnded =>
    cases e with
    | input n i k t => exact .of_changes (changes_beginSequence s n i k t) (by decide) (by decide) (by decide)
    | marker n k => exact .refl G A s
  | running next left => exact .refl G A s

theorem movesAll_takeClaim {G A : Prop} (s : State) : MovesAll G A s s.takeClaim := by
  unfold State.takeClaim
  split
  · exact movesAll_entryClaim s _ _
  split
  · exact .refl G A s
  split
  · exact .refl G A s
  · exact .of_same rfl rfl rfl

theorem movesAll_takeClaims {G A : Prop} (claims : Nat) (s : State) : MovesAll G A s (s.takeClaims claims) := by
  induction claims generalizing s with
  | zero => exact .refl G A s
  | succ k ih =>
    unfold State.takeClaims
    split
    · exact movesAll_takeClaim s
    · exact (movesAll_takeClaim s).trans (ih _)

theorem movesAll_lostPolicy {G A : Prop} (s : State) (n : StationId) : MovesAll G A s (s.lostPolicy n) := by
  refine MovesAll.trans (u := if (s.active.station n).releaseOnLoss then
      (s.leaveByDefault (fun x => x.ownedBy (.station n))).clearActedMaintained n
    else s) ?_ (.of_same rfl rfl rfl)
  split
  · exact (movesAll_leaveByDefault _ _).trans (.of_same rfl rfl rfl)
  · exact .refl G A _

theorem movesAll_lostClaims {G A : Prop} (claims : Nat) (s : State) : MovesAll G A s (s.lostClaims claims) := by
  have h : ∀ u : State, MovesAll G A u u.lostClaim := by
    intro u
    unfold State.lostClaim
    split
    · exact (movesAll_endRamps u _).trans (.of_same rfl rfl rfl)
    · exact movesAll_lostPolicy u _
    · exact .refl G A u
  induction claims generalizing s with
  | zero => exact .refl G A s
  | succ k ih => exact (h s).trans (ih _)

end Sys2Proof.Machine
end

