-- ==== Sys2Proof/Laws/Maps.lean ====
section
/-! SUPPORT. What a map that has passed validation (R19 to R22) holds, and that levels taken from it and from
contributions in range are in range. -/

namespace Sys2Proof.Machine

/-- Every record of every table of a valid map passes its check. -/
theorem valid_table {b : Bank} (hv : b.valid = true) {table size : Nat} {check : Nat → Bool}
    (h : (table, size, check) ∈ validationTables b) {k : Nat} (hk : k < size) : check k = true := by
  unfold Bank.valid Bank.firstFault at hv
  rw [Option.isNone_iff_eq_none, List.findSome?_eq_none_iff] at hv
  have h1 := hv _ h
  rw [Option.map_eq_none_iff, List.find?_eq_none] at h1
  simpa using h1 k (List.mem_range.2 hk)

/-- Fade times of profiles are at most 600 (R20). -/
theorem profileTime_le {b : Bank} (hv : b.valid = true) {p : Nat} (hp : p < 8) : b.profileTime p ≤ 600 := by
  have := valid_table hv (table := 1) (size := 8) (check := b.profileOk) (by simp [validationTables]) hp
  simpa [Bank.profileOk] using this

/-- A circuit record of a valid map (R20). -/
theorem circuitRec_ok {b : Bank} (hv : b.valid = true) (c : CircuitId) :
    (b.circuit c).zone ≤ 15 ∧ (b.circuit c).profile ≤ 7 ∧ (b.circuit c).rest ≤ 1000 := by
  have := valid_table hv (table := 3) (size := 384) (check := b.circuitOk) (by simp [validationTables]) c.isLt
  unfold Bank.circuitOk Config.fullLevel at this
  simp only [Bool.and_eq_true, decide_eq_true_eq] at this
  exact ⟨this.1.1.1, this.1.2, this.2⟩

theorem defaultTime_le {b : Bank} (hv : b.valid = true) (c : CircuitId) : b.defaultTime c ≤ 600 :=
  profileTime_le hv (by have := (circuitRec_ok hv c).2.1; omega)

theorem operandTime_le {b : Bank} (hv : b.valid = true) (p : Nat) (c : CircuitId) : b.operandTime p c ≤ 600 := by
  unfold Bank.operandTime
  split
  · next h => exact profileTime_le hv h
  · exact defaultTime_le hv c

/-- An action of a valid map is one of the eleven kinds, with its fields in range (R20, R21). -/
theorem actionRec_ok {b : Bank} (hv : b.valid = true) {k : Nat} (hk : k < 2048) :
    ∃ kind, kindOfCode (b.actionRec k).kindCode = some kind ∧ b.actionFieldsOk (b.actionRec k) kind = true := by
  have := valid_table hv (table := 9) (size := 2048) (check := b.actionOk) (by simp [validationTables]) hk
  unfold Bank.actionOk at this
  split at this
  · next kind h => exact ⟨kind, h, this⟩
  · cases this

/-- The level of a SET or TOGGLE is at most 1000 (R12). -/
theorem actionLevel_le {b : Bank} (hv : b.valid = true) {k : Nat} (hk : k < 2048)
    (hkind : kindOfCode (b.actionRec k).kindCode = some .set ∨ kindOfCode (b.actionRec k).kindCode = some .toggle) :
    (b.actionRec k).level ≤ 1000 := by
  obtain ⟨kind, h1, h2⟩ := actionRec_ok hv hk
  rcases hkind with h | h <;>
  · rw [h1] at h
    cases h
    unfold Bank.actionFieldsOk Config.fullLevel at h2
    simp only [Bool.and_eq_true, decide_eq_true_eq] at h2
    exact h2.1.1.1.2

/-- A scene of a valid map gives levels up to 1000 (R16, R20, R21). -/
theorem sceneLevel_le {b : Bank} (hv : b.valid = true) {k : Nat} (hk : k < 2048)
    (hkind : kindOfCode (b.actionRec k).kindCode = some .scene) {c : CircuitId} {v : Nat}
    (h : b.sceneLevel (b.actionRec k).param c = some v) : v ≤ 1000 := by
  obtain ⟨kind, h1, h2⟩ := actionRec_ok hv hk
  rw [hkind] at h1
  cases h1
  unfold Bank.actionFieldsOk at h2
  simp only [Bool.and_eq_true, decide_eq_true_eq] at h2
  have h3 : (b.actionRec k).param ≤ 31 := h2.1.2
  have h4 := valid_table hv (table := 8) (size := 32) (check := b.sceneOk) (by simp [validationTables])
    (k := (b.actionRec k).param) (by omega)
  unfold Bank.sceneOk at h4
  simp only [Bool.and_eq_true, decide_eq_true_eq, Bool.or_eq_true, beq_iff_eq] at h4
  unfold Bank.sceneLevel at h
  rw [Option.map_eq_some_iff] at h
  obtain ⟨item, hi, rfl⟩ := h
  have hm := List.mem_of_find?_eq_some hi
  unfold Bank.sceneItems at hm
  rw [List.mem_map] at hm
  obtain ⟨j, hj, rfl⟩ := hm
  have hj' := List.mem_range.1 hj
  rcases h4.2 with h5 | h5
  · omega
  · have h6 := valid_table hv (table := 6) (size := 1024) (check := b.itemOk) (by simp [validationTables])
      (k := (b.sceneRec (b.actionRec k).param).start + j) (by omega)
    unfold Bank.itemOk Config.fullLevel at h6
    simp only [Bool.and_eq_true, decide_eq_true_eq] at h6
    exact h6.2

/-- The sequences of a binding of a valid map lie in the action pool (R10, R21). -/
theorem sequence_le {b : Bank} (hv : b.valid = true) (n : StationId) (i : InputId) (k : EventKind) :
    ((b.binding n i).sequence k).start + ((b.binding n i).sequence k).count ≤ 2048 := by
  have := valid_table hv (table := 10) (size := 1792) (check := b.bindingOk) (by simp [validationTables])
    (k := n.val * 16 + i.val) (by have := n.isLt; have := i.isLt; omega)
  unfold Bank.bindingOk at this
  simp only [Bool.and_eq_true] at this
  have hp : (b.binding n i).press.ok = true := this.1.1.1.1.1.1.1.2
  have hr : (b.binding n i).release.ok = true := this.1.1.1.1.1.1.2
  have hl : (b.binding n i).long.ok = true := this.1.1.1.1.1.2
  unfold SeqRef.ok at hp hr hl
  simp only [Bool.and_eq_true, decide_eq_true_eq] at hp hr hl
  cases k <;> simp only [BindingRec.sequence] <;> omega

/-! ### Levels -/

theorem highestLevel_le {l : List Contribution} (h : ∀ x ∈ l, x.current ≤ 1000) : highestLevel l ≤ 1000 := by
  induction l with
  | nil => exact Nat.zero_le _
  | cons x rest ih =>
    have h1 := h x (by simp)
    have h2 := ih (fun y hy => h y (by simp [hy]))
    show max x.current (highestLevel rest) ≤ 1000
    omega

theorem mem_of_winners {l : List Contribution} {x : Contribution} (h : x ∈ winners l) : x ∈ l := by
  unfold winners at h
  dsimp only at h
  repeat' split at h
  all_goals exact (List.mem_filter.1 h).1

theorem capTo_le (ceiling : Option Nat) (level : Nat) : capTo ceiling level ≤ level := by
  unfold capTo
  split
  · exact Nat.min_le_left ..
  · exact Nat.le_refl _

/-- A list of levels in range gives a level in range. -/
theorem listLevel_le {b : Bank} (hv : b.valid = true) (mode : HouseMode) (c : CircuitId) {l : List Contribution}
    (h : ∀ x ∈ l, x.current ≤ 1000) : listLevel b mode c l ≤ 1000 := by
  unfold listLevel
  split
  · exact (circuitRec_ok hv c).2.2
  · next x xs hw =>
    refine (capTo_le ..).trans ?_
    have hx : ∀ y ∈ x :: xs, y.current ≤ 1000 := fun y hy => h y (mem_of_winners (hw ▸ hy))
    unfold mergedLevel
    split
    · exact hx x (by simp)
    · exact highestLevel_le hx

/-- The effective level of a circuit in range is in range (R41). -/
theorem effectiveLevel_le {b : Bank} (hv : b.valid = true) (mode : HouseMode) (c : CircuitId) {cs : CircuitState}
    (h : ∀ x ∈ cs.list, x.current ≤ 1000) (hs : SlotOk cs.slot) : effectiveLevel b mode c cs ≤ 1000 := by
  unfold effectiveLevel
  split
  · exact Nat.le_refl _
  · next level rate e => rw [e] at hs; exact hs.1
  · exact listLevel_le hv mode c h

end Sys2Proof.Machine
end

