-- ==== Sys2Proof/Laws/Memory.lean ====
section
/-! SUPPORT. Sparse data, SRAM and banks: what a read gives after a write, and that every write keeps the
canonical form. -/

namespace Sys2Proof.Machine

section Sparse

variable {α : Type} [DecidableEq α] {dflt : Nat → α}

omit [DecidableEq α] in
/-- A key below every listed key reads as unlisted. -/
theorem sparseRead_of_below {m : List (Nat × α)} {k : Nat} (h : ∀ p ∈ m, k < p.1) :
    sparseRead dflt m k = dflt k := by
  induction m with
  | nil => rfl
  | cons p rest ih =>
    obtain ⟨j, v⟩ := p
    have hj : k < j := h (j, v) (by simp)
    simp only [sparseRead, Nat.ne_of_lt hj, if_false]
    exact ih (fun q hq => h q (by simp [hq]))

/-- The parts of the canonical form of a list with a first entry. -/
theorem sparseWf_cons {j : Nat} {v : α} {rest : List (Nat × α)} :
    sparseWf dflt ((j, v) :: rest) = true ↔
      v ≠ dflt j ∧ (∀ p ∈ rest, j < p.1) ∧ sparseWf dflt rest = true := by
  simp only [sparseWf, Bool.and_eq_true, Bool.not_eq_true', decide_eq_false_iff_not, List.all_eq_true,
    decide_eq_true_eq]
  tauto

/-- A write leaves every other key as it was. -/
theorem sparseRead_sparseWrite_ne {m : List (Nat × α)} {a k : Nat} {v : α} (h : k ≠ a) :
    sparseRead dflt (sparseWrite dflt m a v) k = sparseRead dflt m k := by
  induction m with
  | nil =>
    unfold sparseWrite
    split <;> simp [sparseRead, h]
  | cons p rest ih =>
    obtain ⟨j, w⟩ := p
    unfold sparseWrite
    split
    · split <;> simp [sparseRead, h]
    · split
      · next hk => subst hk; split <;> simp [sparseRead, h]
      · simp [sparseRead, ih]

/-- The written key reads back. -/
theorem sparseRead_sparseWrite_self {m : List (Nat × α)} {a : Nat} {v : α} (hm : sparseWf dflt m = true) :
    sparseRead dflt (sparseWrite dflt m a v) a = v := by
  induction m with
  | nil =>
    unfold sparseWrite
    split
    · next e => simp [sparseRead, e]
    · simp [sparseRead]
  | cons p rest ih =>
    obtain ⟨j, w⟩ := p
    obtain ⟨_, hlt, hrest⟩ := sparseWf_cons.mp hm
    unfold sparseWrite
    split
    · next hj =>
      split
      · next e =>
        rw [sparseRead_of_below, e]
        intro q hq
        rcases List.mem_cons.mp hq with rfl | hq
        · exact hj
        · exact Nat.lt_trans hj (hlt q hq)
      · simp [sparseRead]
    · split
      · next hk =>
        subst hk
        split
        · next e => rw [sparseRead_of_below hlt, e]
        · simp [sparseRead]
      · next hk => simp [sparseRead, hk, ih hrest]

/-- Every key of the data after a write is the written one or was there before. -/
theorem mem_sparseWrite {m : List (Nat × α)} {a : Nat} {v : α} {p : Nat × α}
    (h : p ∈ sparseWrite dflt m a v) : p.1 = a ∨ p ∈ m := by
  induction m with
  | nil =>
    unfold sparseWrite at h
    split at h
    · simp at h
    · simp at h; left; rw [h]
  | cons q rest ih =>
    obtain ⟨j, w⟩ := q
    unfold sparseWrite at h
    split at h
    · split at h
      · exact Or.inr h
      · rcases List.mem_cons.mp h with rfl | h
        · exact Or.inl rfl
        · exact Or.inr h
    · split at h
      · split at h
        · exact Or.inr (List.mem_cons_of_mem _ h)
        · rcases List.mem_cons.mp h with rfl | h
          · exact Or.inl rfl
          · exact Or.inr (List.mem_cons_of_mem _ h)
      · rcases List.mem_cons.mp h with rfl | h
        · exact Or.inr (by simp)
        · rcases ih h with h | h
          · exact Or.inl h
          · exact Or.inr (List.mem_cons_of_mem _ h)

/-- A write keeps the canonical form. -/
theorem sparseWf_sparseWrite {m : List (Nat × α)} {a : Nat} {v : α} (hm : sparseWf dflt m = true) :
    sparseWf dflt (sparseWrite dflt m a v) = true := by
  induction m with
  | nil =>
    unfold sparseWrite
    split
    · rfl
    · next e => exact sparseWf_cons.mpr ⟨e, by simp, rfl⟩
  | cons p rest ih =>
    obtain ⟨j, w⟩ := p
    obtain ⟨hw, hlt, hrest⟩ := sparseWf_cons.mp hm
    unfold sparseWrite
    split
    · next hj =>
      split
      · exact hm
      · next e =>
        refine sparseWf_cons.mpr ⟨e, ?_, hm⟩
        intro q hq
        rcases List.mem_cons.mp hq with rfl | hq
        · exact hj
        · exact Nat.lt_trans hj (hlt q hq)
    · next hj =>
      split
      · next hk =>
        subst hk
        split
        · exact hrest
        · next e => exact sparseWf_cons.mpr ⟨e, hlt, hrest⟩
      · next hk =>
        refine sparseWf_cons.mpr ⟨hw, ?_, ih hrest⟩
        intro q hq
        rcases mem_sparseWrite hq with e | hq
        · omega
        · exact hlt q hq

/-- Two lists in canonical form that read alike are equal: the form is canonical. -/
theorem sparse_ext {m l : List (Nat × α)} (hm : sparseWf dflt m = true) (hl : sparseWf dflt l = true)
    (h : ∀ k, sparseRead dflt m k = sparseRead dflt l k) : m = l := by
  induction m generalizing l with
  | nil =>
    cases l with
    | nil => rfl
    | cons q rest =>
      obtain ⟨j, w⟩ := q
      obtain ⟨hw, _, _⟩ := sparseWf_cons.mp hl
      have := h j
      simp [sparseRead] at this
      exact absurd this.symm hw
  | cons p rest ih =>
    obtain ⟨j, v⟩ := p
    obtain ⟨hv, hlt, hrest⟩ := sparseWf_cons.mp hm
    cases l with
    | nil =>
      have := h j
      simp [sparseRead] at this
      exact absurd this hv
    | cons q rest' =>
      obtain ⟨j', v'⟩ := q
      obtain ⟨hv', hlt', hrest'⟩ := sparseWf_cons.mp hl
      have hjj : j = j' := by
        rcases Nat.lt_trichotomy j j' with hlt2 | e | hgt
        · exfalso
          have h1 := h j
          rw [sparseRead_of_below (m := (j', v') :: rest')] at h1
          · simp [sparseRead] at h1; exact hv h1
          · intro q hq
            rcases List.mem_cons.mp hq with rfl | hq
            · exact hlt2
            · exact Nat.lt_trans hlt2 (hlt' q hq)
        · exact e
        · exfalso
          have h1 := h j'
          rw [sparseRead_of_below (m := (j, v) :: rest)] at h1
          · simp [sparseRead] at h1; exact hv' h1.symm
          · intro q hq
            rcases List.mem_cons.mp hq with rfl | hq
            · exact hgt
            · exact Nat.lt_trans hgt (hlt q hq)
      subst hjj
      have hvv : v = v' := by have := h j; simpa [sparseRead] using this
      subst hvv
      congr 1
      apply ih hrest hrest'
      intro k
      by_cases hk : k = j
      · subst hk
        rw [sparseRead_of_below hlt, sparseRead_of_below hlt']
      · have := h k
        simpa [sparseRead, hk] using this

end Sparse

/-! ### SRAM -/

/-- The two parts of the canonical form of SRAM. -/
theorem Memory.wf_iff {m : List Host.Cell} :
    Memory.wf m = true ↔ sparseWf unwritten m = true ∧ ∀ p ∈ m, p.1 < 2 ^ 20 := by
  simp only [Memory.wf, Bool.and_eq_true, List.all_eq_true, decide_eq_true_eq]

/-- SRAM with nothing listed is in canonical form. -/
theorem Memory.wf_nil : Memory.wf [] = true := rfl

/-- A write of one byte keeps the canonical form. -/
theorem Memory.wf_write {m : List Host.Cell} {a : Nat} {v : Byte} (hm : Memory.wf m = true) (ha : a < 2 ^ 20) :
    Memory.wf (Memory.write m a v) = true := by
  obtain ⟨h1, h2⟩ := Memory.wf_iff.mp hm
  refine Memory.wf_iff.mpr ⟨sparseWf_sparseWrite h1, ?_⟩
  intro p hp
  rcases mem_sparseWrite hp with e | hp
  · omega
  · exact h2 p hp

/-- A byte that is not written reads as before. -/
theorem Memory.read_write_ne {m : List Host.Cell} {a k : Nat} {v : Byte} (h : k ≠ a) :
    Memory.read (Memory.write m a v) k = Memory.read m k :=
  sparseRead_sparseWrite_ne h

/-- The written byte reads back. -/
theorem Memory.read_write_self {m : List Host.Cell} {a : Nat} {v : Byte} (hm : Memory.wf m = true) :
    Memory.read (Memory.write m a v) a = v :=
  sparseRead_sparseWrite_self (Memory.wf_iff.mp hm).1

/-- A write of a cell keeps the canonical form. -/
theorem Memory.wf_writeCell {m : List Host.Cell} {a : Nat} {lanes : Lanes} {w : Word} (hm : Memory.wf m = true)
    (ha : a + 1 < 2 ^ 20) : Memory.wf (Memory.writeCell m a lanes w) = true := by
  obtain ⟨lo, hi⟩ := lanes
  have ha' : a < 2 ^ 20 := by omega
  cases lo <;> cases hi <;> simp only [Memory.writeCell, if_true, if_false, Bool.false_eq_true]
  · exact hm
  · exact Memory.wf_write hm ha
  · exact Memory.wf_write hm ha'
  · exact Memory.wf_write (Memory.wf_write hm ha') ha

/-- A byte outside a written cell reads as before. -/
theorem Memory.read_writeCell_ne {m : List Host.Cell} {a k : Nat} {lanes : Lanes} {w : Word}
    (h1 : k ≠ a) (h2 : k ≠ a + 1) : Memory.read (Memory.writeCell m a lanes w) k = Memory.read m k := by
  obtain ⟨lo, hi⟩ := lanes
  cases lo <;> cases hi <;> simp [Memory.writeCell, Memory.read_write_ne, h1, h2]

/-- The even byte of a written cell. -/
theorem Memory.read_writeCell_lo {m : List Host.Cell} {a : Nat} {lanes : Lanes} {w : Word}
    (hm : Memory.wf m = true) :
    Memory.read (Memory.writeCell m a lanes w) a = if lanes.lo then loByte w else Memory.read m a := by
  obtain ⟨lo, hi⟩ := lanes
  cases lo <;> cases hi <;> simp [Memory.writeCell, Memory.read_write_ne, Memory.read_write_self hm]

/-- The odd byte of a written cell. -/
theorem Memory.read_writeCell_hi {m : List Host.Cell} {a : Nat} {lanes : Lanes} {w : Word}
    (hm : Memory.wf m = true) (ha : a < 2 ^ 20) :
    Memory.read (Memory.writeCell m a lanes w) (a + 1) = if lanes.hi then hiByte w else Memory.read m (a + 1) := by
  obtain ⟨lo, hi⟩ := lanes
  cases lo <;> cases hi <;>
    simp [Memory.writeCell, Memory.read_write_ne, Memory.read_write_self hm,
      Memory.read_write_self (Memory.wf_write hm ha)]

/-! ### Words and bytes -/

/-- The bits of a cell made of two bytes. -/
theorem getLsbD_wordOf (lo hi : Byte) (i : Nat) :
    (wordOf lo hi).getLsbD i = if i < 8 then lo.getLsbD i else hi.getLsbD (i - 8) := by
  have h : (wordOf lo hi).getLsbD i = (hi ++ lo : BitVec (8 + 8)).getLsbD i := rfl
  rw [h, BitVec.getLsbD_append]

theorem loByte_wordOf (lo hi : Byte) : loByte (wordOf lo hi) = lo := by
  apply BitVec.eq_of_getLsbD_eq
  intro i hi'
  simp [loByte, getLsbD_wordOf, hi']

theorem hiByte_wordOf (lo hi : Byte) : hiByte (wordOf lo hi) = hi := by
  apply BitVec.eq_of_getLsbD_eq
  intro i hi'
  simp only [hiByte, BitVec.getLsbD_setWidth, BitVec.getLsbD_ushiftRight, getLsbD_wordOf, hi', decide_true,
    Bool.true_and, show ¬ (8 + i < 8) by omega, if_false, show 8 + i - 8 = i by omega]

/-- A cell is its two bytes. -/
theorem wordOf_bytes (w : Word) : wordOf (loByte w) (hiByte w) = w := by
  apply BitVec.eq_of_getLsbD_eq
  intro i hi
  rw [getLsbD_wordOf]
  split
  · next h => simp [loByte, h]
  · next h =>
    simp only [hiByte, BitVec.getLsbD_setWidth, BitVec.getLsbD_ushiftRight, show i - 8 < 8 by omega,
      show 8 + (i - 8) = i by omega, decide_true, Bool.true_and]

/-- A cell that is written whole holds the written word. -/
theorem Memory.readCell_writeCell_both {m : List Host.Cell} {a : Nat} {w : Word} (hm : Memory.wf m = true)
    (ha : a < 2 ^ 20) : Memory.readCell (Memory.writeCell m a Lanes.both w) a = w := by
  simp only [Memory.readCell, Memory.read_writeCell_lo hm, Memory.read_writeCell_hi hm ha, Lanes.both, if_true]
  exact wordOf_bytes w

/-! ### Banks -/

/-- The empty map is in canonical form. -/
theorem Bank.wf_empty : Bank.wf Bank.empty = true := rfl

/-- Storing a cell keeps a bank in canonical form. -/
theorem Bank.wf_setCell {b : Bank} {o : Nat} {v : Word} (hb : Bank.wf b = true) :
    Bank.wf (b.setCell o v) = true := sparseWf_sparseWrite hb

/-- The stored cell reads back. -/
theorem Bank.cell_setCell_self {b : Bank} {o : Nat} {v : Word} (hb : Bank.wf b = true) :
    (b.setCell o v).cell o = v := sparseRead_sparseWrite_self hb

/-- Another cell reads as before. -/
theorem Bank.cell_setCell_ne {b : Bank} {o k : Nat} {v : Word} (h : k ≠ o) :
    (b.setCell o v).cell k = b.cell k := sparseRead_sparseWrite_ne h

end Sys2Proof.Machine
end

