-- ==== Sys2Proof/Laws/Moves.lean ====
section
/-! SUPPORT. The claims that take records from the pool, the step of the Fade Engine, and, command by command, what
each does to the circuits (`exec_moves`). -/

namespace Sys2Proof.Machine

/-! ### Sums over circuits -/

theorem cells_eq_map (s : State) : s.circuits.cells = allCircuits.map s.circuit := by
  apply List.ext_getElem
  · simp [allCircuits, s.circuits.length_eq]
  · intro i h1 h2
    simp [allCircuits, State.circuit, Table.get]

theorem recordsInLists_eq (s : State) :
    s.recordsInLists = (allCircuits.map (fun c => (s.circuit c).list.length)).sum := by
  unfold State.recordsInLists
  rw [cells_eq_map, List.map_map]
  rfl

/-- Records grow by no more than the circuits' lists do. -/
theorem recordsInLists_le {s t : State} {g : CircuitId → Nat}
    (h : ∀ c, (t.circuit c).list.length ≤ (s.circuit c).list.length + g c) :
    t.recordsInLists ≤ s.recordsInLists + (allCircuits.map g).sum := by
  rw [recordsInLists_eq, recordsInLists_eq]
  induction allCircuits with
  | nil => exact Nat.le_refl _
  | cons c rest ih =>
    have := h c
    simp only [List.map_cons, List.sum_cons]
    omega

theorem sum_map_zero (l : List CircuitId) : (l.map (fun _ => 0)).sum = 0 := by
  induction l with
  | nil => rfl
  | cons c rest ih =>
    rw [List.map_cons, List.sum_cons, ih]

theorem sum_map_ite (l : List CircuitId) (p : CircuitId → Bool) :
    (l.map (fun c => if p c then 1 else 0)).sum = l.countP p := by
  induction l with
  | nil => rfl
  | cons c rest ih =>
    rw [List.map_cons, List.sum_cons, ih, List.countP_cons]
    omega

/-! ### Claims that take records from the pool -/

/-- Circuits are moved by claims of which the first may take records, no more in all than the pool has free. -/
structure TakesRecords (G A : Prop) (s t : State) : Prop where
  active : t.active = s.active
  mode : t.mode = s.mode
  circuits : ∃ g : CircuitId → Nat,
    ((allCircuits.map g).sum = 0 ∨ s.recordsInLists + (allCircuits.map g).sum ≤ Config.poolSize) ∧
    ∀ c, ∃ y, (y = s.circuit c ∨ Moves G A (g c) s.active s.mode c (s.circuit c) y) ∧
      Relation.ReflTransGen (Moves G A 0 s.active s.mode c) y (t.circuit c)

theorem MovesAll.takes {G A : Prop} {s t : State} (h : MovesAll G A s t) : TakesRecords G A s t :=
  ⟨h.active, h.mode, fun _ => 0, .inl (sum_map_zero _), fun c => ⟨_, .inl rfl, h.circuits c⟩⟩

theorem TakesRecords.trans {G A : Prop} {s u t : State} (h1 : TakesRecords G A s u) (h2 : MovesAll G A u t) :
    TakesRecords G A s t := by
  obtain ⟨g, hg, hc⟩ := h1.circuits
  refine ⟨h2.active.trans h1.active, h2.mode.trans h1.mode, g, hg, fun c => ?_⟩
  obtain ⟨y, hy, hr⟩ := hc c
  have := h2.circuits c
  rw [h1.active, h1.mode] at this
  exact ⟨y, hy, hr.trans this⟩

theorem TakesRecords.of_left {G A : Prop} {s u t : State} (h1 : MovesAll G A s u) (hc : u.circuits = s.circuits)
    (h2 : TakesRecords G A u t) : TakesRecords G A s t := by
  have e : ∀ c, u.circuit c = s.circuit c := fun c => by unfold State.circuit; rw [hc]
  have er : u.recordsInLists = s.recordsInLists := by unfold State.recordsInLists; rw [hc]
  obtain ⟨g, hg, h⟩ := h2.circuits
  refine ⟨h2.active.trans h1.active, h2.mode.trans h1.mode, g, er ▸ hg, fun c => ?_⟩
  have := h c
  rw [e c, h1.active, h1.mode] at this
  exact this

/-- The creates and renewals that the resource check lets through (R110, R111). -/
theorem takes_applyAsks {G A : Prop} {s : State} {o : Owner} {k : Cls} {ask : CircuitId → Option Ask}
    (hcheck : s.resourceCheck o ask = none) (hask : G → ∀ c a, ask c = some a → AskOk a) :
    TakesRecords G A s (s.applyAsks o k ask) := by
  unfold State.resourceCheck at hcheck
  split at hcheck
  · cases hcheck
  split at hcheck
  · cases hcheck
  next hpool hfull =>
  have hsum := sum_map_ite allCircuits (s.needsRecord o ask)
  refine ⟨rfl, rfl, fun c => if s.needsRecord o ask c then 1 else 0, ?_, fun c => ?_⟩
  · rw [hsum]
    unfold State.recordsNeeded State.poolFree at hpool
    unfold State.recordsInLists
    omega
  · cases ha : ask c with
    | none => exact ⟨_, .inl rfl, by rw [unasked_applyAsks ha]⟩
    | some a =>
      refine ⟨_, .inr ⟨createOrRenew o k a (s.circuit c), _, ?_, ⟨fun _ _ _ h => h, fun _ h => h⟩, .inl rfl⟩, ?_⟩
      · have hn : (if s.needsRecord o ask c then 1 else 0) = if holds (s.circuit c).list o then 0 else 1 := by
          unfold State.needsRecord
          rw [ha]
          cases holds (s.circuit c).list o <;> rfl
        show ListFrom G (if s.needsRecord o ask c then 1 else 0) _ _
        rw [hn]
        refine listFrom_places (fun hh => ?_) (fun g => hask g c a ha)
        have := List.any_eq_false.1 (Bool.eq_false_iff.2 hfull) c (List.mem_finRange c)
        unfold State.needsRecord at this
        rw [ha, hh] at this
        simpa using this
      · unfold State.applyAsks
        rw [circuit_updateLists, if_pos (by rw [ha]; rfl)]
        simp only [ha]
        exact .refl

theorem takes_claimAsks {G A : Prop} {s t : State} {n : StationId} {ask : CircuitId → Option Ask}
    (h : s.claimAsks n ask = .ok t) (hask : G → ∀ c a, ask c = some a → AskOk a) : TakesRecords G A s t := by
  unfold State.claimAsks at h
  split at h
  · cases h
  · next hc =>
    cases h
    exact takes_applyAsks hc hask

theorem askOk_asksLevel {b : Bank} (hv : b.valid = true) {a : ActionRec} (hl : a.level ≤ 1000) (c : CircuitId)
    (ask : Ask) (h : b.asksLevel a c = some ask) : AskOk ask := by
  unfold Bank.asksLevel at h
  split at h
  · cases h
    exact askOk_askLevel hl (operandTime_le hv _ c)
  · cases h

theorem askOk_asksRamp {b : Bank} (hv : b.valid = true) {a : ActionRec} {target : Nat}
    (ht : target = 0 ∨ target = 1000) (i : InputId) (c : CircuitId) (ask : Ask)
    (h : b.asksRamp a target i c = some ask) : AskOk ask := by
  unfold Bank.asksRamp at h
  split at h
  · cases h
    exact ⟨ht, operandTime_le hv _ c⟩
  · cases h

/-- A desk claim takes at most one record, on its own circuit (R34, R35). -/
theorem takes_deskClaim {G A : Prop} (s : State) (d : DeskEntry) (hd : G → d.value ≠ 0xFFFF → d.value.toNat ≤ 1000) :
    TakesRecords G A s (s.deskClaim d) := by
  unfold State.deskClaim
  split
  · exact (movesAll_updateLists s (fun _ _ => listFrom_removes _ _)).takes
  next hv =>
  have hone : ∀ (g : Nat), (g = 0 ∨ s.recordsInLists + g ≤ Config.poolSize) →
      (if holds (s.circuit d.circuit).list (.desk d.tag) then 0 else 1) = g →
      (holds (s.circuit d.circuit).list (.desk d.tag) = false →
        (s.circuit d.circuit).list.length < Config.listCapacity) →
      TakesRecords G A s (s.deskLevel d.tag d.circuit d.value.toNat) := by
    intro g hg hgrow hroom
    refine ⟨rfl, rfl, fun c => if decide (c = d.circuit) then g else 0, ?_, fun c => ?_⟩
    · have : (allCircuits.map (fun c => if decide (c = d.circuit) then g else 0)).sum = g := by
        have h1 : (allCircuits.map (fun c => if decide (c = d.circuit) then g else 0)).sum =
            g * allCircuits.countP (fun c => decide (c = d.circuit)) := by
          induction allCircuits with
          | nil => rfl
          | cons c rest ih =>
            rw [List.map_cons, List.sum_cons, ih, List.countP_cons, Nat.mul_add]
            split <;> omega
        have h2 : allCircuits.countP (fun c => decide (c = d.circuit)) = 1 := by
          have := List.count_eq_one_of_mem (List.nodup_finRange 384) (List.mem_finRange d.circuit)
          rw [List.count_eq_countP] at this
          rw [← this]
          apply List.countP_congr
          intro x _
          simp
        rw [h1, h2, Nat.mul_one]
      rw [this]
      exact hg
    · unfold State.deskLevel
      rw [circuit_updateLists]
      by_cases hc : c = d.circuit
      · subst hc
        refine ⟨_, .inr ⟨createOrRenew (.desk d.tag) .desk (.snap d.value.toNat) (s.circuit d.circuit), _, ?_,
          ⟨fun _ _ _ h => h, fun _ h => h⟩, .inl rfl⟩, ?_⟩
        · have e : (if decide (d.circuit = d.circuit) then g else 0) = g := by simp
          show ListFrom G (if decide (d.circuit = d.circuit) then g else 0) _ _
          rw [e, ← hgrow]
          exact listFrom_places hroom (fun hG => hd hG hv)
        · rw [if_pos (by simp)]
      · exact ⟨_, .inl rfl, by rw [if_neg (by simpa using hc)]⟩
  split
  · next hh => exact hone 0 (.inl rfl) (by rw [hh]; rfl) (fun h => by rw [hh] at h; cases h)
  next hh =>
  have hh' : holds (s.circuit d.circuit).list (.desk d.tag) = false := by simpa using hh
  split
  · exact (MovesAll.of_same (G := G) (A := A) (s := s) (t := s.refuseDeskClaim d.tag _) rfl rfl rfl).takes
  · next hr =>
    unfold State.deskRefusal at hr
    split at hr
    · cases hr
    next hpool =>
    split at hr
    · cases hr
    next hfull =>
    refine hone 1 (.inr ?_) (by rw [hh']; rfl) (fun _ => by omega)
    unfold State.poolFree at hpool
    unfold State.recordsInLists
    omega

/-! ### The step of the Fade Engine -/

theorem advance_owner (x : Contribution) : x.advance.owner = x.owner := by
  unfold Contribution.advance
  split <;> first | rfl | (split <;> rfl)

theorem advance_cls (x : Contribution) : x.advance.cls = x.cls := by
  unfold Contribution.advance
  split <;> first | rfl | (split <;> rfl)

/-- What stage 2 leaves of a list: some contributions, each as it was or moved toward the level without it. -/
theorem leavingStage_sub (b : Bank) (mode : HouseMode) (c : CircuitId) (l : List Contribution) :
    ∀ done, (∃ m, leavingStage b mode c done l = done ++ m ∧
      (m.map (fun x => (x.owner, x.cls))).Sublist (l.map (fun x => (x.owner, x.cls)))) := by
  induction l with
  | nil => exact fun done => ⟨[], by simp [leavingStage]⟩
  | cons x rest ih =>
    intro done
    have keep : ∀ y : Contribution, y.owner = x.owner → y.cls = x.cls →
        ∃ m, leavingStage b mode c (done ++ [y]) rest = done ++ m ∧
          (m.map (fun x => (x.owner, x.cls))).Sublist ((x :: rest).map (fun x => (x.owner, x.cls))) := by
      intro y ho hk
      obtain ⟨m, h1, h2⟩ := ih (done ++ [y])
      refine ⟨y :: m, by rw [h1, List.append_assoc]; rfl, ?_⟩
      simp only [List.map_cons, ho, hk]
      exact h2.cons_cons _
    unfold leavingStage
    split
    · dsimp only
      split
      · obtain ⟨m, h1, h2⟩ := ih done
        exact ⟨m, h1, by rw [List.map_cons]; exact h2.cons _⟩
      · exact keep _ rfl rfl
    all_goals exact keep x rfl rfl

theorem listOk_of_keys {l m : List Contribution} (hl : ListOk l)
    (h : (m.map (fun x => (x.owner, x.cls))).Sublist (l.map (fun x => (x.owner, x.cls)))) : ListOk m := by
  have hlen := h.length_le
  simp only [List.length_map] at hlen
  refine ⟨hlen.trans hl.short, ?_, ?_⟩
  · have h1 : (l.map (fun x => (x.owner, x.cls))).Pairwise (fun p q => p.2.rank ≤ q.2.rank) := by
      rw [List.pairwise_map]
      exact hl.ordered
    have h2 := h1.sublist h
    rw [List.pairwise_map] at h2
    exact h2
  · have h1 := h.map Prod.fst
    rw [List.map_map, List.map_map] at h1
    exact hl.oneEach.sublist h1

theorem listOk_stepList {b : Bank} {mode : HouseMode} {hold : Bool} {c : CircuitId} {l : List Contribution}
    (h : ListOk l) : ListOk (stepList b mode hold c l) := by
  unfold stepList
  split
  · exact h
  · obtain ⟨m, h1, h2⟩ := leavingStage_sub b mode c (l.map Contribution.advance) []
    rw [h1, List.nil_append]
    exact listOk_of_keys (h.map advance_owner advance_cls) h2

theorem stepList_length_le {b : Bank} {mode : HouseMode} {hold : Bool} {c : CircuitId} (l : List Contribution) :
    (stepList b mode hold c l).length ≤ l.length := by
  unfold stepList
  split
  · exact Nat.le_refl _
  · obtain ⟨m, h1, h2⟩ := leavingStage_sub b mode c (l.map Contribution.advance) []
    rw [h1, List.nil_append]
    have := h2.length_le
    simpa using this

theorem fadeLevel_le {start target k n : Nat} (hk : k ≤ n) (hs : start ≤ 1000) (ht : target ≤ 1000) :
    fadeLevel start target k n ≤ 1000 := by
  unfold fadeLevel
  split
  · have h : (target - start) * k / n ≤ target - start :=
      Nat.div_le_of_le_mul (by rw [Nat.mul_comm n]; exact Nat.mul_le_mul_left _ hk)
    omega
  · exact (Nat.sub_le ..).trans hs

theorem contributionOk_advance {x : Contribution} (h : ContributionOk x) : ContributionOk x.advance := by
  obtain ⟨h1, h2, h3⟩ := h
  unfold MovementOk at h3
  unfold Contribution.advance
  split
  · next start steps index e =>
    rw [e] at h3
    obtain ⟨a1, a2, a3, a4, a5⟩ := h3
    split
    · next hlt =>
      refine ⟨fadeLevel_le (by omega) a1 h2, h2, ?_⟩
      show _ ∧ _ ∧ _ ∧ _ ∧ _
      exact ⟨a1, hlt, a3, a4, rfl⟩
    · exact ⟨h2, h2, rfl⟩
  · next start steps index i e =>
    rw [e] at h3
    obtain ⟨a1, a2, a3, a4, a5, a6⟩ := h3
    split
    · next hlt =>
      refine ⟨fadeLevel_le (by omega) a1 h2, h2, ?_⟩
      show _ ∧ _ ∧ _ ∧ _ ∧ _ ∧ _
      exact ⟨a1, hlt, a3, a4, a5, rfl⟩
    · exact ⟨h2, h2, rfl⟩
  · next e =>
    refine ⟨h1, h2, ?_⟩
    unfold MovementOk
    rw [e] at h3 ⊢
    exact h3
  · next e =>
    refine ⟨h1, h2, ?_⟩
    unfold MovementOk
    rw [e] at h3 ⊢
    exact h3

theorem moveToward_le {level target rate : Nat} (hr : rate < distance level target) (hl : level ≤ 1000)
    (ht : target ≤ 1000) : moveToward level target rate ≤ 1000 := by
  unfold distance at hr
  unfold moveToward
  split <;> omega

theorem contributionOk_leavingStage {b : Bank} (hv : b.valid = true) (mode : HouseMode) (c : CircuitId)
    (l : List Contribution) : ∀ done, (∀ x ∈ done, ContributionOk x) → (∀ x ∈ l, ContributionOk x) →
      ∀ x ∈ leavingStage b mode c done l, ContributionOk x := by
  induction l with
  | nil => exact fun done h1 _ x hx => h1 x hx
  | cons y rest ih =>
    intro done h1 h2
    have hy := h2 y (by simp)
    have hrest : ∀ x ∈ rest, ContributionOk x := fun x hx => h2 x (by simp [hx])
    have keep : ∀ z : Contribution, ContributionOk z → ∀ x ∈ leavingStage b mode c (done ++ [z]) rest,
        ContributionOk x := by
      intro z hz
      refine ih _ (fun x hx => ?_) hrest
      rcases List.mem_append.1 hx with hx | hx
      · exact h1 x hx
      · rw [List.mem_singleton.1 hx]; exact hz
    unfold leavingStage
    split
    · next rate e =>
      dsimp only
      have ht : listLevel b mode c (done ++ rest) ≤ 1000 := by
        refine listLevel_le hv mode c (fun x hx => ?_)
        rcases List.mem_append.1 hx with hx | hx
        · exact (h1 x hx).current
        · exact (hrest x hx).current
      have hm := hy.movement
      unfold MovementOk at hm
      rw [e] at hm
      split
      · exact ih _ h1 hrest
      · next hd =>
        refine keep _ ⟨moveToward_le (by omega) hy.current ht, hy.target, ?_⟩
        unfold MovementOk
        dsimp only
        rw [e]
        exact hm
    all_goals exact keep y hy

theorem contributionOk_stepList {b : Bank} (hv : b.valid = true) {mode : HouseMode} {hold : Bool} {c : CircuitId}
    {l : List Contribution} (h : ∀ x ∈ l, ContributionOk x) : ∀ x ∈ stepList b mode hold c l, ContributionOk x := by
  unfold stepList
  split
  · exact h
  · refine contributionOk_leavingStage hv mode c _ [] (by simp) (fun x hx => ?_)
    obtain ⟨y, hy, rfl⟩ := List.mem_map.1 hx
    exact contributionOk_advance (h y hy)

theorem slotOk_stepSlot {listed : Nat} (hl : listed ≤ 1000) {slot : Slot} (h : SlotOk slot) :
    SlotOk (stepSlot listed slot) := by
  unfold stepSlot
  split
  · next level rate =>
    obtain ⟨h1, h2, h3⟩ := h
    split
    · trivial
    · next hd => exact ⟨moveToward_le (by omega) h1 hl, h2, h3⟩
  · trivial
  · trivial

/-- A step that leaves a list as long as it was leaves every contribution in its place. -/
theorem stepList_keys {b : Bank} {mode : HouseMode} {hold : Bool} {c : CircuitId} {l : List Contribution}
    (h : (stepList b mode hold c l).length = l.length) :
    (stepList b mode hold c l).map (fun x => (x.owner, x.cls)) = l.map (fun x => (x.owner, x.cls)) := by
  unfold stepList at h ⊢
  split
  · rfl
  · next hh =>
    rw [if_neg hh] at h
    obtain ⟨m, h1, h2⟩ := leavingStage_sub b mode c (l.map Contribution.advance) []
    rw [h1, List.nil_append] at h ⊢
    have e : (l.map Contribution.advance).map (fun x => (x.owner, x.cls)) = l.map (fun x => (x.owner, x.cls)) := by
      rw [List.map_map]
      exact List.map_congr_left (fun x _ => by simp [advance_owner, advance_cls])
    rw [e] at h2
    exact h2.eq_of_length (by simpa using h)

theorem sameLevels_iff {x y : CircuitState} : sameLevels x y = true ↔
    y.list.map (fun z => z.current) = x.list.map (fun z => z.current) ∧ y.slot = x.slot := by
  unfold sameLevels
  simp

/-- A step that changes no level of a circuit changes its effective level neither (R49). -/
theorem effectiveLevel_sameLevels {b : Bank} {mode : HouseMode} {hold : Bool} {c : CircuitId} {x y : CircuitState}
    (hl : y.list = stepList b mode hold c x.list) (h : sameLevels x y = true) :
    effectiveLevel b mode c y = effectiveLevel b mode c x := by
  obtain ⟨h1, h2⟩ := sameLevels_iff.1 h
  have hlen : y.list.length = x.list.length := by simpa using congrArg List.length h1
  have hk := stepList_keys (b := b) (mode := mode) (hold := hold) (c := c) (l := x.list) (hl ▸ hlen)
  rw [← hl] at hk
  have hcls := congrArg (List.map Prod.snd) hk
  simp only [List.map_map] at hcls
  exact effectiveLevel_of_levels (levelForLevel_of_maps hcls h1) h2

/-- The step of the Fade Engine moves every circuit by one claim (R49). -/
theorem movesAll_fadeStep {G A : Prop} (s : State) (hG : G → s.active.valid = true) : MovesAll G A s s.fadeStep := by
  refine ⟨rfl, rfl, fun c => ?_⟩
  have e : s.fadeStep.circuit c = stepCircuit s.active s.mode s.hold c (s.circuit c) := Table.get_mapIdx _ _ _
  refine .single ⟨stepList s.active s.mode s.hold c (s.circuit c).list,
    stepSlot (listLevel s.active s.mode c (stepList s.active s.mode s.hold c (s.circuit c).list)) (s.circuit c).slot,
    ⟨listOk_stepList, stepList_length_le _, fun g _ h => contributionOk_stepList (hG g) h⟩, ⟨fun g _ hl hs => ?_, ?_⟩, ?_⟩
  · exact slotOk_stepSlot (listLevel_le (hG g) _ _ (fun x hx => (contributionOk_stepList (hG g) hl x hx).current)) hs
  · intro _ h
    rw [h]
    rfl
  · rw [e]
    unfold stepCircuit
    dsimp only
    split
    · next h => exact .inr ⟨rfl, effectiveLevel_sameLevels rfl h⟩
    · exact .inl rfl

/-! ### The commands -/

theorem takes_offerCommand {G A : Prop} {s : State} {v : Word} {act : State → State}
    (h : TakesRecords G A { s with command := v } (act { s with command := v })) :
    TakesRecords G A s (s.offerCommand v act) := by
  unfold State.offerCommand
  split
  · exact (MovesAll.refl G A s).takes
  split
  · exact MovesAll.takes (.of_same rfl rfl rfl)
  · refine TakesRecords.of_left (u := { s with command := v }) ?_ rfl h
    exact .of_same rfl rfl rfl

theorem takes_runAction {G A : Prop} {s : State} {k : ActionKind} {claim : RunningAction → Except Reason State}
    (h : ∀ a t, s.runningAction k = some a → claim a = .ok t → TakesRecords G A s t) :
    TakesRecords G A s (s.runAction k claim) := by
  unfold State.runAction
  split
  · exact (MovesAll.refl G A s).takes
  · next a ha =>
    split
    · next t ht => exact (h a t ha ht).trans (.of_same rfl rfl rfl)
    · next r _ =>
      exact (MovesAll.of_changes ((changes_refuseAction s a r).trans (changes_finishAction _)) (by decide)
        (by decide) (by decide)).takes

/-- The action in flight is a record of the pool (R108). -/
theorem runningAction_spec {s : State} {k : ActionKind} {a : RunningAction} (h : s.runningAction k = some a) :
    ∃ tags left, s.current = some ⟨.input a.station a.input a.kind tags, .running a.index left⟩ ∧ left ≠ 0 ∧
      a.action = s.active.actionRec a.index ∧ kindOfCode a.action.kindCode = some k := by
  unfold State.runningAction at h
  split at h
  · next n i ek tags next left e =>
    split at h
    · next hc =>
      cases h
      exact ⟨tags, left, e, hc.1, rfl, hc.2⟩
    · cases h
  · cases h

theorem runningAction_lt {s : State} {k : ActionKind} {a : RunningAction} (h : s.runningAction k = some a)
    (hf : FlightOk s) : a.index < 2048 := by
  obtain ⟨tags, left, h1, h2, -, -⟩ := runningAction_spec h
  have := hf _ _ _ h1
  omega

theorem movesAll_takeAtGrant {G A : Prop} (s : State) (a : Access) (work : State → State)
    (h : ∀ u, MovesAll G A u (work u)) : MovesAll G A s (s.takeAtGrant a work) := by
  unfold State.takeAtGrant
  split
  · exact .refl G A s
  split
  · refine MovesAll.trans ?_ (h _)
    exact .of_same rfl rfl rfl
  · exact .of_same rfl rfl rfl

theorem movesAll_startWrite {G A : Prop} (s : State) (addr : Nat) (lanes : Lanes) (data : Word) :
    MovesAll G A s (s.startWrite addr lanes data) := .of_same rfl rfl rfl

theorem MovesAll.done {G A : Prop} {s t : State} (h : MovesAll G A s t) (d : Nat) :
    TakesRecords G A s (t.commandDone d) :=
  h.takes.trans (.of_changes (changes_commandDone t d) (by decide) (by decide) (by decide))

theorem takes_settleCommand {G A : Prop} {s : State} {r : Except Reason State}
    (h : ∀ t, r = .ok t → TakesRecords G A s t) : TakesRecords G A s (s.settleCommand r) := by
  unfold State.settleCommand
  cases r with
  | ok t => exact (h t rfl).trans (.of_changes (changes_commandDone t 0) (by decide) (by decide) (by decide))
  | error e =>
    exact (MovesAll.of_changes (changes_commandRefused s e 0 0) (by decide) (by decide) (by decide)).takes

theorem movesAll_requestRestore {G A : Prop} {s t : State} (hA : ¬ A) (h : s.requestRestore = .ok t) :
    MovesAll G A s t := by
  unfold State.requestRestore at h
  split at h <;> cases h
  refine MovesAll.trans ?_ (movesAll_updateSlots _ (fun _ _ =>
    ⟨fun _ _ _ _ => slotOk_slotLeaving _, fun ha => absurd ha hA⟩))
  exact .of_same rfl rfl rfl

theorem takes_takeDeskClaim {G A : Prop} (s : State) (hd : G → ∀ d ∈ s.deskQueue, deskValueOk d.value = true) :
    TakesRecords G A s s.takeDeskClaim := by
  unfold State.takeDeskClaim
  split
  · next d rest e =>
    have hc := changes_deskHeadLeaves s rest
    refine TakesRecords.of_left (.of_changes hc (by decide) (by decide) (by decide)) (hc .circuits (by decide))
      (takes_deskClaim _ d (fun g hv => ?_))
    have h1 := hd g d (by rw [e]; simp)
    unfold deskValueOk at h1
    simp only [Bool.or_eq_true, decide_eq_true_eq] at h1
    exact h1.resolve_right hv
  · exact (MovesAll.refl _ A s).takes

theorem takes_clearFaults {G A : Prop} (s : State) : TakesRecords G A s s.clearFaults := by
  refine takes_offerCommand ?_
  dsimp only
  split
  · exact (movesAll_clearStation _ _).done 0
  split
  · exact (movesAll_clearStations allStations _).done 0
  · exact MovesAll.takes (.of_same rfl rfl rfl)

/-! ### What is taken between the claims of a row -/

/-- Claims taken one after the other, each of which takes no more records than the pool then has free. -/
abbrev TakesInTurn (G A : Prop) : State → State → Prop := Relation.ReflTransGen (TakesRecords G A)

/-- A write that joins leaves the port idle; every desk write queued or waiting afterwards was so before. -/
theorem deskValuesOk_joinWaiting {s : State} (h : DeskValuesOk s) : DeskValuesOk s.joinWaiting := by
  unfold State.joinWaiting
  split
  · next d hp =>
    split
    · refine ⟨fun e he => ?_, fun e he => nomatch he⟩
      rcases List.mem_append.1 he with he | he
      · exact h.queued e he
      · exact List.mem_singleton.1 he ▸ h.waiting d hp
    · exact h
  all_goals exact h

theorem deskValuesOk_deskHeadLeaves {s : State} {d : DeskEntry} {rest : List DeskEntry} (h : DeskValuesOk s)
    (e : s.deskQueue = d :: rest) : DeskValuesOk (s.deskHeadLeaves rest) :=
  deskValuesOk_joinWaiting ⟨fun x hx => h.queued x (e ▸ List.mem_cons_of_mem _ hx), h.waiting⟩

/-- Every desk write that is queued or waiting after an interlude was so before. -/
theorem deskValuesOk_interlude {s : State} (i : Interlude) (h : DeskValuesOk s) : DeskValuesOk (s.interlude i) := by
  cases i with
  | deskClaim =>
    show DeskValuesOk s.takeDeskClaim
    unfold State.takeDeskClaim
    split
    · next d rest e =>
      have hc := changes_deskClaim (s.deskHeadLeaves rest) d
      have hl := deskValuesOk_deskHeadLeaves h e
      exact ⟨hc .deskQueue (by decide) ▸ hl.queued, fun x hx => hl.waiting x (hc .port (by decide) ▸ hx)⟩
    · exact h
  | step => exact ⟨h.queued, h.waiting⟩

theorem takes_interlude {G A : Prop} (s : State) (i : Interlude) (hG : G → s.active.valid = true)
    (hd : G → DeskValuesOk s) : TakesRecords G A s (s.interlude i) := by
  cases i with
  | deskClaim => exact takes_takeDeskClaim s (fun g => (hd g).queued)
  | step => exact (movesAll_fadeStep s hG).takes

theorem takes_interludes {G A : Prop} (between : List Interlude) (s : State) (hG : G → s.active.valid = true)
    (hd : G → DeskValuesOk s) : TakesInTurn G A s (s.interludes between) := by
  induction between generalizing s with
  | nil => exact .refl
  | cons i rest ih =>
    refine .head (takes_interlude s i hG hd) (ih (s.interlude i) ?_ ?_)
    · rw [changes_interlude s i .active (by decide)]
      exact hG
    · exact fun g => deskValuesOk_interlude i (hd g)

/-- The commands that move circuits by claims alone: not the two that empty the store, not the changes of mode and the
swap, which recompute every circuit anew, and not the two that pay or re-mark owed flags. -/
def Instr.claims : Instr → Bool
  | .power _ => false
  | .restart => false
  | .setMode => false
  | .mode => false
  | .mapSwap _ => false
  | .writeBackGrant => false
  | .frameClearEnds => false
  | _ => true

/-- A command that moves circuits by claims, under one map and one mode. `G` says that every level is in range, `A`
that the command is not a restore. -/
theorem exec_moves {A : Prop} {i : Instr} {s t : State} (h : exec i s = .next t) (hi : Instr.claims i = true)
    (hA : i = .restoreEgress ∨ i = .restore → ¬ A) : TakesInTurn (LevelsOk s) A s t := by
  have same : ∀ {fs : List Field}, Changes fs s t → Field.active ∉ fs → Field.mode ∉ fs → Field.circuits ∉ fs →
      TakesInTurn (LevelsOk s) A s t := fun hc h1 h2 h3 => .single (MovesAll.of_changes hc h1 h2 h3).takes
  cases i with
  | power straps => cases hi
  | restart => cases hi
  | setMode => cases hi
  | mode => cases hi
  | mapSwap gaps => cases hi
  | writeBackGrant => cases hi
  | frameClearEnds => cases hi
  | debounceExpires =>
    have h' : execDebounceExpires s = .next t := h
    unfold execDebounceExpires at h'
    split at h' <;> cases h'
    · refine .single (MovesAll.takes (MovesAll.trans ?_ (movesAll_latchSlots _)))
      exact .of_same rfl rfl rfl
    · exact .refl
  | step =>
    cases h
    exact .single (movesAll_fadeStep s (fun g => g.maps.active)).takes
  | longPressExpires n i =>
    have h' : execLongPressExpires n i s = .next t := h
    unfold execLongPressExpires at h'
    split at h' <;> cases h'
    · refine .single (MovesAll.takes (MovesAll.trans ?_ (movesAll_offerInputs _ _)))
      exact movesAll_modStation s n _
    · exact .refl
  | stationCellWrite w =>
    have h' : execStationCellWrite w s = .next t := h
    unfold execStationCellWrite at h'
    split at h' <;> cases h'
    · exact .single (movesAll_takeAtGrant s _ _ (fun u =>
        (movesAll_startWrite u _ _ _).trans (movesAll_monitorWrite _ _ _ _ _))).takes
    · exact .refl
  | deskClaim =>
    cases h
    exact .single (takes_takeDeskClaim s (fun g => g.desk.queued))
  | restoreEgress =>
    cases h
    exact .single (takes_offerCommand (takes_settleCommand (fun t ht =>
      (movesAll_requestRestore (hA (.inl rfl)) ht).takes)))
  | clearFaults =>
    cases h
    exact .single (takes_clearFaults s)
  | releaseDesk =>
    cases h
    refine .single (takes_offerCommand ?_)
    dsimp only
    split
    · exact (movesAll_removeOwned _ _).done 0
    split
    · exact (movesAll_removeOwned _ _).done 0
    · exact MovesAll.takes (.of_same rfl rfl rfl)
  | takeEntry claims =>
    cases h
    exact .single (movesAll_takeClaims claims s).takes
  | lostMarker claims =>
    cases h
    exact .single (movesAll_lostClaims claims s).takes
  | set =>
    cases h
    refine .single (takes_runAction (fun a t ha ht => ?_))
    obtain ⟨tags, left, h1, h2, h3, h4⟩ := runningAction_spec ha
    refine takes_claimAsks ht (fun g c ask => ?_)
    have hlt := runningAction_lt ha g.flight
    rw [h3] at h4 ⊢
    exact askOk_asksLevel g.maps.active (actionLevel_le g.maps.active hlt (.inl h4)) c ask
  | toggle =>
    cases h
    refine .single (takes_runAction (fun a t ha ht => ?_))
    obtain ⟨tags, left, h1, h2, h3, h4⟩ := runningAction_spec ha
    unfold State.claimToggle at ht
    dsimp only at ht
    split at ht
    · cases ht
      exact (movesAll_leaveWith s _ _ _).takes
    · refine takes_claimAsks ht (fun g c ask => ?_)
      have hlt := runningAction_lt ha g.flight
      rw [h3] at h4 ⊢
      exact askOk_asksLevel g.maps.active (actionLevel_le g.maps.active hlt (.inr h4)) c ask
  | raise =>
    cases h
    exact .single (takes_runAction (fun a t _ ht =>
      takes_claimAsks ht (fun g c ask => askOk_asksRamp g.maps.active (.inr rfl) a.input c ask)))
  | lower =>
    cases h
    exact .single (takes_runAction (fun a t _ ht =>
      takes_claimAsks ht (fun g c ask => askOk_asksRamp g.maps.active (.inl rfl) a.input c ask)))
  | release =>
    cases h
    refine .single (takes_runAction (fun a t _ ht => ?_))
    cases ht
    exact (movesAll_leaveWith s _ _ _).takes
  | scene =>
    cases h
    refine .single (takes_runAction (fun a t ha ht => ?_))
    obtain ⟨tags, left, h1, h2, h3, h4⟩ := runningAction_spec ha
    unfold State.claimScene at ht
    split at ht
    · cases ht
    · next u hu =>
      have hclaim : TakesRecords (LevelsOk s) A s u := by
        refine takes_claimAsks hu (fun g c ask h5 => ?_)
        have hlt := runningAction_lt ha g.flight
        unfold Bank.asksScene at h5
        rw [Option.map_eq_some_iff] at h5
        obtain ⟨v, hv, rfl⟩ := h5
        rw [h3] at h4 hv
        exact askOk_askLevel (sceneLevel_le g.maps.active hlt h4 hv) (operandTime_le g.maps.active _ c)
      split at ht <;> cases ht
      · exact hclaim.trans (movesAll_leaveWith _ _ _ _)
      · exact hclaim
  | restore =>
    cases h
    exact .single (takes_runAction (fun a t _ ht => (movesAll_requestRestore (hA (.inr rfl)) ht).takes))
  | _ =>
    exact same (changes_of_exec h) (by simp only [touched]; decide) (by simp only [touched]; decide)
      (by simp only [touched]; decide)

end Sys2Proof.Machine
end

