-- ==== Sys2Proof/Laws/Ports.lean ====
section
/-! SUPPORT. Addresses of the window and the regions they hit, and how an access is taken, granted or held. -/

namespace Sys2Proof.Machine

/-! ### Addresses (R154, R155) -/

theorem offsetOf_of_addresses {s : State} {addr : Address} {offset : Nat} (h : s.addresses addr offset) :
    s.offsetOf addr = some offset := by
  obtain ⟨h1, h2, h3⟩ := h
  unfold windowAddress at h3
  have e1 : addr.toNat / 0x10000 = s.base.toNat * 4 := by omega
  have e2 : cellAddress (addr.toNat % 0x10000) = offset := by
    unfold cellAddress
    omega
  unfold State.offsetOf windowOffset
  rw [if_pos (by simp [e1]), e2]

/-- An offset found in the window is even, within it, and the address is its cell's. -/
theorem addresses_of_offsetOf {s : State} {addr : Address} {offset : Nat} (h : s.offsetOf addr = some offset) :
    s.addresses addr offset := by
  unfold State.offsetOf windowOffset at h
  split at h
  · next e =>
    cases h
    have e' : addr.toNat / 0x10000 = s.base.toNat * 4 := by simpa using e
    unfold State.addresses windowAddress cellAddress
    omega
  · cases h

theorem offsetOf_eq_none {s : State} {addr : Address} :
    s.offsetOf addr = none ↔ addr.toNat / 0x10000 ≠ s.base.toNat * 4 := by
  unfold State.offsetOf windowOffset
  split
  · next h => simp only [beq_iff_eq] at h; simp [h]
  · next h => simp only [beq_iff_eq] at h; simp [h]

theorem downstreamAddress_of_addresses {s : State} {addr : Address} {offset : Nat} (h : s.addresses addr offset) :
    s.downstreamAddress addr = windowAddress s.base offset := by
  unfold State.downstreamAddress
  rw [offsetOf_of_addresses h]

theorem windowAddress_even {base : BitVec 2} {offset : Nat} (h : offset % 2 = 0) :
    cellAddress (windowAddress base offset) = windowAddress base offset := by
  unfold cellAddress windowAddress
  omega

theorem windowAddress_lt {base : BitVec 2} {offset : Nat} (h : offset < 0x10000) :
    windowAddress base offset < 2 ^ 20 := by
  have := base.isLt
  unfold windowAddress
  omega

theorem windowAddress_inj {base : BitVec 2} {x y : Nat} : windowAddress base x = windowAddress base y ↔ x = y := by
  unfold windowAddress
  omega

/-! ### Regions (R155) -/

theorem regionOf_control {o : Nat} (h : o < 0x0400) : regionOf o = .control := by
  unfold regionOf
  simp [h]

theorem regionOf_station {o : Nat} (h1 : 0x0400 ≤ o) (h2 : o < 0x0780) : regionOf o = .station := by
  unfold regionOf
  simp [h2, show ¬ o < 0x0400 by omega]

theorem regionOf_circuitWindow {o : Nat} (h1 : 0x0800 ≤ o) (h2 : o < 0x0B00) : regionOf o = .circuitWindow := by
  unfold regionOf
  simp [h1, h2, show ¬ o < 0x0400 by omega, show ¬ o < 0x0780 by omega]

theorem regionOf_viewWindow {o : Nat} (h1 : 0x0C00 ≤ o) (h2 : o < 0x0F00) : regionOf o = .viewWindow := by
  unfold regionOf
  simp [h1, h2, show ¬ o < 0x0400 by omega, show ¬ o < 0x0780 by omega, show ¬ o < 0x0B00 by omega]

theorem regionOf_frameA {o : Nat} (h1 : 0x1000 ≤ o) (h2 : o < 0x1300) : regionOf o = .frameA := by
  unfold regionOf
  simp [h1, h2, show ¬ o < 0x0400 by omega, show ¬ o < 0x0780 by omega, show ¬ o < 0x0B00 by omega,
    show ¬ o < 0x0F00 by omega]

theorem regionOf_frameB {o : Nat} (h1 : 0x1400 ≤ o) (h2 : o < 0x1700) : regionOf o = .frameB := by
  unfold regionOf
  simp [h1, h2, show ¬ o < 0x0400 by omega, show ¬ o < 0x0780 by omega, show ¬ o < 0x0B00 by omega,
    show ¬ o < 0x0F00 by omega, show ¬ o < 0x1300 by omega]

theorem regionOf_mapRegion {o : Nat} (h : 0x2000 ≤ o) : regionOf o = .mapRegion := by
  unfold regionOf
  simp [h, show ¬ o < 0x0400 by omega, show ¬ o < 0x0780 by omega, show ¬ o < 0x0B00 by omega,
    show ¬ o < 0x0F00 by omega, show ¬ o < 0x1300 by omega, show ¬ o < 0x1700 by omega]

/-- Where a region lies. -/
theorem regionOf_bounds {o : Nat} {r : Region} (h : regionOf o = r) :
    match r with
    | .control => o < 0x0400
    | .station => 0x0400 ≤ o ∧ o < 0x0780
    | .circuitWindow => 0x0800 ≤ o ∧ o < 0x0B00
    | .viewWindow => 0x0C00 ≤ o ∧ o < 0x0F00
    | .frameA => 0x1000 ≤ o ∧ o < 0x1300
    | .frameB => 0x1400 ≤ o ∧ o < 0x1700
    | .mapRegion => 0x2000 ≤ o
    | .other => o < 0x2000 ∧ ¬ (0x1000 ≤ o ∧ o < 0x1300) ∧ ¬ (0x1400 ≤ o ∧ o < 0x1700) ∧ 0x0780 ≤ o := by
  unfold regionOf at h
  simp only [Bool.and_eq_true, decide_eq_true_eq] at h
  repeat' split at h
  all_goals
    subst h
    dsimp only
    omega

/-! ### The station, circuit or desk circuit an access addresses -/

theorem stationTarget_of_addresses {s : State} {w : WriteAccess} {n : StationId} {k : Nat} (hk : k < 8)
    (h : s.addresses w.addr (0x0400 + 8 * n.val + k)) (hl : w.lanes.any = true) :
    s.stationTarget w = some (n, k) := by
  have hn := n.isLt
  have e1 : (0x0400 + 8 * n.val + k - 0x0400) / 8 = n.val := by omega
  have e2 : (0x0400 + 8 * n.val + k - 0x0400) % 8 = k := by omega
  unfold State.stationTarget
  rw [offsetOf_of_addresses h]
  dsimp only
  rw [regionOf_station (by omega) (by omega), if_pos (by simp [hl])]
  unfold stationAt
  rw [dif_pos (by omega)]
  simp only [Option.map_some, e2, e1]

theorem windowCircuit_of_addresses {s : State} {addr : Address} {lanes : Lanes} {c : CircuitId}
    (h : s.addresses addr (0x0800 + 2 * c.val)) (hl : lanes.any = true) :
    s.windowCircuit addr lanes = some c := by
  have hc := c.isLt
  have e1 : (0x0800 + 2 * c.val - 0x0800) / 2 = c.val := by omega
  unfold State.windowCircuit
  rw [offsetOf_of_addresses h]
  dsimp only
  rw [regionOf_circuitWindow (by omega) (by omega), if_pos (by simp [hl])]
  unfold circuitAt
  rw [dif_pos (by omega)]
  simp only [e1]

theorem viewCircuit_of_addresses {s : State} {addr : Address} {lanes : Lanes} {c : CircuitId}
    (h : s.addresses addr (0x0C00 + 2 * c.val)) (hl : lanes.any = true) :
    s.viewCircuit addr lanes = some c := by
  have hc := c.isLt
  have e1 : (0x0C00 + 2 * c.val - 0x0C00) / 2 = c.val := by omega
  unfold State.viewCircuit
  rw [offsetOf_of_addresses h]
  dsimp only
  rw [regionOf_viewWindow (by omega) (by omega), if_pos (by simp [hl])]
  unfold circuitAt
  rw [dif_pos (by omega)]
  simp only [e1]

/-! ### The desk write that waits for a slot (R159) -/

/-- With a slot free the waiting write becomes the last entry and the port is idle. -/
theorem joinWaiting_of_free {s : State} {d : DeskEntry} (h : s.port = .waitSlot d)
    (hl : s.deskQueue.length < Config.deskQueueCapacity) :
    s.joinWaiting = { s with port := .idle, deskQueue := s.deskQueue ++ [d] } := by
  unfold State.joinWaiting
  rw [h]
  exact if_pos hl

/-- Nothing joins a full queue. -/
theorem joinWaiting_of_full {s : State} (hl : Config.deskQueueCapacity ≤ s.deskQueue.length) : s.joinWaiting = s := by
  unfold State.joinWaiting
  split
  · exact if_neg (Nat.not_lt.2 hl)
  all_goals rfl

/-- With no write waiting nothing joins. -/
theorem joinWaiting_of_none {s : State} (h : ∀ d, s.port ≠ .waitSlot d) : s.joinWaiting = s := by
  unfold State.joinWaiting
  split
  · next d hp => exact absurd hp (h d)
  all_goals rfl

/-- What is left of a queue in order is in order, and no write waits for a slot that is free. -/
theorem portsOk_joinWaiting {s : State} (hq : s.deskQueue.length ≤ Config.deskQueueCapacity)
    (hr : s.runCount ≤ Config.runLimit)
    (h : s.rst = true → s.port = .idle ∧ s.deskQueue = [] ∧ s.upstreamInTransfer = false) : PortsOk s.joinWaiting := by
  by_cases hw : ∃ d, s.port = .waitSlot d
  · obtain ⟨d, hw⟩ := hw
    have hrst : s.rst ≠ true := fun e => by rw [(h e).1] at hw; cases hw
    by_cases hl : s.deskQueue.length < Config.deskQueueCapacity
    · rw [joinWaiting_of_free hw hl]
      exact ⟨by simpa using hl, nofun, hr, fun e => absurd e hrst⟩
    · rw [joinWaiting_of_full (Nat.not_lt.1 hl)]
      exact ⟨hq, fun _ _ => Nat.not_lt.1 hl, hr, h⟩
  · rw [joinWaiting_of_none (fun d e => hw ⟨d, e⟩)]
    exact ⟨hq, fun d e => absurd ⟨d, e⟩ hw, hr, h⟩

/-! ### Taking, granting and holding (R157, R160, R161) -/

/-- What an idle port, ready for an access, holds. -/
theorem port_of_ready {s : State} (h : s.upstreamReady = true) :
    s.rst = false ∧ s.port = .idle ∧ s.upstreamInTransfer = false := by
  unfold State.upstreamReady at h
  simp only [Bool.and_eq_true, Bool.not_eq_true', decide_eq_true_eq] at h
  exact ⟨h.1.1, h.1.2, h.2⟩

/-- A granted access does its work with the port free again and the run count raised. -/
theorem takeAtGrant_granted {s : State} {a : Access} (h : s.granted a) (work : State → State) :
    s.takeAtGrant a work = work { s with port := .idle, runCount := min (s.runCount + 1) 4 } := by
  obtain ⟨h1, h2, h3, h4⟩ := h
  have hp : s.portTakes a = true := by
    unfold State.portTakes State.upstreamInTransfer
    rw [h1, h3]
    rcases h2 with h2 | h2 <;> simp [h2]
  have hg : s.grantsUpstream = true := by
    unfold State.grantsUpstream
    rw [h3]
    rcases h4 with h4 | h4
    · have : (s.runCount == Config.runLimit) = false := by
        have : s.runCount ≠ 4 := by omega
        simpa [Config.runLimit] using this
      rw [this]
      rfl
    · rw [h4]
      simp
  unfold State.takeAtGrant
  rw [hp, hg]
  rfl

/-- An access that is taken and not granted is held. -/
theorem takeAtGrant_held {s : State} {a : Access} (h : s.awaitsGrant a) (work : State → State) :
    s.takeAtGrant a work = { s with port := .waitGrant a } := by
  obtain ⟨h1, h2, h3, h4⟩ := h
  have hp : s.portTakes a = true := by
    unfold State.portTakes
    rw [h1, h3]
    rcases h2 with h2 | h2 <;> simp [h2]
  have hg : s.grantsUpstream = false := by
    unfold State.grantsUpstream
    rcases h4 with h4 | ⟨h4, h5⟩
    · cases e : s.transfer with
      | none => exact absurd e h4
      | some t => rfl
    · rw [h4, h5]
      simp [Config.runLimit]
  unfold State.takeAtGrant
  rw [hp, hg]
  rfl

/-- The port is free for an internal requester. -/
theorem grantsInternal_of {s : State} (h1 : s.transfer = none) (h2 : s.upstreamWaits = false ∨ s.runCount = 4) :
    s.grantsInternal = true := by
  unfold State.grantsInternal
  rw [h1]
  rcases h2 with h2 | h2 <;> simp [h2, Config.runLimit]

end Sys2Proof.Machine
end

