-- ==== Sys2Proof/Tests/Slice0.lean ====
section
/-! SUPPORT. Tests of the model: ill-formed terms that WellFormed refuses, single commands on small states with the
numbers of the spec's own examples, and for each obligation with hypotheses a state that meets them. -/

namespace Sys2Proof.Tests

-- One theorem at a time, so that a run of this file needs few threads.
set_option Elab.async false

open Sys2Proof Sys2Proof.Machine

/-! ### Ill-formed terms, one for each check -/

/-- A read of an address with given byte enables. -/
def readOf (addr : Nat) (lanes : Lanes) (tag : TagId) : ReadAccess := ⟨BitVec.ofNat 20 addr, lanes, tag⟩

/-- A write of a value to an address with given byte enables. -/
def writeOf (addr : Nat) (lanes : Lanes) (tag : TagId) (value : Nat) : WriteAccess :=
  ⟨BitVec.ofNat 20 addr, lanes, tag, BitVec.ofNat 16 value⟩

theorem test_illformed_stationCellWrite :
    (Instr.stationCellWrite (writeOf 0x0460 Lanes.neither 0 1)).wellFormed = false := by decide

theorem test_illformed_circuitWindowRead :
    (Instr.circuitWindowRead (readOf 0x0800 Lanes.neither 0)).wellFormed = false := by decide

theorem test_illformed_viewWindowRead :
    (Instr.viewWindowRead (readOf 0x0C00 Lanes.neither 0)).wellFormed = false := by decide

theorem test_illformed_deskWrite :
    (Instr.deskWrite (writeOf 0x0800 Lanes.neither 0 1)).wellFormed = false := by decide

theorem test_illformed_refusedWrite :
    (Instr.refusedWrite (writeOf 0x1000 Lanes.neither 0 1)).wellFormed = false := by decide

theorem test_illformed_noByteAccess :
    (Instr.noByteAccess (.read (readOf 0x1000 ⟨true, false⟩ 0))).wellFormed = false := by decide

theorem test_illformed_unknownCommand :
    (Instr.unknownCommand 1).wellFormed = false ∧ (Instr.unknownCommand 11).wellFormed = false := by decide

theorem test_wellformed_boundaries :
    (Instr.unknownCommand 0).wellFormed = true ∧ (Instr.unknownCommand 12).wellFormed = true ∧
      (Instr.deskWrite (writeOf 0x0800 ⟨false, true⟩ 0 1)).wellFormed = true := by decide

/-! ### A small house -/

/-- The cells of a map that are not those of the empty map: profiles 1, 3 and 5 of 1.5 s, 0.4 s and 2 s; zone 3 held
to 150 in PERFORMANCE; circuits 210 and 212 in zone 3, 212 an egress member with profile 5. -/
def houseCells : Bank :=
  [(0x2002, 15), (0x2006, 4), (0x200A, 20), (0x2054, 150), (0x2548, 0x0003), (0x2550, 0x2C03)]

/-- Station 12 is a HOUSE keypad under loss policy RELEASE with a silence limit of 2 s, station 20 the PROMPT keypad
with every privilege and the night flag; scene 2 is circuit 210 at 350. -/
def stationCells : Bank :=
  [(0x2860, 0x0105), (0x2862, 0x040C), (0x28A0, 0x02F9), (0x28A2, 0x0008), (0x2D0A, 1), (0x3800, 210), (0x3802, 350)]

/-- Station 12: input 3 a press that sets, input 4 MAINTAINED, input 5 with a long press that raises. Station 20:
input 0 the five house-wide actions, input 1 the scene. -/
def bindingCells : Bank :=
  [(0x4E18, 1), (0x4E1A, 0x0800), (0x4E20, 2), (0x4E22, 0x0800), (0x4E24, 0x0804), (0x4E28, 1), (0x4E2A, 0x0800),
   (0x4E2C, 0x0804), (0x4E2E, 0x0802), (0x5200, 1), (0x5202, 0x2806), (0x5208, 1), (0x520A, 0x0805)]

/-- Record k of the action pool has kind code k, for k from 0 to 10; the targets are circuit 40. -/
def actionCells : Bank :=
  [(0x8002, 40), (0x8004, 700), (0x8006, 1), (0x8008, 1), (0x800A, 40), (0x800C, 800), (0x800E, 3),
   (0x8010, 2), (0x8012, 40), (0x8016, 1), (0x8018, 3), (0x801A, 40), (0x801E, 1), (0x8020, 4), (0x8022, 40),
   (0x8026, 3)] ++
  [(0x8028, 0x0305), (0x802E, 0x0500), (0x8030, 0x0306), (0x8036, 0x0200), (0x8038, 0x0307), (0x8040, 0x0308),
   (0x8048, 0x0309), (0x8050, 0x030A)]

/-- The map of the tests. -/
def theatre : Bank := houseCells ++ stationCells ++ bindingCells ++ actionCells

theorem test_theatre_canonical : Bank.wf theatre = true := by decide

theorem test_theatre_records_pass :
    ((List.range 12).all theatre.actionOk && [195, 196, 197, 320, 321].all theatre.bindingOk && theatre.stationOk 12 &&
      theatre.stationOk 20 && theatre.circuitOk 212 && theatre.sceneOk 2 && theatre.zoneOk 3) = true := by decide

/-- The house under that map, its frame clear done. -/
def house : State := { State.reset with active := theatre, clear := none }

/-- The house with a circuit as given. -/
def lit (c : CircuitId) (cs : CircuitState) : State := house.modCircuit c (fun _ => cs)

/-- Station 12's keypad runs record `k` of the action pool, the last of its sequence. -/
def running (k : Nat) (s : State) : State := { s with current := some ⟨.input 12 3 .press TagSet.none, .running k 1⟩ }

/-- The action that runs there. -/
def actionOf (k : Nat) : RunningAction := ⟨12, 3, .press, k, theatre.actionRec k⟩

/-- The state a command leaves. -/
def after (c : Instr) (s : State) : State :=
  match exec c s with
  | .next t => t
  | .fault _ => s
  | .refused _ => s

/-- A STEADY contribution at a level. -/
def steadyAt (o : Owner) (k : Cls) (level : Nat) : Contribution := ⟨o, k, level, level, .steady⟩

/-! ### Resets and lines -/

theorem test_resets_and_lines_1 :
    -- power
    ((after (.power 2) { house with egrLine := true, mode := .night }).egress = .pending 0 ∧
     (after (.power 2) house).base = 2 ∧ (after (.power 2) house).active = Bank.empty) ∧
    -- lineReset
    ((after .lineReset { house with status := .commitRunning (.loading 77), mask := 3 }).status =
     .refused .abandoned 77 1 ∧ (after .lineReset { house with mask := 3 }).mask = 0) ∧
    -- rstRelease
    ((after (.rstRelease 1) { house with rst := true }).base = 1 ∧
     (after (.rstRelease 1) { house with rst := true }).rst = false) ∧
    -- restart
    ((after .restart house).status = .restartRunning ∧ (after .restart house).clear = some 0 ∧
     (after .restart { house with mapClosed := true }).mapClosed = true) ∧
    -- egrAsserted
    ((after .egrAsserted house).egress = .pending 0) ∧
    -- egrReleased
    ((after .egrReleased { house with egress := .latchedActive, egrLine := true }).egress = .latchedCleared) := by decide

/-- A read of circuit 40's cell in frame A granted before an assertion of RST#. -/
def resetMidRead : State := after .lineReset (after (.forwardedAccess (.read (readOf 0x1050 Lanes.both 0))) house)

theorem test_reset_in_a_transfer :
    -- the port is idle and takes an access at the release (R162), which waits for the transfer's end (R160)
    (after (.rstRelease 0) resetMidRead).upstreamReady = true ∧
    (after (.forwardedAccess (.read (readOf 0x1052 Lanes.both 0))) (after (.rstRelease 0) resetMidRead)).port =
      .waitGrant (.read (readOf 0x1052 Lanes.both 0)) ∧
    (after .transferEnd (after (.rstRelease 0) resetMidRead)).upData = bothBytes 0 := by decide

theorem test_resets_and_lines_2 :
    -- debounceExpires
    (((after .debounceExpires { house with egress := .pending 40 }).circuit 212).level = 1000 ∧
     ((after .debounceExpires { house with egress := .pending 40 }).circuit 211).level = 0) ∧
    -- passFalls
    ((after .passFalls (running 0 { lit 5 ⟨[], .empty, 0, true, false⟩ with passHigh := true })).front = .b) ∧
    -- passRises
    ((after .passRises (lit 5 ⟨[], .empty, 0, true, false⟩)).flipPending = true) := by decide +kernel

/-! ### Steps and timers: the numbers of R50, R53 and of the cross-fade of chapter 3 -/

theorem test_fade_levels : fadeLevel 0 700 1 60 = 11 ∧ fadeLevel 0 700 59 60 = 688 ∧ fadeLevel 0 700 60 60 = 700 ∧
    fadeLevel 700 0 1 60 = 689 := by decide

theorem test_ramp_steps : rampSteps 50 1000 = 200 ∧ rampSteps 50 700 = 140 ∧ rampSteps 50 3 = 1 ∧ rampSteps 7 550 = 16 ∧
    rampSteps 0 550 = 1 := by decide

theorem test_leaving_rates : leavingRate 1 = 250 ∧ leavingRate 4 = 63 ∧ leavingRate 15 = 17 ∧ leavingRate 60 = 5 ∧
    leavingRate 150 = 2 ∧ leavingRate 250 = 1 ∧ leavingRate 600 = 1 := by decide

/-- The list of circuit 120 in the cross-fade: station 20 leaves over the desk. -/
def crossFade (level desk : Nat) : List Contribution :=
  [⟨.station 20, .prompt, level, 800, .leaving 63⟩, steadyAt (.desk 2) .desk desk]

/-- Station 12 with its input 5 at the end of a long press and its silence timer at its limit of 2 s. -/
def pressing : State :=
  house.modStation 12 (fun st => { st with
    baselineRequired := false
    silence := some 2000
    inputs := st.inputs.set 5 ⟨true, false, .timing 0⟩ })

/-- Station 12 with its input 5 and its silence timer 5 ms short of that. -/
def waiting : State :=
  house.modStation 12 (fun st => { st with
    baselineRequired := false
    silence := some 1995
    inputs := st.inputs.set 5 ⟨true, false, .timing 5⟩ })

theorem test_time_passes : (step house = .next house.advanceTime) ∧
    ({ house with stepElapsed := 25, rst := true }).dueExpiries = [.step] := ⟨rfl, by decide⟩

theorem test_steps_and_timers :
    -- step
    (((after .step (lit 120 ⟨crossFade 800 300, .empty, 800, false, false⟩)).circuit 120) =
     ⟨crossFade 737 300, .empty, 737, true, true⟩) ∧
    -- step_held_and_arriving
    ((after .step { lit 120 ⟨crossFade 548 450, .empty, 548, false, false⟩ with hold := true }).circuit 120 =
       ⟨crossFade 548 450, .empty, 548, false, false⟩ ∧
     (after .step (lit 120 ⟨crossFade 485 450, .empty, 485, false, false⟩)).circuit 120 =
       ⟨[steadyAt (.desk 2) .desk 450], .empty, 450, true, true⟩) ∧
    -- longPressExpires
    ((after (.longPressExpires 12 5) pressing).events = [plainInput 12 5 .long] ∧
     (((after (.longPressExpires 12 5) pressing).station 12).inputs.get 5).phase = .given) ∧
    -- silenceExpires
    ((after (.silenceExpires 12) pressing).events = [.marker 12 .lost] ∧
     ((after (.silenceExpires 12) pressing).station 12).baselineRequired = true) ∧
    -- amendWindowExpires
    ((after .amendWindowExpires { house with amend := some 0 }).amend = none) := by decide

theorem test_timers_with_time_left :
    -- an AMEND restarts the window, and its expiry then does not come (R120)
    (let s := after .amendCommand { house with mode := .performance, amend := some 0 };
      (after .amendWindowExpires s).amend = some 120000) ∧
    exec .debounceExpires { house with egress := .pending 39 } = .next { house with egress := .pending 39 } ∧
    exec (.longPressExpires 12 5) waiting = .next waiting ∧ exec (.silenceExpires 12) waiting = .next waiting :=
  ⟨by decide, rfl, rfl, rfl⟩

/-! ### Accesses -/

/-- The house with station 12 baselined and all its inputs open. -/
def served : State := house.modStation 12 (fun st => { st with baselineRequired := false, silence := some 0 })

/-- A write of the byte +4 of station 12's cell, sequence 1. -/
def scan : WriteAccess := writeOf 0x0464 Lanes.both 0 0x0001

/-- Station 12 with a copy that shows some inputs closed. -/
def seen (inputs : Nat) (s : State) : State :=
  s.modStation 12 (fun st => { st with copy := { st.copy with inputs := BitVec.ofNat 16 inputs } })

theorem test_accesses_1 :
    -- stationCellWrite
    ((after (.stationCellWrite scan) (seen 0x0008 served)).events = [plainInput 12 3 .press] ∧
     ((after (.stationCellWrite scan) (seen 0x0008 served)).station 12).silence = some 0) ∧
    -- stationCellWrite_baseline
    ((after (.stationCellWrite scan) (seen 0x0018 house)).events = [plainInput 12 4 .on]) ∧
    -- forwardedAccess
    (Memory.readCell (after (.forwardedAccess (.write (writeOf 0x12345 ⟨false, true⟩ 0 0xABCD))) house).mem 0x12344 =
       0xAB00) ∧
    -- circuitWindowRead
    (((after (.circuitWindowRead (readOf 0x0850 Lanes.both 1)) { house with front := .b }).transfer.map
       (fun x => x.cycle.addr)) = some 0x1450 ∧
     (after (.circuitWindowRead (readOf 0x0850 Lanes.both 1)) State.reset).upData = bothBytes 0) ∧
    -- viewWindowRead
    ((after (.viewWindowRead (readOf 0x0CF0 Lanes.both 2))
       (lit 120 ⟨crossFade 611 500, .empty, 611, false, false⟩)).upData = bothBytes 500 ∧
     (after (.viewWindowRead (readOf 0x0CF0 Lanes.both 3)) house).upData = bothBytes 0xFFFF) ∧
    -- deskWrite
    ((after (.deskWrite (writeOf 0x08F0 Lanes.both 2 600)) house).deskQueue = [⟨2, 120, 600⟩] ∧
     (after (.deskWrite (writeOf 0x08F0 Lanes.both 2 1001)) house).counters.refusedDeskWrites = 1) := by decide

theorem test_accesses_2 :
    -- deskWriteJoins
    ((after .deskWriteJoins { house with port := .waitSlot ⟨2, 120, 600⟩ }).deskQueue = [⟨2, 120, 600⟩]) ∧
    -- deskClaim
    (((after .deskClaim { lit 120 ⟨crossFade 611 300, .empty, 611, false, false⟩ with
     deskQueue := [⟨2, 120, 500⟩] }).circuit 120) = ⟨crossFade 611 500, .empty, 611, false, false⟩) ∧
    -- deskClaim_removes
    (((after .deskClaim { lit 120 ⟨[steadyAt (.desk 2) .desk 450], .empty, 450, false, false⟩
     with deskQueue := [⟨2, 120, 0xFFFF⟩] }).circuit 120) = ⟨[], .empty, 0, true, true⟩) ∧
    -- refusedWrite
    ((after (.refusedWrite (writeOf 0x1000 Lanes.both 0 1)) house).counters.refusedOtherWrites = 1 ∧
     (after (.refusedWrite (writeOf 0x0006 Lanes.both 0 1)) house).causes = Cause.write.mark 0) ∧
    -- noByteAccess
    ((after (.noByteAccess (.read (readOf 0x0000 Lanes.neither 0))) house).upData = bothBytes 0) ∧
    -- control_reads
    (State.reset.controlCell 0x002A = 1024 ∧ State.reset.controlCell 0x002E = 1 ∧
     house.controlCell 0x0118 = 1 ∧ State.reset.controlCell 0x0040 = 0xFFFF) := by decide +kernel

/-! ### The control block's cells and commands -/

theorem test_control_cells_and_commands_1 :
    -- pendingCausesWrite
    ((after (.pendingCausesWrite 0xFF01) { house with causes := 3 }).causes = 2) ∧
    -- enableMaskWrite
    ((after (.enableMaskWrite 0xFFFF) house).mask = 511 ∧
     (after (.enableMaskWrite 2) { house with causes := 3 }).topCause = 2) ∧
    -- controlCellWrite
    ((after (.controlCellWrite 4) house).parameter = 4) ∧
    -- unknownCommand
    ((after (.unknownCommand 12) house).status = .refused .unknown 0 0 ∧
     (after (.unknownCommand 12) { house with status := .restartRunning }).counters.busyRefusals = 1) ∧
    -- commit
    ((after .commit house).status = .commitRunning (.loading 0) ∧
     (after .commit { house with mode := .performance }).status = .refused .locked 0 0) ∧
    -- closeMap
    ((after .closeMap house).mapClosed = true ∧
     (after .commit (after .closeMap house)).status = .refused .closed 0 0) := by decide

theorem test_control_cells_and_commands_2 :
    -- setMode
    ((after .setMode { house with parameter := 1 }).mode = .prepare ∧
     (after .setMode { house with parameter := 2 }).status = .refused .illegalTransition 0 0) ∧
    -- holdFades
    ((after .holdFades house).hold = true) ∧
    -- resumeFades
    ((after .resumeFades { house with hold := true }).hold = false) ∧
    -- amendCommand
    ((after .amendCommand { house with mode := .interval }).amendSeconds = 120 ∧
     (after .amendCommand house).status = .refused .notInShow 0 0) ∧
    -- restoreEgress
    (((after .restoreEgress { lit 212 ⟨[], .active, 1000, false, false⟩ with egress := .latchedCleared }).circuit 212).slot =
       .leaving 1000 13) ∧
    -- clearFaults
    (((after .clearFaults { house.modStation 12 (fun st => { st with suspect := true, faults := ⟨true, true, false, false⟩ })
       with parameter := 12 }).station 12).suspect = false) := by decide

theorem test_control_cells_and_commands_3 :
    -- clearCounters
    ((after .clearCounters { house with counters := ⟨1, 2, 3, 4, 5, 6, 7, 8⟩ }).counters =
     Counters.zero) ∧
    -- releaseDesk
    (((after .releaseDesk { lit 120 ⟨crossFade 611 300, .empty, 611, false, false⟩ with
     parameter := 0xFFFF }).circuit 120).list = [⟨.station 20, .prompt, 611, 800, .leaving 63⟩]) := by decide

/-! ### Publication and the map -/

theorem test_publication_and_map_1 :
    -- writeBackGrant
    (Memory.readCell (after .writeBackGrant (lit 40 ⟨[], .empty, 700, true, true⟩)).mem 0x1450 = 700 ∧
     (after .writeBackGrant (lit 40 ⟨[], .empty, 700, true, true⟩)).circuit 40 = ⟨[], .empty, 700, true, false⟩) ∧
    -- loaderReadGrant
    (((after .loaderReadGrant { house with status := .commitRunning (.loading 168) }).transfer.map
     (fun x => x.cycle.addr)) = some 0x2200) ∧
    -- frameClearGrant
    ((after .frameClearGrant State.reset).clear = some 1 ∧
     ((after .frameClearGrant { State.reset with clear := some 384 }).transfer.map (fun x => x.cycle.addr)) =
       some 0x1400) ∧
    -- transferEnd
    ((after .transferEnd (after .writeBackGrant (lit 40 ⟨[], .empty, 700, true, true⟩))).front = .b ∧
     (after .transferEnd { house with status := .commitRunning (.loading 20007),
                                      transfer := some ⟨.loader 20007 false, ⟨0xBFFE, false, Lanes.both, 0⟩⟩ }).status =
       .commitRunning .validating) ∧
    -- frameClearEnds
    ((after .frameClearEnds { lit 40 ⟨[], .empty, 700, false, false⟩ with clear := some 768 }).circuit 40 =
       ⟨[], .empty, 700, true, true⟩) ∧
    -- validationEnds
    ((after .validationEnds { house with standby := [(0x2002, 601)], status := .commitRunning .validating }).status =
       .refused .invalid 1 1) := by decide +kernel

theorem test_publication_and_map_2 :
    -- mapSwap
    ((after (.mapSwap []) { house with status := .commitRunning .swapPending }).status = .done 1 ∧
     (after (.mapSwap []) { house with status := .commitRunning .swapPending, mode := .performance }).status =
       .refused .locked 0 0) := by decide

/-- The theatre with the HOUSE ceilings of zone 0 at 300 in OPEN and 500 in NIGHT, and station 12 served at night. -/
def nightTheatre : Bank := ((theatre.setCell 0x2010 300).setCell 0x2020 500).setCell 0x2860 0x010D

/-- Circuit 40 lit by the desk at 500 over station 12 at 800. -/
def overNight : State :=
  { lit 40 ⟨[steadyAt (.desk 2) .desk 500, steadyAt (.station 12) .house 800], .empty, 500, false, false⟩ with
    active := nightTheatre, parameter := 4 }

/-- A swap to the empty map is pending, and station 12 ramps on circuit 40. -/
def swapping : State :=
  { lit 40 ⟨[⟨.station 12, .house, 500, 1000, .ramp 0 60 30 3⟩], .empty, 500, false, false⟩ with
    status := .commitRunning .swapPending, deskQueue := [⟨2, 40, 600⟩] }

/-- The swap above with sixteen removals queued that find nothing, and a desk write of 600 waiting at the port. -/
def swappingFull : State :=
  { swapping with port := .waitSlot ⟨2, 40, 600⟩, deskQueue := List.replicate 16 ⟨5, 7, 0xFFFF⟩ }

theorem test_waiting_write_joins_with_the_take :
    -- the take frees the slot, and the waiting write is the sixteenth entry (R159)
    ((after .deskClaim swappingFull).port = .idle ∧
     (after .deskClaim swappingFull).deskQueue = List.replicate 15 ⟨5, 7, 0xFFFF⟩ ++ [⟨2, 40, 600⟩] ∧
     (after .deskClaim swappingFull).circuits = swappingFull.circuits) ∧
    -- between two effects of a swap too: the seventeenth claim of the gap is the one that waited (R159, R175)
    ((after (.mapSwap [List.replicate 17 .deskClaim]) swappingFull).circuit 40 =
      ⟨[steadyAt (.desk 2) .desk 600], .empty, 600, true, true⟩) ∧
    ((after (.mapSwap [List.replicate 17 .deskClaim]) swappingFull).deskQueue = []) := by decide +kernel

theorem test_recompute_with_each_claim :
    -- the desk's 500 is removed under OPEN (300) and NIGHT brings 500 back: the circuit is owed (R44, R45, R129)
    ((after .setMode overNight).circuit 40 = ⟨[steadyAt (.station 12) .house 800], .empty, 500, true, true⟩) ∧
    -- a step between effects 3 and 5 finds the ended ramp STEADY (R175), and effect 5 removes it at fade time 0
    ((after (.mapSwap [[], [], [.step]]) swapping).circuit 40 = ⟨[], .empty, 0, true, true⟩) ∧
    -- a desk claim after effect 1 is judged against the new map, before the old contribution leaves
    ((after (.mapSwap [[.deskClaim]]) swapping).circuit 40 =
      ⟨[steadyAt (.desk 2) .desk 600], .empty, 600, true, true⟩) ∧
    ((after (.mapSwap [[.deskClaim]]) swapping).deskQueue = []) := by decide +kernel

/-! ### The Action Unit -/

/-- The night with the queue full of station 20's presses, and station 12's input 4 closed and not yet acted on. -/
def fullNight : State :=
  { house.modStation 12 (fun st => { st with
      baselineRequired := false, inputs := st.inputs.set 4 ⟨true, false, .idle⟩ }) with
    mode := .night, events := List.replicate 64 (plainInput 20 3 .press) }

theorem test_between_claims :
    -- a CLEAR FAULTS between the recording and the tests lifts the quarantine (R101)
    ((after .takeEntry (after .clearFaults (after (.takeEntry 2) { house with
       events := [.input 12 3 .press ⟨true, true, false⟩], parameter := 12 }))).counters.quarantineDrops = 0) ∧
    -- a SET_MODE to OPEN there finds the slot that the take has freed (R92, R99), and before the take it does not
    (let t := after .takeEntry (after .setMode (after (.takeEntry 2) fullNight));
      t.mode = .open_ ∧ t.events.length = 64 ∧ t.counters.queueLosses = 0) ∧
    ((after .takeEntry (after .setMode fullNight)).counters.queueLosses = 1) := by decide +kernel

theorem test_action_unit_1 :
    -- takeEntry
    ((after .takeEntry { house with events := [plainInput 12 4 .on] }).current =
       some ⟨plainInput 12 4 .on, .running 0 1⟩ ∧
     (((after .takeEntry { house with events := [plainInput 12 4 .on] }).station 12).inputs.get 4).acted = true) ∧
    -- takeEntry_drops
    ((after .takeEntry { house with events := [plainInput 12 4 .on], mode := .night }).counters.nightDrops = 1 ∧
     (after .takeEntry { house with events := [.input 12 3 .press ⟨true, true, false⟩] }).counters.quarantineDrops = 1) ∧
    -- lostMarker
    (((after .lostMarker { lit 40 ⟨[steadyAt (.station 12) .house 700], .empty, 700, false, false⟩ with
     current := some ⟨.marker 12 .lost, .passed⟩ }).circuit 40).list = []) ∧
    -- returnedMarker
    ((after .returnedMarker { house with current := some ⟨.marker 12 .returned, .passed⟩ }).causes = Cause.loss.mark 0) ∧
    -- set
    ((after .set (running 0 house)).circuit 40 =
       ⟨[⟨.station 12, .house, 0, 700, .fading 0 60 0⟩], .empty, 0, false, false⟩ ∧
     (after .step (after .set (running 0 house))).circuit 40 =
       ⟨[⟨.station 12, .house, 11, 700, .fading 0 60 1⟩], .empty, 11, true, true⟩) ∧
    -- toggle
    (((after .toggle (running 1 house)).circuit 40).list =
       [⟨.station 12, .house, 0, 800, .fading 0 16 0⟩] ∧
     ((after .toggle (running 1 (lit 40 ⟨[steadyAt (.station 7) .house 500], .empty, 500, false, false⟩))).circuit 40).list =
       [⟨.station 7, .house, 500, 500, .leaving 63⟩]) := by decide +kernel

theorem test_action_unit_2 :
    -- raise
    (((after .raise (running 2 house)).circuit 40).list =
     [⟨.station 12, .house, 0, 1000, .ramp 0 60 0 3⟩]) ∧
    -- lower
    (((after .lower (running 3 house)).circuit 40).list = [steadyAt (.station 12) .house 0]) ∧
    -- release
    (((after .release (running 4 (lit 40 ⟨[steadyAt (.station 12) .house 700], .empty, 700, false, false⟩))).circuit 40).list =
       [⟨.station 12, .house, 700, 700, .leaving 63⟩]) ∧
    -- scene
    ((after .scene (running 5 (lit 40 ⟨[steadyAt (.station 12) .house 700], .empty, 700, false, false⟩))).circuit 210 =
       ⟨[steadyAt (.station 12) .house 350], .empty, 350, true, true⟩ ∧
     (after .scene (running 5 (lit 40 ⟨[steadyAt (.station 12) .house 700], .empty, 700, false, false⟩))).circuit 40 =
       ⟨[], .empty, 0, true, true⟩) ∧
    -- mode
    ((after .mode (running 6 house)).mode = .prepare ∧
     (after .mode (running 6 { house with mode := .performance })).lastRefusal =
       (actionOf 6).refusal .illegalTransition) ∧
    -- hold
    ((after .hold (running 7 house)).hold = true) := by decide +kernel

theorem test_action_unit_3 :
    -- resume
    ((after .resume (running 8 { house with hold := true })).hold = false) ∧
    -- amend
    ((after .amend (running 9 { house with mode := .performance })).amend = some 120000) ∧
    -- restore
    ((after .restore (running 10 { house with egress := .latchedCleared })).egress = .clear ∧
     (after .restore (running 10 house)).lastRefusal.reason = .notLatched) := by decide

/-! ### The merge: the aisle circuit of chapter 2, in zone 3 -/

theorem test_merge :
    -- aisle_circuit
    (listLevel theatre .performance 210 [steadyAt (.station 5) .house 300, steadyAt (.station 7) .house 900] = 150 ∧
     listLevel theatre .open_ 210 [steadyAt (.station 7) .house 900, steadyAt (.station 5) .house 400] = 900 ∧
     listLevel theatre .performance 210 [steadyAt (.desk 2) .desk 600, steadyAt (.station 5) .house 300] = 600) := by decide

/-! ### States that meet the hypotheses of the obligations, each clause of them -/

theorem test_house_takes : house.takesCommand := ⟨rfl, rfl⟩

theorem test_house_granted (a : Access) : house.granted a := ⟨rfl, .inl rfl, rfl, .inl (by decide)⟩

theorem test_house_circuit (c : CircuitId) : house.circuit c = CircuitState.initial := Table.get_fill ..

theorem test_lit_other {c d : CircuitId} (cs : CircuitState) (h : c ≠ d) : (lit c cs).circuit d = CircuitState.initial :=
  (State.circuit_modCircuit_ne house _ h).trans (test_house_circuit d)

theorem test_house_pool : house.poolFree = 1024 := by decide +kernel

theorem test_all_circuits : allCircuits.length = 384 := List.length_finRange

theorem test_house_hasRoom (touch : CircuitId → Bool) (k : Nat) : (running k house).hasRoom (.station 12) touch := by
  refine ⟨?_, fun c _ _ => ?_⟩
  · show house.newRecords (.station 12) touch ≤ house.poolFree
    rw [test_house_pool]
    exact Nat.le_trans List.countP_le_length (test_all_circuits ▸ (by decide : (384 : Nat) ≤ 1024))
  · show (house.circuit c).list.length < 8
    rw [test_house_circuit]
    decide

theorem test_runs (k : Fin 11) (s : State) (h : s.active = theatre) :
    (running k.val s).runs k.val (actionOf k.val) := by
  refine ⟨TagSet.none, 1, rfl, by decide, ?_, ?_⟩
  · show theatre.actionRec k.val = (running k.val s).active.actionRec k.val
    unfold running
    rw [h]
  · revert k
    decide

/-- A list of `n` contributions of the stations from 40 on. -/
def crowd (n : Nat) : List Contribution :=
  ([40, 41, 42, 43, 44, 45, 46, 47].take n).map (fun k => steadyAt (.station k) .local_ 0)

/-- The house with every record of the pool in the lists of circuits 100 to 227. -/
def crowded : State :=
  house.mapCircuits (fun c cs => if 100 ≤ c.val && c.val < 228 then { cs with list := crowd 8 } else cs)

theorem test_witness_Idle :
    house.pending = [] ∧ house.dueExpiries = [] ∧ waiting.dueExpiries = [] ∧
    ({ house with stepElapsed := 25 }).dueExpiries = [.step] ∧
    ({ pressing with rst := true, egress := .pending 35, amend := some 5 }).dueExpiries = [] ∧
    ({ house with rst := true, egress := .pending 40, amend := some 0 }).dueExpiries = [.debounceExpires, .amendWindowExpires] ∧
    (house.modStation 12 (fun st => { st with silence := some 2000, inputs := st.inputs.set 5 ⟨true, false, .timing 0⟩
      })).dueExpiries = [.longPressExpires 12 5, .silenceExpires 12] := by decide

theorem test_witness_Power : ({ house with egrLine := true }).egrLine = true ∧ house.egrLine = false := ⟨rfl, rfl⟩

theorem test_witness_RstLine :
    house.rst = false ∧ ({ house with rst := true }).rst = true ∧
    ({ house with status := .commitRunning (.loading 20007) }).status = .commitRunning (.loading 20007) ∧
    ({ house with status := .done 3 }).status.running = false ∧
    ({ house with transfer := some ⟨.loader 9 false, ⟨0x2012, false, Lanes.both, 0⟩⟩ }).transfer =
      some ⟨.loader 9 false, ⟨0x2012, false, Lanes.both, 0⟩⟩ ∧
    resetMidRead.rst = true ∧ PortsOk resetMidRead ∧ (after (.rstRelease 1) resetMidRead).transfer ≠ none ∧
    (after (.rstRelease 1) resetMidRead).forwards (.read (readOf 0x10000 Lanes.both 0)) = true :=
  ⟨rfl, rfl, rfl, rfl, rfl, rfl, ⟨by decide, nofun, by decide, fun _ => ⟨rfl, rfl, rfl⟩⟩, by decide, rfl⟩

theorem test_witness_Restart : house.takesCommand ∧ house.egrLine = false ∧
    ({ house with egrLine := true }).takesCommand := ⟨⟨rfl, rfl⟩, rfl, ⟨rfl, rfl⟩⟩

theorem test_witness_ResetCause :
    (∃ t, exec (.power 1) house = .next t) ∧ house.rst = false ∧ (∃ t, exec .lineReset house = .next t) ∧
    house.takesCommand ∧ (∃ t, exec .restart house = .next t) ∧
    ({ house with status := .restartRunning, clear := some 768 }).clearComplete = true ∧
    (∃ t, exec .frameClearEnds { house with status := .restartRunning, clear := some 768 } = .next t) ∧
    (after .lineReset house).resetCause ≠ house.resetCause ∧ (after (.enableMaskWrite 1) house).mask ≠ house.mask :=
  ⟨⟨_, rfl⟩, rfl, ⟨_, rfl⟩, ⟨rfl, rfl⟩, ⟨_, rfl⟩, rfl, ⟨_, rfl⟩, by decide, by decide⟩

theorem test_witness_EgressLine :
    house.egress = .clear ∧ ({ house with egress := .latchedCleared }).egress = .latchedCleared ∧
    ({ house with egress := .pending 39 }).egress = .pending 39 ∧
    ({ house with egress := .latchedActive }).egress = .latchedActive := ⟨rfl, rfl, rfl, rfl⟩

theorem test_witness_Debounce :
    (theatre.circuit 212).egressMember = true ∧ (theatre.circuit 211).egressMember = false ∧
    ({ house with egress := .pending 40 }).egress = .pending 40 ∧ ({ house with egress := .pending 39 }).egress = .pending 39 ∧
    (∃ t, exec .egrAsserted { house with egress := .latchedCleared } = .next t) ∧
    (∃ t, exec .egrReleased { house with egress := .latchedActive } = .next t) :=
  ⟨rfl, rfl, rfl, rfl, ⟨_, rfl⟩, ⟨_, rfl⟩⟩

theorem test_witness_Restore :
    let latched := { lit 212 ⟨[], .active, 1000, false, false⟩ with egress := .latchedCleared }
    latched.takesCommand ∧ latched.egress = .latchedCleared ∧ (running 10 latched).runs 10 (actionOf 10) ∧
    (running 10 house).runs 10 (actionOf 10) ∧ (latched.circuit 212).slot = .active ∧
    theatre.defaultTime 212 = 20 ∧ theatre.defaultTime 40 = 0 :=
  ⟨⟨rfl, rfl⟩, rfl, test_runs 10 _ rfl, test_runs 10 _ rfl, rfl, by decide, by decide⟩

theorem test_witness_Step :
    ((lit 212 ⟨[], .leaving 1000 13, 1000, false, false⟩).circuit 212).slot = .leaving 1000 13 ∧
    distance 1000 (listLevel theatre .open_ 212 []) = 1000 ∧
    ((lit 212 ⟨[], .leaving 13 13, 13, false, false⟩).circuit 212).slot = .leaving 13 13 ∧ house.hold = false ∧
    ({ house with hold := true }).hold = true ∧ LevelsCurrent State.reset ∧
    sameLevels (lit 120 ⟨crossFade 800 300, .empty, 800, false, false⟩ |>.circuit 120)
      (stepCircuit theatre .open_ true 120 ⟨crossFade 800 300, .empty, 800, false, false⟩) = true :=
  ⟨rfl, by decide, rfl, rfl, rfl, fun c => by
    rw [show State.reset.circuit c = CircuitState.initial from Table.get_fill ..]
    exact ((show ∀ k, listLevel [] .open_ k [] = 0 by decide +kernel) c).symm, by decide⟩

theorem test_witness_Fade :
    (∃ x : Contribution, x.movement = .fading 0 4 2 ∧ 2 + 1 < 4) ∧ (∃ x : Contribution, x.movement = .fading 0 4 3 ∧ 4 ≤ 3 + 1) ∧
    (∃ x : Contribution, x.movement = .ramp 0 1 0 3 ∧ 1 ≤ 0 + 1) ∧ (∃ x : Contribution, x.movement = .ramp 0 2 0 3 ∧ 0 + 1 < 2) ∧
    (0 < 60 ∧ 60 ≤ 60 ∧ 0 ≤ 700) :=
  ⟨⟨⟨.desk 0, .desk, 0, 9, .fading 0 4 2⟩, rfl, by decide⟩, ⟨⟨.desk 0, .desk, 0, 9, .fading 0 4 3⟩, rfl, by decide⟩,
   ⟨⟨.desk 0, .desk, 0, 9, .ramp 0 1 0 3⟩, rfl, by decide⟩, ⟨⟨.desk 0, .desk, 0, 9, .ramp 0 2 0 3⟩, rfl, by decide⟩,
   by decide⟩

theorem test_witness_Leaving :
    let x : Contribution := ⟨.station 20, .prompt, 800, 800, .leaving 63⟩
    let desk := steadyAt (.desk 2) .desk
    x.movement = .leaving 63 ∧ (∀ y ∈ ([] : List Contribution) ++ [desk 300], y.isLeaving = false) ∧
    63 < distance x.current (listLevel theatre .open_ 120 [(desk 300).advance]) ∧
    distance x.current (listLevel theatre .open_ 120 [(desk 737).advance]) = 63 ∧
    63 < distance x.current (listLevel theatre .open_ 120 [(desk 900).advance]) := by decide

theorem test_two_leavers_front_first :
    -- the one in front arrives at the level with the one behind and goes; the one behind then chases the rest level 0
    stepList theatre .open_ false 120
      [⟨.station 20, .prompt, 460, 800, .leaving 63⟩, ⟨.station 12, .house, 400, 400, .leaving 17⟩] =
      [⟨.station 12, .house, 383, 400, .leaving 17⟩] := by decide

theorem test_witness_TimerExpiries :
    ((pressing.station 12).inputs.get 5).phase = .timing 0 ∧ pressing.rst = false ∧
    (pressing.station 12).silence = some 2000 ∧ (pressing.active.station 12).silenceLimit * 500 = 2000 ∧
    ((waiting.station 12).inputs.get 5).phase ≠ .timing 0 ∧ ({ pressing with rst := true }).rst = true ∧
    (waiting.station 12).silence = some 1995 ∧ (house.station 20).silence = none ∧ markerIn pressing.events 12 = none ∧
    markerIn [.marker 12 .returned] 12 = some .returned ∧ markerIn [.marker 12 .lost] 12 = some .lost := by decide

/-- The house while a write of another requester is in flight. -/
def inFlight : State := { house with transfer := some ⟨.frameClear, ⟨0x1000, true, Lanes.both, 0⟩⟩ }

theorem test_inFlight_awaits (a : Access) : inFlight.awaitsGrant a ∧
    ({ inFlight with port := .waitGrant a }).awaitsGrant a :=
  ⟨⟨rfl, .inl rfl, rfl, .inl nofun⟩, ⟨rfl, .inr rfl, rfl, .inl nofun⟩⟩

/-- The house after four upstream grants while the loader waits, whose turn it is (R161). -/
def fourthGrant : State := { house with runCount := 4, status := .commitRunning (.loading 0) }

theorem test_fourthGrant_awaits (a : Access) : fourthGrant.awaitsGrant a :=
  ⟨rfl, .inl rfl, rfl, .inr ⟨rfl, by decide +kernel⟩⟩

theorem test_witness_StationWrite :
    house.addresses 0x00460 (0x0400 + 8 * 12 + 0) ∧ house.addresses 0x00461 (0x0400 + 8 * 12 + 0) ∧
    house.addresses 0x00464 (0x0400 + 8 * 12 + 4) ∧ house.addresses 0x0077E (0x0400 + 8 * 111 + 6) ∧
    (⟨false, true⟩ : Lanes).any = true ∧ house.granted (.write scan) ∧ (theatre.station 12).enabled = true ∧
    (theatre.station 111).enabled = false ∧ inFlight.awaitsGrant (.write scan) ∧
    inFlight.addresses 0x00464 (0x0400 + 8 * 12 + 4) ∧ fourthGrant.awaitsGrant (.write scan) :=
  ⟨⟨rfl, by decide, .inl rfl⟩, ⟨rfl, by decide, .inr rfl⟩, ⟨rfl, by decide, .inl rfl⟩, ⟨rfl, by decide, .inl rfl⟩, rfl,
   test_house_granted _, rfl, rfl, (test_inFlight_awaits _).1, ⟨rfl, by decide, .inl rfl⟩, test_fourthGrant_awaits _⟩

theorem test_witness_InputChange :
    (theatre.binding 12 3).trigger = .momentary ∧ (theatre.binding 12 3).long.count = 0 ∧
    (theatre.binding 12 4).trigger = .maintained ∧ (theatre.binding 12 5).trigger = .momentary ∧
    (theatre.binding 12 5).long.count ≠ 0 ∧ (theatre.binding 12 6).trigger = .unused ∧
    InputState.initial.closed ≠ true := by decide

theorem test_witness_OrdinaryWrite :
    served.addresses 0x00464 (0x0400 + 8 * 12 + 4) ∧ scan.lanes.lo = true ∧ served.granted (.write scan) ∧
    (served.active.station 12).enabled = true ∧ (served.station 12).lost = false ∧
    (served.station 12).baselineRequired = false :=
  ⟨⟨rfl, by decide, .inl rfl⟩, rfl, ⟨rfl, .inl rfl, rfl, .inl (by decide)⟩, rfl, rfl, rfl⟩

/-- The house with station 12 LOST, and the queue as given. -/
def silent (l : List Entry) : State :=
  { house.modStation 12 (fun st => { st with lost := true }) with events := l }

/-- Station 12 LOST while its LOST marker is being executed. -/
def losing : State := { silent [] with current := some ⟨.marker 12 .lost, .passed⟩ }

theorem test_return_during_the_marker :
    -- input 4 closed and acted ON: the return compares with OFF, which the marker is to leave under RELEASE (R103)
    (after (.stationCellWrite scan) (seen 0x0010 (losing.modStation 12 (fun st => { st with
      inputs := st.inputs.set 4 ⟨true, true, .idle⟩ })))).events = [.marker 12 .returned, plainInput 12 4 .on] := by decide

theorem test_witness_BaselineWrite :
    house.addresses 0x00464 (0x0400 + 8 * 12 + 4) ∧ scan.lanes.lo = true ∧ house.granted (.write scan) ∧
    (house.active.station 12).enabled = true ∧ (house.station 12).baselineRequired = true ∧
    (∀ l, (silent l).granted (.write scan) ∧ ((silent l).station 12).lost = true) ∧
    losing.granted (.write scan) ∧ losing.current = some ⟨.marker 12 .lost, .passed⟩ ∧
    (losing.active.station 12).releaseOnLoss = true :=
  ⟨⟨rfl, by decide, .inl rfl⟩, rfl, test_house_granted _, rfl, rfl,
   fun _ => ⟨⟨rfl, .inl rfl, rfl, .inl (Nat.zero_lt_succ 3)⟩, rfl⟩,
   ⟨rfl, .inl rfl, rfl, .inl (Nat.zero_lt_succ 3)⟩, rfl, rfl⟩

theorem test_faults_found :
    -- CONTACT on equal raw bits of a DUAL station, GAP off the run of the sequence byte, LINE from bit 7 (R69 to R71)
    let r := { theatre.station 12 with dual := true }
    faultsFound r ⟨0x0001, 0xFFFE, 0x00, 0x7F⟩ 0xFF false = ⟨false, false, false⟩ ∧
    faultsFound r ⟨0x0001, 0xFFFF, 0x02, 0x80⟩ 0x00 false = ⟨true, true, true⟩ ∧
    faultsFound r ⟨0x1000, 0xFFFF, 0x02, 0x00⟩ 0x00 true = ⟨false, false, false⟩ := by decide

theorem test_held_write_does_nothing :
    -- the scan is held; it reaches SRAM, the copy and the queue at its grant alone (R157)
    (after (.stationCellWrite scan) inFlight).port = .waitGrant (.write scan) ∧
    (after (.stationCellWrite scan) inFlight).mem = inFlight.mem ∧
    (after (.stationCellWrite scan) inFlight).stations = inFlight.stations := by decide +kernel

theorem test_lifted_into_a_full_queue :
    -- the re-assertion of station 12 is lost: QLOSS alone stands afterwards, which makes no station SUSPECT (R75, R88)
    (let t := after .clearFaults { fullNight.modStation 12 (fun st => { st with
        suspect := true, faults := ⟨true, true, false, false⟩ }) with parameter := 0xFFFF };
      (t.station 12).faults = FaultSet.qlossOnly ∧ (t.station 12).suspect = false ∧ t.counters.queueLosses = 1 ∧
      t.events = fullNight.events) := by decide +kernel

theorem test_witness_ClearFaults :
    let s := house.modStation 12 (fun st => { st with suspect := true, baselineRequired := false })
    ({ s with parameter := 12 }).takesCommand ∧ ({ s with parameter := 12 }).parameter.toNat = 12 ∧
    (s.station 12).suspect = true ∧ (s.active.station 12).enabled = true ∧ (s.station 12).lost = false ∧
    (s.station 12).baselineRequired = false ∧ ({ s with parameter := 111 }).parameter.toNat = 111 ∧
    ({ s with parameter := 0xFFFF }).takesCommand ∧
    112 ≤ ({ s with parameter := 112 }).parameter.toNat ∧ ({ s with parameter := 112 }).parameter ≠ 0xFFFF :=
  ⟨⟨rfl, rfl⟩, rfl, rfl, rfl, rfl, rfl, rfl, ⟨rfl, rfl⟩, by decide, by decide⟩

theorem test_witness_Offer :
    (∀ e ∈ [plainInput 12 3 .press, plainInput 12 4 .on], e.isInput = true) ∧
    inputCount (List.replicate 63 (plainInput 12 3 .press)) = 63 ∧
    [plainInput 12 3 .press, plainInput 12 4 .on].drop (64 - 63) = [plainInput 12 4 .on] := by decide

theorem test_witness_TakeEntry :
    house.current = none ∧ house.swapPending = false ∧
    ({ house with events := [.marker 12 .lost] }).events = [.marker 12 .lost] ∧
    ((pressing.modStation 12 (fun st => { st with suspect := true })).station 12).suspect = true ∧
    (house.station 12).suspect = false ∧ (house.active.station 11).enabled = false ∧
    (house.active.station 12).enabled = true ∧ ({ house with mode := .night }).mode = .night ∧
    (house.active.station 12).night = false ∧ (house.active.station 20).night = true ∧
    2 ≤ ((house.station 12).faults.union ⟨true, false, true, false⟩).size := by decide

/-- The house with a press of station 12 held at a stage. -/
def held (stage : Stage) : State := { house with current := some ⟨plainInput 12 3 .press, stage⟩ }

theorem test_witness_TakeEntryClaims :
    (∀ stage, (held stage).current = some ⟨.input 12 3 .press TagSet.none, stage⟩) ∧
    ((held .recorded).station 12).suspect = false ∧
    (((held .recorded).modStation 12 (fun st => { st with suspect := true })).station 12).suspect = true ∧
    ((held .trusted).active.station 12).enabled = true ∧
    (({ house with current := some ⟨plainInput 11 0 .press, .trusted⟩ }).active.station 11).enabled = false ∧
    (held .trusted).mode ≠ .night ∧ ({ held .trusted with mode := .night }).mode = .night ∧
    ({ house with status := .commitRunning .swapPending }).swapPending = true ∧
    (house.current = none ∧ house.events = []) ∧
    (∃ u, exec (.takeEntry 1) (held .recorded) = .next u ∧ u.current ≠ none) ∧
    (∃ u, exec (.takeEntry 1) house = .next u ∧ u.current = none) :=
  ⟨fun _ => rfl, rfl, rfl, rfl, rfl, by decide, rfl, rfl, ⟨rfl, rfl⟩, ⟨_, rfl, by decide⟩, ⟨_, rfl, rfl⟩⟩

theorem test_witness_TakeSequence :
    house.current = none ∧ house.swapPending = false ∧ (house.station 12).suspect = false ∧
    ((house.station 12).faults.union (TagSet.mk true false false).faults).size < 2 ∧
    (house.active.station 12).enabled = true ∧ house.mode ≠ .night ∧ (house.active.station 20).night = true ∧
    (theatre.binding 12 4).press.count = 1 ∧ (theatre.binding 12 3).release.count = 0 ∧
    (theatre.binding 12 6).trigger = .unused ∧ (theatre.station 12).inputsUsed = 12 := by decide

theorem test_witness_Markers :
    ({ house with current := some ⟨.marker 12 .lost, .passed⟩ }).current = some ⟨.marker 12 .lost, .passed⟩ ∧
    ({ house with current := some ⟨.marker 12 .lost, .rampsEnded⟩ }).current = some ⟨.marker 12 .lost, .rampsEnded⟩ ∧
    ({ house with current := some ⟨.marker 12 .returned, .passed⟩ }).current = some ⟨.marker 12 .returned, .passed⟩ ∧
    (theatre.station 12).releaseOnLoss = true ∧ (theatre.station 20).releaseOnLoss = false := ⟨rfl, rfl, rfl, rfl, rfl⟩

theorem test_operands :
    -- CIRCUIT, GROUP and ZONE targets, the profile operand and the level of a scene, at the ends of their ranges
    theatre.inTarget ⟨0, 0, 383, 0, 0, false, 0⟩ 383 = true ∧
    Bank.inTarget [(0x2CFC, 1022), (0x2CFE, 2), (0x37FE, 383)] ⟨0, 1, 63, 0, 0, false, 0⟩ 383 = true ∧
    theatre.inTarget ⟨0, 2, 3, 0, 0, false, 0⟩ 212 = true ∧ theatre.inTarget ⟨0, 3, 0, 0, 0, false, 0⟩ 0 = false ∧
    theatre.operandTime 7 40 = 0 ∧ theatre.operandTime 8 212 = 20 ∧
    theatre.sceneLevel 2 210 = some 350 ∧ theatre.sceneLevel 2 211 = none := by decide

theorem test_witness_Set : (running 0 house).runs 0 (actionOf 0) ∧
    (running 0 house).hasRoom (.station 12) ((running 0 house).active.inTarget (actionOf 0).action) :=
  ⟨test_runs 0 _ rfl, test_house_hasRoom _ 0⟩

theorem test_witness_Toggle :
    let on := lit 40 ⟨[steadyAt (.station 7) .house 500], .empty, 500, false, false⟩
    (running 1 house).runs 1 (actionOf 1) ∧ (running 1 on).runs 1 (actionOf 1) ∧
    (running 1 on).active.inTarget (actionOf 1).action 40 = true ∧
    (∃ x ∈ ((running 1 on).circuit 40).list, x.cls = .house ∧ x.isLeaving = false) ∧
    (∀ c, ∀ x ∈ ((running 1 house).circuit c).list, x.cls = .house → x.isLeaving = true) ∧
    (running 1 house).hasRoom (.station 12) ((running 1 house).active.inTarget (actionOf 1).action) :=
  ⟨test_runs 1 _ rfl, test_runs 1 _ rfl, by decide, ⟨_, List.mem_singleton.2 rfl, rfl, rfl⟩,
   fun c x hx => absurd hx (by rw [show (running 1 house).circuit c = _ from test_house_circuit c]; exact List.not_mem_nil),
   test_house_hasRoom _ 1⟩

theorem test_witness_RaiseAndLower :
    (running 2 house).runs 2 (actionOf 2) ∧ (running 3 house).runs 3 (actionOf 3) ∧
    (running 2 house).hasRoom (.station 12) ((running 2 house).active.inTarget (actionOf 2).action) ∧
    (running 3 house).hasRoom (.station 12) ((running 3 house).active.inTarget (actionOf 3).action) :=
  ⟨test_runs 2 _ rfl, test_runs 3 _ rfl, test_house_hasRoom _ 2,
   test_house_hasRoom _ 3⟩

theorem test_witness_Release :
    (running 4 house).runs 4 (actionOf 4) ∧ (running 4 house).active.inTarget (actionOf 4).action 40 = true :=
  ⟨test_runs 4 _ rfl, by decide⟩

theorem test_witness_Scene :
    (running 5 house).runs 5 (actionOf 5) ∧
    (running 5 house).hasRoom (.station 12) ((running 5 house).inScene (actionOf 5).action) ∧
    (running 5 house).active.sceneLevel (actionOf 5).action.param 210 = some 350 ∧
    (actionOf 5).action.exclusive = true ∧ (running 5 house).inScene (actionOf 5).action 40 = false :=
  ⟨test_runs 5 _ rfl, test_house_hasRoom _ 5, by decide, by decide, by decide⟩

theorem test_witness_NoRoom :
    let touch := fun c : CircuitId => c == 40
    (∀ k : Fin 11, (running k.val crowded).runs k.val (actionOf k.val)) ∧
    crowded.poolFree < crowded.newRecords (.station 12) touch ∧
    (let full := lit 40 ⟨crowd 8, .empty, 0, false, false⟩;
      full.newRecords (.station 12) touch ≤ full.poolFree ∧ touch 40 = true ∧
      holds (full.circuit 40).list (.station 12) = false ∧ 8 ≤ (full.circuit 40).list.length) :=
  ⟨fun k => test_runs k _ rfl, by decide +kernel⟩

theorem test_witness_ModeRequests :
    ({ house with parameter := 1 }).takesCommand ∧ ({ house with parameter := 1 }).parameter.toNat = HouseMode.prepare.code ∧
    (house.mode, HouseMode.prepare) ∈ legalMoves ∧ (house.mode, HouseMode.interval) ∉ legalMoves ∧
    ({ house with parameter := 0 }).parameter.toNat = house.mode.code ∧
    4 < ({ house with parameter := 5 }).parameter.toNat ∧
    (running 6 house).runs 6 (actionOf 6) ∧ (actionOf 6).action.param = HouseMode.prepare.code ∧
    (running 6 { house with mode := .prepare }).mode = .prepare ∧
    ((running 6 { house with mode := .night }).mode, HouseMode.prepare) ∉ legalMoves :=
  ⟨⟨rfl, rfl⟩, rfl, by decide, by decide, rfl, by decide, test_runs 6 _ rfl, by decide, rfl, by decide⟩

theorem test_witness_NightAndOpen :
    ({ house with parameter := 4 }).takesCommand ∧ ({ house with parameter := 4 }).parameter.toNat = 4 ∧
    house.mode = .open_ ∧ house.parameter.toNat = 0 ∧ ({ house with mode := .night }).takesCommand ∧
    ({ house with mode := .interval }).takesCommand ∧ (served.active.station 12).enabled = true ∧
    (served.station 12).lost = false ∧ (served.station 12).baselineRequired = false ∧
    (served.station 12).suspect = false ∧ (4 : InputId).val < (served.active.station 12).inputsUsed ∧
    (served.active.binding 12 4).trigger = .maintained ∧ overNight.takesCommand ∧
    (let enter := running 0 { house with active := theatre.setCell 0x8006 0x0800 |>.setCell 0x8000 6 |>.setCell 0x8004 0 };
      enter.runs 6 ⟨12, 3, .press, 0, enter.active.actionRec 0⟩ ∧ (enter.active.actionRec 0).param = 4) ∧
    (let leave := running 0 { house with active := theatre.setCell 0x8006 0 |>.setCell 0x8000 6, mode := .night };
      leave.runs 6 ⟨12, 3, .press, 0, leave.active.actionRec 0⟩ ∧ (leave.active.actionRec 0).param = 0) :=
  ⟨⟨rfl, rfl⟩, rfl, rfl, rfl, ⟨rfl, rfl⟩, ⟨rfl, rfl⟩, rfl, rfl, rfl, rfl, by decide, by decide, ⟨rfl, rfl⟩,
   ⟨⟨TagSet.none, 1, rfl, by decide, rfl, by decide⟩, by decide⟩,
   ⟨⟨TagSet.none, 1, rfl, by decide, rfl, by decide⟩, by decide⟩⟩

theorem test_witness_HoldAndResume :
    house.takesCommand ∧ (running 7 house).runs 7 (actionOf 7) ∧ (running 8 house).runs 8 (actionOf 8) :=
  ⟨⟨rfl, rfl⟩, test_runs 7 _ rfl, test_runs 8 _ rfl⟩

theorem test_witness_Amend :
    ({ house with mode := .performance }).takesCommand ∧ house.takesCommand ∧ house.mode = .open_ ∧
    (running 9 { house with mode := .interval }).runs 9 (actionOf 9) ∧ (running 9 house).runs 9 (actionOf 9) ∧
    ({ house with amend := some 0 }).amend = some 0 ∧ ({ house with amend := some 1 }).amend ≠ some 0 ∧
    (∃ t, exec .amend (running 9 { house with mode := .interval }) = .next t) :=
  ⟨⟨rfl, rfl⟩, ⟨rfl, rfl⟩, rfl, test_runs 9 _ rfl, test_runs 9 _ rfl, rfl, by decide, _, rfl⟩

theorem test_witness_EffectiveLevel :
    let l := [steadyAt (.station 7) .house 900, steadyAt (.station 5) .house 400, steadyAt (.station 9) .local_ 50]
    l.filter (fun y => decide (y.cls = .house)) = [steadyAt (.station 7) .house 900, steadyAt (.station 5) .house 400] ∧
    (∀ y ∈ l, Cls.house.rank ≤ y.cls.rank) ∧ (theatre.circuit 210).mergeCode = 0 ∧
    (Bank.circuit [(0x2548, 0x0103)] 210).mergeCode = 1 := by decide

theorem test_witness_Recompute :
    effectiveLevel theatre .open_ 40 CircuitState.initial = CircuitState.initial.level ∧
    effectiveLevel theatre .open_ 212 ⟨[], .active, 0, false, false⟩ ≠ 0 := by decide

/-- The house with circuit 5 owed by the front frame alone: a flip is due. -/
def due : State := lit 5 ⟨[], .empty, 0, true, false⟩

theorem test_due_circuit (c : CircuitId) :
    (due.circuit c).level = 0 ∧ (due.circuit c).owedB = false ∧ (due.circuit 5).owedA = true := by
  refine ⟨?_, ?_, rfl⟩ <;>
  · by_cases h : (5 : CircuitId) = c
    · subst h
      rfl
    · rw [due, test_lit_other _ h]
      rfl

theorem test_witness_Flip :
    (∀ c, (due.circuit c).owes due.front.other = false) ∧ (due.circuit 5).owes due.front = true ∧ due.clear = none ∧
    due.transfer = none ∧ due.passHigh = false ∧ (∀ c, (house.circuit c).owes house.front = false) ∧
    ({ due with transfer := some ⟨.writeBack, ⟨0x1400, true, Lanes.both, 0⟩⟩ }).transfer =
      some ⟨.writeBack, ⟨0x1400, true, Lanes.both, 0⟩⟩ :=
  ⟨fun c => (test_due_circuit c).2.1, rfl, rfl, rfl, rfl, fun c => by rw [test_house_circuit]; rfl, rfl⟩

theorem test_witness_WriteBack :
    let owed := lit 383 ⟨[], .empty, 9, true, true⟩
    Memory.wf owed.mem = true ∧ owed.transfer = none ∧ owed.clear = none ∧ owed.upstreamWaits = false ∧
    (owed.circuit 383).owes owed.front.other = true ∧ (∀ d, d < 383 → (owed.circuit d).owes owed.front.other = false) ∧
    ({ owed with port := .waitGrant (.write scan), runCount := 4 }).runCount = 4 :=
  ⟨rfl, rfl, rfl, rfl, rfl, fun d hd => by rw [test_lit_other _ (Ne.symm (Fin.ne_of_lt hd))]; rfl, rfl⟩

theorem test_witness_FrameClear :
    Memory.wf State.reset.mem = true ∧ State.reset.clear = some 0 ∧ State.reset.transfer = none ∧
    State.reset.upstreamWaits = false ∧ ({ house with clear := some 767 }).clear = some 767 ∧
    (∀ j, State.reset.status ≠ .commitRunning (.loading j)) ∧
    ({ house with clear := some 768, status := .restartRunning }).status = .restartRunning ∧
    (∀ cycle, ({ house with clear := some 768 }).transfer ≠ some ⟨.frameClear, cycle⟩) :=
  ⟨rfl, rfl, rfl, rfl, rfl, fun _ h => (by cases h), rfl, fun _ h => (by cases h)⟩

theorem test_witness_Forwarded :
    house.forwards (.read (readOf 0x10000 Lanes.neither 0)) = true ∧ house.forwards (.write (writeOf 0x2000 Lanes.both 0 1)) = true ∧
    house.forwards (.read (readOf 0x1000 ⟨true, false⟩ 0)) = true ∧
    house.granted (.write (writeOf 0x2000 Lanes.both 0 1)) ∧ Memory.wf house.mem = true ∧
    (inFlight.awaitsGrant (.write (writeOf 0x2000 Lanes.both 0 1)) ∧
      inFlight.forwards (.write (writeOf 0x2000 Lanes.both 0 1)) = true) ∧
    (fourthGrant.awaitsGrant (.read (readOf 0x0400 Lanes.both 0)) ∧
      fourthGrant.forwards (.read (readOf 0x0400 Lanes.both 0)) = true) ∧
    ({ house with transfer := some ⟨.upstream, ⟨0x1000, false, Lanes.both, 7⟩⟩ }).transfer =
      some ⟨.upstream, ⟨0x1000, false, Lanes.both, 7⟩⟩ ∧
    (resetMidRead.transfer.map (fun x => x.requester)) = some .upstreamPast :=
  ⟨rfl, rfl, rfl, test_house_granted _, rfl, ⟨(test_inFlight_awaits _).1, rfl⟩, ⟨test_fourthGrant_awaits _, rfl⟩, rfl, rfl⟩

theorem test_forwarded_regions :
    -- at the ends of the regions of R155: which reads and which writes are forwarded, the map open and closed
    let reads := fun a => house.forwards (.read (readOf a Lanes.both 0))
    let writes := fun (s : State) a => s.forwards (.write (writeOf a Lanes.both 0 0))
    ([0x03FE, 0x0400, 0x077E, 0x0780, 0x07FE, 0x0800, 0x0AFE, 0x0B00, 0x0BFE, 0x0C00, 0x0EFE, 0x0F00].map reads =
      [false, true, true, true, true, false, false, true, true, false, false, true]) ∧
    ([0x0FFE, 0x1000, 0x12FE, 0x1300, 0x13FE, 0x1400, 0x16FE, 0x1700, 0x1FFE, 0x2000, 0xFFFE, 0x10000].map reads =
      [true, true, true, true, true, true, true, true, true, true, true, true]) ∧
    ([0x03FE, 0x0400, 0x0780, 0x0800, 0x0C00, 0x1000, 0x1400, 0x1FFE, 0x2000, 0xFFFE, 0x10000].map (writes house) =
      [false, false, true, false, false, false, false, true, true, true, true]) ∧
    ([0x1FFE, 0x2000, 0xFFFE, 0x10000].map (writes { house with mapClosed := true }) = [true, false, false, true]) := by
  decide

theorem test_witness_CircuitWindow :
    house.addresses 0x00800 (0x0800 + 2 * (0 : CircuitId).val) ∧ house.addresses 0x00AFF (0x0800 + 2 * (383 : CircuitId).val) ∧
    (⟨true, false⟩ : Lanes).any = true ∧ house.clear = none ∧ house.granted (.read (readOf 0x0800 Lanes.both 0)) ∧
    State.reset.clear = some 0 ∧ State.reset.upstreamReady = true ∧
    fourthGrant.clear = none ∧ fourthGrant.awaitsGrant (.read (readOf 0x0800 Lanes.both 0)) ∧
    fourthGrant.addresses 0x00800 (0x0800 + 2 * (0 : CircuitId).val) :=
  ⟨⟨rfl, by decide, .inl rfl⟩, ⟨rfl, by decide, .inr rfl⟩, rfl, rfl, test_house_granted _, rfl, rfl, rfl,
   test_fourthGrant_awaits _, ⟨rfl, by decide, .inl rfl⟩⟩

theorem test_witness_ViewWindow :
    house.addresses 0x00C00 (0x0C00 + 2 * (0 : CircuitId).val) ∧ house.addresses 0x00EFF (0x0C00 + 2 * (383 : CircuitId).val) ∧
    house.upstreamReady = true ∧
    ownContribution (crossFade 800 300) (.desk 2) = some (steadyAt (.desk 2) .desk 300) ∧
    (∀ x ∈ crossFade 800 300, x.owner ≠ .desk 3) :=
  ⟨⟨rfl, by decide, .inl rfl⟩, ⟨rfl, by decide, .inr rfl⟩, rfl, by decide, by decide⟩

theorem test_witness_DeskWrite :
    house.addresses 0x00AFE (0x0800 + 2 * (383 : CircuitId).val) ∧ Lanes.both.any = true ∧ house.upstreamReady = true ∧
    (1000 : Word).toNat ≤ 1000 ∧ ¬ ((1001 : Word).toNat ≤ 1000 ∨ (1001 : Word) = 0xFFFF) ∧
    ¬ ((0xFFFE : Word).toNat ≤ 1000 ∨ (0xFFFE : Word) = 0xFFFF) ∧
    (let queued := { house with deskQueue := List.replicate 15 ⟨0, 0, 0⟩ };
      queued.upstreamReady = true ∧ queued.deskQueue.length < 16) ∧
    (let queued := { house with deskQueue := List.replicate 16 ⟨0, 0, 0⟩ };
      queued.upstreamReady = true ∧ 16 ≤ queued.deskQueue.length) ∧
    ({ house with port := .waitSlot ⟨1, 2, 3⟩ }).port = .waitSlot ⟨1, 2, 3⟩ :=
  ⟨⟨rfl, by decide, .inl rfl⟩, rfl, rfl, by decide, by decide, by decide, ⟨rfl, by decide⟩, ⟨rfl, by decide⟩, rfl⟩

theorem test_witness_DeskClaim :
    ({ house with deskQueue := [⟨2, 120, 500⟩] }).deskQueue = [⟨2, 120, 500⟩] ∧
    (swappingFull.deskQueue = ⟨5, 7, 0xFFFF⟩ :: List.replicate 15 ⟨5, 7, 0xFFFF⟩ ∧
      swappingFull.port = .waitSlot ⟨2, 40, 600⟩) ∧
    (house.poolFree ≠ 0 ∧ (house.circuit 120).list.length < 8) ∧
    holds ((lit 120 ⟨crossFade 800 300, .empty, 800, false, false⟩).circuit 120).list (.desk 2) = true ∧
    ((lit 120 ⟨crossFade 800 300, .empty, 800, false, false⟩).circuit 120).list.any (fun x => decide (x.owner = .desk 2)) =
      true ∧
    (house.circuit 120).list.any (fun x => decide (x.owner = .desk 2)) = false ∧
    (crowded.poolFree = 0 ∧ holds (crowded.circuit 40).list (.desk 2) = false) ∧
    (let full := lit 40 ⟨crowd 8, .empty, 0, false, false⟩;
      full.poolFree ≠ 0 ∧ 8 ≤ (full.circuit 40).list.length ∧ holds (full.circuit 40).list (.desk 2) = false) := by
  decide +kernel

theorem test_witness_RefusedWrite :
    house.addresses 0x00800 0x0800 ∧ house.addresses 0x00AFE 0x0AFE ∧ house.addresses 0x00C00 0x0C00 ∧
    house.addresses 0x00EFE 0x0EFE ∧ house.addresses 0x01000 0x1000 ∧ house.addresses 0x012FE 0x12FE ∧
    house.addresses 0x01400 0x1400 ∧ house.addresses 0x016FE 0x16FE ∧ house.addresses 0x02000 0x2000 ∧
    house.addresses 0x0FFFE 0xFFFE ∧ house.addresses 0x003FE 0x03FE ∧ house.upstreamReady = true ∧
    ({ house with mapClosed := true }).upstreamReady = true :=
  ⟨⟨rfl, by decide, .inl rfl⟩, ⟨rfl, by decide, .inl rfl⟩, ⟨rfl, by decide, .inl rfl⟩, ⟨rfl, by decide, .inl rfl⟩,
   ⟨rfl, by decide, .inl rfl⟩, ⟨rfl, by decide, .inl rfl⟩, ⟨rfl, by decide, .inl rfl⟩, ⟨rfl, by decide, .inl rfl⟩,
   ⟨rfl, by decide, .inl rfl⟩, ⟨rfl, by decide, .inl rfl⟩, ⟨rfl, by decide, .inl rfl⟩, rfl, rfl⟩

theorem test_witness_ControlCells :
    house.upstreamReady = true ∧ ({ house with causes := 0x100, mask := 0x1FF }).causes.getLsbD 8 = true ∧
    ({ house with causes := 0x100, mask := 0x1FF }).mask.getLsbD 8 = true ∧
    (∀ j, j < 8 → ({ house with causes := 0x100, mask := 0x1FF }).causes.getLsbD j = false) ∧
    house.addresses 0x003FF 0x03FE ∧ house.addresses 0x00400 0x0400 ∧ Lanes.both.any = true :=
  ⟨rfl, rfl, rfl, by decide, ⟨rfl, by decide, .inr rfl⟩, ⟨rfl, by decide, .inl rfl⟩, rfl⟩

theorem test_control_cells :
    let s := { house with status := .refused .circuitFull 7 9, egrLine := true, egress := .latchedActive, hold := true,
                          amend := some 119001, mapClosed := true, front := .b,
                          lastRefusal := ⟨some (.desk 3), none, some .deskWrite, some 5, .poolExhausted⟩ }
    [0x0006, 0x0008, 0x000A, 0x0010, 0x0012, 0x0014, 0x0016, 0x0018, 0x002C, 0x002E].map s.controlNumber =
      [3 + 256 * 12, 7, 9, 0, 258, 1, 120, 1, 1, 1] ∧
    [0x0040, 0x0042, 0x0044, 0x0046, 0x0048, 0x0100, 0x0118, 0x01DE, 0x01E0, 0x0004].map s.controlNumber =
      [0x0103, 0xFFFF, 8, 5, 11, 0, 1, 0, 0, 0] := by decide +kernel

theorem test_witness_CommandCell :
    (let busy := { house with status := .restartRunning }; busy.upstreamReady = true ∧ busy.status.running = true) ∧
    house.takesCommand ∧ (12 ≤ (12 : Word).toNat ∧ (0 : Word).toNat = 0) := ⟨⟨rfl, rfl⟩, ⟨rfl, rfl⟩, by decide⟩

theorem test_witness_ImmediateCommands :
    house.takesCommand ∧ ({ house with parameter := 7 }).parameter.toNat = (7 : TagId).val ∧
    ({ house with parameter := 0xFFFF }).parameter = 0xFFFF ∧ 8 ≤ ({ house with parameter := 8 }).parameter.toNat ∧
    ({ house with parameter := 8 }).parameter ≠ 0xFFFF := ⟨⟨rfl, rfl⟩, rfl, rfl, by decide, by decide⟩

theorem test_witness_Commit :
    house.takesCommand ∧ house.mapClosed = false ∧ ({ house with mapClosed := true }).takesCommand ∧
    ({ house with mode := .performance }).amend = none ∧
    (let load := { house with status := .commitRunning (.loading 20007) };
      load.transfer = none ∧ load.upstreamWaits = false ∧ load.writeBackRequests = false) ∧ Bank.wf house.standby = true :=
  ⟨⟨rfl, rfl⟩, rfl, ⟨rfl, rfl⟩, rfl, by decide +kernel⟩

theorem test_witness_Validation :
    ({ house with status := .commitRunning .validating }).status = .commitRunning .validating ∧
    Bank.firstFault [(0x2002, 601)] = some (1, 1) ∧ Bank.firstFault [(0x2000, 601), (0x2002, 601)] = some (1, 0) := by
  decide

theorem test_record_checks :
    -- each check at both sides of a boundary (R20, R21, R22)
    (Bank.profileOk [(0x2000, 600)] 0 = true ∧ Bank.profileOk [(0x2000, 601)] 0 = false) ∧
    (Bank.zoneOk [(0x2022, 999)] 0 = true ∧ Bank.zoneOk [(0x2022, 1001)] 0 = false) ∧
    (Bank.circuitOk [(0x2200, 0x390F)] 0 = true ∧ Bank.circuitOk [(0x2200, 0x4000)] 0 = false ∧
      Bank.circuitOk [(0x2200, 0x0010)] 0 = false ∧ Bank.circuitOk [(0x2200, 0x0200)] 0 = false) ∧
    (Bank.stationOk [(0x2802, 0x0F10)] 0 = true ∧ Bank.stationOk [(0x2802, 0x0011)] 0 = false ∧
      Bank.stationOk [(0x2802, 0x0000)] 0 = false ∧ Bank.stationOk [(0x2B02, 0x0101)] 96 = false) ∧
    (Bank.memberOk [(0x3000, 383)] 0 = true ∧ Bank.memberOk [(0x3000, 384)] 0 = false ∧
      Bank.itemOk [(0x3800, 383), (0x3802, 1000)] 0 = true ∧ Bank.itemOk [(0x3802, 1001)] 0 = false) ∧
    (Bank.groupOk [(0x2C00, 1023), (0x2C02, 1)] 0 = true ∧ Bank.groupOk [(0x2C00, 1023), (0x2C02, 2)] 0 = false ∧
      Bank.groupOk [(0x2C02, 2)] 0 = false ∧ Bank.groupOk [(0x2C02, 2), (0x3002, 1)] 0 = true) ∧
    (Bank.sceneOk [(0x2D02, 2)] 0 = false ∧ Bank.sceneOk [(0x2D02, 2), (0x3804, 1)] 0 = true) ∧
    (Bank.actionOk [(0x8000, 11)] 0 = false ∧ Bank.actionOk [(0x8000, 0x0100)] 0 = false ∧
      Bank.actionOk [(0x8000, 0x0306), (0x8006, 0x0800)] 0 = true ∧
      Bank.actionOk [(0x8000, 0x0306), (0x8006, 0x0A00)] 0 = false) ∧
    (Bank.bindingOk [(0x4802, 0x0800), (0x8000, 0x0306)] 0 = false ∧
      Bank.bindingOk [(0x2800, 0x0010), (0x4802, 0x0800), (0x8000, 0x0306)] 0 = true ∧
      Bank.bindingOk [(0x4804, 0x0800), (0x8000, 2)] 0 = false ∧
      Bank.bindingOk [(0x4802, 0x0800), (0x8000, 2)] 0 = true ∧
      Bank.bindingOk [(0x4802, 0x0800), (0x4806, 0x0800), (0x8000, 2)] 0 = false) := by decide

theorem test_witness_Swap :
    (let s := { house with status := .commitRunning .swapPending };
      s.status = .commitRunning .swapPending ∧ s.current = none ∧ s.mode = .open_) ∧
    (let s := { house with status := .commitRunning .swapPending, mode := .performance };
      s.status = .commitRunning .swapPending ∧ s.current = none ∧ s.amend = none) ∧
    (let s := { house with status := .commitRunning .swapPending, mode := .interval, amend := some 5 };
      s.status = .commitRunning .swapPending ∧ s.current = none ∧ s.amend ≠ none) :=
  ⟨⟨rfl, rfl, rfl⟩, ⟨rfl, rfl, rfl⟩, ⟨rfl, rfl, by decide⟩⟩

/-! ### States in which the invariants hold and a step is taken -/

/-- The machine after POWER with PASS high. -/
def dark : State := { State.reset with passHigh := true }

theorem test_dark_station (n : StationId) : dark.station n = StationState.initial := Table.get_fill ..

theorem test_dark_circuit (c : CircuitId) : dark.circuit c = CircuitState.initial := Table.get_fill ..

theorem test_witness_SramAndPorts : (∃ t, step dark = .next t) ∧ Memory.wf dark.mem = true ∧ PortsOk dark :=
  ⟨⟨_, rfl⟩, rfl, ⟨by decide, nofun, by decide, fun h => absurd h (by decide)⟩⟩

theorem test_witness_StoreOk : StoreOk dark := by
  refine ⟨fun c => ?_, by unfold State.recordsInLists; decide +kernel⟩
  rw [test_dark_circuit]
  exact ⟨by decide, List.Pairwise.nil, List.nodup_nil⟩

theorem test_witness_LevelsCurrent : LevelsCurrent dark ∧ EscapeRoutesLit dark := by
  refine ⟨fun c => ?_, fun h => absurd h (by decide)⟩
  rw [test_dark_circuit]
  exact ((show ∀ k, listLevel [] .open_ k [] = 0 by decide +kernel) c).symm

theorem test_witness_HouseState : EgressFollowsLine dark ∧ WindowOnlyInShow dark ∧ ClosedMapQuiet dark :=
  ⟨rfl, fun _ => rfl, fun h => absurd h (by decide)⟩

theorem test_witness_QueueAndSupervision : QueueOk dark ∧ HoldOffOk dark ∧ QuarantineOk dark ∧ SupervisionOk dark := by
  refine ⟨⟨by decide, fun _ => Nat.zero_le 1⟩, ⟨fun h => absurd h (by decide), fun _ => rfl⟩, fun n => ?_, ?_, fun n => ?_⟩
  · rw [test_dark_station]
    rfl
  · intro n
    rw [test_dark_station]
    exact congrArg (fun b => b && _ && true) ((show ∀ m, (Bank.station [] m).enabled = false by decide) n).symm
  · rw [test_dark_station]
    exact fun h => absurd h (by decide)

theorem test_witness_LevelsOk : LevelsOk dark := by
  refine ⟨⟨by decide +kernel, fun h => absurd h (by decide)⟩, ⟨fun _ h => absurd h List.not_mem_nil, fun _ h => by cases h⟩,
    fun c => ?_, fun c => ?_, fun c => ?_, fun _ _ _ h => by cases h⟩
  · rw [test_dark_circuit]
    exact fun _ h => absurd h List.not_mem_nil
  · rw [test_dark_circuit]
    exact trivial
  · rw [test_dark_circuit]
    decide

theorem test_witness_FramesHold :
    FramesHold dark ∧ Memory.wf dark.mem = true ∧ FramesHold due ∧ due.clear = none ∧
      (after .passFalls due).front ≠ due.front := by
  refine ⟨⟨fun h => (by cases h), fun k hk j hj => ?_, fun k hk => ?_⟩, rfl,
    ⟨fun _ f c _ => ?_, fun k hk => (by cases hk), fun k hk => (by cases hk)⟩, rfl, by decide +kernel⟩
  · cases hk
    exact absurd hj (Nat.not_lt_zero j)
  · cases hk
    decide
  · rw [(test_due_circuit c).1]
    exact show wordOf Config.unwrittenByte Config.unwrittenByte = 0 by decide

theorem test_witness_MapChanges :
    (after (.power 0) house).active ≠ house.active ∧ house.takesCommand ∧ (after .restart house).active ≠ house.active ∧
    (after (.mapSwap []) { house with status := .commitRunning .swapPending }).active ≠ theatre ∧
    (after (.power 0) { house with mapClosed := true }).mapClosed = false ∧ (after .closeMap house).mapClosed = true ∧
    (∃ t, exec .step { house with mapClosed := true } = .next t) :=
  ⟨by decide, ⟨rfl, rfl⟩, by decide, by decide, rfl, rfl, ⟨_, rfl⟩⟩

theorem test_witness_SramWriters :
    (∃ t, exec .step house = .next t) ∧ house.clear = none ∧ (∀ w, Instr.step ≠ .stationCellWrite w) ∧
    (∀ a, Instr.step ≠ .forwardedAccess a) := ⟨⟨_, rfl⟩, rfl, fun _ h => (by cases h), fun _ h => (by cases h)⟩

end Sys2Proof.Tests
end

section
/-! The lighting map (spec chapter 1). O57: every step keeps the active map valid and every level held in range.
`LevelsOk` is cut into what it says of the banks, of the accepted desk values, of the circuits and of the sequence in
flight; each part is kept by every command but MAP_SWAP, whose effects are taken one by one with their interludes. -/

namespace Sys2Proof.Machine

/-! ### The parts of `LevelsOk` -/

/-- Every level a circuit holds is in range (R23, R37, R41). -/
structure CircuitInRange (cs : CircuitState) : Prop where
  contributions : ∀ x ∈ cs.list, ContributionOk x
  slot : SlotOk cs.slot
  stored : cs.level ≤ 1000

/-- Every circuit is in range. -/
def CircuitsInRange (s : State) : Prop := ∀ c, CircuitInRange (s.circuit c)

theorem levelsOk_iff {s : State} :
    LevelsOk s ↔ MapsOk s ∧ DeskValuesOk s ∧ CircuitsInRange s ∧ FlightOk s := by
  constructor
  · intro h
    exact ⟨h.maps, h.desk, fun c => ⟨h.contributions c, h.slots c, h.stored c⟩, h.flight⟩
  · rintro ⟨maps, desk, circuits, flight⟩
    exact ⟨maps, desk, fun c => (circuits c).contributions, fun c => (circuits c).slot,
      fun c => (circuits c).stored, flight⟩

theorem LevelsOk.circuits {s : State} (h : LevelsOk s) : CircuitsInRange s :=
  fun c => ⟨h.contributions c, h.slots c, h.stored c⟩

theorem MapsOk.of_same {s t : State} (h : MapsOk s) (ha : t.active = s.active)
    (hs : t.swapPending = true → s.swapPending = true ∧ t.standby = s.standby) : MapsOk t := by
  refine ⟨ha ▸ h.active, fun hp => ?_⟩
  obtain ⟨hp', hb⟩ := hs hp
  exact hb ▸ h.standby hp'

theorem MapsOk.of_changes {s t : State} {fs : List Field} (h : MapsOk s) (hc : Changes fs s t)
    (hfs : ∀ f ∈ [Field.active, .standby, .status], f ∉ fs) : MapsOk t := by
  have hstatus : t.status = s.status := hc .status (hfs _ (by decide))
  refine h.of_same (hc .active (hfs _ (by decide))) (fun hp => ⟨?_, hc .standby (hfs _ (by decide))⟩)
  unfold State.swapPending at hp ⊢
  rwa [hstatus] at hp

theorem DeskValuesOk.of_changes {s t : State} {fs : List Field} (h : DeskValuesOk s) (hc : Changes fs s t)
    (hfs : ∀ f ∈ [Field.port, .deskQueue], f ∉ fs) : DeskValuesOk t := by
  have hport : t.port = s.port := hc .port (hfs _ (by decide))
  have hqueue : t.deskQueue = s.deskQueue := hc .deskQueue (hfs _ (by decide))
  exact ⟨hqueue ▸ h.queued, hport ▸ h.waiting⟩

theorem CircuitsInRange.of_changes {s t : State} {fs : List Field} (h : CircuitsInRange s) (hc : Changes fs s t)
    (hfs : Field.circuits ∉ fs) : CircuitsInRange t := by
  intro c
  have hcircuits : t.circuits = s.circuits := hc .circuits hfs
  unfold State.circuit
  exact hcircuits ▸ h c

theorem FlightOk.of_changes {s t : State} {fs : List Field} (h : FlightOk s) (hc : Changes fs s t)
    (hfs : Field.current ∉ fs) : FlightOk t := by
  intro e next left hcur
  exact h e next left ((hc .current hfs).symm.trans hcur)

/-- What changes none of the fields that hold maps, desk writes and the entry in flight keeps `LevelsOk` where it keeps
the circuits in range. -/
theorem LevelsOk.of_changes {s t : State} {fs : List Field} (h : LevelsOk s) (hc : Changes fs s t)
    (hfs : ∀ f ∈ [Field.active, .standby, .status, .port, .deskQueue, .current], f ∉ fs)
    (hcircuits : CircuitsInRange t) : LevelsOk t :=
  levelsOk_iff.2 ⟨h.maps.of_changes hc (fun f hf => hfs f (by revert f; decide)),
    h.desk.of_changes hc (fun f hf => hfs f (by revert f; decide)), hcircuits,
    h.flight.of_changes hc (hfs _ (by decide))⟩

/-- `LevelsOk` reads seven fields, and of the command status only whether a swap is pending. -/
theorem LevelsOk.congr {s t : State} (h : LevelsOk s) (hactive : t.active = s.active)
    (hstandby : t.standby = s.standby) (hpending : t.swapPending = true → s.swapPending = true)
    (hport : t.port = s.port) (hqueue : t.deskQueue = s.deskQueue) (hcircuits : t.circuits = s.circuits)
    (hcurrent : t.current = s.current) : LevelsOk t := by
  have hcircuit : ∀ c, t.circuit c = s.circuit c := fun c => by unfold State.circuit; rw [hcircuits]
  exact levelsOk_iff.2 ⟨h.maps.of_same hactive (fun hp => ⟨hpending hp, hstandby⟩),
    ⟨hqueue ▸ h.desk.queued, hport ▸ h.desk.waiting⟩, fun c => hcircuit c ▸ h.circuits c,
    fun e next left hcur => h.flight e next left (hcurrent ▸ hcur)⟩

/-- The empty map is valid (R17, R19). -/
theorem valid_empty : Bank.empty.valid = true := by decide +kernel

/-! ### Circuits: claims keep every level in range -/

theorem circuitInRange_initial : CircuitInRange CircuitState.initial :=
  ⟨fun _ hx => absurd hx List.not_mem_nil, trivial, Nat.zero_le _⟩

/-- A recompute under a valid map stores a level, whatever was stored. -/
theorem circuitInRange_recompute {b : Bank} (hv : b.valid = true) (mode : HouseMode) (c : CircuitId)
    {cs : CircuitState} (hl : ∀ x ∈ cs.list, ContributionOk x) (hs : SlotOk cs.slot) :
    CircuitInRange (recompute b mode c cs) := by
  refine ⟨by simpa using hl, by simpa using hs, ?_⟩
  rw [recompute_level]
  exact effectiveLevel_le hv mode c (fun x hx => (hl x hx).current) hs

theorem CircuitInRange.moves {G A : Prop} {new : Nat} {b : Bank} {mode : HouseMode} {c : CircuitId}
    {x y : CircuitState} (hG : G) (hv : b.valid = true) (hm : Moves G A new b mode c x y)
    (h : CircuitInRange x) : CircuitInRange y := by
  obtain ⟨l, slot, hlist, hslot, hy⟩ := hm
  have hl : ∀ z ∈ l, ContributionOk z := hlist.levels hG h.stored h.contributions
  have hs : SlotOk slot := hslot.range hG h.stored h.contributions h.slot
  rcases hy with rfl | ⟨rfl, -⟩
  · exact circuitInRange_recompute hv mode c hl hs
  · exact ⟨hl, hs, h.stored⟩

theorem CircuitInRange.movesMany {G A : Prop} {b : Bank} {mode : HouseMode} {c : CircuitId} {x y : CircuitState}
    (hG : G) (hv : b.valid = true) (hm : Relation.ReflTransGen (Moves G A 0 b mode c) x y)
    (h : CircuitInRange x) : CircuitInRange y := by
  induction hm with
  | refl => exact h
  | tail _ hstep ih => exact ih.moves hG hv hstep

theorem CircuitsInRange.takesRecords {G A : Prop} {s t : State} (hG : G) (hv : s.active.valid = true)
    (hm : TakesRecords G A s t) (h : CircuitsInRange s) : CircuitsInRange t := by
  intro c
  obtain ⟨g, -, hmoves⟩ := hm.circuits
  obtain ⟨y, hfirst, hrest⟩ := hmoves c
  have hy : CircuitInRange y := by
    rcases hfirst with rfl | hfirst
    · exact h c
    · exact (h c).moves hG hv hfirst
  exact hy.movesMany hG hv hrest

theorem CircuitsInRange.movesAll {s t : State} (hv : s.active.valid = true) (hm : MovesAll True False s t)
    (h : CircuitsInRange s) : CircuitsInRange t := h.takesRecords trivial hv hm.takes

theorem CircuitsInRange.takesInTurn {G A : Prop} {s t : State} (hG : G) (hv : s.active.valid = true)
    (hm : TakesInTurn G A s t) (h : CircuitsInRange s) : CircuitsInRange t := by
  have both : t.active.valid = true ∧ CircuitsInRange t := by
    induction hm with
    | refl => exact ⟨hv, h⟩
    | tail _ hstep ih => exact ⟨hstep.active ▸ ih.1, ih.2.takesRecords hG ih.1 hstep⟩
  exact both.2

theorem CircuitsInRange.recomputeAll {s : State} (hv : s.active.valid = true) (h : CircuitsInRange s) :
    CircuitsInRange s.recomputeAll := by
  intro c
  rw [circuit_recomputeAll]
  exact circuitInRange_recompute hv s.mode c (h c).contributions (h c).slot

/-! ### Circuits: changes of mode (R128 to R130) -/

/-- A claim on a list, made of two that follow one another. -/
theorem ListFrom.trans {G : Prop} {new : Nat} {x : CircuitState} {l m : List Contribution}
    (h1 : ListFrom G 0 x l) (h2 : ListFrom G new { x with list := l } m) : ListFrom G new x m where
  ok h := h2.ok (h1.ok h)
  length := h2.length.trans (Nat.add_le_add_right h1.length new)
  levels hG hl h := h2.levels hG hl (h1.levels hG hl h)

theorem movesAll_nightClaim {G A : Prop} (s : State) : MovesAll G A s s.nightClaim :=
  movesAll_updateLists s (fun c _ => (listFrom_ends (s.circuit c) _).trans (listFrom_leaves _ _ _))

theorem CircuitsInRange.enterEffects {s : State} (hv : s.active.valid = true) (h : CircuitsInRange s)
    (m : HouseMode) : CircuitsInRange (s.enterEffects m) := by
  cases m with
  | night => exact (h.movesAll hv (movesAll_nightClaim s) : CircuitsInRange s.nightClaim)
  | open_ =>
    show CircuitsInRange s.enterOpen
    unfold State.enterOpen
    dsimp only
    split
    · exact CircuitsInRange.movesAll (s := { s with hold := false, amend := none }) hv (movesAll_offerInputs _ _) h
    · exact h
  | prepare => exact h
  | performance => exact h
  | interval => exact h

theorem CircuitsInRange.changeMode {s : State} (hv : s.active.valid = true) (h : CircuitsInRange s)
    (m : HouseMode) : CircuitsInRange (s.changeMode m) := by
  have hactive : (s.enterEffects m).active = s.active := changes_enterEffects s m .active (by decide)
  exact CircuitsInRange.recomputeAll (s := { s.enterEffects m with mode := m }) (hactive ▸ hv)
    (h.enterEffects hv m)

theorem circuitsInRange_requestMode {s t : State} {m : HouseMode} (hv : s.active.valid = true)
    (h : CircuitsInRange s) (ht : s.requestMode m = .ok t) : CircuitsInRange t := by
  unfold State.requestMode at ht
  split at ht
  · cases ht
    exact h
  split at ht
  · cases ht
    exact h.changeMode hv m
  · cases ht

/-! ### How an offered command and an action of a sequence run -/

/-- A command offered at the command cell is not taken, is counted as busy, or is taken (R169). -/
theorem offerCommand_cases (s : State) (v : Word) (act : State → State) :
    s.offerCommand v act = s ∨
    s.offerCommand v act = { s with command := v, counters := s.counters.bump .busyRefusals } ∨
    (s.takesCommand ∧ s.offerCommand v act = act { s with command := v }) := by
  cases hready : s.upstreamReady with
  | false => exact .inl (by unfold State.offerCommand; rw [hready]; rfl)
  | true =>
    cases hrun : s.status.running with
    | true => exact .inr (.inl (offerCommand_busy hready hrun v act))
    | false => exact .inr (.inr ⟨⟨hready, hrun⟩, offerCommand_taken ⟨hready, hrun⟩ v act⟩)

/-- What an offered command leaves, where it is not taken and where it is. -/
theorem offerCommand_induction {P : State → Prop} {s : State} {v : Word} {act : State → State}
    (hs : P s) (hbusy : P { s with command := v, counters := s.counters.bump .busyRefusals })
    (htaken : s.takesCommand → P (act { s with command := v })) : P (s.offerCommand v act) := by
  rcases offerCommand_cases s v act with e | e | ⟨ht, e⟩ <;> rw [e]
  · exact hs
  · exact hbusy
  · exact htaken ht

/-- An action row finds no action of its kind, or its claim is accepted or refused (R108). -/
theorem runAction_cases (s : State) (k : ActionKind) (claim : RunningAction → Except Reason State) :
    s.runAction k claim = s ∨
    (∃ a t, claim a = .ok t ∧ s.runAction k claim = t.finishAction) ∨
    (∃ a r, s.runAction k claim = (s.refuseAction a r).finishAction) := by
  unfold State.runAction
  split
  · exact .inl rfl
  · next a _ =>
    split
    · next t ht => exact .inr (.inl ⟨a, t, ht, rfl⟩)
    · next r _ => exact .inr (.inr ⟨a, r, rfl⟩)

/-! ### Circuits: every command but the swap -/

theorem circuitsInRange_fill {s : State} (h : s.circuits = Table.fill 384 CircuitState.initial) :
    CircuitsInRange s := by
  intro c
  unfold State.circuit
  rw [h, Table.get_fill]
  exact circuitInRange_initial

theorem circuits_restarted (s : State) :
    s.restarted.beginFrameClear.circuits = Table.fill 384 CircuitState.initial :=
  changes_beginFrameClear s.restarted .circuits (by decide)

theorem circuitsInRange_setMode {s t : State} (he : execSetMode s = .next t) (hv : s.active.valid = true)
    (h : CircuitsInRange s) : CircuitsInRange t := by
  cases he
  refine offerCommand_induction h h (fun _ => ?_)
  dsimp only
  split
  · next m _ =>
    unfold State.settleCommand
    split
    · next u hu =>
      exact (circuitsInRange_requestMode (s := { s with command := 3 }) hv h hu).of_changes
        (changes_commandDone u 0) (by decide)
    · exact h
  · exact h

theorem circuitsInRange_mode {s t : State} (he : execMode s = .next t) (hv : s.active.valid = true)
    (h : CircuitsInRange s) : CircuitsInRange t := by
  cases he
  rcases runAction_cases s .mode s.claimMode with e | ⟨a, t, ht, e⟩ | ⟨a, r, e⟩ <;> rw [e]
  · exact h
  · unfold State.claimMode at ht
    split at ht
    · exact (circuitsInRange_requestMode hv h ht).of_changes (changes_finishAction t) (by decide)
    · cases ht
  · exact h

/-- Paying a write-back moves no level. -/
theorem circuitInRange_clearOwed {cs : CircuitState} (h : CircuitInRange cs) (f : Frame) :
    CircuitInRange (cs.clearOwed f) := by
  cases f <;> exact ⟨h.contributions, h.slot, h.stored⟩

theorem circuitsInRange_writeBackGrant {s t : State} (he : execWriteBackGrant s = .next t)
    (h : CircuitsInRange s) : CircuitsInRange t := by
  unfold execWriteBackGrant at he
  split at he
  · split at he
    · next k _ =>
      cases he
      refine CircuitsInRange.of_changes (fun c => ?_) (changes_internalWrite _ _ _ _) (by decide)
      by_cases hk : k = c
      · subst hk
        rw [State.circuit_modCircuit_self]
        exact circuitInRange_clearOwed (h k) s.back
      · rw [State.circuit_modCircuit_ne s _ hk]
        exact h c
    · cases he
      exact h
  · cases he
    exact h

theorem circuitsInRange_frameClearEnds {s t : State} (he : execFrameClearEnds s = .next t)
    (h : CircuitsInRange s) : CircuitsInRange t := by
  unfold execFrameClearEnds at he
  split at he
  · cases he
    refine CircuitsInRange.of_changes ?_ (changes_finishRestart _) (by decide)
    intro c
    show CircuitInRange ((s.mapCircuits _).circuit c)
    rw [State.circuit_mapCircuits]
    exact ⟨(h c).contributions, (h c).slot, (h c).stored⟩
  · cases he
    exact h

theorem exec_circuitsInRange {c : Instr} {s t : State} (he : exec c s = .next t)
    (hc : ∀ gaps, c ≠ .mapSwap gaps) (h : LevelsOk s) : CircuitsInRange t := by
  by_cases hclaims : Instr.claims c = true
  · exact h.circuits.takesInTurn h h.maps.active (exec_moves (A := False) he hclaims (fun _ => id))
  · cases c with
    | power straps =>
      cases he
      exact circuitsInRange_fill rfl
    | restart =>
      cases he
      exact offerCommand_induction h.circuits h.circuits (fun _ => circuitsInRange_fill (circuits_restarted _))
    | setMode => exact circuitsInRange_setMode he h.maps.active h.circuits
    | mode => exact circuitsInRange_mode he h.maps.active h.circuits
    | writeBackGrant => exact circuitsInRange_writeBackGrant he h.circuits
    | frameClearEnds => exact circuitsInRange_frameClearEnds he h.circuits
    | mapSwap gaps => exact absurd rfl (hc gaps)
    | _ => exact absurd rfl hclaims

/-! ### The sequence in flight (R10, R108) -/

theorem flightOk_of_none {s : State} (h : s.current = none) : FlightOk s := by
  intro e next left hcur
  rw [h] at hcur
  cases hcur

theorem flightOk_holdAt {s : State} {e : Entry} {stage : Stage} (h : ∀ next left, stage ≠ .running next left) :
    FlightOk (s.holdAt e stage) := by
  intro e' next left hcur
  cases hcur
  exact absurd rfl (h next left)

theorem flightOk_finishAction {s : State} (h : FlightOk s) : FlightOk s.finishAction := by
  intro e next left hcur
  unfold State.finishAction at hcur
  dsimp only at hcur
  split at hcur
  · next f hf =>
    obtain ⟨e', stage⟩ := f
    cases stage with
    | running n l =>
      have := h e' n l hf
      unfold InFlight.advance at hcur
      dsimp only at hcur
      split at hcur
      · cases hcur
      · cases hcur
        omega
    | _ => cases hcur
  · cases hcur

theorem flightOk_runAction {fs : List Field} {s : State} {k : ActionKind}
    {claim : RunningAction → Except Reason State} (hclaim : ∀ a, Requests fs s (claim a))
    (hfs : Field.current ∉ fs) (h : FlightOk s) : FlightOk (s.runAction k claim) := by
  rcases runAction_cases s k claim with e | ⟨a, t, ht, e⟩ | ⟨a, r, e⟩ <;> rw [e]
  · exact h
  · exact flightOk_finishAction (h.of_changes (hclaim a t ht) hfs)
  · exact flightOk_finishAction (h.of_changes (changes_refuseAction s a r) (by decide))

/-- A sequence that begins is a run of the action pool of a valid map (R21). -/
theorem flightOk_beginSequence {s : State} (hv : s.active.valid = true) (n : StationId) (i : InputId)
    (k : EventKind) (t : TagSet) : FlightOk (s.beginSequence n i k t) := by
  intro e next left hcur
  have hseq : sequenceInFlight s.active n i k t = some ⟨e, .running next left⟩ := hcur
  unfold sequenceInFlight at hseq
  dsimp only at hseq
  split at hseq
  · cases hseq
  · cases hseq
    exact sequence_le hv n i k

theorem flightOk_testSuspect (s : State) (e : Entry) : FlightOk (s.testSuspect e) := by
  unfold State.testSuspect
  split
  · exact flightOk_of_none rfl
  · exact flightOk_holdAt (fun _ _ => nofun)

theorem flightOk_testMapAndMode (s : State) (e : Entry) : FlightOk (s.testMapAndMode e) := by
  unfold State.testMapAndMode
  dsimp only
  split
  · exact flightOk_of_none rfl
  split
  · exact flightOk_of_none rfl
  · exact flightOk_holdAt (fun _ _ => nofun)

theorem flightOk_entryClaim {s : State} (hv : s.active.valid = true) (h : FlightOk s) (e : Entry) (stage : Stage) :
    FlightOk (s.entryClaim e stage) := by
  cases stage with
  | taken => exact flightOk_holdAt (fun _ _ => nofun)
  | recorded => exact flightOk_testSuspect s e
  | trusted => exact flightOk_testMapAndMode s e
  | passed =>
    cases e with
    | input n i k t => exact flightOk_holdAt (fun _ _ => nofun)
    | marker n k => exact h
  | rampsEnded =>
    cases e with
    | input n i k t => exact flightOk_beginSequence hv n i k t
    | marker n k => exact h
  | running next left => exact h

theorem flightOk_takeClaim {s : State} (hv : s.active.valid = true) (h : FlightOk s) : FlightOk s.takeClaim := by
  unfold State.takeClaim
  split
  · exact flightOk_entryClaim hv h _ _
  split
  · exact h
  split
  · exact h
  · intro e next left hcur
    cases hcur

theorem flightOk_takeClaims (claims : Nat) {s : State} (hv : s.active.valid = true) (h : FlightOk s) :
    FlightOk (s.takeClaims claims) := by
  induction claims generalizing s with
  | zero => exact h
  | succ claims ih =>
    have hactive : s.takeClaim.active = s.active := changes_takeClaim s .active (by decide)
    unfold State.takeClaims
    split
    · exact flightOk_takeClaim hv h
    · exact ih (hactive ▸ hv) (flightOk_takeClaim hv h)

theorem flightOk_lostClaim {s : State} (h : FlightOk s) : FlightOk s.lostClaim := by
  unfold State.lostClaim
  split
  · exact flightOk_holdAt (fun _ _ => nofun)
  · exact flightOk_of_none rfl
  · exact h

theorem flightOk_lostClaims (claims : Nat) {s : State} (h : FlightOk s) : FlightOk (s.lostClaims claims) := by
  induction claims generalizing s with
  | zero => exact h
  | succ claims ih => exact ih (flightOk_lostClaim h)

theorem flightOk_returnedMarker {s t : State} (he : execReturnedMarker s = .next t) (h : FlightOk s) :
    FlightOk t := by
  unfold execReturnedMarker at he
  split at he <;> cases he
  · exact flightOk_of_none rfl
  · exact h

theorem requests_hold (s : State) (v : Bool) : Requests [.hold] s (.ok { s with hold := v }) := by
  intro t ht
  cases ht
  intro f hf
  cases f with
  | hold => exact absurd (List.mem_singleton_self _) hf
  | _ => rfl

theorem exec_flightOk {c : Instr} {s t : State} (he : exec c s = .next t) (hc : ∀ gaps, c ≠ .mapSwap gaps)
    (hv : s.active.valid = true) (h : FlightOk s) : FlightOk t := by
  cases c with
  | power straps =>
    cases he
    exact flightOk_of_none rfl
  | restart =>
    cases he
    refine offerCommand_induction h h (fun _ => flightOk_of_none ?_)
    exact changes_beginFrameClear _ .current (by decide)
  | takeEntry claims =>
    cases he
    exact flightOk_takeClaims claims hv h
  | lostMarker claims =>
    cases he
    exact flightOk_lostClaims claims h
  | returnedMarker => exact flightOk_returnedMarker he h
  | set =>
    cases he
    exact flightOk_runAction (fun a => requests_claimAsks s _ _) (by decide) h
  | toggle =>
    cases he
    exact flightOk_runAction (requests_claimToggle s) (by decide) h
  | raise =>
    cases he
    exact flightOk_runAction (fun a => requests_claimAsks s _ _) (by decide) h
  | lower =>
    cases he
    exact flightOk_runAction (fun a => requests_claimAsks s _ _) (by decide) h
  | release =>
    cases he
    exact flightOk_runAction (fun a => requests_leaveWith s _ _ _) (by decide) h
  | scene =>
    cases he
    exact flightOk_runAction (requests_claimScene s) (by decide) h
  | mode =>
    cases he
    exact flightOk_runAction (requests_claimMode s) (by decide) h
  | hold =>
    cases he
    exact flightOk_runAction (fun _ => requests_hold s true) (by decide) h
  | resume =>
    cases he
    exact flightOk_runAction (fun _ => requests_hold s false) (by decide) h
  | amend =>
    cases he
    exact flightOk_runAction (fun _ => requests_requestAmend s) (by decide) h
  | restore =>
    cases he
    exact flightOk_runAction (fun _ => requests_requestRestore s) (by decide) h
  | mapSwap gaps => exact absurd rfl (hc gaps)
  | _ => exact h.of_changes (changes_of_exec he) (by simp only [touched]; decide)

/-! ### Accepted desk values (R158, R159) -/

theorem deskValuesOk_takeAtGrant {fs : List Field} {s : State} (a : Access) {work : State → State}
    (hwork : ∀ u, Changes fs u (work u)) (hfs : ∀ f ∈ [Field.port, .deskQueue], f ∉ fs) (h : DeskValuesOk s) :
    DeskValuesOk (s.takeAtGrant a work) := by
  unfold State.takeAtGrant
  split
  · exact h
  split
  · refine DeskValuesOk.of_changes ?_ (hwork _) hfs
    exact ⟨h.queued, fun _ hd => nomatch hd⟩
  · exact ⟨h.queued, fun _ hd => nomatch hd⟩

theorem deskValuesOk_acceptDesk {s : State} {d : DeskEntry} (hd : deskValueOk d.value = true)
    (h : DeskValuesOk s) : DeskValuesOk (s.acceptDesk d) := by
  unfold State.acceptDesk
  split
  · refine ⟨fun e he => ?_, h.waiting⟩
    rcases List.mem_append.1 he with he | he
    · exact h.queued e he
    · exact List.mem_singleton.1 he ▸ hd
  · refine ⟨h.queued, fun e he => ?_⟩
    cases he
    exact hd

theorem deskValuesOk_deskWrite {w : WriteAccess} {s t : State} (he : execDeskWrite w s = .next t)
    (h : DeskValuesOk s) : DeskValuesOk t := by
  unfold execDeskWrite at he
  split at he
  · split at he
    · cases he
      exact h
    split at he <;> cases he
    · next hw =>
      rw [Bool.and_eq_true] at hw
      exact deskValuesOk_acceptDesk hw.2 h
    · exact h.of_changes (changes_refuseWrite s _) (by decide)
  · cases he
    exact h

theorem deskValuesOk_restarted {s : State} (h : DeskValuesOk s) : DeskValuesOk s.restarted.beginFrameClear := by
  refine ⟨fun d hd => ?_, fun d hd => ?_⟩
  · rw [changes_beginFrameClear s.restarted .deskQueue (by decide)] at hd
    exact absurd hd List.not_mem_nil
  · unfold State.beginFrameClear at hd
    dsimp only at hd
    split at hd
    · cases hd
    · exact h.waiting d hd

theorem deskValuesOk_stationCellWrite {w : WriteAccess} {s t : State} (he : execStationCellWrite w s = .next t)
    (h : DeskValuesOk s) : DeskValuesOk t := by
  unfold execStationCellWrite at he
  split at he <;> cases he
  · exact deskValuesOk_takeAtGrant _
      (fun u => (changes_startWrite u _ _ _).trans (changes_monitorWrite _ _ _ _ _)) (by decide) h
  · exact h

theorem deskValuesOk_forwardedAccess {a : Access} {s t : State} (he : execForwardedAccess a s = .next t)
    (h : DeskValuesOk s) : DeskValuesOk t := by
  unfold execForwardedAccess at he
  split at he <;> cases he
  · refine deskValuesOk_takeAtGrant (fs := [.mem, .transfer]) _ (fun u => ?_) (by decide) h
    cases a with
    | read r => exact (changes_startRead u _ _).mono (by decide)
    | write w => exact changes_startWrite u _ _ _
  · exact h

theorem deskValuesOk_circuitWindowRead {r : ReadAccess} {s t : State} (he : execCircuitWindowRead r s = .next t)
    (h : DeskValuesOk s) : DeskValuesOk t := by
  unfold execCircuitWindowRead at he
  split at he
  · split at he <;> cases he
    · split
      · exact ⟨h.queued, fun _ hd => nomatch hd⟩
      · exact h
    · exact deskValuesOk_takeAtGrant _ (fun u => changes_startRead u _ _) (by decide) h
  · cases he
    exact h

theorem exec_deskValuesOk {c : Instr} {s t : State} (he : exec c s = .next t) (hc : ∀ gaps, c ≠ .mapSwap gaps)
    (h : DeskValuesOk s) : DeskValuesOk t := by
  cases c with
  | power straps =>
    cases he
    exact ⟨fun _ hd => absurd hd List.not_mem_nil, fun _ hd => nomatch hd⟩
  | lineReset =>
    have he' : execLineReset s = .next t := he
    unfold execLineReset at he'
    split at he' <;> cases he'
    · exact h
    · exact ⟨fun _ hd => absurd hd List.not_mem_nil, fun _ hd => nomatch hd⟩
  | stationCellWrite w => exact deskValuesOk_stationCellWrite he h
  | forwardedAccess a => exact deskValuesOk_forwardedAccess he h
  | circuitWindowRead r => exact deskValuesOk_circuitWindowRead he h
  | deskWrite w => exact deskValuesOk_deskWrite he h
  | deskWriteJoins =>
    cases he
    exact deskValuesOk_joinWaiting h
  | deskClaim =>
    cases he
    exact deskValuesOk_interlude .deskClaim h
  | restart =>
    cases he
    exact offerCommand_induction h ⟨h.queued, h.waiting⟩
      (fun _ => deskValuesOk_restarted ⟨h.queued, h.waiting⟩)
  | mapSwap gaps => exact absurd rfl (hc gaps)
  | _ => exact h.of_changes (changes_of_exec he) (by simp only [touched]; decide)

/-! ### The banks (R1, R174) -/

theorem swapPending_settleCommand (s : State) (r : Except Reason State) :
    (s.settleCommand r).swapPending = false := by
  cases r <;> rfl

theorem swapPending_takeCommit (s : State) : s.takeCommit.swapPending = false := by
  unfold State.takeCommit
  split
  · rfl
  split <;> rfl

/-- A command written to the command cell requests no swap. -/
theorem swapPending_offerCommand {s : State} {v : Word} {act : State → State}
    (hact : ∀ u, (act u).swapPending = false) (hp : (s.offerCommand v act).swapPending = true) :
    s.swapPending = true := by
  revert hp
  refine offerCommand_induction (P := fun u => u.swapPending = true → s.swapPending = true) id id (fun _ hp => ?_)
  rw [hact] at hp
  cases hp

theorem swapPending_lineReset {s t : State} (he : execLineReset s = .next t) (hp : t.swapPending = true) :
    s.swapPending = true := by
  unfold execLineReset at he
  split at he <;> cases he
  · exact hp
  · have hstatus : s.status.afterLine = .commitRunning .swapPending := of_decide_eq_true hp
    cases hs : s.status <;> rw [hs] at hstatus <;> cases hstatus

/-- A load that ends goes on to validation, not to the swap (R173). -/
theorem storeLoaded_swapPending {s : State} {k : Nat} {data : Word}
    (hp : (s.storeLoaded k data).swapPending = true) : s.storeLoaded k data = s := by
  unfold State.storeLoaded at hp ⊢
  split at hp
  · have hstatus := of_decide_eq_true hp
    dsimp only at hstatus
    split at hstatus <;> cases hstatus
  all_goals rfl

theorem mapsOk_transferEnd {s t : State} (he : execTransferEnd s = .next t) (h : MapsOk s) : MapsOk t := by
  have h0 : MapsOk { s with transfer := none } := ⟨h.active, h.standby⟩
  unfold execTransferEnd at he
  split at he
  · cases he
    exact h
  dsimp only at he
  split at he <;> cases he
  · exact h0.of_changes (changes_endUpstream _ _) (by decide)
  · exact h0.of_changes (changes_endUpstream _ _) (by decide)
  · exact h0.of_changes (changes_tryFlip _) (by decide)
  · split
    · exact h0
    · next k discarded _ _ =>
      refine h0.of_same (changes_storeLoaded _ _ _ .active (by decide)) (fun hp => ?_)
      have e := storeLoaded_swapPending hp
      rw [e] at hp ⊢
      exact ⟨hp, rfl⟩
  · exact h0

theorem swapPending_frameClearEnds {s t : State} (he : execFrameClearEnds s = .next t)
    (hp : t.swapPending = true) : s.swapPending = true := by
  unfold execFrameClearEnds at he
  split at he <;> cases he
  · unfold State.finishRestart at hp
    split at hp
    · cases hp
    · exact hp
  · exact hp

theorem mapsOk_validationEnds {s t : State} (he : execValidationEnds s = .next t) (h : MapsOk s) : MapsOk t := by
  unfold execValidationEnds at he
  split at he
  · split at he <;> cases he
    · exact ⟨h.active, nofun⟩
    · next hvalid => exact ⟨h.active, fun _ => Option.isNone_iff_eq_none.2 hvalid⟩
  · cases he
    exact h

theorem mapsOk_empty {s : State} (ha : s.active = Bank.empty) (hs : s.standby = Bank.empty) : MapsOk s :=
  ⟨ha ▸ valid_empty, fun _ => hs ▸ valid_empty⟩

/-- A command of the command cell that changes no bank and whose effects request no swap. -/
theorem mapsOk_offered {fs : List Field} {s : State} {v : Word} {act : State → State}
    (hch : Changes fs s (s.offerCommand v act)) (hfs : ∀ f ∈ [Field.active, .standby], f ∉ fs)
    (hact : ∀ u, (act u).swapPending = false) (h : MapsOk s) : MapsOk (s.offerCommand v act) :=
  h.of_same (hch .active (hfs _ (by decide)))
    (fun hp => ⟨swapPending_offerCommand hact hp, hch .standby (hfs _ (by decide))⟩)

theorem exec_mapsOk {c : Instr} {s t : State} (he : exec c s = .next t) (hc : ∀ gaps, c ≠ .mapSwap gaps)
    (h : MapsOk s) : MapsOk t := by
  cases c with
  | power straps =>
    cases he
    exact mapsOk_empty rfl rfl
  | restart =>
    cases he
    refine offerCommand_induction h ⟨h.active, h.standby⟩ (fun _ => ?_)
    exact mapsOk_empty (changes_beginFrameClear _ .active (by decide)) (changes_beginFrameClear _ .standby (by decide))
  | lineReset =>
    have hch := changes_of_exec he
    exact h.of_same (hch .active (by decide))
      (fun hp => ⟨swapPending_lineReset he hp, hch .standby (by decide)⟩)
  | transferEnd => exact mapsOk_transferEnd he h
  | validationEnds => exact mapsOk_validationEnds he h
  | frameClearEnds =>
    have hch := changes_of_exec he
    exact h.of_same (hch .active (by decide))
      (fun hp => ⟨swapPending_frameClearEnds he hp, hch .standby (by decide)⟩)
  | unknownCommand v =>
    cases he
    split
    · exact mapsOk_offered (changes_offerCommand s v _ (fun u => changes_commandRefused u _ _ _)) (by decide)
        (fun _ => rfl) h
    · exact h
  | commit =>
    cases he
    exact mapsOk_offered (changes_of_exec (c := .commit) rfl) (by decide) swapPending_takeCommit h
  | closeMap =>
    cases he
    exact mapsOk_offered (changes_of_exec (c := .closeMap) rfl) (by decide) (fun _ => rfl) h
  | setMode =>
    cases he
    refine mapsOk_offered (changes_of_exec (c := .setMode) rfl) (by decide) (fun u => ?_) h
    split
    · exact swapPending_settleCommand u _
    · rfl
  | holdFades =>
    cases he
    exact mapsOk_offered (changes_of_exec (c := .holdFades) rfl) (by decide) (fun _ => rfl) h
  | resumeFades =>
    cases he
    exact mapsOk_offered (changes_of_exec (c := .resumeFades) rfl) (by decide) (fun _ => rfl) h
  | amendCommand =>
    cases he
    exact mapsOk_offered (changes_of_exec (c := .amendCommand) rfl) (by decide)
      (fun u => swapPending_settleCommand u _) h
  | restoreEgress =>
    cases he
    exact mapsOk_offered (changes_of_exec (c := .restoreEgress) rfl) (by decide)
      (fun u => swapPending_settleCommand u _) h
  | clearFaults =>
    cases he
    refine mapsOk_offered (changes_of_exec (c := .clearFaults) rfl) (by decide) (fun u => ?_) h
    split
    · rfl
    split <;> rfl
  | clearCounters =>
    cases he
    exact mapsOk_offered (changes_of_exec (c := .clearCounters) rfl) (by decide) (fun _ => rfl) h
  | releaseDesk =>
    cases he
    refine mapsOk_offered (changes_of_exec (c := .releaseDesk) rfl) (by decide) (fun u => ?_) h
    split
    · rfl
    split <;> rfl
  | mapSwap gaps => exact absurd rfl (hc gaps)
  | _ => exact h.of_changes (changes_of_exec he) (by simp only [touched]; decide)

/-! ### The swap, effect by effect (R175) -/

/-- While its effects are taken, a swap keeps every level in range and both banks valid. -/
structure SwapHolds (s : State) : Prop where
  levels : LevelsOk s
  standby : s.standby.valid = true

theorem LevelsOk.interlude {s : State} (h : LevelsOk s) (i : Interlude) : LevelsOk (s.interlude i) := by
  have hch := changes_interlude s i
  refine levelsOk_iff.2 ⟨h.maps.of_changes hch (by decide), deskValuesOk_interlude i h.desk, ?_,
    h.flight.of_changes hch (by decide)⟩
  exact h.circuits.takesRecords (A := False) trivial h.maps.active
    (takes_interlude s i (fun _ => h.maps.active) (fun _ => h.desk))

theorem SwapHolds.interlude {s : State} (h : SwapHolds s) (i : Interlude) : SwapHolds (s.interlude i) :=
  ⟨h.levels.interlude i, (changes_interlude s i .standby (by decide)).symm ▸ h.standby⟩

/-- An effect that moves circuits by claims and changes nothing else keeps what a swap holds. -/
theorem SwapHolds.of_circuits {s t : State} (h : SwapHolds s) (hch : Changes [.circuits] s t)
    (hcircuits : CircuitsInRange t) : SwapHolds t :=
  ⟨h.levels.of_changes hch (by decide) hcircuits, (hch .standby (by decide)).symm ▸ h.standby⟩

theorem SwapHolds.of_moves {s t : State} (h : SwapHolds s) (hch : Changes [.circuits] s t)
    (hm : MovesAll True False s t) : SwapHolds t :=
  h.of_circuits hch (h.levels.circuits.movesAll h.levels.maps.active hm)

theorem SwapHolds.exchangeBanks {s : State} (h : SwapHolds s) : SwapHolds s.exchangeBanks :=
  ⟨levelsOk_iff.2 ⟨⟨h.standby, fun _ => h.levels.maps.active⟩, ⟨h.levels.desk.queued, h.levels.desk.waiting⟩,
    h.levels.circuits, h.levels.flight⟩, h.levels.maps.active⟩

theorem SwapHolds.closeAmend {s : State} (h : SwapHolds s) : SwapHolds s.closeAmend :=
  ⟨h.levels.congr rfl rfl id rfl rfl rfl rfl, h.standby⟩

theorem SwapHolds.swapStations {s : State} (h : SwapHolds s) (old : Bank) : SwapHolds (s.swapStations old) :=
  ⟨h.levels.congr rfl rfl id rfl rfl rfl rfl, h.standby⟩

theorem SwapHolds.commandDone {s : State} (h : SwapHolds s) (d : Nat) : SwapHolds (s.commandDone d) :=
  ⟨h.levels.congr rfl rfl nofun rfl rfl rfl rfl, h.standby⟩

/-- A reconciled slot is in range (R40). -/
theorem slotOk_swapSlot (egress : EgressState) (new : Bank) (c : CircuitId) {slot : Slot} (h : SlotOk slot) :
    SlotOk (swapSlot egress new c slot) := by
  unfold swapSlot
  split
  · unfold reconcileSlot
    split
    · trivial
    cases slot with
    | active => exact slotOk_slotLeaving _
    | empty => trivial
    | leaving level rate => exact h
  · exact h

theorem movesAll_swapSlots {G : Prop} (s : State) : MovesAll G False s s.swapSlots :=
  movesAll_updateSlots s (fun c _ => ⟨fun _ _ _ h => slotOk_swapSlot s.egress s.active c h, False.elim⟩)

theorem swapHolds_effect (old : Bank) :
    ∀ effect ∈ swapEffects old, ∀ s, SwapHolds s → SwapHolds (effect s) := by
  intro effect hmem s h
  simp only [swapEffects, List.mem_cons, List.not_mem_nil, or_false] at hmem
  rcases hmem with rfl | rfl | rfl | rfl | rfl | rfl | rfl | rfl
  · exact h.exchangeBanks
  · exact h.closeAmend
  · exact h.of_moves (changes_endRamps s _) (movesAll_endRamps s _)
  · exact h.swapStations old
  · exact h.of_moves (changes_leaveByDefault s _) (movesAll_leaveByDefault s _)
  · exact h.of_moves (changes_updateSlots s _ _) (movesAll_swapSlots s)
  · exact h.of_circuits (changes_mapCircuits s _) (h.levels.circuits.recomputeAll h.levels.maps.active)
  · exact h.commandDone _

/-- What each effect and each interlude keeps, the effects in their order with their gaps keep. -/
theorem runEffects_keeps {P : State → Prop} (effects : List (State → State))
    (heffects : ∀ effect ∈ effects, ∀ s, P s → P (effect s)) (hinterlude : ∀ s i, P s → P (s.interlude i))
    (gaps : List (List Interlude)) {s : State} (h : P s) : P (State.runEffects effects gaps s) := by
  have hinterludes : ∀ (between : List Interlude) (u : State), P u → P (u.interludes between) := by
    intro between
    induction between with
    | nil => exact fun u hu => hu
    | cons i rest ih => exact fun u hu => ih (u.interlude i) (hinterlude u i hu)
  induction effects generalizing gaps s with
  | nil => exact h
  | cons effect rest ih =>
    have heffect : P (effect s) := heffects effect (by simp) s h
    cases rest with
    | nil => exact heffect
    | cons next rest =>
      exact ih (fun e he => heffects e (List.mem_cons_of_mem _ he)) gaps.tail (hinterludes _ _ heffect)

theorem levelsOk_mapSwap {gaps : List (List Interlude)} {s t : State} (he : execMapSwap s gaps = .next t)
    (h : LevelsOk s) : LevelsOk t := by
  unfold execMapSwap at he
  split at he <;> cases he
  · next hdue =>
    rw [Bool.and_eq_true] at hdue
    have hs : SwapHolds s := ⟨h, h.maps.standby hdue.1⟩
    split
    · exact h.congr rfl rfl nofun rfl rfl rfl rfl
    · exact (runEffects_keeps _ (swapHolds_effect s.active) (fun _ i hu => hu.interlude i) gaps hs).levels
  · exact h

/-! ### Every step -/

theorem exec_levelsOk {c : Instr} {s t : State} (he : exec c s = .next t) (h : LevelsOk s) : LevelsOk t := by
  by_cases hswap : ∃ gaps, c = .mapSwap gaps
  · obtain ⟨gaps, rfl⟩ := hswap
    exact levelsOk_mapSwap he h
  · have hc : ∀ gaps, c ≠ .mapSwap gaps := fun gaps e => hswap ⟨gaps, e⟩
    exact levelsOk_iff.2 ⟨exec_mapsOk he hc h.maps, exec_deskValuesOk he hc h.desk, exec_circuitsInRange he hc h,
      exec_flightOk he hc h.maps.active h.flight⟩

/-- What every command keeps, and what neither the queue of commands nor the passing of time breaks, every step
keeps. -/
theorem stepKeeps_of_exec {P : State → Prop} (hexec : ∀ c s t, exec c s = .next t → P s → P t)
    (hqueue : ∀ (s : State) rest, P s → P { s with pending := rest }) (htime : ∀ s : State, P s → P s.advanceTime) :
    StepKeeps P := by
  intro s t hstep h
  unfold step at hstep
  split at hstep
  · exact hexec _ _ t hstep (hqueue s _ h)
  · split at hstep
    · exact hexec _ s t hstep h
    · cases hstep
      exact htime s h

/-- Settles O57: each part of `LevelsOk` is kept by every command, and the swap keeps them effect by effect. -/
theorem everyStepKeepsEveryLevelInRange : Obligations.EveryStepKeepsEveryLevelInRange := by
  exact stepKeeps_of_exec (fun _ _ _ => exec_levelsOk) (fun _ _ h => h.congr rfl rfl id rfl rfl rfl rfl)
    (fun _ h => h.congr rfl rfl id rfl rfl rfl rfl)

end Sys2Proof.Machine
end

section
/-! The lighting map, O59: what may change the active map and the map-closed flag, and what a closed map keeps of
SRAM. That POWER keeps SRAM is log 2, and that a write is stored at its grant is log 13. -/

namespace Sys2Proof.Machine

/-! ### The active map -/

theorem changes_closeAmend (s : State) : Changes [.amend] s s.closeAmend := by
  intro f hf
  cases f with
  | amend => exact absurd (List.mem_singleton_self _) hf
  | _ => rfl

theorem changes_swapStations (s : State) (old : Bank) : Changes [.stations] s (s.swapStations old) := by
  intro f hf
  cases f with
  | stations => exact absurd (List.mem_singleton_self _) hf
  | _ => rfl

/-- Once the banks are exchanged, neither a later effect of the swap nor what is taken between them changes the active
map. -/
theorem active_swapBanks (s : State) (gaps : List (List Interlude)) : (s.swapBanks gaps).active = s.standby := by
  have later : ∀ effect ∈ (swapEffects s.active).tail, ∀ u,
      Changes [.amend, .stations, .circuits, .status, .causes] u (effect u) := by
    intro effect hmem u
    simp only [swapEffects, List.tail_cons, List.mem_cons, List.not_mem_nil, or_false] at hmem
    rcases hmem with rfl | rfl | rfl | rfl | rfl | rfl | rfl
    · exact (changes_closeAmend u).mono (by decide)
    · exact (changes_endRamps u _).mono (by decide)
    · exact (changes_swapStations u s.active).mono (by decide)
    · exact (changes_leaveByDefault u _).mono (by decide)
    · exact (changes_updateSlots u _ _).mono (by decide)
    · exact (changes_mapCircuits u _).mono (by decide)
    · exact (changes_commandDone u _).mono (by decide)
  calc (s.swapBanks gaps).active
      = (s.exchangeBanks.interludes (gaps.headD [])).active :=
        changes_runEffects _ gaps.tail _ later .active (by decide)
    _ = s.exchangeBanks.active := changes_interludes s.exchangeBanks _ .active (by decide)
    _ = s.standby := rfl

theorem locked_iff {s : State} :
    s.locked = true ↔ (s.mode = .performance ∨ s.mode = .interval) ∧ s.amend = none := by
  unfold State.locked
  rw [Bool.and_eq_true, Bool.or_eq_true, decide_eq_true_eq, decide_eq_true_eq, Option.isNone_iff_eq_none]

/-- A swap that changes the active map was pending at an idle point and not locked, and brings in the standby map. -/
theorem active_mapSwap {gaps : List (List Interlude)} {s t : State} (he : execMapSwap s gaps = .next t)
    (hne : t.active ≠ s.active) :
    s.swapPending = true ∧ s.current = none ∧ s.locked = false ∧ t.active = s.standby := by
  unfold execMapSwap at he
  split at he <;> cases he
  · next hdue =>
    rw [Bool.and_eq_true, decide_eq_true_eq] at hdue
    split at hne
    · exact absurd rfl hne
    · next hlocked =>
      rw [if_neg hlocked]
      exact ⟨hdue.1, hdue.2, Bool.not_eq_true _ ▸ hlocked, active_swapBanks s gaps⟩
  · exact absurd rfl hne

theorem active_changed {c : Instr} {s t : State} (he : exec c s = .next t) (hne : t.active ≠ s.active) :
    (∃ straps, c = .power straps) ∨ (c = .restart ∧ s.takesCommand) ∨
      ((∃ gaps, c = .mapSwap gaps) ∧ s.swapPending = true ∧ s.current = none ∧
        (s.mode = .performance ∨ s.mode = .interval → s.amend ≠ none) ∧ t.active = s.standby) := by
  cases c with
  | power straps => exact .inl ⟨straps, rfl⟩
  | restart =>
    cases he
    refine .inr (.inl ⟨rfl, ?_⟩)
    revert hne
    exact offerCommand_induction (P := fun u => u.active ≠ s.active → s.takesCommand) (fun hne => absurd rfl hne)
      (fun hne => absurd rfl hne) (fun ht _ => ht)
  | mapSwap gaps =>
    obtain ⟨hpending, hidle, hlocked, hactive⟩ := active_mapSwap he hne
    refine .inr (.inr ⟨⟨gaps, rfl⟩, hpending, hidle, fun hmode hshut => ?_, hactive⟩)
    rw [locked_iff.2 ⟨hmode, hshut⟩] at hlocked
    cases hlocked
  | _ => exact absurd (changes_of_exec he .active (by simp only [touched]; decide)) hne

/-! ### The map-closed flag (R140) -/

theorem mapClosed_cases {c : Instr} {s t : State} (he : exec c s = .next t) :
    (∃ straps, c = .power straps ∧ t.mapClosed = false) ∨ (c = .closeMap ∧ t.mapClosed = true) ∨
      t.mapClosed = s.mapClosed := by
  cases c with
  | power straps =>
    cases he
    exact .inl ⟨straps, rfl, rfl⟩
  | closeMap =>
    cases he
    refine .inr (offerCommand_induction
      (P := fun u => (Instr.closeMap = .closeMap ∧ u.mapClosed = true) ∨ u.mapClosed = s.mapClosed) ?_ ?_ ?_)
    · exact .inr rfl
    · exact .inr rfl
    · exact fun _ => .inl ⟨rfl, rfl⟩
  | _ => exact .inr (.inr (changes_of_exec he .mapClosed (by simp only [touched]; decide)))

/-! ### The map region of SRAM (R155) -/

/-- Every byte of the map region of the window that begins at `base` is as it was. -/
def MapRegionKept (base : BitVec 2) (before after : List Host.Cell) : Prop :=
  ∀ offset, 0x2000 ≤ offset → offset < 0x10000 →
    Memory.read after (windowAddress base offset) = Memory.read before (windowAddress base offset)

theorem MapRegionKept.of_eq {base : BitVec 2} {before after : List Host.Cell} (h : after = before) :
    MapRegionKept base before after := fun _ _ _ => h ▸ rfl

/-- A write to a cell of the window below the map region leaves the map region. -/
theorem mapRegionKept_below {base : BitVec 2} (m : List Host.Cell) {offset : Nat} (lanes : Lanes) (data : Word)
    (h : offset + 1 < 0x2000) :
    MapRegionKept base m (Memory.writeCell m (windowAddress base offset) lanes data) := by
  intro o hlo _
  refine Memory.read_writeCell_ne ?_ ?_ <;> (unfold windowAddress; omega)

/-- A write to a cell outside the window leaves the map region. -/
theorem mapRegionKept_outside {s : State} (m : List Host.Cell) {addr : Address} (lanes : Lanes) (data : Word)
    (h : s.offsetOf addr = none) :
    MapRegionKept s.base m (Memory.writeCell m (cellAddress addr.toNat) lanes data) := by
  have hout := offsetOf_eq_none.1 h
  intro o _ hhi
  refine Memory.read_writeCell_ne ?_ ?_ <;> (unfold windowAddress cellAddress; omega)

/-- A forwarded access stores what its work stores, and nothing while it is not granted. -/
theorem mem_takeAtGrant {P : List Host.Cell → Prop} {s : State} {a : Access} {work : State → State} (hs : P s.mem)
    (hwork : ∀ u : State, u.mem = s.mem → P (work u).mem) : P (s.takeAtGrant a work).mem := by
  unfold State.takeAtGrant
  split
  · exact hs
  split
  · exact hwork _ rfl
  · exact hs

/-- A station write goes to the station region (R65). -/
theorem stationTarget_offset {s : State} {w : WriteAccess} {n : StationId} {k : Nat}
    (h : s.stationTarget w = some (n, k)) :
    ∃ offset, s.addresses w.addr offset ∧ offset < 0x0780 := by
  unfold State.stationTarget at h
  split at h
  · next offset hoffset =>
    split at h
    · next hregion =>
      rw [Bool.and_eq_true, decide_eq_true_eq] at hregion
      exact ⟨offset, addresses_of_offsetOf hoffset, (regionOf_bounds hregion.1).2⟩
    · cases h
  · cases h

theorem mapRegionKept_stationCellWrite {w : WriteAccess} {s t : State} (he : execStationCellWrite w s = .next t) :
    MapRegionKept s.base s.mem t.mem := by
  unfold execStationCellWrite at he
  split at he <;> cases he
  · next n k htarget =>
    obtain ⟨offset, haddr, hlt⟩ := stationTarget_offset htarget
    refine mem_takeAtGrant (P := MapRegionKept s.base s.mem) (.of_eq rfl) (fun u hu => ?_)
    rw [changes_monitorWrite _ n k w.lanes w.data .mem (by decide)]
    unfold State.startWrite
    rw [downstreamAddress_of_addresses haddr, windowAddress_even haddr.1, hu]
    exact mapRegionKept_below s.mem _ _ (by omega)
  · exact .of_eq rfl

/-- While the map is closed, a write that is forwarded lies outside the window or below the map region (R140). -/
theorem forwards_write_closed {s : State} {w : WriteAccess} (hclosed : s.mapClosed = true)
    (h : s.forwards (.write w) = true) :
    s.offsetOf w.addr = none ∨ ∃ offset, s.addresses w.addr offset ∧ offset < 0x2000 := by
  cases hoffset : s.offsetOf w.addr with
  | none => exact .inl rfl
  | some offset =>
    refine .inr ⟨offset, addresses_of_offsetOf hoffset, ?_⟩
    unfold State.forwards State.regionAt at h
    simp only [Access.addr, hoffset, Option.map_some, hclosed, Bool.and_eq_true] at h
    by_contra hlt
    rw [regionOf_mapRegion (by omega)] at h
    have hfalse : false = true := h.2
    cases hfalse

theorem mapRegionKept_forwardedAccess {a : Access} {s t : State} (he : execForwardedAccess a s = .next t)
    (hclosed : s.mapClosed = true) : MapRegionKept s.base s.mem t.mem := by
  unfold execForwardedAccess at he
  split at he <;> cases he
  · next hforwards =>
    refine mem_takeAtGrant (P := MapRegionKept s.base s.mem) (.of_eq rfl) (fun u hu => ?_)
    cases a with
    | read r => exact .of_eq hu
    | write w =>
      show MapRegionKept s.base s.mem (Memory.writeCell u.mem _ _ _)
      rw [hu]
      rcases forwards_write_closed hclosed hforwards with hout | ⟨offset, haddr, hlt⟩
      · have haddress : s.downstreamAddress w.addr = w.addr.toNat := by
          unfold State.downstreamAddress
          rw [hout]
        rw [haddress]
        exact mapRegionKept_outside s.mem _ _ hout
      · have heven : offset % 2 = 0 := haddr.1
        rw [downstreamAddress_of_addresses haddr, windowAddress_even heven]
        exact mapRegionKept_below s.mem _ _ (by omega)
  · exact .of_eq rfl

/-- A write of an internal requester to a cell below the map region leaves the map region. -/
theorem mapRegionKept_internalWrite {s u : State} (hu : u.mem = s.mem) (r : Requester) {offset : Nat} (data : Word)
    (h : offset + 1 < 0x2000) :
    MapRegionKept s.base s.mem (u.internalWrite r (windowAddress s.base offset) data).mem := by
  rw [← hu]
  exact mapRegionKept_below u.mem Lanes.both data h

theorem frameOffset_below_map (f : Frame) (c : CircuitId) : frameOffset f c + 1 < 0x2000 := by
  have := c.isLt
  cases f <;> (simp only [frameOffset]; omega)

theorem clearOffset_below_map {k : Nat} (h : k < 768) : clearOffset k + 1 < 0x2000 := by
  unfold clearOffset
  split <;> omega

theorem mapRegionKept_writeBackGrant {s t : State} (he : execWriteBackGrant s = .next t) :
    MapRegionKept s.base s.mem t.mem := by
  unfold execWriteBackGrant at he
  split at he
  · split at he <;> cases he
    · next c _ => exact mapRegionKept_internalWrite rfl .writeBack _ (frameOffset_below_map s.back c)
    · exact .of_eq rfl
  · cases he
    exact .of_eq rfl

theorem mapRegionKept_frameClearGrant {s t : State} (he : execFrameClearGrant s = .next t) :
    MapRegionKept s.base s.mem t.mem := by
  unfold execFrameClearGrant at he
  split at he
  · next k hk =>
    split at he <;> cases he
    · next hgrant =>
      simp only [Bool.and_eq_true] at hgrant
      obtain ⟨⟨⟨-, hrequests⟩, -⟩, -⟩ := hgrant
      unfold State.clearRequests at hrequests
      rw [hk] at hrequests
      exact mapRegionKept_internalWrite (s := s) rfl .frameClear 0
        (clearOffset_below_map (of_decide_eq_true hrequests))
    · exact .of_eq rfl
  · cases he
    exact .of_eq rfl

/-- The four commands that store into SRAM store outside the map region while the map is closed. -/
theorem exec_mapRegionKept {c : Instr} {s t : State} (he : exec c s = .next t) (hclosed : s.mapClosed = true) :
    MapRegionKept s.base s.mem t.mem := by
  cases c with
  | stationCellWrite w => exact mapRegionKept_stationCellWrite he
  | forwardedAccess a => exact mapRegionKept_forwardedAccess he hclosed
  | writeBackGrant => exact mapRegionKept_writeBackGrant he
  | frameClearGrant => exact mapRegionKept_frameClearGrant he
  | _ => exact .of_eq (changes_of_exec he .mem (by simp only [touched]; decide))

/-- Settles O59, from what each command may change. -/
theorem mapChangesOnlyAtResetsAndUnlockedSwaps : Obligations.MapChangesOnlyAtResetsAndUnlockedSwaps := by
  intro c s t he
  refine ⟨active_changed he, fun hclosed hopen => ?_, fun hopen hclosed => ?_, exec_mapRegionKept he⟩
  · rcases mapClosed_cases he with ⟨straps, hc, -⟩ | ⟨-, hset⟩ | hsame
    · exact ⟨straps, hc⟩
    · cases hset.symm.trans hopen
    · cases (hopen.symm.trans hsame).trans hclosed
  · rcases mapClosed_cases he with ⟨straps, -, hcleared⟩ | ⟨hc, -⟩ | hsame
    · cases hcleared.symm.trans hclosed
    · exact hc
    · cases (hclosed.symm.trans hsame).trans hopen

end Sys2Proof.Machine
end

section
/-! Contributions and the merge (spec chapter 2). What each command makes of the circuits, said once for the three
invariants of the store (`StoreMoves`), and O53: every step keeps the contribution store in order. -/

namespace Sys2Proof.Machine

/-! ### What a command makes of the circuits -/

/-- How a command, from `s` to `t`, changes the circuits: by claims under one map and one mode; by emptying the store
under the empty map in OPEN (R47); by claims and then the recompute of every circuit under another mode (R128); by
changing owed flags alone (R145); or by a swap (R175). Where `A` holds no claim takes an ACTIVE slot away. -/
inductive StoreMoves (A : Prop) (s t : State) : Prop where
  | claimed {G : Prop} : TakesInTurn G A s t → StoreMoves A s t
  | emptied : t.circuits = Table.fill 384 CircuitState.initial → t.active = Bank.empty → t.mode = .open_ →
      StoreMoves A s t
  | recomputed {u : State} : MovesAll False A s u → t.active = s.active →
      (∀ c, t.circuit c = recompute t.active t.mode c (u.circuit c)) → StoreMoves A s t
  | published : t.active = s.active → t.mode = s.mode →
      (∀ c, (t.circuit c).list = (s.circuit c).list ∧ (t.circuit c).slot = (s.circuit c).slot ∧
        (t.circuit c).level = (s.circuit c).level) → StoreMoves A s t
  | swapped (gaps : List (List Interlude)) : t = s.swapBanks gaps → StoreMoves A s t

/-- What leaves circuits, map and mode alone. -/
theorem StoreMoves.of_same {A : Prop} {s t : State} (ha : t.active = s.active) (hm : t.mode = s.mode)
    (hc : t.circuits = s.circuits) : StoreMoves A s t :=
  .claimed (.single (MovesAll.of_same (G := False) ha hm hc).takes)

theorem circuit_of_circuits {s t : State} (h : t.circuits = s.circuits) (c : CircuitId) :
    t.circuit c = s.circuit c := by
  unfold State.circuit
  rw [h]

theorem circuit_of_fill {s : State} (h : s.circuits = Table.fill 384 CircuitState.initial) (c : CircuitId) :
    s.circuit c = CircuitState.initial := by
  unfold State.circuit
  rw [h, Table.get_fill]

theorem movesAll_enterEffects {G A : Prop} (s : State) (m : HouseMode) : MovesAll G A s (s.enterEffects m) := by
  cases m with
  | night => exact (movesAll_nightClaim s).trans (.of_same rfl rfl rfl)
  | open_ =>
    have hopen : MovesAll G A s { s with hold := false, amend := none } := .of_same rfl rfl rfl
    show MovesAll G A s s.enterOpen
    unfold State.enterOpen
    dsimp only
    split
    · exact hopen.trans (movesAll_offerInputs _ _)
    · exact hopen
  | prepare => exact .refl G A s
  | performance => exact .refl G A s
  | interval => exact .refl G A s

/-- The fields that say how bright the house is. -/
abbrev lightingFields : List Field := [.active, .mode, .circuits]

theorem StoreMoves.of_changes {A : Prop} {fs : List Field} {s t : State} (h : Changes fs s t)
    (hfs : ∀ f ∈ lightingFields, f ∉ fs) : StoreMoves A s t :=
  .of_same (h .active (hfs _ (by decide))) (h .mode (hfs _ (by decide))) (h .circuits (hfs _ (by decide)))

/-- An accepted request for a mode makes its claims and then recomputes every circuit in the new mode (R128); what is
done before and after it leaves the lighting alone. -/
theorem storeMoves_requestMode {A : Prop} {fs gs : List Field} {s s' t' t : State} {m : HouseMode}
    (hs : Changes fs s s') (hfs : ∀ f ∈ lightingFields, f ∉ fs) (h : s'.requestMode m = .ok t')
    (ht : Changes gs t' t) (hgs : ∀ f ∈ lightingFields, f ∉ gs) : StoreMoves A s t := by
  unfold State.requestMode at h
  split at h
  · cases h
    refine .of_changes (hs.trans ht) (fun f hf hmem => ?_)
    exact (List.mem_append.1 hmem).elim (hfs f hf) (hgs f hf)
  split at h
  · cases h
    have hentered : (s'.enterEffects m).active = s'.active := changes_enterEffects s' m .active (by decide)
    have hactive : t.active = s'.active := Eq.trans (ht .active (hgs _ (by decide))) hentered
    have hmode : t.mode = m := ht .mode (hgs _ (by decide))
    have hbefore : MovesAll False A s s' := .of_changes hs (hfs _ (by decide)) (hfs _ (by decide)) (hfs _ (by decide))
    refine .recomputed (hbefore.trans (movesAll_enterEffects s' m)) (hactive.trans hbefore.active) (fun c => ?_)
    calc t.circuit c
        = (s'.changeMode m).circuit c := circuit_of_circuits (ht .circuits (hgs _ (by decide))) c
      _ = recompute (s'.enterEffects m).active m c ((s'.enterEffects m).circuit c) :=
          circuit_recomputeAll ({ s'.enterEffects m with mode := m } : State) c
      _ = recompute t.active t.mode c ((s'.enterEffects m).circuit c) := by
          rw [hactive, hmode, hentered]
  · cases h

theorem storeMoves_setMode {A : Prop} {s t : State} (he : execSetMode s = .next t) : StoreMoves A s t := by
  cases he
  have hcell : Changes [.command] s { s with command := 3 } := by
    intro f hf
    cases f with
    | command => exact absurd (List.mem_singleton_self _) hf
    | _ => rfl
  refine offerCommand_induction (P := StoreMoves A s) (.of_same rfl rfl rfl) (.of_same rfl rfl rfl) (fun _ => ?_)
  dsimp only
  split
  · unfold State.settleCommand
    split
    · next u hu => exact storeMoves_requestMode hcell (by decide) hu (changes_commandDone u 0) (by decide)
    · exact .of_same rfl rfl rfl
  · exact .of_same rfl rfl rfl

theorem storeMoves_mode {A : Prop} {s t : State} (he : execMode s = .next t) : StoreMoves A s t := by
  cases he
  rcases runAction_cases s .mode s.claimMode with e | ⟨a, t, ht, e⟩ | ⟨a, r, e⟩ <;> rw [e]
  · exact .of_same rfl rfl rfl
  · unfold State.claimMode at ht
    split at ht
    · exact storeMoves_requestMode (Changes.refl [] s) (by decide) ht (changes_finishAction t) (by decide)
    · cases ht
  · exact .of_changes ((changes_refuseAction s a r).trans (changes_finishAction _)) (by decide)

theorem storeMoves_writeBackGrant {A : Prop} {s t : State} (he : execWriteBackGrant s = .next t) :
    StoreMoves A s t := by
  unfold execWriteBackGrant at he
  split at he
  · split at he <;> cases he
    · next k _ =>
      refine .published rfl rfl (fun c => ?_)
      rw [circuit_of_circuits (changes_internalWrite _ _ _ _ .circuits (by decide))]
      by_cases hk : k = c
      · subst hk
        rw [State.circuit_modCircuit_self]
        cases s.back <;> exact ⟨rfl, rfl, rfl⟩
      · rw [State.circuit_modCircuit_ne s _ hk]
        exact ⟨rfl, rfl, rfl⟩
    · exact .of_same rfl rfl rfl
  · cases he
    exact .of_same rfl rfl rfl

theorem storeMoves_frameClearEnds {A : Prop} {s t : State} (he : execFrameClearEnds s = .next t) :
    StoreMoves A s t := by
  unfold execFrameClearEnds at he
  split at he <;> cases he
  · have hfinish := changes_finishRestart { s.mapCircuits (fun _ cs => cs.remark) with clear := none }
    refine .published (hfinish .active (by decide)) (hfinish .mode (by decide)) (fun c => ?_)
    rw [circuit_of_circuits (hfinish .circuits (by decide))]
    show ((s.mapCircuits _).circuit c).list = _ ∧ ((s.mapCircuits _).circuit c).slot = _ ∧
      ((s.mapCircuits _).circuit c).level = _
    rw [State.circuit_mapCircuits]
    exact ⟨rfl, rfl, rfl⟩
  · exact .of_same rfl rfl rfl

theorem storeMoves_mapSwap {A : Prop} {gaps : List (List Interlude)} {s t : State}
    (he : execMapSwap s gaps = .next t) : StoreMoves A s t := by
  unfold execMapSwap at he
  split at he <;> cases he
  · split
    · exact .of_same rfl rfl rfl
    · exact .swapped gaps rfl
  · exact .of_same rfl rfl rfl

/-- What every command makes of the circuits. -/
theorem exec_storeMoves {A : Prop} {c : Instr} {s t : State} (he : exec c s = .next t)
    (hA : c = .restoreEgress ∨ c = .restore → ¬ A) : StoreMoves A s t := by
  by_cases hclaims : Instr.claims c = true
  · exact .claimed (exec_moves he hclaims hA)
  · cases c with
    | power straps =>
      cases he
      exact .emptied rfl rfl rfl
    | restart =>
      cases he
      refine offerCommand_induction (P := StoreMoves A s) (.of_same rfl rfl rfl) (.of_same rfl rfl rfl) (fun _ => ?_)
      exact .emptied (circuits_restarted _) (changes_beginFrameClear _ .active (by decide))
        (changes_beginFrameClear _ .mode (by decide))
    | setMode => exact storeMoves_setMode he
    | mode => exact storeMoves_mode he
    | writeBackGrant => exact storeMoves_writeBackGrant he
    | frameClearEnds => exact storeMoves_frameClearEnds he
    | mapSwap gaps => exact storeMoves_mapSwap he
    | _ => exact absurd rfl hclaims

/-! ### What claims keep of a circuit -/

/-- What each claim keeps of the circuits under one map and mode, a row of claims keeps. -/
theorem takesRecords_keeps {G A : Prop} {P : Bank → HouseMode → CircuitId → CircuitState → Prop}
    (hP : ∀ {new b mode c x y}, Moves G A new b mode c x y → P b mode c x → P b mode c y) {s t : State}
    (hm : TakesRecords G A s t) (h : ∀ c, P s.active s.mode c (s.circuit c)) :
    ∀ c, P t.active t.mode c (t.circuit c) := by
  have many : ∀ {b mode c x y}, Relation.ReflTransGen (Moves G A 0 b mode c) x y → P b mode c x → P b mode c y := by
    intro b mode c x y hmany hx
    induction hmany with
    | refl => exact hx
    | tail _ hlast ih => exact hP hlast ih
  intro c
  obtain ⟨g, -, hmoves⟩ := hm.circuits
  obtain ⟨y, hfirst, hrest⟩ := hmoves c
  rw [hm.active, hm.mode]
  refine many hrest ?_
  rcases hfirst with rfl | hfirst
  · exact h c
  · exact hP hfirst (h c)

theorem takesInTurn_keeps {G A : Prop} {P : Bank → HouseMode → CircuitId → CircuitState → Prop}
    (hP : ∀ {new b mode c x y}, Moves G A new b mode c x y → P b mode c x → P b mode c y) {s t : State}
    (hm : TakesInTurn G A s t) (h : ∀ c, P s.active s.mode c (s.circuit c)) :
    ∀ c, P t.active t.mode c (t.circuit c) := by
  induction hm with
  | refl => exact h
  | tail _ hlast ih => exact takesRecords_keeps hP hlast ih

/-! ### The store stays in order (R25, R26, R27) -/

theorem listOk_moves {G A : Prop} {new : Nat} {b : Bank} {mode : HouseMode} {c : CircuitId} {x y : CircuitState}
    (hm : Moves G A new b mode c x y) (h : ListOk x.list) : ListOk y.list := by
  obtain ⟨l, slot, hlist, -, rfl | ⟨rfl, -⟩⟩ := hm
  · rw [recompute_list]
    exact hlist.ok h
  · exact hlist.ok h

theorem length_moves {G A : Prop} {new : Nat} {b : Bank} {mode : HouseMode} {c : CircuitId} {x y : CircuitState}
    (hm : Moves G A new b mode c x y) : y.list.length ≤ x.list.length + new := by
  obtain ⟨l, slot, hlist, -, rfl | ⟨rfl, -⟩⟩ := hm
  · rw [recompute_list]
    exact hlist.length
  · exact hlist.length

theorem length_movesMany {G A : Prop} {b : Bank} {mode : HouseMode} {c : CircuitId} {x y : CircuitState}
    (hm : Relation.ReflTransGen (Moves G A 0 b mode c) x y) : y.list.length ≤ x.list.length := by
  induction hm with
  | refl => exact Nat.le_refl _
  | tail _ hlast ih => exact (length_moves hlast).trans ih

/-- Claims take no more records than the pool has free. -/
theorem recordsInLists_takesRecords {G A : Prop} {s t : State} (hm : TakesRecords G A s t)
    (h : s.recordsInLists ≤ Config.poolSize) : t.recordsInLists ≤ Config.poolSize := by
  obtain ⟨g, hfree, hmoves⟩ := hm.circuits
  have hgrow : t.recordsInLists ≤ s.recordsInLists + (allCircuits.map g).sum := by
    refine recordsInLists_le (fun c => ?_)
    obtain ⟨y, hfirst, hrest⟩ := hmoves c
    have hy : y.list.length ≤ (s.circuit c).list.length + g c := by
      rcases hfirst with rfl | hfirst
      · exact Nat.le_add_right _ _
      · exact length_moves hfirst
    exact (length_movesMany hrest).trans hy
  omega

theorem StoreOk.takesRecords {G A : Prop} {s t : State} (h : StoreOk s) (hm : TakesRecords G A s t) : StoreOk t :=
  ⟨takesRecords_keeps (P := fun _ _ _ cs => ListOk cs.list) listOk_moves hm h.lists,
    recordsInLists_takesRecords hm h.pool⟩

theorem StoreOk.takesInTurn {G A : Prop} {s t : State} (h : StoreOk s) (hm : TakesInTurn G A s t) : StoreOk t := by
  induction hm with
  | refl => exact h
  | tail _ hlast ih => exact ih.takesRecords hlast

/-- The order of the store is read from the lists alone. -/
theorem StoreOk.of_lists {s t : State} (h : StoreOk s) (hl : ∀ c, (t.circuit c).list = (s.circuit c).list) :
    StoreOk t := by
  refine ⟨fun c => hl c ▸ h.lists c, ?_⟩
  have hrecords : t.recordsInLists = s.recordsInLists := by
    rw [recordsInLists_eq, recordsInLists_eq]
    simp only [hl]
  exact hrecords ▸ h.pool

theorem storeOk_of_nil {s : State} (h : ∀ c, (s.circuit c).list = []) : StoreOk s := by
  refine ⟨fun c => h c ▸ listOk_nil, ?_⟩
  rw [recordsInLists_eq]
  simp only [h, List.length_nil, sum_map_zero]
  exact Nat.zero_le _

theorem StoreOk.interlude {s : State} (h : StoreOk s) (i : Interlude) : StoreOk (s.interlude i) :=
  h.takesRecords (takes_interlude (G := False) (A := False) s i False.elim False.elim)

/-- Of the effects of a swap four change lists or slots by claims, the recompute changes levels, and three leave the
circuits alone (R175). -/
theorem storeOk_effect (old : Bank) : ∀ effect ∈ swapEffects old, ∀ s, StoreOk s → StoreOk (effect s) := by
  intro effect hmem s h
  have claims : ∀ {t : State}, MovesAll False False s t → StoreOk t := fun hm => h.takesRecords hm.takes
  simp only [swapEffects, List.mem_cons, List.not_mem_nil, or_false] at hmem
  rcases hmem with rfl | rfl | rfl | rfl | rfl | rfl | rfl | rfl
  · exact h.of_lists (fun _ => rfl)
  · exact h.of_lists (fun _ => rfl)
  · exact claims (movesAll_endRamps s _)
  · exact h.of_lists (fun _ => rfl)
  · exact claims (movesAll_leaveByDefault s _)
  · exact claims (movesAll_swapSlots s)
  · exact h.of_lists (fun c => by rw [circuit_recomputeAll, recompute_list])
  · exact h.of_lists (fun _ => rfl)

theorem StoreOk.storeMoves {A : Prop} {s t : State} (h : StoreOk s) (hm : StoreMoves A s t) : StoreOk t := by
  cases hm with
  | claimed hclaims => exact h.takesInTurn hclaims
  | emptied hcircuits _ _ => exact storeOk_of_nil (fun c => by rw [circuit_of_fill hcircuits]; rfl)
  | recomputed hclaims _ hcircuit =>
    exact (h.takesRecords hclaims.takes).of_lists (fun c => by rw [hcircuit c, recompute_list])
  | published _ _ hsame => exact h.of_lists (fun c => (hsame c).1)
  | swapped gaps e =>
    rw [e]
    exact runEffects_keeps _ (storeOk_effect s.active) (fun _ i hu => hu.interlude i) gaps h

/-- Settles O53: whatever a command makes of the circuits keeps the store in order, and the passing of time changes no
list. -/
theorem everyStepKeepsTheContributionStoreInOrder : Obligations.EveryStepKeepsTheContributionStoreInOrder := by
  exact stepKeeps_of_exec (fun _ _ _ he h => h.storeMoves (exec_storeMoves (A := False) he (fun _ => id)))
    (fun _ _ h => h.of_lists (fun _ => rfl)) (fun _ h => h.of_lists (fun _ => rfl))

end Sys2Proof.Machine
end

section
/-! Contributions and the merge (spec chapter 2), O54: every step keeps the stored levels current (R44) and, while the
egress state is latched, every egress member of the active map lit (R41, R136). -/

namespace Sys2Proof.Machine

/-! ### The empty map (R17) -/

theorem circuitCell_empty {c k : Nat} (hc : c < 384) (hk : k < 4) : Bank.empty.cell (0x2200 + 4 * c + k) = 0 := by
  show emptyMapCell _ = 0
  unfold emptyMapCell
  have hceiling : ¬ 0x2200 + 4 * c + k < 0x2150 := by omega
  have hinputs : ¬ 0x2800 ≤ 0x2200 + 4 * c + k := by omega
  simp [hceiling, hinputs]

/-- No circuit of the empty map is an egress member, and every rest level is 0. -/
theorem circuit_empty (c : CircuitId) : Bank.empty.circuit c = ⟨0, 0, false, 0, 0⟩ := by
  have hfirst : Bank.empty.cell (0x2200 + 4 * c.val) = 0 := circuitCell_empty (k := 0) c.isLt (by decide)
  have hrest : Bank.empty.cell (0x2200 + 4 * c.val + 2) = 0 := circuitCell_empty c.isLt (by decide)
  unfold Bank.circuit Bank.circuitRec
  rw [hfirst, hrest]
  rfl

/-! ### Stored levels are current (R44) -/

/-- The stored level of a circuit is its effective level. -/
def LevelCurrent (b : Bank) (mode : HouseMode) (c : CircuitId) (cs : CircuitState) : Prop :=
  cs.level = effectiveLevel b mode c cs

theorem levelCurrent_recompute (b : Bank) (mode : HouseMode) (c : CircuitId) (cs : CircuitState) :
    LevelCurrent b mode c (recompute b mode c cs) := by
  unfold LevelCurrent
  rw [recompute_level, effectiveLevel_recompute]

theorem levelCurrent_moves {G A : Prop} {new : Nat} {b : Bank} {mode : HouseMode} {c : CircuitId}
    {x y : CircuitState} (hm : Moves G A new b mode c x y) (h : LevelCurrent b mode c x) : LevelCurrent b mode c y := by
  obtain ⟨l, slot, -, -, rfl | ⟨rfl, hsame⟩⟩ := hm
  · exact levelCurrent_recompute b mode c _
  · exact Eq.trans h hsame.symm

theorem levelCurrent_initial (c : CircuitId) : LevelCurrent Bank.empty .open_ c CircuitState.initial := by
  show 0 = (Bank.empty.circuit c).rest
  rw [circuit_empty]

theorem levelsCurrent_empty {s : State} (hcircuits : s.circuits = Table.fill 384 CircuitState.initial)
    (hactive : s.active = Bank.empty) (hmode : s.mode = .open_) : LevelsCurrent s := by
  intro c
  rw [circuit_of_fill hcircuits, hactive, hmode]
  exact levelCurrent_initial c

theorem levelsCurrent_recomputeAll (s : State) : LevelsCurrent s.recomputeAll := by
  intro c
  rw [circuit_recomputeAll]
  exact levelCurrent_recompute s.active s.mode c _

theorem LevelsCurrent.takesRecords {G A : Prop} {s t : State} (h : LevelsCurrent s) (hm : TakesRecords G A s t) :
    LevelsCurrent t := takesRecords_keeps (P := LevelCurrent) levelCurrent_moves hm h

theorem LevelsCurrent.takesInTurn {G A : Prop} {s t : State} (h : LevelsCurrent s) (hm : TakesInTurn G A s t) :
    LevelsCurrent t := takesInTurn_keeps (P := LevelCurrent) levelCurrent_moves hm h

theorem LevelsCurrent.interlude {s : State} (h : LevelsCurrent s) (i : Interlude) : LevelsCurrent (s.interlude i) :=
  h.takesRecords (takes_interlude (G := False) (A := False) s i False.elim False.elim)

/-! ### What a swap establishes (R175) -/

theorem interludes_keep {P : State → Prop} (hinterlude : ∀ s i, P s → P (s.interlude i)) (between : List Interlude)
    {s : State} (h : P s) : P (s.interludes between) := by
  unfold State.interludes
  induction between generalizing s with
  | nil => exact h
  | cons i rest ih => exact ih (hinterlude s i h)

/-- What one effect of a row establishes, and the effects after it and every interlude keep, holds when the row has
been taken. -/
theorem runEffects_establishes {P : State → Prop} (before : List (State → State)) {effect : State → State}
    {after : List (State → State)} (heffect : ∀ s, P (effect s)) (hafter : ∀ e ∈ after, ∀ s, P s → P (e s))
    (hinterlude : ∀ s i, P s → P (s.interlude i)) (gaps : List (List Interlude)) (s : State) :
    P (State.runEffects (before ++ effect :: after) gaps s) := by
  induction before generalizing gaps s with
  | nil =>
    cases after with
    | nil => exact heffect s
    | cons next rest =>
      have hbetween : P ((effect s).interludes (gaps.headD [])) := interludes_keep hinterlude _ (heffect s)
      exact runEffects_keeps _ hafter hinterlude gaps.tail hbetween
  | cons first before ih =>
    cases before with
    | nil => exact ih gaps.tail _
    | cons second before => exact ih gaps.tail _

/-- A swap recomputes every circuit under the new map. -/
theorem levelsCurrent_swapBanks (s : State) (gaps : List (List Interlude)) : LevelsCurrent (s.swapBanks gaps) := by
  refine runEffects_establishes (P := LevelsCurrent) ((swapEffects s.active).take 6) levelsCurrent_recomputeAll ?_
    (fun u i hu => hu.interlude i) gaps s
  intro effect hmem u hu
  rw [List.mem_singleton.1 hmem]
  exact hu

theorem LevelsCurrent.storeMoves {A : Prop} {s t : State} (h : LevelsCurrent s) (hm : StoreMoves A s t) :
    LevelsCurrent t := by
  cases hm with
  | claimed hclaims => exact h.takesInTurn hclaims
  | emptied hcircuits hactive hmode => exact levelsCurrent_empty hcircuits hactive hmode
  | recomputed _ _ hcircuit => exact fun c => hcircuit c ▸ levelCurrent_recompute t.active t.mode c _
  | published hactive hmode hsame =>
    intro c
    obtain ⟨hlist, hslot, hlevel⟩ := hsame c
    rw [hlevel, hactive, hmode, effectiveLevel_congr hslot hlist]
    exact h c
  | swapped gaps e => exact e ▸ levelsCurrent_swapBanks s gaps

/-! ### Egress members are lit (R41, R136) -/

/-- The slot of a circuit is ACTIVE if it is an egress member. -/
def SlotLit (b : Bank) (c : CircuitId) (cs : CircuitState) : Prop :=
  (b.circuit c).egressMember = true → cs.slot = .active

/-- A circuit has an ACTIVE slot and shows 1000 if it is an egress member. -/
def CircuitLit (b : Bank) (c : CircuitId) (cs : CircuitState) : Prop :=
  (b.circuit c).egressMember = true → cs.slot = .active ∧ cs.level = Config.fullLevel

theorem slotLit_moves {G : Prop} {new : Nat} {b : Bank} {mode : HouseMode} {c : CircuitId}
    {x y : CircuitState} (hm : Moves G True new b mode c x y) (h : SlotLit b c x) : SlotLit b c y := by
  obtain ⟨l, slot, -, hslot, rfl | ⟨rfl, -⟩⟩ := hm
  · intro hmember
    rw [recompute_slot]
    exact hslot.active trivial (h hmember)
  · exact fun hmember => hslot.active trivial (h hmember)

theorem effectiveLevel_active {b : Bank} {mode : HouseMode} {c : CircuitId} {cs : CircuitState}
    (h : cs.slot = .active) : effectiveLevel b mode c cs = Config.fullLevel := by
  unfold effectiveLevel
  rw [h]

theorem circuitLit_recompute {b : Bank} {mode : HouseMode} {c : CircuitId} {cs : CircuitState}
    (h : SlotLit b c cs) : CircuitLit b c (recompute b mode c cs) := by
  intro hmember
  rw [recompute_slot, recompute_level]
  exact ⟨h hmember, effectiveLevel_active (h hmember)⟩

theorem circuitLit_moves {G : Prop} {new : Nat} {b : Bank} {mode : HouseMode} {c : CircuitId}
    {x y : CircuitState} (hm : Moves G True new b mode c x y) (h : CircuitLit b c x) : CircuitLit b c y := by
  have hlit : SlotLit b c y := slotLit_moves hm (fun hmember => (h hmember).1)
  obtain ⟨l, slot, -, -, rfl | ⟨rfl, -⟩⟩ := hm
  · intro hmember
    have hslot := hlit hmember
    rw [recompute_slot] at hslot
    exact circuitLit_recompute (fun _ => hslot) hmember
  · exact fun hmember => ⟨hlit hmember, (h hmember).2⟩

/-- While the egress state is latched every egress member of the active map has an ACTIVE slot. -/
def EscapeSlotsActive (s : State) : Prop := s.egress.latched = true → ∀ c, SlotLit s.active c (s.circuit c)

/-- A swap reconciles the slots with the new map (R40); no later effect and no interlude takes an ACTIVE slot away. -/
theorem escapeSlotsActive_swapSlots (s : State) : EscapeSlotsActive s.swapSlots := by
  intro hlatched c hmember
  have hlit : swapSlot s.egress s.active c (s.circuit c).slot = .active := by
    unfold swapSlot reconcileSlot
    exact (if_pos hlatched).trans (if_pos hmember)
  unfold State.swapSlots
  rw [circuit_updateSlots]
  split
  · rw [recompute_slot]
    exact hlit
  · next hsame =>
    simp only [ne_eq, decide_not, Bool.not_eq_true', Bool.not_eq_false, decide_eq_true_eq] at hsame
    exact hsame ▸ hlit

theorem EscapeSlotsActive.interlude {s : State} (h : EscapeSlotsActive s) (i : Interlude) :
    EscapeSlotsActive (s.interlude i) := by
  intro hlatched
  rw [changes_interlude s i .egress (by decide)] at hlatched
  exact takesRecords_keeps (P := fun b _ => SlotLit b) slotLit_moves
    (takes_interlude (G := False) (A := True) s i False.elim False.elim) (h hlatched)

theorem escapeSlotsActive_swapBanks (s : State) (gaps : List (List Interlude)) :
    EscapeSlotsActive (s.swapBanks gaps) := by
  refine runEffects_establishes (P := EscapeSlotsActive) ((swapEffects s.active).take 5) escapeSlotsActive_swapSlots ?_
    (fun u i hu => hu.interlude i) gaps s
  intro effect hmem u hu
  simp only [List.mem_cons, List.not_mem_nil, or_false] at hmem
  rcases hmem with rfl | rfl
  · intro hlatched c hmember
    rw [circuit_recomputeAll, recompute_slot]
    exact hu hlatched c hmember
  · exact hu

/-- After a swap the members of the new map are lit, whatever the old map's were. -/
theorem escapeRoutesLit_swapBanks (s : State) (gaps : List (List Interlude)) :
    EscapeRoutesLit (s.swapBanks gaps) := by
  intro hlatched c hmember
  have hslot := escapeSlotsActive_swapBanks s gaps hlatched c hmember
  exact ⟨hslot, (levelsCurrent_swapBanks s gaps c).trans (effectiveLevel_active hslot)⟩

/-- Where no claim takes an ACTIVE slot away and the egress state is not newly latched, the escape routes stay lit. -/
theorem EscapeRoutesLit.storeMoves {s t : State} (h : EscapeRoutesLit s) (hm : StoreMoves True s t)
    (hlatch : t.egress.latched = true → s.egress.latched = true) : EscapeRoutesLit t := by
  intro hlatched
  have hs : ∀ c, CircuitLit s.active c (s.circuit c) := h (hlatch hlatched)
  show ∀ c, CircuitLit t.active c (t.circuit c)
  cases hm with
  | claimed hclaims => exact takesInTurn_keeps (P := fun b _ => CircuitLit b) circuitLit_moves hclaims hs
  | emptied _ hactive _ =>
    intro c hmember
    rw [hactive, circuit_empty] at hmember
    cases hmember
  | recomputed hclaims hactive hcircuit =>
    intro c
    have hlit := takesRecords_keeps (P := fun b _ => SlotLit b) slotLit_moves hclaims.takes
      (fun c hmember => (hs c hmember).1) c
    rw [hclaims.active, ← hactive] at hlit
    exact hcircuit c ▸ circuitLit_recompute hlit
  | published hactive _ hsame =>
    intro c hmember
    obtain ⟨-, hslot, hlevel⟩ := hsame c
    rw [hslot, hlevel]
    exact hs c (hactive ▸ hmember)
  | swapped gaps e =>
    subst e
    exact escapeRoutesLit_swapBanks s gaps hlatched

/-! ### Which commands latch the egress state (R132, R134, R141) -/

theorem latched_sampledEgress (line : Bool) : (sampledEgress line).latched = false := by
  cases line <;> rfl

theorem latched_egrAsserted {s t : State} (he : execEgrAsserted s = .next t) (h : t.egress.latched = true) :
    s.egress.latched = true := by
  unfold execEgrAsserted at he
  dsimp only at he
  split at he <;> cases he
  · cases h
  · next e => rw [e]; rfl
  · exact h
  · exact h

theorem latched_egrReleased {s t : State} (he : execEgrReleased s = .next t) (h : t.egress.latched = true) :
    s.egress.latched = true := by
  unfold execEgrReleased at he
  dsimp only at he
  split at he <;> cases he
  · cases h
  · next e => rw [e]; rfl
  · exact h
  · exact h

/-- Only the debounce latches the egress state; a restore, which is judged apart, clears it. -/
theorem latched_of_exec {c : Instr} {s t : State} (he : exec c s = .next t) (hd : c ≠ .debounceExpires)
    (hr : c ≠ .restoreEgress ∧ c ≠ .restore) (h : t.egress.latched = true) : s.egress.latched = true := by
  cases c with
  | power straps =>
    cases he
    rw [latched_sampledEgress] at h
    cases h
  | restart =>
    cases he
    revert h
    refine offerCommand_induction (P := fun u => u.egress.latched = true → s.egress.latched = true) id id
      (fun _ h => ?_)
    rw [changes_beginFrameClear _ .egress (by decide)] at h
    cases (latched_sampledEgress _).symm.trans h
  | egrAsserted => exact latched_egrAsserted he h
  | egrReleased => exact latched_egrReleased he h
  | debounceExpires => exact absurd rfl hd
  | restoreEgress => exact absurd rfl hr.1
  | restore => exact absurd rfl hr.2
  | _ =>
    rw [changes_of_exec he .egress (by simp only [touched]; decide)] at h
    exact h

theorem EscapeRoutesLit.of_changes {fs : List Field} {s t : State} (h : EscapeRoutesLit s) (hc : Changes fs s t)
    (hfs : ∀ f ∈ [Field.egress, .active, .circuits], f ∉ fs) : EscapeRoutesLit t := by
  intro hlatched c
  rw [hc .egress (hfs _ (by decide))] at hlatched
  rw [hc .active (hfs _ (by decide)), circuit_of_circuits (hc .circuits (hfs _ (by decide)))]
  exact h hlatched c

theorem escapeRoutesLit_of_clear {s : State} (h : s.egress = .clear) : EscapeRoutesLit s := by
  intro hlatched
  rw [h] at hlatched
  cases hlatched

theorem egress_requestRestore {s t : State} (h : s.requestRestore = .ok t) : t.egress = .clear := by
  unfold State.requestRestore at h
  split at h <;> cases h
  rfl

theorem escapeRoutesLit_restoreEgress {s t : State} (he : execRestoreEgress s = .next t) (h : EscapeRoutesLit s) :
    EscapeRoutesLit t := by
  cases he
  refine offerCommand_induction h h (fun _ => ?_)
  unfold State.settleCommand
  split
  · next u hu =>
    exact (escapeRoutesLit_of_clear (egress_requestRestore hu)).of_changes (changes_commandDone u 0) (by decide)
  · exact h

theorem escapeRoutesLit_restore {s t : State} (he : execRestore s = .next t) (h : EscapeRoutesLit s) :
    EscapeRoutesLit t := by
  cases he
  rcases runAction_cases s .restore (fun _ => s.requestRestore) with e | ⟨a, u, hu, e⟩ | ⟨a, r, e⟩ <;> rw [e]
  · exact h
  · exact (escapeRoutesLit_of_clear (egress_requestRestore hu)).of_changes (changes_finishAction u) (by decide)
  · exact h.of_changes ((changes_refuseAction s a r).trans (changes_finishAction _)) (by decide)

/-- The latch claim lights every egress member (R38). -/
theorem escapeRoutesLit_latchSlots (s : State) : EscapeRoutesLit s.latchSlots := by
  intro _ c hmember
  have hmember' : (s.active.circuit c).egressMember = true := hmember
  unfold State.latchSlots
  rw [circuit_updateSlots, if_pos hmember']
  exact circuitLit_recompute (fun _ => rfl) hmember'

theorem escapeRoutesLit_debounceExpires {s t : State} (he : execDebounceExpires s = .next t)
    (h : EscapeRoutesLit s) : EscapeRoutesLit t := by
  unfold execDebounceExpires at he
  split at he <;> cases he
  · exact escapeRoutesLit_latchSlots _
  · exact h

theorem exec_escapeRoutesLit {c : Instr} {s t : State} (he : exec c s = .next t) (h : EscapeRoutesLit s) :
    EscapeRoutesLit t := by
  by_cases hd : c = .debounceExpires
  · subst hd
    exact escapeRoutesLit_debounceExpires he h
  by_cases hr : c = .restoreEgress
  · subst hr
    exact escapeRoutesLit_restoreEgress he h
  by_cases ha : c = .restore
  · subst ha
    exact escapeRoutesLit_restore he h
  exact h.storeMoves (exec_storeMoves he (fun hrestore => absurd hrestore (not_or.2 ⟨hr, ha⟩)))
    (latched_of_exec he hd ⟨hr, ha⟩)

theorem latched_tick (e : EgressState) : e.tick.latched = e.latched := by
  cases e <;> rfl

/-- Settles O54: each claim ends with its recompute, and only the debounce, which lights every member, latches the
egress state. -/
theorem everyStepKeepsLevelsCurrentAndEscapeRoutesLit :
    Obligations.EveryStepKeepsLevelsCurrentAndEscapeRoutesLit := by
  refine ⟨stepKeeps_of_exec (fun _ _ _ he h => h.storeMoves (exec_storeMoves (A := False) he (fun _ => id)))
    (fun _ _ h => h) (fun _ h => h), stepKeeps_of_exec (fun _ _ _ => exec_escapeRoutesLit) (fun _ _ h => h) ?_⟩
  intro s h hlatched
  exact h ((latched_tick s.egress).symm.trans hlatched)

end Sys2Proof.Machine
end

section
/-! Contributions and the merge (spec chapter 2), O4 and O51: the machine after POWER and right after reset. -/

namespace Sys2Proof.Machine

/-! ### POWER (R47, R64, R84, R98, R126, R141, R153, R163, R170, R182) -/

theorem station_of_fill {s : State} (h : s.stations = Table.fill 112 StationState.initial) (n : StationId) :
    s.station n = StationState.initial := by
  unfold State.station
  rw [h, Table.get_fill]

/-- No flip is pending while a frame clear runs (R148, R149). -/
theorem flipPending_of_clear {s : State} {k : Nat} (h : s.clear = some k) : s.flipPending = false := by
  unfold State.flipPending State.flipReady State.clearRunning
  rw [h, Option.isSome_some, Bool.not_true, Bool.and_false, Bool.false_and]

/-- With no cause pending there is no top cause (R180). -/
theorem topCause_of_causes {s : State} (h : s.causes = 0) : s.topCause = 0 := by
  unfold State.topCause
  rw [h]
  exact congrArg topCauseCode (BitVec.zero_and (x := s.mask))

/-- Settles O4: POWER is the reset state with the straps and EGR# sampled. -/
theorem powerGivesEveryRegisterItsPowerValue : Obligations.PowerGivesEveryRegisterItsPowerValue := by
  intro straps s
  have hcircuits : ∀ c, State.reset.circuit c = CircuitState.initial := circuit_of_fill rfl
  have hstations : ∀ n, State.reset.station n = StationState.initial := station_of_fill rfl
  refine ⟨_, rfl, ⟨rfl, rfl, rfl⟩, ⟨hcircuits, ?_⟩, ⟨rfl, rfl⟩, fun n => ?_, ⟨rfl, rfl, rfl, rfl⟩, rfl, ⟨rfl, rfl, rfl⟩,
    fun h => ?_, fun h => ?_, ⟨rfl, flipPending_of_clear rfl, rfl⟩, ⟨rfl, rfl, rfl, rfl, rfl⟩,
    ⟨rfl, rfl, rfl, rfl, rfl⟩, ⟨rfl, rfl, topCause_of_causes rfl, fun k => ?_, rfl⟩, ⟨rfl, rfl, rfl, rfl⟩⟩
  · exact poolFree_of_nil (s := State.reset) (fun c => by rw [hcircuits c]; rfl)
  · have hn := hstations n
    exact ⟨congrArg StationState.copy hn,
      fun i => (congrArg (fun st => st.inputs.get i) hn).trans (Table.get_fill _ i),
      congrArg StationState.baselineRequired hn, congrArg StationState.faults hn, congrArg StationState.suspect hn,
      congrArg StationState.lost hn, congrArg StationState.silence hn⟩
  · show sampledEgress s.egrLine = _
    rw [h]
    rfl
  · show sampledEgress s.egrLine = _
    rw [h]
    rfl
  · cases k <;> rfl

/-! ### The invariants at reset -/

/-- No station of the empty map is enabled (R17). -/
theorem enabled_station_empty (n : StationId) : (Bank.empty.station n).enabled = false := by
  have hcell : Bank.empty.cell (0x2800 + 8 * n.val) = 0 := by
    show emptyMapCell _ = 0
    unfold emptyMapCell
    have hceiling : ¬ 0x2800 + 8 * n.val < 0x2150 := by omega
    simp [hceiling]
  unfold Bank.station Bank.stationRec
  rw [hcell]
  rfl

theorem queueOk_reset : QueueOk State.reset := ⟨Nat.zero_le _, fun _ => Nat.zero_le _⟩

theorem holdOffOk_reset : HoldOffOk State.reset := ⟨fun h => absurd h (by decide), fun _ => rfl⟩

theorem quarantineOk_reset : QuarantineOk State.reset := by
  intro n
  rw [station_of_fill rfl]
  rfl

theorem supervisionOk_reset : SupervisionOk State.reset := by
  refine ⟨fun n => ?_, fun n => ?_⟩
  · have henabled : (State.reset.active.station n).enabled = false := enabled_station_empty n
    rw [station_of_fill rfl, henabled]
    rfl
  · rw [station_of_fill rfl]
    exact fun _ => rfl

theorem portsOk_reset : PortsOk State.reset := ⟨Nat.zero_le _, nofun, Nat.zero_le _, nofun⟩

theorem levelsOk_reset : LevelsOk State.reset :=
  levelsOk_iff.2 ⟨mapsOk_empty rfl rfl, ⟨fun _ hd => absurd hd List.not_mem_nil, nofun⟩, circuitsInRange_fill rfl,
    flightOk_of_none rfl⟩

/-- At reset a frame clear begins and has written no cell yet (R151). -/
theorem framesHold_reset : FramesHold State.reset where
  published := nofun
  cleared k hk j hj := by
    cases hk
    exact absurd hj (Nat.not_lt_zero j)
  range k hk := by
    cases hk
    exact Nat.zero_le _

/-- Settles O51: no record, no level, no event and no COMMIT, under the empty map. -/
theorem invariantsHoldAtReset : Obligations.InvariantsHoldAtReset := by
  exact ⟨rfl, storeOk_of_nil (fun c => by rw [circuit_of_fill rfl]; rfl), levelsCurrent_empty rfl rfl rfl,
    escapeRoutesLit_of_clear rfl, rfl, fun _ => rfl, nofun, queueOk_reset, holdOffOk_reset, quarantineOk_reset,
    supervisionOk_reset, portsOk_reset, levelsOk_reset, framesHold_reset⟩

end Sys2Proof.Machine
end

section
/-! Contributions and the merge (spec chapter 2), O9, O34, O35, O41 and O43: the latch claim, the effective level and
its recompute, and the desks' claims and reads. -/

namespace Sys2Proof.Machine

/-! ### The latch claim (R38, R132, R133) -/

theorem debounceDue_iff {e : EgressState} : e.debounceDue = true ↔ ∃ ms, e = .pending ms ∧ 40 ≤ ms := by
  cases e with
  | pending ms =>
    constructor
    · exact fun h => ⟨ms, rfl, of_decide_eq_true h⟩
    · rintro ⟨_, he, h⟩
      cases he
      exact decide_eq_true h
  | _ => simp [EgressState.debounceDue]

theorem latchSlots_member {s : State} {c : CircuitId} (h : (s.active.circuit c).egressMember = true) :
    (s.latchSlots.circuit c).slot = .active ∧ (s.latchSlots.circuit c).list = (s.circuit c).list ∧
      (s.latchSlots.circuit c).level = 1000 ∧ OwedFollows (s.circuit c) (s.latchSlots.circuit c) := by
  obtain ⟨hslot, hlist, hlevel, howed⟩ := touched_updateSlots (s := s)
    (touch := fun c _ => (s.active.circuit c).egressMember) (f := fun _ _ => .active) (c := c) h
  exact ⟨hslot, hlist, hlevel.trans (effectiveLevel_active hslot), howed⟩

theorem latchSlots_other {s : State} {c : CircuitId} (h : (s.active.circuit c).egressMember = false) :
    s.latchSlots.circuit c = s.circuit c :=
  untouched_updateSlots (touch := fun c _ => (s.active.circuit c).egressMember) h

/-- Settles O9: where the debounce is due it latches the slots, and a change within the latch makes no claim. -/
theorem debounceExpiryLightsEveryEgressMember : Obligations.DebounceExpiryLightsEveryEgressMember := by
  refine ⟨fun s ms hpending hrun => ?_, fun s hnot => ?_, fun s t hegress he => ?_, fun s t hegress he => ?_⟩
  · have hdue : s.egress.debounceDue = true := debounceDue_iff.2 ⟨ms, hpending, hrun⟩
    exact ⟨_, if_pos hdue, rfl, rfl,
      fun c => latchSlots_member (s := ({ s with egress := .latchedActive } : State).raiseCause .egress),
      fun c => latchSlots_other (s := ({ s with egress := .latchedActive } : State).raiseCause .egress), rfl⟩
  · refine if_neg (fun hdue => ?_)
    obtain ⟨ms, hpending, hrun⟩ := debounceDue_iff.1 hdue
    exact absurd (hnot ms hpending) (Nat.not_lt.2 hrun)
  · have he' : execEgrAsserted s = .next t := he
    unfold execEgrAsserted at he'
    rw [hegress] at he'
    cases he'
    rfl
  · have he' : execEgrReleased s = .next t := he
    unfold execEgrReleased at he'
    rw [hegress] at he'
    cases he'
    rfl

/-! ### The effective level (R41, R42) -/

/-- A class that ranks above every contribution of a list is not present. -/
theorem filter_cls_eq_nil {l : List Contribution} {j k : Cls} (h : ∀ y ∈ l, k.rank ≤ y.cls.rank)
    (hj : j.rank < k.rank) : l.filter (fun y => decide (y.cls = j)) = [] := by
  refine List.filter_eq_nil_iff.2 (fun y hy hcls => ?_)
  have hle := h y hy
  rw [of_decide_eq_true hcls] at hle
  omega

/-- The winners are the contributions of the highest class present. -/
theorem winners_eq {l rest : List Contribution} {k : Cls} {x : Contribution}
    (hk : l.filter (fun y => decide (y.cls = k)) = x :: rest) (h : ∀ y ∈ l, k.rank ≤ y.cls.rank) :
    winners l = x :: rest := by
  have absent : ∀ j : Cls, j.rank < k.rank → l.filter (fun y => decide (y.cls = j)) = [] :=
    fun j => filter_cls_eq_nil h
  unfold winners
  cases k with
  | prompt => simp [hk]
  | desk => simp [hk, absent .prompt (by decide)]
  | house => simp [hk, absent .prompt (by decide), absent .desk (by decide)]
  | local_ => simp [hk, absent .prompt (by decide), absent .desk (by decide), absent .house (by decide)]

/-- The greatest level of a list is a level of it, and no level of it is greater. -/
theorem highestLevel_greatest (x : Contribution) (rest : List Contribution) :
    (∀ y ∈ x :: rest, y.current ≤ highestLevel (x :: rest)) ∧
      ∃ y ∈ x :: rest, y.current = highestLevel (x :: rest) := by
  induction rest generalizing x with
  | nil => simp [highestLevel]
  | cons z rest ih =>
    obtain ⟨hle, y, hy, hmax⟩ := ih z
    have hcons : highestLevel (x :: z :: rest) = max x.current (highestLevel (z :: rest)) := rfl
    rw [hcons]
    refine ⟨fun w hw => ?_, ?_⟩
    · rcases List.mem_cons.1 hw with rfl | hw
      · exact Nat.le_max_left _ _
      · exact (hle w hw).trans (Nat.le_max_right _ _)
    · rcases Nat.le_total x.current (highestLevel (z :: rest)) with hx | hx
      · exact ⟨y, List.mem_cons_of_mem _ hy, hmax.trans (Nat.max_eq_right hx).symm⟩
      · exact ⟨x, List.mem_cons_self, (Nat.max_eq_left hx).symm⟩

/-- With an EMPTY slot the winning class decides, by its merge rule and under its ceiling. -/
theorem effectiveLevel_winners {b : Bank} {mode : HouseMode} {c : CircuitId} {cs : CircuitState} {x : Contribution}
    {rest : List Contribution} (hslot : cs.slot = .empty) (h : winners cs.list = x :: rest) :
    effectiveLevel b mode c cs = capTo (b.ceiling (b.circuit c).zone mode x.cls)
      (mergedLevel (mergeOfCode (b.circuit c).mergeCode) (x :: rest)) := by
  unfold effectiveLevel listLevel
  rw [hslot, h]

/-- The ceiling cells of a zone in a mode: HOUSE, then LOCAL (R168). -/
theorem ceiling_house (b : Bank) (zone : Nat) (mode : HouseMode) :
    b.ceiling zone mode .house = some (b.cell (0x2010 + 20 * zone + 4 * mode.code)).toNat := by
  show some (b.cell (0x2010 + 20 * zone + 2 * (2 * mode.code))).toNat = _
  rw [← Nat.mul_assoc]

theorem ceiling_local (b : Bank) (zone : Nat) (mode : HouseMode) :
    b.ceiling zone mode .local_ = some (b.cell (0x2010 + 20 * zone + 4 * mode.code + 2)).toNat := by
  show some (b.cell (0x2010 + 20 * zone + 2 * (2 * mode.code + 1))).toNat = _
  rw [Nat.mul_add, ← Nat.mul_assoc, ← Nat.add_assoc]

/-- Settles O34: the slot decides first, then the winners of the list, of whichever class they are. -/
theorem effectiveLevelIsDecidedByTheWinningClass : Obligations.EffectiveLevelIsDecidedByTheWinningClass := by
  intro b mode c cs
  refine ⟨fun h => effectiveLevel_active h, fun level rate h => ?_, fun hslot hlist => ?_,
    fun k x rest hslot hk hrank => ?_⟩
  · unfold effectiveLevel
    rw [h]
  · unfold effectiveLevel listLevel
    rw [hslot, hlist]
    rfl
  · have hcls : x.cls = k := by
      have hx : x ∈ cs.list.filter (fun y => decide (y.cls = k)) := hk ▸ List.mem_cons_self
      exact of_decide_eq_true (List.mem_filter.1 hx).2
    have hlevel := effectiveLevel_winners (b := b) (mode := mode) (c := c) hslot (winners_eq hk hrank)
    rw [hcls] at hlevel
    refine ⟨mergedLevel (mergeOfCode (b.circuit c).mergeCode) (x :: rest), fun hlatest => ?_, fun hhighest => ?_,
      fun hfree => ?_, fun hhouse => ?_, fun hlocal => ?_⟩
    · rw [hlatest]
      rfl
    · rw [hhighest]
      exact highestLevel_greatest x rest
    · rw [hlevel]
      rcases hfree with rfl | rfl <;> rfl
    · rw [hlevel, hhouse, ceiling_house]
      rfl
    · rw [hlevel, hlocal, ceiling_local]
      rfl

/-- Settles O35, by the two laws of the recompute. -/
theorem recomputeMarksBothFramesOnlyOnAChange : Obligations.RecomputeMarksBothFramesOnlyOnAChange := by
  exact fun _ _ _ _ => ⟨recompute_same, recompute_changed⟩

/-! ### The view window (R36, R155) -/

/-- A read of the view window that the port takes is answered at once. -/
theorem exec_viewWindowRead {s : State} {r : ReadAccess} {c : CircuitId}
    (h : s.addresses r.addr (0x0C00 + 2 * c.val)) (hl : r.lanes.any = true) (hr : s.upstreamReady = true) :
    exec (.viewWindowRead r) s = .next { s with upData := laneData r.lanes (s.viewAnswer r.tag c) } := by
  show execViewWindowRead r s = _
  unfold execViewWindowRead
  rw [viewCircuit_of_addresses h hl]
  exact congrArg _ (if_pos hr)

/-- Settles O41: the answer is the tag's own contribution's level, where it has one. -/
theorem viewWindowReadAnswersTheTagsOwnLevel : Obligations.ViewWindowReadAnswersTheTagsOwnLevel := by
  intro s r c haddr hlanes hready answer
  have hexec := exec_viewWindowRead haddr hlanes hready
  refine ⟨fun x hx => ?_, fun hnone => ?_⟩
  · have hanswer : s.viewAnswer r.tag c = BitVec.ofNat 16 x.current := by
      unfold State.viewAnswer
      rw [hx]
    rw [hexec, hanswer]
    rfl
  · have hanswer : s.viewAnswer r.tag c = 0xFFFF := by
      unfold State.viewAnswer
      rw [ownContribution_eq_none.2 (holds_false_iff.2 hnone)]
    rw [hexec, hanswer]
    rfl

end Sys2Proof.Machine
end

section
/-! Contributions and the merge (spec chapter 2), O43: the desks' claims (R34, R35), each taken with the head of the
Desk Write Queue leaving it (R159). That a write waiting at the port joins within the take is log 23. -/

namespace Sys2Proof.Machine

/-! ### The head leaves the Desk Write Queue (R159, log 23) -/

theorem poolFree_of_circuits {s t : State} (h : t.circuits = s.circuits) : t.poolFree = s.poolFree := by
  unfold State.poolFree
  rw [h]

/-- Once the head has left, everything that a desk claim reads is as it was: only the port and the queue differ. -/
theorem deskHeadLeaves_same (s : State) (rest : List DeskEntry) :
    (∀ c, (s.deskHeadLeaves rest).circuit c = s.circuit c) ∧ (s.deskHeadLeaves rest).poolFree = s.poolFree ∧
    (s.deskHeadLeaves rest).active = s.active ∧ (s.deskHeadLeaves rest).mode = s.mode ∧
    (s.deskHeadLeaves rest).causes = s.causes ∧ (s.deskHeadLeaves rest).counters = s.counters := by
  have hch := changes_deskHeadLeaves s rest
  have hcircuits : (s.deskHeadLeaves rest).circuits = s.circuits := hch .circuits (by decide)
  exact ⟨circuit_of_circuits hcircuits, poolFree_of_circuits hcircuits, hch .active (by decide), hch .mode (by decide),
    hch .causes (by decide), hch .counters (by decide)⟩

theorem exec_deskClaim {s : State} {d : DeskEntry} {rest : List DeskEntry} (h : s.deskQueue = d :: rest) :
    exec .deskClaim s = .next ((s.deskHeadLeaves rest).deskClaim d) := by
  show Host.Outcome.next s.takeDeskClaim = _
  unfold State.takeDeskClaim
  rw [h]

/-! ### What a desk claim does (R34, R35) -/

/-- A level renews the tag's contribution, or creates it where there is room. -/
theorem deskClaim_level {s : State} {d : DeskEntry} (hv : d.value ≠ 0xFFFF)
    (h : holds (s.circuit d.circuit).list (.desk d.tag) = true ∨
      (s.poolFree ≠ 0 ∧ (s.circuit d.circuit).list.length < 8)) :
    s.deskClaim d = s.deskLevel d.tag d.circuit d.value.toNat := by
  unfold State.deskClaim
  rw [if_neg hv]
  split
  · rfl
  · next hnot =>
    obtain ⟨hpool, hroom⟩ := h.resolve_left hnot
    have hcheck : s.deskRefusal d.circuit = none := (if_neg hpool).trans (if_neg (Nat.not_le.2 hroom))
    rw [hcheck]

theorem deskClaim_remove {s : State} {d : DeskEntry} (hv : d.value = 0xFFFF) :
    s.deskClaim d = s.deskRemove d.tag d.circuit := if_pos hv

/-- A create that the store cannot make is refused. -/
theorem deskClaim_refused {s : State} {d : DeskEntry} {r : Reason} (hv : d.value ≠ 0xFFFF)
    (hnone : holds (s.circuit d.circuit).list (.desk d.tag) = false) (h : s.deskRefusal d.circuit = some r) :
    s.deskClaim d = s.refuseDeskClaim d.tag r := by
  unfold State.deskClaim
  rw [if_neg hv, if_neg (by rw [hnone]; decide), h]

theorem deskRefusal_poolExhausted {s : State} {c : CircuitId} (h : s.poolFree = 0) :
    s.deskRefusal c = some .poolExhausted := if_pos h

theorem deskRefusal_circuitFull {s : State} {c : CircuitId} (h : s.poolFree ≠ 0)
    (hfull : 8 ≤ (s.circuit c).list.length) : s.deskRefusal c = some .circuitFull :=
  (if_neg h).trans (if_pos hfull)

/-- A desk level snaps the tag's contribution on its circuit. -/
theorem deskLevel_circuit (s : State) (t : TagId) (c : CircuitId) (level : Nat) :
    GoesToLevel (.desk t) .desk level 0 (s.circuit c) ((s.deskLevel t c level).circuit c) ∧
    ((s.deskLevel t c level).circuit c).slot = (s.circuit c).slot ∧
    Recomputed s.active s.mode c (s.circuit c) ((s.deskLevel t c level).circuit c) := by
  obtain ⟨hlist, hslot, hrecomputed⟩ := touched_updateLists (s := s) (touch := fun x _ => decide (x = c))
    (f := fun _ cs => createOrRenew (.desk t) .desk (.snap level) cs) (c := c) (decide_eq_true rfl)
  exact ⟨createOrRenew_goes hlist, hslot, hrecomputed⟩

theorem deskLevel_other (s : State) (t : TagId) {c k : CircuitId} (level : Nat) (h : k ≠ c) :
    (s.deskLevel t c level).circuit k = s.circuit k :=
  untouched_updateLists (touch := fun x _ => decide (x = c)) (decide_eq_false h)

/-- A removal takes the tag's contribution out at once. -/
theorem deskRemove_circuit {s : State} {t : TagId} {c : CircuitId} (h : holds (s.circuit c).list (.desk t) = true) :
    ((s.deskRemove t c).circuit c).list = (s.circuit c).list.filter (fun x => !decide (x.owner = .desk t)) ∧
    ((s.deskRemove t c).circuit c).slot = (s.circuit c).slot ∧
    Recomputed s.active s.mode c (s.circuit c) ((s.deskRemove t c).circuit c) :=
  touched_updateLists (s := s) (touch := fun x cs => decide (x = c) && holds cs.list (.desk t))
    (f := fun _ cs => removeWhere (fun x => x.ownedBy (.desk t)) cs.list) (c := c) (by simp [h])

theorem deskRemove_other (s : State) (t : TagId) {c k : CircuitId} (h : k ≠ c) :
    (s.deskRemove t c).circuit k = s.circuit k :=
  untouched_updateLists (touch := fun x cs => decide (x = c) && holds cs.list (.desk t)) (by simp [h])

/-- Nothing is removed where the tag has no contribution. -/
theorem deskRemove_idle {s : State} {t : TagId} {c : CircuitId} (h : holds (s.circuit c).list (.desk t) = false) :
    s.deskRemove t c = s := by
  refine updateLists_idle (fun k => ?_)
  by_cases hk : k = c
  · subst hk
    simp [h]
  · simp [hk]

/-- Settles O43: the head leaves the queue, and the claim is judged on a store that this has left alone. -/
theorem deskClaimSnapsRemovesOrIsRefused : Obligations.DeskClaimSnapsRemovesOrIsRefused := by
  unfold Obligations.DeskClaimSnapsRemovesOrIsRefused
  intro left
  have hleft : ∀ s rest, left s rest = s.deskHeadLeaves rest := by
    intro s rest
    simp only [left]
    split
    · next w hport =>
      split
      · next hfree => exact (joinWaiting_of_free (s := { s with deskQueue := rest }) hport hfree).symm
      · next hfull => exact (joinWaiting_of_full (s := { s with deskQueue := rest }) (Nat.not_lt.1 hfull)).symm
    · next hnone => exact (joinWaiting_of_none (s := { s with deskQueue := rest }) hnone).symm
  simp only [hleft]
  refine ⟨fun s d rest hqueue => ?_, fun s d rest hqueue hv hnone => ?_⟩
  · have hexec := exec_deskClaim hqueue
    obtain ⟨hcircuit, hpool, hactive, hmode, -, -⟩ := deskHeadLeaves_same s rest
    generalize s.deskHeadLeaves rest = u at hexec hcircuit hpool hactive hmode ⊢
    rw [← hpool, ← hactive, ← hmode]
    simp only [← hcircuit]
    refine ⟨fun hv hroom => ?_, fun hv hown => ?_, fun hv hown => ?_⟩
    · rw [deskClaim_level hv hroom] at hexec
      obtain ⟨hgoes, hslot, hrecomputed⟩ := deskLevel_circuit u d.tag d.circuit d.value.toNat
      exact ⟨_, hexec, hgoes, hslot, hrecomputed, fun c => deskLevel_other u d.tag d.value.toNat, rfl⟩
    · rw [deskClaim_remove hv] at hexec
      obtain ⟨hlist, hslot, hrecomputed⟩ := deskRemove_circuit hown
      exact ⟨_, hexec, hlist, hslot, hrecomputed, fun c => deskRemove_other u d.tag, rfl⟩
    · rw [hexec, deskClaim_remove hv, deskRemove_idle hown]
  · have hexec := exec_deskClaim hqueue
    obtain ⟨hcircuit, hpool, -, -, hcauses, hcounters⟩ := deskHeadLeaves_same s rest
    generalize s.deskHeadLeaves rest = u at hexec hcircuit hpool hcauses hcounters ⊢
    rw [← hcircuit] at hnone
    rw [← hpool, ← hcauses, ← hcounters, ← hcircuit]
    refine ⟨fun hempty => ?_, fun hrecords hfull => ?_⟩
    · rw [hexec, deskClaim_refused hv hnone (deskRefusal_poolExhausted hempty)]
      rfl
    · rw [hexec, deskClaim_refused hv hnone (deskRefusal_circuitFull hrecords hfull)]
      rfl

end Sys2Proof.Machine
end

section
/-! Fades, ramps and profiles (spec chapter 3), O12 and O13: stage 1 on a contribution and stage 2 on a list. -/

namespace Sys2Proof.Machine

/-! ### Stage 1: fades and ramps (R50, R53) -/

theorem advance_fading {x : Contribution} {start steps index : Nat} (h : x.movement = .fading start steps index) :
    x.advance =
      if index + 1 < steps then
        { x with current := fadeLevel start x.target (index + 1) steps, movement := .fading start steps (index + 1) }
      else { x with current := x.target, movement := .steady } := by
  simp only [Contribution.advance, h]

theorem advance_ramp {x : Contribution} {start steps index : Nat} {i : InputId}
    (h : x.movement = .ramp start steps index i) :
    x.advance =
      if index + 1 < steps then
        { x with current := fadeLevel start x.target (index + 1) steps, movement := .ramp start steps (index + 1) i }
      else { x with current := x.target, movement := .steady } := by
  simp only [Contribution.advance, h]

/-- Stage 1 leaves a LEAVING contribution to stage 2 (R49). -/
theorem advance_leaving {x : Contribution} {rate : Nat} (h : x.movement = .leaving rate) : x.advance = x := by
  simp only [Contribution.advance, h]

theorem fadeLevel_rising {start target : Nat} (k n : Nat) (h : start ≤ target) :
    fadeLevel start target k n = start + (target - start) * k / n :=
  if_pos h

theorem fadeLevel_falling {start target : Nat} (k n : Nat) (h : target ≤ start) :
    fadeLevel start target k n = start - (start - target) * k / n := by
  rcases Nat.eq_or_lt_of_le h with rfl | hlt
  · simp [fadeLevel]
  · exact if_neg (Nat.not_le.2 hlt)

/-- `k` of `n` parts of a distance, truncated: the part gone is the greatest that does not exceed the exact fraction. -/
theorem mul_div_truncated {k n : Nat} (d : Nat) (hn : 0 < n) (hk : k ≤ n) :
    d * k / n * n ≤ d * k ∧ d * k < (d * k / n + 1) * n ∧ d * k / n ≤ d :=
  ⟨Nat.div_mul_le_self _ _, (Nat.div_lt_iff_lt_mul hn).1 (Nat.lt_succ_self _),
    Nat.div_le_of_le_mul (Nat.mul_comm n d ▸ Nat.mul_le_mul_left d hk)⟩

/-- A fade has reached its target after its last step. -/
theorem fadeLevel_last (start target : Nat) {n : Nat} (hn : 0 < n) : fadeLevel start target n n = target := by
  rcases Nat.le_total start target with h | h
  · rw [fadeLevel_rising n n h, Nat.mul_div_cancel _ hn, Nat.add_sub_cancel' h]
  · rw [fadeLevel_falling n n h, Nat.mul_div_cancel _ hn, Nat.sub_sub_self h]

/-- Settles O12: upward and downward the part of the distance gone is the truncated fraction. -/
theorem fadeStandsAtItsFractionTruncatedTowardTheStart :
    Obligations.FadeStandsAtItsFractionTruncatedTowardTheStart := by
  refine ⟨fun x start steps index h => ⟨fun hmore => ?_, fun hlast => ?_⟩,
    fun x start steps index i h => ⟨fun hmore => ?_, fun hlast => ?_⟩,
    fun start target k steps hsteps hk => ⟨fun hup => ?_, fun hdown => ?_⟩,
    fun start target steps hsteps => fadeLevel_last start target hsteps⟩
  · rw [advance_fading h, if_pos hmore]
  · rw [advance_fading h, if_neg (Nat.not_lt.2 hlast)]
  · rw [advance_ramp h, if_pos hmore]
  · rw [advance_ramp h, if_neg (Nat.not_lt.2 hlast)]
  · obtain ⟨hle, hlt, hpart⟩ := mul_div_truncated (target - start) hsteps hk
    have hgone : fadeLevel start target k steps - start = (target - start) * k / steps := by
      rw [fadeLevel_rising k steps hup, Nat.add_sub_cancel_left]
    rw [hgone]
    refine ⟨hle, hlt, ?_, ?_⟩ <;> rw [fadeLevel_rising k steps hup] <;> omega
  · obtain ⟨hle, hlt, hpart⟩ := mul_div_truncated (start - target) hsteps hk
    have hgone : start - fadeLevel start target k steps = (start - target) * k / steps := by
      rw [fadeLevel_falling k steps hdown, Nat.sub_sub_self (hpart.trans (Nat.sub_le ..))]
    rw [hgone]
    refine ⟨hle, hlt, ?_, ?_⟩ <;> rw [fadeLevel_falling k steps hdown] <;> omega

/-! ### Stage 2: LEAVING contributions (R56) -/

theorem isLeaving_of_leaving {x : Contribution} {rate : Nat} (h : x.movement = .leaving rate) :
    x.isLeaving = true := by
  simp only [Contribution.isLeaving, h]

/-- Stage 1 takes no contribution into LEAVING or out of it. -/
theorem isLeaving_advance (x : Contribution) : x.advance.isLeaving = x.isLeaving := by
  cases h : x.movement with
  | steady => simp only [Contribution.advance, h]
  | leaving rate => rw [advance_leaving h]
  | fading start steps index =>
    rw [advance_fading h]
    split <;> simp only [Contribution.isLeaving, h]
  | ramp start steps index i =>
    rw [advance_ramp h]
    split <;> simp only [Contribution.isLeaving, h]

theorem not_isLeaving_map_advance {l : List Contribution} (h : ∀ y ∈ l, y.isLeaving = false) :
    ∀ y ∈ l.map Contribution.advance, y.isLeaving = false := by
  intro y hy
  obtain ⟨x, hx, rfl⟩ := List.mem_map.1 hy
  rw [isLeaving_advance, h x hx]

section Leaving
variable {b : Bank} {mode : HouseMode} {c : CircuitId} {done rest : List Contribution} {x : Contribution} {rate : Nat}

theorem leavingStage_kept (h : x.isLeaving = false) :
    leavingStage b mode c done (x :: rest) = leavingStage b mode c (done ++ [x]) rest := by
  cases hm : x.movement with
  | leaving rate => rw [isLeaving_of_leaving hm] at h; cases h
  | _ => simp only [leavingStage, hm]

theorem leavingStage_leaving (h : x.movement = .leaving rate) :
    leavingStage b mode c done (x :: rest) =
      if distance x.current (listLevel b mode c (done ++ rest)) ≤ rate then leavingStage b mode c done rest
      else leavingStage b mode c
        (done ++ [{ x with current := moveToward x.current (listLevel b mode c (done ++ rest)) rate }]) rest := by
  simp only [leavingStage, h]

theorem leavingStage_arrives (h : x.movement = .leaving rate)
    (hd : distance x.current (listLevel b mode c (done ++ rest)) ≤ rate) :
    leavingStage b mode c done (x :: rest) = leavingStage b mode c done rest := by
  rw [leavingStage_leaving h, if_pos hd]

theorem leavingStage_rises (h : x.movement = .leaving rate)
    (hup : x.current + rate < listLevel b mode c (done ++ rest)) :
    leavingStage b mode c done (x :: rest) =
      leavingStage b mode c (done ++ [{ x with current := x.current + rate }]) rest := by
  have hfar : ¬ distance x.current (listLevel b mode c (done ++ rest)) ≤ rate := by unfold distance; omega
  have hmove : moveToward x.current (listLevel b mode c (done ++ rest)) rate = x.current + rate :=
    if_pos (by omega)
  rw [leavingStage_leaving h, if_neg hfar, hmove]

theorem leavingStage_falls (h : x.movement = .leaving rate)
    (hdown : listLevel b mode c (done ++ rest) + rate < x.current) :
    leavingStage b mode c done (x :: rest) =
      leavingStage b mode c (done ++ [{ x with current := x.current - rate }]) rest := by
  have hfar : ¬ distance x.current (listLevel b mode c (done ++ rest)) ≤ rate := by unfold distance; omega
  have hmove : moveToward x.current (listLevel b mode c (done ++ rest)) rate = x.current - rate :=
    if_neg (by omega)
  rw [leavingStage_leaving h, if_neg hfar, hmove]

/-- Stage 2 passes over contributions that do not leave. -/
theorem leavingStage_append {l : List Contribution} (h : ∀ y ∈ l, y.isLeaving = false) :
    leavingStage b mode c done (l ++ rest) = leavingStage b mode c (done ++ l) rest := by
  induction l generalizing done with
  | nil => rw [List.nil_append, List.append_nil]
  | cons y l ih =>
    obtain ⟨hy, hl⟩ := List.forall_mem_cons.1 h
    rw [List.cons_append, leavingStage_kept hy, ih hl, List.append_assoc, List.singleton_append]

/-- A list without a LEAVING contribution stands. -/
theorem leavingStage_idle {l : List Contribution} (h : ∀ y ∈ l, y.isLeaving = false) :
    leavingStage b mode c done l = done ++ l := by
  rw [← List.append_nil l, leavingStage_append h, List.append_nil]
  rfl

end Leaving

/-- A LEAVING contribution out of reach of a level lies below it or above it by more than its rate. -/
theorem rate_lt_distance {level target rate : Nat} (h : rate < distance level target) :
    level + rate < target ∨ target + rate < level := by
  unfold distance at h
  omega

theorem frontFirst_leavingStage (b : Bank) (mode : HouseMode) (c : CircuitId) (todo done : List Contribution) :
    FrontFirst b mode c done todo (leavingStage b mode c done todo) := by
  induction todo generalizing done with
  | nil => exact .finished done
  | cons x rest ih =>
    by_cases hx : x.isLeaving = false
    · rw [leavingStage_kept hx]
      exact .kept hx (ih _)
    obtain ⟨rate, h⟩ : ∃ rate, x.movement = .leaving rate := by
      cases hm : x.movement with
      | leaving rate => exact ⟨rate, rfl⟩
      | _ => exact absurd (by simp only [Contribution.isLeaving, hm]) hx
    rcases Nat.lt_or_ge rate (distance x.current (listLevel b mode c (done ++ rest))) with hd | hd
    · rcases rate_lt_distance hd with hup | hdown
      · rw [leavingStage_rises h hup]
        exact .rises h hup (ih _)
      · rw [leavingStage_falls h hdown]
        exact .falls h hdown (ih _)
    · rw [leavingStage_arrives h hd]
      exact .arrives h hd (ih _)

theorem eq_leavingStage_of_frontFirst {b : Bank} {mode : HouseMode} {c : CircuitId}
    {done todo after : List Contribution} (h : FrontFirst b mode c done todo after) :
    after = leavingStage b mode c done todo := by
  induction h with
  | finished done => rfl
  | kept hx _ ih => rw [leavingStage_kept hx, ih]
  | arrives hx hd _ ih => rw [leavingStage_arrives hx hd, ih]
  | rises hx hup _ ih => rw [leavingStage_rises hx hup, ih]
  | falls hx hdown _ ih => rw [leavingStage_falls hx hdown, ih]

/-- Stage 2 is the front-first handling of the list, and the only list that comes of it. -/
theorem frontFirst_iff {b : Bank} {mode : HouseMode} {c : CircuitId} {done todo after : List Contribution} :
    FrontFirst b mode c done todo after ↔ after = leavingStage b mode c done todo :=
  ⟨eq_leavingStage_of_frontFirst, fun h => h ▸ frontFirst_leavingStage b mode c todo done⟩

/-- With a single LEAVING contribution, a step comes to its turn with the others advanced and in their places. -/
theorem stepList_single {b : Bank} {mode : HouseMode} {c : CircuitId} {ahead behind : List Contribution}
    {x : Contribution} {rate : Nat} (h : x.movement = .leaving rate) (hahead : ∀ y ∈ ahead, y.isLeaving = false) :
    stepList b mode false c (ahead ++ x :: behind) =
      leavingStage b mode c (ahead.map Contribution.advance) (x :: behind.map Contribution.advance) := by
  show leavingStage b mode c [] ((ahead ++ x :: behind).map Contribution.advance) = _
  rw [List.map_append, List.map_cons, advance_leaving h, leavingStage_append (not_isLeaving_map_advance hahead),
    List.nil_append]

/-- Settles O13: stage 2 is the front-first handling, and a single LEAVING contribution is judged against the others
advanced. -/
theorem leavingContributionChasesTheLevelWithoutIt : Obligations.LeavingContributionChasesTheLevelWithoutIt := by
  refine ⟨fun b mode c l after => frontFirst_iff, fun b mode c ahead behind x rate h hothers => ?_⟩
  obtain ⟨hahead, hbehind⟩ := List.forall_mem_append.1 hothers
  have hstands : ∀ y ∈ behind.map Contribution.advance, y.isLeaving = false := not_isLeaving_map_advance hbehind
  intro others target after
  have hafter : after =
      leavingStage b mode c (ahead.map Contribution.advance) (x :: behind.map Contribution.advance) :=
    stepList_single h hahead
  refine ⟨fun hd => ?_, fun hd hbelow => ?_, fun hd habove => ?_⟩
  · rw [hafter, leavingStage_arrives h hd, leavingStage_idle hstands]
  · have hup : x.current + rate < target := (rate_lt_distance hd).resolve_right (by omega)
    rw [hafter, leavingStage_rises h hup, leavingStage_idle hstands, List.append_assoc, List.singleton_append]
  · have hdown : target + rate < x.current := (rate_lt_distance hd).resolve_left (by omega)
    rw [hafter, leavingStage_falls h hdown, leavingStage_idle hstands, List.append_assoc, List.singleton_append]

end Sys2Proof.Machine
end

section
/-! Fades, ramps and profiles (spec chapter 3), O11: the three stages of STEP on every circuit, and the recompute of
those whose levels or slot it changed. -/

namespace Sys2Proof.Machine

/-! ### One circuit (R49, R44) -/

section Circuit
variable (b : Bank) (mode : HouseMode) (hold : Bool) (c : CircuitId) (cs : CircuitState)

theorem stepCircuit_list : (stepCircuit b mode hold c cs).list = stepList b mode hold c cs.list := by
  unfold stepCircuit
  dsimp only
  split
  · rfl
  · exact recompute_list ..

/-- Stage 3 judges the slot against the list as stages 1 and 2 have left it (R58). -/
theorem stepCircuit_slot : (stepCircuit b mode hold c cs).slot =
    stepSlot (listLevel b mode c (stepCircuit b mode hold c cs).list) cs.slot := by
  rw [stepCircuit_list]
  unfold stepCircuit
  dsimp only
  split
  · rfl
  · exact recompute_slot ..

/-- What decides the recompute is read from the circuit after the step. -/
theorem stepCircuit_cases :
    (sameLevels cs (stepCircuit b mode hold c cs) = true ∧
      stepCircuit b mode hold c cs = { cs with list := (stepCircuit b mode hold c cs).list }) ∨
    (sameLevels cs (stepCircuit b mode hold c cs) = false ∧
      Recomputed b mode c cs (stepCircuit b mode hold c cs)) := by
  unfold stepCircuit
  dsimp only
  split
  · next h =>
    obtain ⟨-, hslot⟩ := sameLevels_iff.1 h
    exact .inl ⟨h, congrArg (fun slot => CircuitState.mk _ slot _ _ _) hslot⟩
  · next h =>
    refine .inr ⟨?_, recomputed_recompute rfl rfl rfl⟩
    rw [Bool.eq_false_iff]
    intro hsame
    obtain ⟨hlevels, hslot⟩ := sameLevels_iff.1 hsame
    rw [recompute_list] at hlevels
    rw [recompute_slot] at hslot
    exact h (sameLevels_iff.2 ⟨hlevels, hslot⟩)

variable {b mode hold c cs}

theorem stepCircuit_of_same (h : sameLevels cs (stepCircuit b mode hold c cs) = true) :
    stepCircuit b mode hold c cs = { cs with list := (stepCircuit b mode hold c cs).list } := by
  rcases stepCircuit_cases b mode hold c cs with ⟨-, e⟩ | ⟨hmoved, -⟩
  · exact e
  · rw [h] at hmoved
    cases hmoved

theorem recomputed_stepCircuit (h : sameLevels cs (stepCircuit b mode hold c cs) = false) :
    Recomputed b mode c cs (stepCircuit b mode hold c cs) := by
  rcases stepCircuit_cases b mode hold c cs with ⟨hsame, -⟩ | ⟨-, hr⟩
  · rw [h] at hsame
    cases hsame
  · exact hr

/-- A circuit whose stored level is current is after a step as a recompute leaves it, recomputed or not. -/
theorem LevelCurrent.recomputed_stepCircuit (h : LevelCurrent b mode c cs) :
    Recomputed b mode c cs (stepCircuit b mode hold c cs) := by
  cases hsame : sameLevels cs (stepCircuit b mode hold c cs) with
  | false => exact Machine.recomputed_stepCircuit hsame
  | true =>
    have e := stepCircuit_of_same hsame
    have hlevel : (stepCircuit b mode hold c cs).level = cs.level := e ▸ rfl
    have howedA : (stepCircuit b mode hold c cs).owedA = cs.owedA := e ▸ rfl
    have howedB : (stepCircuit b mode hold c cs).owedB = cs.owedB := e ▸ rfl
    have heffective := effectiveLevel_sameLevels (b := b) (mode := mode) (c := c) (stepCircuit_list ..) hsame
    exact ⟨hlevel.trans (h.trans heffective.symm), fun _ => ⟨howedA, howedB⟩, fun hne => absurd hlevel hne⟩

end Circuit

/-! ### Stage 3 on a slot (R58) -/

theorem stepSlot_arrives {listed level rate : Nat} (h : distance level listed ≤ rate) :
    stepSlot listed (.leaving level rate) = .empty :=
  if_pos h

theorem stepSlot_rises {listed level rate : Nat} (h : rate < distance level listed) (hup : level < listed) :
    stepSlot listed (.leaving level rate) = .leaving (level + rate) rate := by
  have hmove : moveToward level listed rate = level + rate := if_pos hup
  rw [← hmove]
  exact if_neg (Nat.not_le.2 h)

theorem stepSlot_falls {listed level rate : Nat} (h : rate < distance level listed) (hdown : listed < level) :
    stepSlot listed (.leaving level rate) = .leaving (level - rate) rate := by
  have hmove : moveToward level listed rate = level - rate := if_neg (Nat.lt_asymm hdown)
  rw [← hmove]
  exact if_neg (Nat.not_le.2 h)

/-! ### Every circuit -/

theorem circuit_fadeStep (s : State) (c : CircuitId) :
    s.fadeStep.circuit c = stepCircuit s.active s.mode s.hold c (s.circuit c) :=
  State.circuit_mapCircuits s (stepCircuit s.active s.mode s.hold) c

/-- Settles O11: stage by stage on each circuit, and recomputed where its levels or its slot have changed. -/
theorem stepTakesItsThreeStagesOnEveryCircuit : Obligations.StepTakesItsThreeStagesOnEveryCircuit := by
  refine fun s => ⟨s.fadeStep, rfl, fun c => ?_, fun hcurrent c => ?_, rfl⟩
  · rw [circuit_fadeStep]
    have hlist := stepCircuit_list s.active s.mode s.hold c (s.circuit c)
    have hslot := stepCircuit_slot s.active s.mode s.hold c (s.circuit c)
    refine ⟨fun hhold => ?_, fun hhold => ?_, fun hactive => ?_, fun hempty => ?_, fun level rate hleaving => ?_,
      fun hsame => stepCircuit_of_same (sameLevels_iff.2 hsame),
      fun hmoved => recomputed_stepCircuit (Bool.eq_false_iff.2 (fun h => hmoved (sameLevels_iff.1 h)))⟩
    · rw [hlist, hhold]
      rfl
    · rw [hlist, hhold]
      rfl
    · rw [hslot, hactive]
      rfl
    · rw [hslot, hempty]
      rfl
    · rw [hleaving] at hslot
      exact ⟨fun h => hslot.trans (stepSlot_arrives h), fun h hup => hslot.trans (stepSlot_rises h hup),
        fun h hdown => hslot.trans (stepSlot_falls h hdown)⟩
  · rw [circuit_fadeStep]
    exact LevelCurrent.recomputed_stepCircuit (hcurrent c)

end Sys2Proof.Machine
end

section
/-! Fades, ramps and profiles (spec chapter 3), O2: what a step does on an empty queue of commands (log 8). -/

namespace Sys2Proof.Machine

/-! ### Which expiries are due (R48, R73, R80, R132, R138) -/

theorem due_iff {i : InputState} : i.due = true ↔ i.phase = .timing 0 := decide_eq_true_iff

theorem silenceDue_iff {st : StationState} {limit : Nat} :
    st.silenceDue limit = true ↔ limit ≠ 0 ∧ ∃ ms, st.silence = some ms ∧ limit * 500 ≤ ms := by
  show _ ↔ limit ≠ 0 ∧ ∃ ms, st.silence = some ms ∧ limit * Config.silenceUnitMs ≤ ms
  unfold StationState.silenceDue
  cases st.silence <;> simp

/-- A list that holds one command where a test holds, and none elsewhere. -/
theorem mem_if_singleton {p : Prop} [Decidable p] {x y : Instr} : x ∈ (if p then [y] else []) ↔ p ∧ x = y := by
  split <;> simp [*]

theorem mem_stationDue {s : State} {n : StationId} {x : Instr} : x ∈ s.stationDue n ↔
    (∃ i, ((s.station n).inputs.get i).phase = .timing 0 ∧ x = .longPressExpires n i) ∨
      ((s.station n).silenceDue (s.active.station n).silenceLimit = true ∧ x = .silenceExpires n) := by
  simp only [State.stationDue, List.mem_append, mem_if_singleton, List.mem_map, List.mem_filter, allInputs,
    List.mem_finRange, true_and, due_iff, eq_comm (a := x)]

theorem mem_dueExpiries {s : State} {x : Instr} : x ∈ s.dueExpiries ↔
    (25 ≤ s.stepElapsed ∧ x = .step) ∨ (s.egress.debounceDue = true ∧ x = .debounceExpires) ∨
      (s.amend = some 0 ∧ x = .amendWindowExpires) ∨ (s.rst = false ∧ ∃ n, x ∈ s.stationDue n) := by
  show _ ↔ (Config.stepMs ≤ s.stepElapsed ∧ _) ∨ _
  simp only [State.dueExpiries, List.mem_append, mem_if_singleton]
  cases s.rst <;> simp [allStations]

theorem kind_of_due {s : State} {x : Instr} (h : x ∈ s.dueExpiries) :
    x = .step ∨ x = .debounceExpires ∨ x = .amendWindowExpires ∨ (∃ n i, x = .longPressExpires n i) ∨
      ∃ n, x = .silenceExpires n := by
  rcases mem_dueExpiries.1 h with ⟨-, rfl⟩ | ⟨-, rfl⟩ | ⟨-, rfl⟩ | ⟨-, n, hn⟩
  · exact .inl rfl
  · exact .inr (.inl rfl)
  · exact .inr (.inr (.inl rfl))
  · rcases mem_stationDue.1 hn with ⟨i, -, rfl⟩ | ⟨-, rfl⟩
    · exact .inr (.inr (.inr (.inl ⟨n, i, rfl⟩)))
    · exact .inr (.inr (.inr (.inr ⟨n, rfl⟩)))

/-! ### Their order -/

/-- Expiries in the order of their places, none before place `k`. -/
def InPlaceFrom (k : Nat) (l : List Instr) : Prop :=
  l.Pairwise (fun x y => duePlace x < duePlace y) ∧ ∀ y ∈ l, k ≤ duePlace y

/-- One more expiry, where it is due, in front of those of later places. -/
theorem InPlaceFrom.prepend {p : Prop} [Decidable p] {x : Instr} {l : List Instr}
    (h : InPlaceFrom (duePlace x + 1) l) : InPlaceFrom (duePlace x) ((if p then [x] else []) ++ l) := by
  obtain ⟨hordered, hlater⟩ := h
  split
  · exact ⟨List.pairwise_cons.2 ⟨hlater, hordered⟩,
      List.forall_mem_cons.2 ⟨Nat.le_refl _, fun y hy => Nat.le_of_lt (hlater y hy)⟩⟩
  · exact ⟨hordered, fun y hy => Nat.le_of_lt (hlater y hy)⟩

/-- The expiries of a station take the 17 places that follow those of the station before. -/
theorem duePlace_stationDue {s : State} {n : StationId} {x : Instr} (h : x ∈ s.stationDue n) :
    3 + 17 * n.val ≤ duePlace x ∧ duePlace x < 3 + 17 * (n.val + 1) := by
  rcases mem_stationDue.1 h with ⟨i, -, rfl⟩ | ⟨-, rfl⟩ <;> simp only [duePlace] <;> omega

theorem pairwise_stationDue (s : State) (n : StationId) :
    (s.stationDue n).Pairwise (fun x y => duePlace x < duePlace y) := by
  refine List.pairwise_append.2 ⟨?_, by split <;> simp, fun x hx y hy => ?_⟩
  · rw [List.pairwise_map]
    refine ((List.pairwise_lt_finRange 16).filter _).imp (fun {i j} hij => ?_)
    simp only [duePlace]
    omega
  · obtain ⟨i, -, rfl⟩ := List.mem_map.1 hx
    obtain ⟨-, rfl⟩ := mem_if_singleton.1 hy
    simp only [duePlace]
    omega

theorem inPlace_stations (s : State) : InPlaceFrom 3 (allStations.flatMap s.stationDue) := by
  refine ⟨List.pairwise_flatMap.2 ⟨fun n _ => pairwise_stationDue s n,
    (List.pairwise_lt_finRange 112).imp (fun {n m} hnm x hx y hy => ?_)⟩, fun y hy => ?_⟩
  · have hbefore := (duePlace_stationDue hx).2
    have hafter := (duePlace_stationDue hy).1
    omega
  · obtain ⟨n, -, hn⟩ := List.mem_flatMap.1 hy
    have hplace := (duePlace_stationDue hn).1
    omega

theorem inPlace_dueExpiries (s : State) : InPlaceFrom 0 s.dueExpiries := by
  have hstations : InPlaceFrom 3 (if s.rst then [] else allStations.flatMap s.stationDue) := by
    split
    · exact ⟨.nil, fun _ h => absurd h List.not_mem_nil⟩
    · exact inPlace_stations s
  have hamend := hstations.prepend (p := s.amend = some 0) (x := .amendWindowExpires)
  have hdebounce := hamend.prepend (p := s.egress.debounceDue) (x := .debounceExpires)
  exact hdebounce.prepend (x := .step)

/-! ### 5 ms pass -/

theorem tick_closed (i : InputState) : i.tick.closed = i.closed := by
  unfold InputState.tick
  split <;> rfl

theorem tick_acted (i : InputState) : i.tick.acted = i.acted := by
  unfold InputState.tick
  split <;> rfl

theorem tick_timing {i : InputState} {ms : Nat} (h : i.phase = .timing ms) : i.tick.phase = .timing (ms - 5) := by
  simp only [InputState.tick, h, Config.tickMs]

theorem tick_not_timing {i : InputState} (h : ∀ ms, i.phase ≠ .timing ms) : i.tick.phase = i.phase := by
  unfold InputState.tick
  split
  · next ms hm => exact absurd hm (h ms)
  · rfl
  · rfl

theorem tick_pending {e : EgressState} {ms : Nat} (h : e = .pending ms) : e.tick = .pending (ms + 5) := by
  rw [h]
  rfl

theorem tick_not_pending {e : EgressState} (h : ∀ ms, e ≠ .pending ms) : e.tick = e := by
  cases e with
  | pending ms => exact absurd rfl (h ms)
  | _ => rfl

theorem tick_inputs (st : StationState) (i : InputId) : st.tick.inputs.get i = (st.inputs.get i).tick :=
  Table.get_mapIdx _ _ _

/-- RST# pauses the timers of the stations (R73, R80). -/
theorem stations_advanceTime_paused {s : State} (h : s.rst = true) : s.advanceTime.stations = s.stations :=
  if_pos h

theorem station_advanceTime {s : State} (h : s.rst = false) (n : StationId) :
    s.advanceTime.station n = (s.station n).tick := by
  have hstations : s.advanceTime.stations = s.stations.mapIdx (fun _ st => st.tick) :=
    if_neg (Bool.eq_false_iff.1 h)
  unfold State.station
  rw [hstations, Table.get_mapIdx]

/-! ### A step on an empty queue -/

theorem step_of_due {s : State} {x : Instr} {l : List Instr} (hq : s.pending = []) (h : s.dueExpiries = x :: l) :
    step s = exec x s := by
  simp only [step, hq, h]

theorem step_of_none_due {s : State} (hq : s.pending = []) (h : s.dueExpiries = []) :
    step s = .next s.advanceTime := by
  simp only [step, hq, h]

/-- Settles O2: which expiries are due and in which order, and what a tick moves. -/
theorem idleStepTakesADueExpiryOrLetsTimePass : Obligations.IdleStepTakesADueExpiryOrLetsTimePass := by
  intro s hq
  refine ⟨fun x l => step_of_due hq, ⟨?step, ?debounce, ?amend, fun n i => ?longPress, fun n => ?silence,
    fun x => kind_of_due, (inPlace_dueExpiries s).1⟩, fun hnone => ?time⟩
  case step => simp [mem_dueExpiries, mem_stationDue]
  case debounce => simp [mem_dueExpiries, mem_stationDue, debounceDue_iff]
  case amend => simp [mem_dueExpiries, mem_stationDue]
  case longPress => simp [mem_dueExpiries, mem_stationDue]
  case silence => simp [mem_dueExpiries, mem_stationDue, silenceDue_iff]
  case time =>
    refine ⟨s.advanceTime, step_of_none_due hq hnone, rfl, rfl, fun ms => tick_pending, tick_not_pending,
      stations_advanceTime_paused, fun hrst n => ?_, rfl⟩
    rw [station_advanceTime hrst]
    refine ⟨rfl, fun i => ?_, rfl⟩
    rw [tick_inputs]
    exact ⟨tick_closed _, tick_acted _, fun ms => tick_timing, tick_not_timing⟩

end Sys2Proof.Machine
end

section
/-! Station cells and supervision (spec chapter 4), O14: the expiries of the long-press timers and of the silence
timers. -/

namespace Sys2Proof.Machine

/-! ### Offers of plain events (R88) -/

/-- An offer of a station's plain events carries no tags, whichever of them join. -/
theorem tagFirst_plain {n : StationId} {l : List Entry} (h : ∀ e ∈ l, ∃ i k, e = plainInput n i k) :
    tagFirst TagSet.none l = l := by
  cases l with
  | nil => rfl
  | cons e rest =>
    obtain ⟨i, k, rfl⟩ := h e (by simp)
    rfl

/-- What an offer of one station's plain events leaves. -/
theorem offeredBy_offerPlain (s : State) {n : StationId} {evs : List Entry}
    (h : ∀ e ∈ evs, ∃ i k, e = plainInput n i k) : OfferedBy TagSet.none evs n s (s.offerInputs evs) := by
  refine offeredBy_offerInputs s n evs (fun e he => ?_) (fun e he => ?_) (fun l hl => ?_)
  · obtain ⟨i, k, rfl⟩ := h e he
    rfl
  · obtain ⟨i, k, rfl⟩ := h e he
    rfl
  · exact tagFirst_plain (fun e he => h e (hl.subset he))

/-! ### Long-press timers (R73) -/

/-- The long phase of an input has become LONG-GIVEN. -/
def State.giveLong (s : State) (n : StationId) (i : InputId) : State :=
  s.modStation n (fun st => { st with inputs := st.inputs.set i { st.inputs.get i with phase := .given } })

theorem station_giveLong (s : State) (n : StationId) (i : InputId) : (s.giveLong n i).station n =
    { s.station n with inputs := (s.station n).inputs.set i { (s.station n).inputs.get i with phase := .given } } :=
  State.station_modStation_self s n _

theorem exec_longPressExpires_due {s : State} {n : StationId} {i : InputId}
    (h : ((s.station n).inputs.get i).phase = .timing 0) (hrst : s.rst = false) :
    exec (.longPressExpires n i) s = .next ((s.giveLong n i).offerInputs [plainInput n i .long]) :=
  if_pos (by rw [due_iff.2 h, hrst]; rfl)

/-- A long-press timer that does not run, has time left or is paused by RST# does not expire (log 7). -/
theorem exec_longPressExpires_idle {s : State} {n : StationId} {i : InputId}
    (h : ((s.station n).inputs.get i).phase ≠ .timing 0 ∨ s.rst = true) :
    exec (.longPressExpires n i) s = .next s := by
  refine if_neg (fun hdue => ?_)
  rw [Bool.and_eq_true, due_iff, Bool.not_eq_true'] at hdue
  rcases h with h | h
  · exact h hdue.1
  · rw [h] at hdue
    exact Bool.noConfusion hdue.2

/-! ### Silence timers (R80, R90) -/

/-- A station that its silence timer has found silent. -/
def StationState.losing (st : StationState) : StationState :=
  { st.stopTimers with lost := true, silence := none, baselineRequired := true }

theorem exec_silenceExpires_due {s : State} {n : StationId} {ms : Nat} (h : (s.station n).silence = some ms)
    (hlimit : (s.active.station n).silenceLimit ≠ 0) (hms : (s.active.station n).silenceLimit * 500 ≤ ms)
    (hrst : s.rst = false) :
    exec (.silenceExpires n) s = .next ((s.modStation n StationState.losing).offerLost n) :=
  if_pos (by rw [silenceDue_iff.2 ⟨hlimit, ms, h, hms⟩, hrst]; rfl)

/-- A silence timer that is idle, is short of its limit or is paused by RST# does not expire (log 7). -/
theorem exec_silenceExpires_idle {s : State} {n : StationId}
    (h : (∀ ms, (s.station n).silence = some ms → (s.active.station n).silenceLimit = 0 ∨
      ms < (s.active.station n).silenceLimit * 500) ∨ s.rst = true) :
    exec (.silenceExpires n) s = .next s := by
  refine if_neg (fun hdue => ?_)
  rw [Bool.and_eq_true, silenceDue_iff, Bool.not_eq_true'] at hdue
  obtain ⟨⟨hlimit, ms, hsilence, hms⟩, hrst⟩ := hdue
  rcases h with h | h
  · rcases h ms hsilence with h | h
    · exact hlimit h
    · omega
  · rw [h] at hrst
    exact Bool.noConfusion hrst

@[simp] theorem station_offerLost (s : State) (n m : StationId) : (s.offerLost n).station m = s.station m := by
  rw [frame_offerLost]
  rfl

/-- Settles O14: each expiry is one change of its station's record, and then an offer to the queue. -/
theorem timerExpiriesOfferALongAndLoseTheStation : Obligations.TimerExpiriesOfferALongAndLoseTheStation := by
  refine ⟨fun s n i => ⟨fun hphase hrst => ?longPress, exec_longPressExpires_idle⟩,
    fun s n => ⟨fun ms hsilence hlimit hms hrst => ?silence, exec_silenceExpires_idle⟩⟩
  case longPress =>
    have hgiven : ((s.giveLong n i).station n).inputs.get i =
        { (s.station n).inputs.get i with phase := .given } := by rw [station_giveLong, Table.get_set_self]
    have hoffer : OfferedBy TagSet.none [plainInput n i .long] n (s.giveLong n i)
        ((s.giveLong n i).offerInputs [plainInput n i .long]) :=
      offeredBy_offerPlain _ (fun e he => ⟨i, .long, List.mem_singleton.1 he⟩)
    refine ⟨s.giveLong n i, _, exec_longPressExpires_due hphase hrst, hgiven, fun j hj => ?_, ?_,
      fun m hm => State.station_modStation_ne s _ (Ne.symm hm), rfl, hoffer, ?_⟩
    · rw [station_giveLong, Table.get_set_ne _ _ (Ne.symm hj)]
    · rw [station_giveLong]
    · rw [(hoffer.records.timers i).2.2 (by rw [hgiven]; nofun), hgiven]
  case silence =>
    have hstation : (((s.modStation n StationState.losing).offerLost n).station n) = (s.station n).losing := by
      rw [station_offerLost, State.station_modStation_self]
    obtain ⟨hnone, hreturned, hlost⟩ := offerLost_events (s.modStation n StationState.losing) n
    refine ⟨_, exec_silenceExpires_due hsilence hlimit hms hrst, ?_, ?_, fun m hm => ?_, hnone, hreturned, hlost,
      ?_⟩
    · rw [hstation]
      exact timersStopped_stopTimers (s.station n)
    · rw [hstation]
      rfl
    · rw [station_offerLost, State.station_modStation_ne s _ (Ne.symm hm)]
    · rw [frame_offerLost]
      rfl

end Sys2Proof.Machine
end

section
/-! Station cells and supervision (spec chapter 4), O15 and O16: a write to a station's cell, and what a change of one
input makes. -/

namespace Sys2Proof.Machine

/-! ### One input (R68, R69, R72) -/

theorem contactFault_iff {r : StationRec} {copy : CellCopy} {i : InputId} : contactFault r copy i = true ↔
    r.dual = true ∧ copy.inputs.getLsbD i.val = copy.complements.getLsbD i.val := by
  simp only [contactFault, Bool.and_eq_true, beq_iff_eq]

theorem presentState_of_fault {r : StationRec} {copy : CellCopy} {i : InputId} {old : Bool}
    (h : contactFault r copy i = true) : presentState r copy i old = old := if_pos h

theorem presentState_of_sound {r : StationRec} {copy : CellCopy} {i : InputId} {old : Bool}
    (h : ¬ contactFault r copy i = true) :
    presentState r copy i old = xor (copy.inputs.getLsbD i.val) (r.inversion.getLsbD i.val) := if_neg h

theorem changeInput_same (b : BindingRec) (suspect : Bool) (i : InputState) :
    changeInput b suspect i i.closed = (i, none) := if_pos rfl

section Changed
variable {b : BindingRec} {i : InputState} {closed : Bool} (h : i.closed ≠ closed)
include h

/-- A changed input of a station that is SUSPECT makes no event. -/
theorem changeInput_suspect : changeInput b true i closed = ({ i with closed := closed, phase := .idle }, none) := by
  unfold changeInput
  rw [if_neg h]
  rfl

/-- A changed input of a trusted station is judged by its trigger. -/
theorem changeInput_trusted : changeInput b false i closed =
    match b.trigger with
    | .unused => ({ i with closed := closed, phase := .idle }, none)
    | .maintained => ({ i with closed := closed, phase := .idle }, some (if closed then .on else .off))
    | .momentary =>
      if b.long.count = 0 then
        ({ i with closed := closed, phase := .idle }, some (if closed then .press else .release))
      else if closed then ({ i with closed := closed, phase := .timing 600 }, none)
      else ({ i with closed := closed, phase := .idle }, openingEvent i.phase) := by
  unfold changeInput
  rw [if_neg h]
  rfl

end Changed

/-- Settles O16: the present state by the CONTACT fault, the event by trigger, long sequence and phase. -/
theorem inputChangeMakesTheEventOfItsTrigger : Obligations.InputChangeMakesTheEventOfItsTrigger := by
  refine ⟨fun r copy i old => ⟨fun h => presentState_of_fault (contactFault_iff.2 h),
    fun h => presentState_of_sound (fun hf => h (contactFault_iff.1 hf))⟩, changeInput_same,
    fun b i closed h => ⟨changeInput_suspect h, ?_⟩⟩
  rw [changeInput_trusted h]
  refine ⟨fun ht => ?unused, fun ht => ?maintained, fun ht hlong => ?short, fun ht hlong hclosed => ?closure,
    fun ht hlong hclosed => ?opening⟩
  case unused => rw [ht]
  case maintained => rw [ht]
  case short =>
    rw [ht]
    exact if_pos hlong
  case closure =>
    rw [ht, hclosed]
    exact if_neg hlong
  case opening =>
    rw [ht, hclosed]
    exact if_neg hlong

/-! ### The write at its grant (R65, R157) -/

/-- The state in which a granted write to the cell at an offset of the window has gone to SRAM (log 13). -/
def State.writeSent (s : State) (w : WriteAccess) (offset : Nat) : State :=
  { s with port := .idle, runCount := min (s.runCount + 1) 4
           mem := Memory.writeCell s.mem (windowAddress s.base offset) w.lanes w.data
           transfer := some ⟨.upstream, ⟨windowAddress s.base offset, true, w.lanes, w.data⟩⟩ }

@[simp] theorem station_writeSent (s : State) (w : WriteAccess) (offset : Nat) (n : StationId) :
    (s.writeSent w offset).station n = s.station n := rfl

section Write
variable {s : State} {w : WriteAccess} {n : StationId} {k : Nat}
  (haddr : s.addresses w.addr (0x0400 + 8 * n.val + k)) (hk : k < 8) (hlanes : w.lanes.any = true)
include haddr hk hlanes

theorem exec_stationCellWrite_granted (hgrant : s.granted (.write w)) : exec (.stationCellWrite w) s =
    .next ((s.writeSent w (0x0400 + 8 * n.val + k)).monitorWrite n k w.lanes w.data) := by
  show execStationCellWrite w s = _
  unfold execStationCellWrite
  rw [stationTarget_of_addresses hk haddr hlanes]
  dsimp only
  rw [takeAtGrant_granted hgrant, downstreamAddress_of_addresses haddr]
  unfold State.startWrite
  rw [windowAddress_even haddr.1]
  rfl

theorem exec_stationCellWrite_held (hwaits : s.awaitsGrant (.write w)) :
    exec (.stationCellWrite w) s = .next { s with port := .waitGrant (.write w) } := by
  show execStationCellWrite w s = _
  unfold execStationCellWrite
  rw [stationTarget_of_addresses hk haddr hlanes]
  dsimp only
  rw [takeAtGrant_held hwaits]

end Write

/-! ### The copy of an enabled station (R65, R166) -/

/-- The state in which the copy has taken a write. -/
def State.writeCopy (s : State) (n : StationId) (k : Nat) (lanes : Lanes) (data : Word) : State :=
  s.modStation n (fun st => { st with copy := st.copy.write k lanes data })

theorem station_writeCopy (s : State) (n : StationId) (k : Nat) (lanes : Lanes) (data : Word) :
    (s.writeCopy n k lanes data).station n =
      { s.station n with copy := (s.station n).copy.write k lanes data } :=
  State.station_modStation_self s n _

section Monitor
variable {s : State} {n : StationId} {k : Nat} {lanes : Lanes} {data : Word}

theorem monitorWrite_disabled (h : (s.active.station n).enabled = false) : s.monitorWrite n k lanes data = s :=
  if_neg (Bool.eq_false_iff.1 h)

/-- A write that does not cover byte +4 is not evaluated. -/
theorem monitorWrite_covered (h : (s.active.station n).enabled = true) (hk : k ≠ 4 ∨ lanes.lo = false) :
    s.monitorWrite n k lanes data = s.writeCopy n k lanes data := by
  unfold State.monitorWrite
  rw [if_pos h]
  refine if_neg (fun hc => ?_)
  rw [Bool.and_eq_true, beq_iff_eq] at hc
  rcases hk with hk | hk
  · exact hk hc.1
  · rw [hk] at hc
    exact Bool.noConfusion hc.2

/-- A write that covers byte +4 is evaluated against the sequence byte the copy held. -/
theorem monitorWrite_evaluated (h : (s.active.station n).enabled = true) (hlo : lanes.lo = true) :
    s.monitorWrite n 4 lanes data = (s.writeCopy n 4 lanes data).evaluate n (s.station n).copy.sequence := by
  unfold State.monitorWrite
  rw [if_pos h]
  exact if_pos (by rw [hlo]; rfl)

end Monitor

/-- What a write to each byte pair makes of the copy. -/
theorem write_copy (copy : CellCopy) (k : Nat) (lanes : Lanes) (data : Word) : copy.write k lanes data =
    { inputs := if k = 0 then mergeLanes lanes copy.inputs data else copy.inputs
      complements := if k = 2 then mergeLanes lanes copy.complements data else copy.complements
      sequence := if k = 4 ∧ lanes.lo = true then loByte data else copy.sequence
      status := if k = 4 ∧ lanes.hi = true then hiByte data else copy.status } := by
  unfold CellCopy.write
  split
  · simp
  · simp
  · simp
  · next h0 h2 h4 =>
    rw [if_neg h0, if_neg h2, if_neg (fun h => h4 h.1), if_neg (fun h => h4 h.1)]

/-- Settles O15: the grant sends the bytes to SRAM, and only the copy of an enabled station follows. -/
theorem stationWriteReachesSramAndTheCopy : Obligations.StationWriteReachesSramAndTheCopy := by
  intro s w n k haddr hk hlanes cell sent
  refine ⟨exec_stationCellWrite_held haddr hk hlanes, fun hgrant hdisabled => ?disabled,
    fun hgrant henabled hbyte => ?copied, fun hgrant t ht => ?sram⟩
  case disabled =>
    exact (exec_stationCellWrite_granted haddr hk hlanes hgrant).trans (congrArg _ (monitorWrite_disabled hdisabled))
  case copied =>
    refine ⟨_, (exec_stationCellWrite_granted haddr hk hlanes hgrant).trans
      (congrArg _ (monitorWrite_covered henabled hbyte)), ?_⟩
    have hsequence : ¬ (k = 4 ∧ w.lanes.lo = true) := fun ⟨h4, hlo⟩ =>
      hbyte.elim (fun h => h h4) (fun h => Bool.noConfusion (h.symm.trans hlo))
    rw [station_writeCopy, station_writeSent, write_copy, if_neg hsequence]
    exact ⟨rfl, rfl, rfl, rfl, rfl, fun m hm => State.station_modStation_ne _ _ (Ne.symm hm), rfl⟩
  case sram =>
    rw [exec_stationCellWrite_granted haddr hk hlanes hgrant] at ht
    cases ht
    have hkept := changes_monitorWrite (s.writeSent w (0x0400 + 8 * n.val + k)) n k w.lanes w.data
    exact ⟨hkept .mem (by decide), hkept .transfer (by decide), hkept .port (by decide),
      hkept .runCount (by decide)⟩

end Sys2Proof.Machine
end

section
/-! Station cells and supervision (spec chapter 4), O17 and O18: an evaluating write, ordinary and of a baseline. -/

namespace Sys2Proof.Machine

/-! ### The faults found (R69, R70, R71) -/

theorem mem_used {r : StationRec} {i : InputId} : i ∈ r.used ↔ i.val < r.inputsUsed := by
  simp only [StationRec.used, allInputs, List.mem_filter, List.mem_finRange, true_and, decide_eq_true_eq]

theorem finds_faultsFound (r : StationRec) (copy : CellCopy) (reference : Byte) (baseline : Bool) :
    Finds r copy reference baseline (faultsFound r copy reference baseline) where
  contact := by
    show r.used.any (contactFault r copy) = true ↔ _
    simp only [List.any_eq_true, mem_used, contactFault_iff]
    constructor
    · rintro ⟨i, hi, hdual, hraw⟩
      exact ⟨hdual, i, hi, hraw⟩
    · rintro ⟨hdual, i, hi, hraw⟩
      exact ⟨i, hi, hdual, hraw⟩
  gap := by
    have hnext : copy.sequence = reference + 1 ↔ copy.sequence.toNat = (reference.toNat + 1) % 256 := by
      rw [← BitVec.toNat_inj, BitVec.toNat_add]
      rfl
    simp only [faultsFound, Bool.and_eq_true, Bool.not_eq_true', decide_eq_false_iff_not, hnext, and_assoc,
      ← BitVec.toNat_inj, ne_eq]
  line := Iff.rfl

/-! ### The re-assertion of a station (R78) -/

/-- Of the inputs below inputs used, each makes at most one event, and they stand in ascending order. -/
theorem pairwise_place_filterMap {n : StationId} {r : StationRec} {f : InputId → Option Entry}
    (hf : ∀ i e, f i = some e → ∃ k, e = plainInput n i k) :
    (r.used.filterMap f).Pairwise (fun e g => e.place < g.place) := by
  have hused : r.used.Pairwise (· < ·) := (List.pairwise_lt_finRange 16).filter _
  refine hused.filterMap f (fun i j hij e he g hg => ?_)
  obtain ⟨k, rfl⟩ := hf i e he
  obtain ⟨l, rfl⟩ := hf j g hg
  exact Nat.add_lt_add_left hij (16 * n.val)

theorem reassertsAs_reassertEvents (b : Bank) (n : StationId) (st : StationState) (acted : InputId → Bool) :
    ReassertsAs b n st acted (reassertEvents b n st acted) := by
  unfold reassertEvents
  cases hsuspect : st.suspect with
  | true => exact ⟨.nil, fun e => by simp [hsuspect]⟩
  | false =>
    refine ⟨pairwise_place_filterMap (n := n) (fun i e he => ?_), fun e => ?_⟩
    · split at he
      · exact ⟨_, (Option.some.inj he).symm⟩
      · cases he
    · simp only [List.mem_filterMap, mem_used, BindingRec.maintained, Bool.and_eq_true,
        decide_eq_true_eq, bne_iff_ne, Option.ite_none_right_eq_some, Option.some.injEq, hsuspect, true_and, and_assoc,
        Bool.false_eq_true, if_false, eq_comm (a := e)]
      rfl

/-- A re-assertion looks at SUSPECT, at the present states, and at the acted states of MAINTAINED inputs. -/
theorem ReassertsAs.congr {b : Bank} {n : StationId} {st st' : StationState} {acted acted' : InputId → Bool}
    {events : List Entry} (h : ReassertsAs b n st acted events) (hsuspect : st'.suspect = st.suspect)
    (hclosed : ∀ i, (st'.inputs.get i).closed = (st.inputs.get i).closed)
    (hacted : ∀ i, (b.binding n i).trigger = .maintained → acted' i = acted i) :
    ReassertsAs b n st' acted' events := by
  refine ⟨h.1, fun e => (h.2 e).trans (exists_congr fun i => ?_)⟩
  rw [hsuspect, hclosed]
  constructor
  · rintro ⟨hi, hs, ht, hne, he⟩
    exact ⟨hi, hs, ht, by rwa [hacted i ht], he⟩
  · rintro ⟨hi, hs, ht, hne, he⟩
    exact ⟨hi, hs, ht, by rwa [hacted i ht] at hne, he⟩

/-- Every event of a re-assertion is a plain event of the station. -/
theorem ReassertsAs.plain {b : Bank} {n : StationId} {st : StationState} {acted : InputId → Bool}
    {events : List Entry} (h : ReassertsAs b n st acted events) : ∀ e ∈ events, ∃ i k, e = plainInput n i k := by
  intro e he
  obtain ⟨i, -, -, -, -, hi⟩ := (h.2 e).1 he
  exact ⟨i, _, hi⟩

/-! ### The silence timer restarts after the offer (R67, step 7) -/

/-- The silence timer restarted from zero, or idle where the limit is 0. -/
def restartedSilence (r : StationRec) : Option Nat := if r.silenceLimit = 0 then none else some 0

theorem station_restartSilence (s : State) (n : StationId) : (s.restartSilence n).station n =
    { s.station n with silence := restartedSilence (s.active.station n) } :=
  State.station_modStation_self s n _

theorem station_restartSilence_ne (s : State) {n m : StationId} (h : m ≠ n) :
    (s.restartSilence n).station m = s.station m := State.station_modStation_ne s _ (Ne.symm h)

/-- A recording and the restart of the silence timer may be taken in either order. -/
theorem Records.restartSilence {f : FaultSet} {n : StationId} {s t : State} (h : Records f n s t)
    (ha : t.active = s.active) : Records f n (s.restartSilence n) (t.restartSilence n) where
  faults := by rw [station_restartSilence, station_restartSilence]; exact h.faults
  suspect := by rw [station_restartSilence, station_restartSilence]; exact h.suspect
  unmoved := by rw [station_restartSilence, station_restartSilence]; exact h.unmoved
  quarantined := by rw [station_restartSilence, station_restartSilence]; exact h.quarantined
  station := by
    rw [station_restartSilence, station_restartSilence, ha]
    exact congrArg (fun st : StationState => { st with silence := restartedSilence (s.active.station n) }) h.station
  others := fun m hm => by
    rw [station_restartSilence_ne t hm, station_restartSilence_ne s hm]
    exact h.others m hm

/-- An offer and the restart of the silence timer may be taken in either order. -/
theorem OfferedBy.restartSilence {tags : TagSet} {events : List Entry} {n : StationId} {s t : State}
    (h : OfferedBy tags events n s t) : OfferedBy tags events n (s.restartSilence n) (t.restartSilence n) where
  queue := h.queue
  scanhold := h.scanhold
  records := h.records.restartSilence (by rw [h.frame])
  lossCount := h.lossCount
  causes := h.causes
  frame := congrArg (fun u : State => { u with stations := (t.restartSilence n).stations }) h.frame

/-! ### The write of byte +4 (R65, R166) -/

/-- A station whose copy has taken a write that covers byte +4. -/
def StationState.scanned (st : StationState) (w : WriteAccess) : StationState :=
  { st with copy := { st.copy with
      sequence := loByte w.data
      status := if w.lanes.hi then hiByte w.data else st.copy.status } }

/-- The state in which a granted write of byte +4 has gone to SRAM and to the copy. -/
def State.scan (s : State) (n : StationId) (w : WriteAccess) : State :=
  (s.writeSent w (0x0400 + 8 * n.val + 4)).writeCopy n 4 w.lanes w.data

theorem station_scan {s : State} {n : StationId} {w : WriteAccess} (hlo : w.lanes.lo = true) :
    (s.scan n w).station n = (s.station n).scanned w := by
  unfold State.scan
  rw [station_writeCopy, write_copy, if_neg (by decide), if_neg (by decide), if_pos ⟨rfl, hlo⟩]
  simp only [true_and]
  rfl

theorem station_scan_ne (s : State) {n m : StationId} (w : WriteAccess) (h : m ≠ n) :
    (s.scan n w).station m = s.station m := State.station_modStation_ne _ _ (Ne.symm h)

/-- A granted evaluating write of an enabled station. -/
theorem exec_stationCellWrite_scan {s : State} {n : StationId} {w : WriteAccess}
    (haddr : s.addresses w.addr (0x0400 + 8 * n.val + 4)) (hlo : w.lanes.lo = true) (hgrant : s.granted (.write w))
    (henabled : (s.active.station n).enabled = true) :
    exec (.stationCellWrite w) s = .next ((s.scan n w).evaluate n (s.station n).copy.sequence) :=
  (exec_stationCellWrite_granted haddr (by decide) (by rw [Lanes.any, hlo]; rfl) hgrant).trans
    (congrArg _ (monitorWrite_evaluated henabled hlo))

/-! ### An ordinary evaluating write (R67, R72) -/

/-- What R72 makes of an input of a station. -/
def changeOf (b : Bank) (n : StationId) (st : StationState) (i : InputId) : InputState × Option EventKind :=
  changeInput (b.binding n i) st.suspect (st.inputs.get i)
    (presentState (b.station n) st.copy i (st.inputs.get i).closed)

theorem evaluateInput_used {b : Bank} {n : StationId} {st : StationState} {i : InputId}
    (h : i.val < (b.station n).inputsUsed) : evaluateInput b n st i = changeOf b n st i := if_pos h

theorem evaluateInput_record (b : Bank) (n : StationId) (st : StationState) (i : InputId) :
    (evaluateInput b n st i).1 =
      if i.val < (b.station n).inputsUsed then (changeOf b n st i).1 else st.inputs.get i := by
  unfold evaluateInput
  dsimp only
  split <;> rfl

/-- The inputs of a station have taken what an ordinary evaluating write gives them. -/
def State.changeInputs (s : State) (n : StationId) : State :=
  s.modStation n (fun st =>
    { st with inputs := st.inputs.mapIdx (fun i _ => (evaluateInput s.active n (s.station n) i).1) })

theorem station_changeInputs (s : State) (n : StationId) : (s.changeInputs n).station n = { s.station n with
    inputs := (s.station n).inputs.mapIdx (fun i _ => (evaluateInput s.active n (s.station n) i).1) } :=
  State.station_modStation_self s n _

theorem evaluate_ordinary {s : State} {n : StationId} (reference : Byte) (hlost : (s.station n).lost = false)
    (hbase : (s.station n).baselineRequired = false) : s.evaluate n reference =
      ((s.changeInputs n).offerWrite n (faultsFound (s.active.station n) (s.station n).copy reference false)
        (changeEvents s.active n (s.station n))).restartSilence n := by
  unfold State.evaluate
  rw [hlost]
  dsimp only
  rw [if_neg Bool.false_ne_true, hbase, if_neg Bool.false_ne_true]
  rfl

theorem changeEvents_plain {b : Bank} {n : StationId} {st : StationState} :
    ∀ e ∈ changeEvents b n st, ∃ i k, e = plainInput n i k := by
  intro e he
  obtain ⟨i, -, hi⟩ := List.mem_filterMap.1 he
  obtain ⟨k, -, rfl⟩ := Option.map_eq_some_iff.1 hi
  exact ⟨i, k, rfl⟩

/-- The events of an ordinary evaluating write, input by input. -/
theorem changeEvents_eq (b : Bank) (n : StationId) (st : StationState) : changeEvents b n st =
    allInputs.filterMap (fun i => if i.val < (b.station n).inputsUsed then
      (changeOf b n st i).2.map (plainInput n i) else none) := by
  unfold changeEvents StationRec.used
  rw [List.filterMap_filter]
  refine congrFun (congrArg List.filterMap (funext fun i => ?_)) allInputs
  simp only [decide_eq_true_eq]
  split
  · next h => rw [evaluateInput_used h]
  · rfl

/-- What the offer of an ordinary evaluating write leaves. -/
theorem offeredBy_changeEvents (s : State) (n : StationId) (found : TagSet) (b : Bank) (st : StationState) :
    OfferedBy found (allInputs.filterMap (fun i => if i.val < (b.station n).inputsUsed then
      (changeOf b n st i).2.map (plainInput n i) else none)) n s (s.offerWrite n found (changeEvents b n st)) := by
  rw [← changeEvents_eq]
  exact offeredBy_offerWrite s n found _ changeEvents_plain

/-- A granted evaluating write of an enabled, present and baselined station. -/
theorem exec_stationCellWrite_ordinary {s : State} {n : StationId} {w : WriteAccess}
    (haddr : s.addresses w.addr (0x0400 + 8 * n.val + 4)) (hlo : w.lanes.lo = true) (hgrant : s.granted (.write w))
    (henabled : (s.active.station n).enabled = true) (hlost : (s.station n).lost = false)
    (hbase : (s.station n).baselineRequired = false) :
    exec (.stationCellWrite w) s = .next ((((s.scan n w).changeInputs n).offerWrite n
      (faultsFound (s.active.station n) ((s.station n).scanned w).copy (s.station n).copy.sequence false)
      (changeEvents s.active n ((s.station n).scanned w))).restartSilence n) := by
  rw [exec_stationCellWrite_scan haddr hlo hgrant henabled, evaluate_ordinary, station_scan hlo]
  · rfl
  · rw [station_scan hlo]; exact hlost
  · rw [station_scan hlo]; exact hbase

/-- Settles O17: the changes of the inputs are the record's, and the offer follows the restart of the timer. -/
theorem ordinaryEvaluatingWriteMakesEventsOfChanges : Obligations.OrdinaryEvaluatingWriteMakesEventsOfChanges := by
  intro s w n haddr hlo hgrant henabled hlost hbase r st change cell
  have hst : (s.scan n w).station n = st := station_scan hlo
  refine ⟨((s.scan n w).changeInputs n).restartSilence n, _,
    faultsFound r st.copy (s.station n).copy.sequence false,
    exec_stationCellWrite_ordinary haddr hlo hgrant henabled hlost hbase, fun i => ?inputs, ?record,
    fun m hm => ?others, rfl, finds_faultsFound r st.copy _ false, ?offered⟩
  case inputs =>
    rw [station_restartSilence, station_changeInputs, hst, Table.get_mapIdx]
    exact evaluateInput_record s.active n st i
  case record =>
    rw [station_restartSilence, station_changeInputs, hst]
    rfl
  case others =>
    rw [station_restartSilence_ne _ hm]
    exact (State.station_modStation_ne _ _ (Ne.symm hm)).trans (station_scan_ne s w hm)
  case offered => exact (offeredBy_changeEvents _ n _ s.active st).restartSilence

/-! ### A baseline (R67, R77, R81) -/

/-- The inputs of a station have taken what a baseline records. -/
def State.recordBaseline (s : State) (n : StationId) : State :=
  s.modStation n (fun st => { st with
    inputs := st.inputs.mapIdx (fun i _ => baselineInput (s.active.station n) st i), baselineRequired := false })

theorem station_recordBaseline (s : State) (n : StationId) : (s.recordBaseline n).station n = { s.station n with
    inputs := (s.station n).inputs.mapIdx (fun i _ => baselineInput (s.active.station n) (s.station n) i)
    baselineRequired := false } := State.station_modStation_self s n _

/-- A LOST station has returned (R81); another is as it was. -/
def State.returnIfLost (s : State) (n : StationId) : State := if (s.station n).lost then s.returnStation n else s

section Return
variable {s : State} {n : StationId}

theorem returnIfLost_lost (h : (s.station n).lost = true) : s.returnIfLost n = s.returnStation n := if_pos h

theorem returnIfLost_present (h : (s.station n).lost = false) : s.returnIfLost n = s :=
  if_neg (Bool.eq_false_iff.1 h)

@[simp] theorem station_offerReturn (s : State) (n m : StationId) :
    (s.offerReturn n).station m = s.station m := by
  rw [frame_offerReturn]
  rfl

/-- After its return a station is not LOST, and requires a baseline if it was LOST or did before. -/
theorem station_returnIfLost (hreq : (s.station n).lost = false → (s.station n).baselineRequired = true) :
    (s.returnIfLost n).station n = { s.station n with lost := false, baselineRequired := true } := by
  cases h : (s.station n).lost with
  | true =>
    rw [returnIfLost_lost h]
    exact (station_offerReturn _ n n).trans (State.station_modStation_self s n _)
  | false =>
    rw [returnIfLost_present h, ← h, ← hreq h]

theorem station_returnIfLost_ne {m : StationId} (hm : m ≠ n) : (s.returnIfLost n).station m = s.station m := by
  cases h : (s.station n).lost with
  | true =>
    rw [returnIfLost_lost h]
    exact (station_offerReturn _ n m).trans (State.station_modStation_ne s _ (Ne.symm hm))
  | false => rw [returnIfLost_present h]

/-- A return is a matter of the station's record and its marker alone. -/
theorem frame_returnIfLost (s : State) (n : StationId) : s.returnIfLost n =
    { s with stations := (s.returnIfLost n).stations, events := (s.returnIfLost n).events } := by
  unfold State.returnIfLost
  split
  · unfold State.returnStation
    rw [frame_offerReturn]
    rfl
  · rfl

end Return

/-- The acted states that the re-assertion of a baseline compares with (R78, R103). -/
def State.baselineActed (s : State) (n : StationId) (returning : Bool) : InputId → Bool :=
  if returning then s.returningActed n else (s.station n).actedOf

theorem executingLost_iff {s : State} {n : StationId} :
    s.executingLost n = true ↔ ∃ stage, s.current = some ⟨.marker n .lost, stage⟩ := by
  unfold State.executingLost
  cases h : s.current with
  | none => simp
  | some f =>
    obtain ⟨e, stage⟩ := f
    simp

section Acted
variable {s : State} {n : StationId} {returning : Bool} {i : InputId}

/-- While a LOST marker that releases is being executed, a return is compared with OFF. -/
theorem baselineActed_leaving (hreturn : returning = true) (hexec : s.executingLost n = true)
    (hrelease : (s.active.station n).releaseOnLoss = true) (hm : (s.active.binding n i).trigger = .maintained) :
    s.baselineActed n returning i = false := by
  unfold State.baselineActed State.returningActed
  rw [if_pos hreturn, hexec, hrelease, BindingRec.maintained, hm]
  rfl

/-- Otherwise a baseline is compared with the acted states that stand. -/
theorem baselineActed_standing
    (h : ¬ (returning = true ∧ s.executingLost n = true ∧ (s.active.station n).releaseOnLoss = true)) :
    s.baselineActed n returning i = (s.station n).actedOf i := by
  unfold State.baselineActed
  split
  · next hreturn =>
    refine if_neg (fun hc => h ?_)
    simp only [Bool.and_eq_true] at hc
    exact ⟨hreturn, hc.1⟩
  · rfl

end Acted

/-- The re-assertion events of a baseline. -/
def State.baselineEvents (s : State) (n : StationId) (returning : Bool) : List Entry :=
  reassertEvents s.active n (s.station n) (s.baselineActed n returning)

theorem reassertsAs_baselineEvents (s : State) (n : StationId) (returning : Bool) : ReassertsAs s.active n
    (s.station n) (s.baselineActed n returning) (s.baselineEvents n returning) :=
  reassertsAs_reassertEvents _ _ _ _

theorem evaluate_baseline {s : State} {n : StationId} (reference : Byte)
    (hbase : ((s.returnIfLost n).station n).baselineRequired = true) :
    s.evaluate n reference = (((s.returnIfLost n).recordBaseline n).offerWrite n
      (faultsFound ((s.returnIfLost n).active.station n) ((s.returnIfLost n).station n).copy reference true)
      (((s.returnIfLost n).recordBaseline n).baselineEvents n (s.station n).lost)).restartSilence n :=
  congrArg (fun u : State => u.restartSilence n) (if_pos hbase)

/-! ### A baseline's write, from its grant to the record of the baseline -/

/-- The state in which a granted write of byte +4 has returned the station and recorded its baseline. -/
def State.baselined (s : State) (n : StationId) (w : WriteAccess) : State :=
  ((s.scan n w).returnIfLost n).recordBaseline n

section Baselined
variable {s : State} {n : StationId} {w : WriteAccess}

theorem frame_baselined : s.baselined n w =
    { s.scan n w with stations := (s.baselined n w).stations, events := (s.baselined n w).events } :=
  congrArg (fun u : State => { u with stations := (s.baselined n w).stations }) (frame_returnIfLost (s.scan n w) n)

theorem active_baselined : (s.baselined n w).active = s.active := by
  rw [frame_baselined]
  rfl

theorem executingLost_baselined :
    (s.baselined n w).executingLost n = true ↔ ∃ stage, s.current = some ⟨.marker n .lost, stage⟩ := by
  rw [executingLost_iff, frame_baselined]
  rfl

theorem station_baselined_ne {m : StationId} (hm : m ≠ n) : (s.baselined n w).station m = s.station m :=
  (State.station_modStation_ne _ _ (Ne.symm hm)).trans ((station_returnIfLost_ne hm).trans (station_scan_ne s w hm))

/-- The re-assertion of a baseline against acted states that are those of its MAINTAINED inputs. -/
theorem reassertsAs_baselined {returning : Bool} {acted : InputId → Bool}
    (h : ∀ i, (s.active.binding n i).trigger = .maintained →
      acted i = (s.baselined n w).baselineActed n returning i) :
    ReassertsAs s.active n (((s.baselined n w).restartSilence n).station n) acted
      ((s.baselined n w).baselineEvents n returning) := by
  have hevents := reassertsAs_baselineEvents (s.baselined n w) n returning
  rw [active_baselined] at hevents
  exact hevents.congr (by rw [station_restartSilence]) (fun i => by rw [station_restartSilence]) h

variable (hlo : w.lanes.lo = true)
include hlo

theorem events_baselined_present (h : (s.station n).lost = false) : (s.baselined n w).events = s.events := by
  have hreturn : (s.scan n w).returnIfLost n = s.scan n w := returnIfLost_present (by rw [station_scan hlo]; exact h)
  exact (congrArg State.events hreturn :)

/-- What the return of a LOST station leaves in the queue (R91). -/
theorem events_baselined_returned (h : (s.station n).lost = true) :
    (markerIn s.events n = some .lost →
      (s.baselined n w).events = s.events.filter (fun e => !decide (e = .marker n .lost))) ∧
    (markerIn s.events n = none → (s.baselined n w).events = s.events ++ [.marker n .returned]) ∧
    (markerIn s.events n = some .returned → (s.baselined n w).events = s.events) := by
  have hreturn : (s.scan n w).returnIfLost n = (s.scan n w).returnStation n :=
    returnIfLost_lost (by rw [station_scan hlo]; exact h)
  have hevents : (s.baselined n w).events = ((s.scan n w).returnStation n).events :=
    (congrArg State.events hreturn :)
  obtain ⟨hnone, hreturned, hmarked⟩ := offerReturn_events
    ((s.scan n w).modStation n (fun st => { st with lost := false, baselineRequired := true })) n
  rw [hevents]
  exact ⟨hmarked, hnone, hreturned⟩

variable (hrequired : (s.station n).lost = false → (s.station n).baselineRequired = true)
include hrequired

theorem station_returned : ((s.scan n w).returnIfLost n).station n =
    { (s.station n).scanned w with lost := false, baselineRequired := true } := by
  rw [station_returnIfLost (by rw [station_scan hlo]; exact hrequired), station_scan hlo]

theorem station_baselined : (s.baselined n w).station n = { (s.station n).scanned w with
    inputs := (s.station n).inputs.mapIdx (fun i _ => baselineInput (s.active.station n) ((s.station n).scanned w) i)
    lost := false, baselineRequired := false } := by
  have hactive : ((s.scan n w).returnIfLost n).active = s.active := active_baselined (s := s) (n := n) (w := w)
  rw [State.baselined, station_recordBaseline, station_returned hlo hrequired, hactive]
  rfl

/-- A granted evaluating write of an enabled station that is LOST or requires a baseline. -/
theorem exec_stationCellWrite_baseline (haddr : s.addresses w.addr (0x0400 + 8 * n.val + 4))
    (hgrant : s.granted (.write w)) (henabled : (s.active.station n).enabled = true) :
    exec (.stationCellWrite w) s = .next (((s.baselined n w).offerWrite n
      (faultsFound (s.active.station n) ((s.station n).scanned w).copy (s.station n).copy.sequence true)
      ((s.baselined n w).baselineEvents n (s.station n).lost)).restartSilence n) := by
  have hactive : ((s.scan n w).returnIfLost n).active = s.active := active_baselined (s := s) (n := n) (w := w)
  rw [exec_stationCellWrite_scan haddr hlo hgrant henabled,
    evaluate_baseline _ (by rw [station_returned hlo hrequired]), station_returned hlo hrequired, hactive,
    station_scan hlo]
  rfl

end Baselined

/-- Settles O18: the return and the record of the baseline come first, and the offer is a re-assertion. -/
theorem baselineWriteReassertsTheStation : Obligations.BaselineWriteReassertsTheStation := by
  intro s w n haddr hlo hgrant henabled hrequired r st cell leavesOff
  have hstation := station_baselined hlo hrequired
  refine ⟨(s.baselined n w).restartSilence n, _, (s.baselined n w).baselineEvents n (s.station n).lost, _,
    exec_stationCellWrite_baseline hlo hrequired haddr hgrant henabled, fun i => ?inputs, ?record,
    fun m hm => ?others, events_baselined_present hlo, events_baselined_returned hlo, ?frame,
    fun hstand => reassertsAs_baselined fun i hi => ?standing,
    fun hleaves => reassertsAs_baselined fun i hi => ?leaving, finds_faultsFound r st.copy _ true, ?offered⟩
  case inputs =>
    rw [station_restartSilence, hstation, Table.get_mapIdx]
    rfl
  case record =>
    rw [station_restartSilence, hstation, active_baselined]
    rfl
  case others => rw [station_restartSilence_ne _ hm, station_baselined_ne hm]
  case frame =>
    exact congrArg (fun u : State => { u with stations := ((s.baselined n w).restartSilence n).stations })
      frame_baselined
  case standing =>
    rw [baselineActed_standing, hstation]
    · exact (congrArg InputState.acted (Table.get_mapIdx (fun i _ => baselineInput r st i) st.inputs i)).symm
    · rintro ⟨hlost, hheld, hrelease⟩
      rw [active_baselined] at hrelease
      exact hstand ⟨hlost, executingLost_baselined.1 hheld, hrelease⟩
  case leaving =>
    obtain ⟨hlost, hheld, hrelease⟩ := hleaves
    exact (baselineActed_leaving hlost (executingLost_baselined.2 hheld) (by rw [active_baselined]; exact hrelease)
      (by rw [active_baselined]; exact hi)).symm
  case offered =>
    exact (offeredBy_offerWrite _ n _ _ (reassertsAs_baselineEvents _ n _).plain).restartSilence

end Sys2Proof.Machine
end

section
/-! Station cells and supervision (spec chapter 4), O19: CLEAR_FAULTS on one station and on every station. -/

namespace Sys2Proof.Machine

/-! ### A command ends after its offer (R169) -/

/-- An offer and the end of the command that made it may be taken in either order. -/
theorem OfferedBy.commandDone {tags : TagSet} {events : List Entry} {n : StationId} {s t : State}
    (h : OfferedBy tags events n s t) (d : Nat) :
    OfferedBy tags events n (s.commandDone d) (t.commandDone d) where
  queue := h.queue
  scanhold := h.scanhold
  records := (h.records.congr_left (u := s.commandDone d) rfl rfl rfl rfl).congr_right rfl rfl
  lossCount := h.lossCount
  causes := fun c => by
    have hs : (s.commandDone d).causePending c = true ↔ s.causePending c = true ∨ c = .command :=
      mark_pending c .command s.causes
    have ht : (t.commandDone d).causePending c = true ↔ t.causePending c = true ∨ c = .command :=
      mark_pending c .command t.causes
    rw [hs, ht, h.causes c, or_right_comm]
    rfl
  frame := congrArg (fun u : State => { u with status := .done d, causes := Cause.command.mark t.causes }) h.frame

/-! ### One station (R76, R78) -/

/-- A station with its fault flags and SUSPECT cleared. -/
def StationState.cleared (st : StationState) : StationState := { st with faults := FaultSet.none, suspect := false }

/-- CLEAR_FAULTS lifts a station from quarantine and may re-assert it. -/
def State.lifts (s : State) (n : StationId) : Bool := (s.station n).suspect && s.mayReassert n

theorem lifts_iff {s : State} {n : StationId} : s.lifts n = true ↔ (s.station n).suspect = true ∧
    (s.active.station n).enabled = true ∧ (s.station n).lost = false ∧ (s.station n).baselineRequired = false := by
  simp only [State.lifts, State.mayReassert, Bool.and_eq_true, Bool.not_eq_true', and_assoc]

/-- The events that CLEAR_FAULTS offers for a station. -/
def State.liftEvents (s : State) (n : StationId) : List Entry :=
  if s.lifts n then reassertEvents s.active n (s.station n).cleared (s.station n).actedOf else []

theorem clearStation_eq (s : State) (n : StationId) :
    s.clearStation n = (s.modStation n StationState.cleared).offerInputs (s.liftEvents n) := by
  have hmay : (s.modStation n StationState.cleared).mayReassert n = s.mayReassert n := by
    unfold State.mayReassert
    rw [State.station_modStation_self]
    rfl
  have hmade : (s.modStation n StationState.cleared).reassertion n =
      reassertEvents s.active n (s.station n).cleared (s.station n).actedOf := by
    unfold State.reassertion
    rw [State.station_modStation_self]
    rfl
  show (if (s.station n).suspect && (s.modStation n StationState.cleared).mayReassert n then
    (s.modStation n StationState.cleared).offerInputs ((s.modStation n StationState.cleared).reassertion n)
    else s.modStation n StationState.cleared) = _
  rw [hmay, hmade]
  unfold State.liftEvents State.lifts
  split <;> rfl

/-- A station that is not lifted offers nothing. -/
theorem clearStation_kept {s : State} {n : StationId} (h : ¬ s.lifts n = true) :
    s.clearStation n = s.modStation n StationState.cleared := by
  rw [clearStation_eq, State.liftEvents, if_neg h]
  rfl

theorem reassertsAs_liftEvents {s : State} {n : StationId} (h : s.lifts n = true) :
    ReassertsAs s.active n (s.station n).cleared (s.station n).actedOf (s.liftEvents n) := by
  rw [State.liftEvents, if_pos h]
  exact reassertsAs_reassertEvents ..

theorem mem_liftEvents {s : State} {n : StationId} {e : Entry} : e ∈ s.liftEvents n ↔
    s.lifts n = true ∧ ∃ i : InputId, i.val < (s.active.station n).inputsUsed ∧
      (s.active.binding n i).trigger = .maintained ∧
      ((s.station n).inputs.get i).closed ≠ ((s.station n).inputs.get i).acted ∧
      e = .input n i (if ((s.station n).inputs.get i).closed then .on else .off) TagSet.none := by
  unfold State.liftEvents
  split
  · next h =>
    rw [(reassertsAs_reassertEvents ..).2]
    simp only [h, true_and, StationState.cleared]
    rfl
  · next h => simp [h]

theorem liftEvents_plain (s : State) (n : StationId) : ∀ e ∈ s.liftEvents n, ∃ i k, e = plainInput n i k := by
  intro e he
  obtain ⟨-, i, -, -, -, hi⟩ := mem_liftEvents.1 he
  exact ⟨i, _, hi⟩

theorem station_of_liftEvents {s : State} {n : StationId} {e : Entry} (h : e ∈ s.liftEvents n) : e.station = n := by
  obtain ⟨i, k, rfl⟩ := liftEvents_plain s n e h
  rfl

theorem pairwise_liftEvents (s : State) (n : StationId) :
    (s.liftEvents n).Pairwise (fun e f => e.place < f.place) := by
  unfold State.liftEvents
  split
  · exact (reassertsAs_reassertEvents ..).1
  · exact .nil

/-- What clearing a station offers. -/
theorem offeredBy_clearStation (s : State) (n : StationId) :
    OfferedBy TagSet.none (s.liftEvents n) n (s.modStation n StationState.cleared) (s.clearStation n) := by
  rw [clearStation_eq]
  exact offeredBy_offerPlain _ (liftEvents_plain s n)

/-! ### One station after another (R87, R89) -/

/-- The events of an offer that find no free slot. -/
def State.lostOf (s : State) (made : List Entry) : List Entry := made.drop (64 - inputCount s.events)

/-- The flags and SUSPECT of the stations `ns` have been cleared and the events `made` of theirs offered: a station
that lost an event has QLOSS and no other flag, and no circuit has changed. -/
structure StationsCleared (ns : List StationId) (made : List Entry) (s t : State) : Prop where
  queue : t.events = s.events ++ made.take (64 - inputCount s.events)
  scanhold : t.scanhold =
    scanholdJoins (inputCount s.events) (min made.length (64 - inputCount s.events)) s.scanhold
  cleared : ∀ n ∈ ns, t.station n = { s.station n with
    faults := if (s.lostOf made).any (fun e => decide (e.station = n)) then FaultSet.qlossOnly else FaultSet.none
    suspect := false }
  others : ∀ n, n ∉ ns → t.station n = s.station n
  lossCount : t.counters =
    { s.counters with queueLosses := raisedBy (s.lostOf made).length s.counters.queueLosses }
  causes : ∀ c, t.causePending c = true ↔
    s.causePending c = true ∨ ((c = .queue ∨ c = .fault) ∧ s.lostOf made ≠ [])
  circuits : t.circuits = s.circuits
  frame : SameElsewhere s t

theorem stationsCleared_nil (s : State) : StationsCleared [] [] s s where
  queue := by simp
  scanhold := by simp [scanholdJoins_zero]
  cleared := nofun
  others := fun _ _ => rfl
  lossCount := by simp [State.lostOf, raisedBy_zero]
  causes := by simp [State.lostOf]
  circuits := rfl
  frame := SameElsewhere.refl s

/-- QLOSS alone makes no station SUSPECT (R75). -/
theorem Records.of_qloss {p : Prop} [Decidable p] {n : StationId} {s t : State}
    (h : Records (if p then FaultSet.none else FaultSet.qlossOnly) n s t)
    (hfaults : (s.station n).faults = FaultSet.none) (hsuspect : (s.station n).suspect = false) :
    t.station n = { s.station n with
      faults := if p then FaultSet.none else FaultSet.qlossOnly, suspect := false } ∧ t.circuits = s.circuits := by
  have hflags : (t.station n).faults = if p then FaultSet.none else FaultSet.qlossOnly := by
    rw [h.faults, hfaults, FaultSet.none_union]
  have hstill : (t.station n).suspect = false := by
    rw [h.suspect, hsuspect, hflags]
    split <;> rfl
  obtain ⟨hinputs, hcircuits⟩ := h.unmoved (hstill.trans hsuspect.symm)
  refine ⟨?_, hcircuits⟩
  rw [h.station, hflags, hstill, hinputs]

theorem lostOf_ne_nil {s : State} {made : List Entry} :
    s.lostOf made ≠ [] ↔ 64 - inputCount s.events < made.length := by
  rw [State.lostOf, ne_eq, List.drop_eq_nil_iff, not_le]

theorem stationsCleared_clearStation (s : State) (n : StationId) :
    StationsCleared [n] (s.liftEvents n) s (s.clearStation n) := by
  have hinput : ∀ e ∈ s.liftEvents n, e.isInput = true := fun e he => by
    obtain ⟨i, k, rfl⟩ := liftEvents_plain s n e he
    rfl
  have hstation : (s.modStation n StationState.cleared).station n = (s.station n).cleared :=
    State.station_modStation_self s n _
  have hrecords : Records (if (s.liftEvents n).length ≤ 64 - inputCount s.events then FaultSet.none
      else FaultSet.qlossOnly) n (s.modStation n StationState.cleared) (s.clearStation n) := by
    have h := (offeredBy_clearStation s n).records
    rw [show TagSet.none.faults = FaultSet.none from rfl, ite_self, FaultSet.none_union] at h
    exact h
  have hany : (s.lostOf (s.liftEvents n)).any (fun e => decide (e.station = n)) = true ↔
      ¬ (s.liftEvents n).length ≤ 64 - inputCount s.events := by
    rw [not_le, ← lostOf_ne_nil, List.any_eq_true]
    constructor
    · rintro ⟨e, he, -⟩
      exact List.ne_nil_of_mem he
    · intro hne
      obtain ⟨e, he⟩ := List.exists_mem_of_ne_nil _ hne
      exact ⟨e, he, decide_eq_true (station_of_liftEvents (List.mem_of_mem_drop he))⟩
  obtain ⟨hflags, hcircuits⟩ := hrecords.of_qloss (by rw [hstation]; rfl) (by rw [hstation]; rfl)
  obtain ⟨hqueue, hscanhold, hloss, hcauses, -, -, hframe⟩ :=
    offerInputs_spec (s.modStation n StationState.cleared) (s.liftEvents n) hinput
  rw [← clearStation_eq] at hqueue hscanhold hloss hcauses hframe
  refine ⟨hqueue, hscanhold, fun m hm => ?cleared, fun m hm => ?others, ?lossCount, fun c => ?causes, hcircuits,
    hframe⟩
  case cleared =>
    obtain rfl := List.mem_singleton.1 hm
    rw [hflags, hstation]
    simp only [hany, ite_not]
    rfl
  case others =>
    rw [hrecords.others m (fun e => hm (List.mem_singleton.2 e))]
    exact State.station_modStation_ne s _ (fun e => hm (List.mem_singleton.2 e.symm))
  case lossCount =>
    rw [State.lostOf, List.length_drop]
    exact hloss
  case causes => exact (hcauses c).trans (or_congr_right (and_congr_right' lostOf_ne_nil.symm))

/-- A station with no event in an offer loses none. -/
theorem any_lostOf_eq_false {s : State} {made : List Entry} {ns : List StationId} {n : StationId}
    (hmade : ∀ e ∈ made, e.station ∈ ns) (hn : n ∉ ns) :
    (s.lostOf made).any (fun e => decide (e.station = n)) = false := by
  refine List.any_eq_false.2 (fun e he h => hn ?_)
  rw [← of_decide_eq_true h]
  exact hmade e (List.mem_of_mem_drop he)

/-- After one group of stations the next finds the slots that are left, and its events are lost behind those already
lost. -/
theorem StationsCleared.append {ns ms : List StationId} {made more : List Entry} {s u t : State}
    (h1 : StationsCleared ns made s u) (h2 : StationsCleared ms more u t) (hdisjoint : ∀ n ∈ ns, n ∉ ms)
    (hinput : ∀ e ∈ made, e.isInput = true) (hmade : ∀ e ∈ made, e.station ∈ ns)
    (hmore : ∀ e ∈ more, e.station ∈ ms) : StationsCleared (ns ++ ms) (made ++ more) s t := by
  have hcount : inputCount u.events =
      inputCount s.events + min (64 - inputCount s.events) made.length := by
    rw [h1.queue, inputCount_append, inputCount_all (fun e he => hinput e (List.mem_of_mem_take he)),
      List.length_take]
  have hfree : 64 - inputCount u.events = (64 - inputCount s.events) - made.length := by omega
  have hlost : s.lostOf (made ++ more) = s.lostOf made ++ u.lostOf more := by
    unfold State.lostOf
    rw [List.drop_append, hfree]
  refine ⟨?queue, ?scanhold, fun n hn => ?cleared, fun n hn => ?others, ?lossCount, fun c => ?causes,
    h2.circuits.trans h1.circuits, h1.frame.trans h2.frame⟩
  case queue => rw [h2.queue, hfree, h1.queue, List.take_append, List.append_assoc]
  case scanhold =>
    have hjoins : min (made ++ more).length (64 - inputCount s.events) =
        min made.length (64 - inputCount s.events) + min more.length (64 - inputCount u.events) := by
      rw [List.length_append]
      omega
    rw [h2.scanhold, h1.scanhold, hjoins, scanholdJoins_add, hcount, min_comm made.length]
  case cleared =>
    rw [hlost, List.any_append]
    by_cases hms : n ∈ ms
    · have hns : n ∉ ns := fun h => hdisjoint n h hms
      rw [h2.cleared n hms, h1.others n hns, any_lostOf_eq_false hmade hns, Bool.false_or]
    · have hns : n ∈ ns := (List.mem_append.1 hn).resolve_right hms
      rw [h2.others n hms, h1.cleared n hns, any_lostOf_eq_false hmore hms, Bool.or_false]
  case others =>
    rw [List.mem_append, not_or] at hn
    rw [h2.others n hn.2, h1.others n hn.1]
  case lossCount =>
    rw [h2.lossCount, h1.lossCount, hlost, List.length_append, raisedBy_add]
  case causes =>
    rw [h2.causes, h1.causes, hlost, ne_eq, ne_eq, ne_eq, List.append_eq_nil_iff]
    tauto

/-- What is offered for a station whose turn has not come stays as it is. -/
theorem StationsCleared.liftEvents_eq {ns : List StationId} {made : List Entry} {s t : State}
    (h : StationsCleared ns made s t) {n : StationId} (hn : n ∉ ns) : t.liftEvents n = s.liftEvents n := by
  unfold State.liftEvents State.lifts State.mayReassert
  rw [h.others n hn, h.frame.active]

theorem stationsCleared_foldl (ns : List StationId) (hns : ns.Nodup) (s : State) :
    StationsCleared ns (ns.flatMap s.liftEvents) s (ns.foldl State.clearStation s) := by
  induction ns generalizing s with
  | nil => exact stationsCleared_nil s
  | cons n rest ih =>
    obtain ⟨hn, hrest⟩ := List.nodup_cons.1 hns
    have hfirst := stationsCleared_clearStation s n
    have hlater : rest.flatMap (s.clearStation n).liftEvents = rest.flatMap s.liftEvents :=
      List.flatMap_congr (fun m hm => hfirst.liftEvents_eq (fun e => hn (List.mem_singleton.1 e ▸ hm)))
    have hnext := ih hrest (s.clearStation n)
    rw [hlater] at hnext
    refine hfirst.append hnext (fun m hm => List.mem_singleton.1 hm ▸ hn) (fun e he => ?_)
      (fun e he => List.mem_singleton.2 (station_of_liftEvents he)) (fun e he => ?_)
    · obtain ⟨i, k, rfl⟩ := liftEvents_plain s n e he
      rfl
    · obtain ⟨m, hm, he⟩ := List.mem_flatMap.1 he
      rwa [station_of_liftEvents he]

/-- The offers of all stations stand in ascending station and input order. -/
theorem pairwise_flatMap_liftEvents (s : State) :
    (allStations.flatMap s.liftEvents).Pairwise (fun e f => e.place < f.place) := by
  refine List.pairwise_flatMap.2 ⟨fun n _ => pairwise_liftEvents s n,
    (List.pairwise_lt_finRange 112).imp (fun {n m} hnm e he f hf => ?_)⟩
  obtain ⟨i, k, rfl⟩ := liftEvents_plain s n e he
  obtain ⟨j, l, rfl⟩ := liftEvents_plain s m f hf
  show 16 * n.val + i.val < 16 * m.val + j.val
  omega

/-! ### The command (R76, R171) -/

section Command
variable {s : State} (h : s.takesCommand)
include h

theorem exec_clearFaults_station (n : StationId) (hn : s.parameter.toNat = n.val) :
    exec .clearFaults s = .next (({ s with command := 8 }.clearStation n).commandDone 0) := by
  have hlt : s.parameter.toNat < 112 := hn ▸ n.isLt
  have heq : (⟨s.parameter.toNat, hlt⟩ : StationId) = n := Fin.ext hn
  refine congrArg Host.Outcome.next ((offerCommand_taken h 8 _).trans ?_)
  rw [← heq]
  exact dif_pos hlt

theorem exec_clearFaults_all (hall : s.parameter = 0xFFFF) : exec .clearFaults s =
    .next ((allStations.foldl State.clearStation { s with command := 8 }).commandDone 0) := by
  refine congrArg Host.Outcome.next ((offerCommand_taken h 8 _).trans ?_)
  have hge : ¬ s.parameter.toNat < 112 := by rw [hall]; decide
  exact (dif_neg hge).trans (if_pos hall)

theorem exec_clearFaults_bad (hge : 112 ≤ s.parameter.toNat) (hne : s.parameter ≠ 0xFFFF) : exec .clearFaults s =
    .next { s with command := 8, status := .refused .badParameter 1 0, causes := Cause.command.mark s.causes } := by
  refine congrArg Host.Outcome.next ((offerCommand_taken h 8 _).trans ?_)
  exact (dif_neg (not_lt.2 hge)).trans (if_neg hne)

end Command

/-- Settles O19: one station is one offer; all are one offer after the other, in the order of the stations. -/
theorem clearFaultsLiftsQuarantine : Obligations.ClearFaultsLiftsQuarantine := by
  unfold Obligations.ClearFaultsLiftsQuarantine
  intro cleared lifted clean s htakes
  refine ⟨fun n hn => ?one, fun hall => ?all, exec_clearFaults_bad htakes⟩
  case one =>
    let t : State := { s with command := 8 }
    have hoffer := (offeredBy_clearStation t n).commandDone 0
    have hstation : ((t.modStation n StationState.cleared).commandDone 0).station n = (s.station n).cleared :=
      State.station_modStation_self t n _
    refine ⟨(t.modStation n StationState.cleared).commandDone 0, _, exec_clearFaults_station htakes n hn, rfl,
      hstation, fun m hm => State.station_modStation_ne t _ (Ne.symm hm), fun hkept => ?_, fun hlift => ?_⟩
    · exact congrArg (fun u => u.commandDone 0) (clearStation_kept (s := t) (fun h => hkept (lifts_iff.1 h)))
    · refine ⟨t.liftEvents n, ?_, hoffer⟩
      rw [hstation]
      exact reassertsAs_liftEvents (lifts_iff.2 hlift)
  case all =>
    let t : State := { s with command := 8 }
    have hexec := exec_clearFaults_all htakes hall
    have hplaces := pairwise_flatMap_liftEvents t
    have hmembers : ∀ e, e ∈ allStations.flatMap t.liftEvents ↔ ∃ n, e ∈ t.liftEvents n := fun e => by
      simp only [allStations, List.mem_flatMap, List.mem_finRange, true_and]
    have h := stationsCleared_foldl allStations (List.nodup_finRange 112) t
    generalize allStations.foldl State.clearStation t = u at h hexec
    generalize allStations.flatMap t.liftEvents = made at h hplaces hmembers
    refine ⟨_, made, hexec, hplaces, fun e => ?members, h.queue, h.scanhold,
      fun n => h.cleared n (List.mem_finRange n), h.lossCount, fun c => ?causes, ?frame⟩
    case members =>
      rw [hmembers]
      refine exists_congr fun n => ?_
      rw [mem_liftEvents, lifts_iff, ← exists_and_left]
      rfl
    case causes =>
      refine (mark_pending c .command u.causes).trans ((or_congr_left (h.causes c)).trans ?_)
      rw [or_assoc, or_comm (b := c = .command)]
      rfl
    case frame =>
      have hframe := h.frame
      rw [SameElsewhere, h.circuits] at hframe
      exact congrArg (fun v : State => { v with status := .done 0, causes := Cause.command.mark u.causes }) hframe

end Sys2Proof.Machine
end

section
/-! The event queue (spec chapter 5), O56: every step keeps the event queue, SCANHOLD#, SUSPECT and the silence timers
in order. What an operation does to the queue is said once as a series of moves (`QueueMoves`), and what it makes of
the stations besides as `Attends`. -/

namespace Sys2Proof.Machine

/-! ### Markers and input events of a queue (R86) -/

@[simp] theorem isInput_convertMarker (n : StationId) (e : Entry) : (convertMarker n e).isInput = e.isInput := by
  unfold convertMarker
  split
  · next h => rw [h]; rfl
  · rfl

@[simp] theorem station_convertMarker (n : StationId) (e : Entry) : (convertMarker n e).station = e.station := by
  unfold convertMarker
  split
  · next h => rw [h]; rfl
  · rfl

theorem inputCount_convert (n : StationId) (q : List Entry) : inputCount (q.map (convertMarker n)) = inputCount q := by
  unfold inputCount
  rw [List.countP_map]
  exact List.countP_congr fun e _ => by simp

theorem markersOf_convert (m n : StationId) (q : List Entry) :
    markersOf m (q.map (convertMarker n)) = markersOf m q := by
  unfold markersOf
  rw [List.countP_map]
  exact List.countP_congr fun e _ => by simp

/-- A marker that leaves the queue is no input event. -/
theorem inputCount_removeLost (n : StationId) (q : List Entry) :
    inputCount (q.filter (fun e => !decide (e = .marker n .lost))) = inputCount q := by
  unfold inputCount
  rw [List.countP_filter]
  refine List.countP_congr fun e _ => ?_
  cases e <;> simp [Entry.isInput]

theorem markersOf_append (n : StationId) (q r : List Entry) :
    markersOf n (q ++ r) = markersOf n q + markersOf n r := List.countP_append

theorem markersOf_singleton_input {e : Entry} (h : e.isInput = true) (n : StationId) : markersOf n [e] = 0 := by
  simp [markersOf, h]

theorem markersOf_of_markerIn {n : StationId} {q : List Entry} (h : markerIn q n = none) : markersOf n q = 0 := by
  induction q with
  | nil => rfl
  | cons e rest ih =>
    cases e with
    | input m i k t => exact (List.countP_cons_of_neg (by simp [Entry.isInput])).trans (ih h)
    | marker m k =>
      rw [markerIn] at h
      split at h
      · cases h
      · next hne => exact (List.countP_cons_of_neg (by simp [Entry.station, hne])).trans (ih h)

/-! ### The moves of the queue (R88, R90, R91, R92, R94) -/

/-- What can happen to the event queue and SCANHOLD#: an input event joins while fewer than 64 are queued, a marker
joins where its station has none, a RETURNED marker is changed into LOST, a LOST marker is removed, the head leaves, or
a reset empties the queue. -/
inductive QueueMoves : List Entry → Bool → List Entry → Bool → Prop where
  | stands (q : List Entry) (h : Bool) : QueueMoves q h q h
  | joins {q : List Entry} {h : Bool} {e : Entry} : e.isInput = true → inputCount q < Config.eventCapacity →
      QueueMoves q h (q ++ [e]) (scanholdAfter (inputCount (q ++ [e])) h)
  | markerJoins {q : List Entry} {h : Bool} {n : StationId} {k : MarkerKind} : markerIn q n = none →
      QueueMoves q h (q ++ [.marker n k]) h
  | converts {q : List Entry} {h : Bool} {n : StationId} : QueueMoves q h (q.map (convertMarker n)) h
  | markerLeaves {q : List Entry} {h : Bool} {n : StationId} :
      QueueMoves q h (q.filter (fun e => !decide (e = .marker n .lost))) h
  | headLeaves {q : List Entry} {h : Bool} {e : Entry} :
      QueueMoves (e :: q) h q (if e.isInput then scanholdAfter (inputCount q) h else h)
  | emptied {q : List Entry} {h : Bool} : QueueMoves q h [] false
  | trans {q r u : List Entry} {h i j : Bool} : QueueMoves q h r i → QueueMoves r i u j → QueueMoves q h u j

theorem QueueMoves.inputs {q r : List Entry} {h i : Bool} (hm : QueueMoves q h r i)
    (hq : inputCount q ≤ Config.eventCapacity) : inputCount r ≤ Config.eventCapacity := by
  induction hm with
  | stands => exact hq
  | joins he hroom =>
    rw [inputCount_append, inputCount_singleton he]
    exact hroom
  | markerJoins => exact (inputCount_append ..).trans_le hq
  | converts => exact (inputCount_convert ..).trans_le hq
  | markerLeaves => exact (inputCount_removeLost ..).trans_le hq
  | headLeaves => exact (List.sublist_cons_self _ _).countP_le.trans hq
  | emptied => exact Nat.zero_le _
  | trans _ _ ih1 ih2 => exact ih2 (ih1 hq)

theorem QueueMoves.markers {q r : List Entry} {h i : Bool} (hm : QueueMoves q h r i)
    (hq : ∀ n, markersOf n q ≤ 1) : ∀ n, markersOf n r ≤ 1 := by
  induction hm with
  | stands => exact hq
  | joins he _ =>
    intro n
    rw [markersOf_append, markersOf_singleton_input he]
    exact hq n
  | @markerJoins q h m k hnone =>
    intro n
    rw [markersOf_append]
    by_cases hmn : m = n
    · rw [← hmn, markersOf_of_markerIn hnone, Nat.zero_add]
      exact List.countP_le_length
    · rw [show markersOf n [.marker m k] = 0 by simp [markersOf, Entry.station, hmn]]
      exact hq n
  | converts => exact fun n => (markersOf_convert ..).trans_le (hq n)
  | markerLeaves => exact fun n => List.filter_sublist.countP_le.trans (hq n)
  | headLeaves => exact fun n => (List.sublist_cons_self _ _).countP_le.trans (hq n)
  | emptied => exact fun _ => Nat.zero_le _
  | trans _ _ ih1 ih2 => exact ih2 (ih1 hq)

/-- SCANHOLD# is asserted from 56 input events and released up to 48 (R94). -/
def HoldsOff (count : Nat) (h : Bool) : Prop := (56 ≤ count → h = true) ∧ (count ≤ 48 → h = false)

theorem holdsOff_scanholdAfter (count : Nat) (h : Bool) : HoldsOff count (scanholdAfter count h) := by
  unfold HoldsOff scanholdAfter
  constructor
  · intro hge
    rw [if_pos hge]
  · intro hle
    rw [if_neg (by omega), if_pos hle]

theorem QueueMoves.holdsOff {q r : List Entry} {h i : Bool} (hm : QueueMoves q h r i)
    (hq : HoldsOff (inputCount q) h) : HoldsOff (inputCount r) i := by
  induction hm with
  | stands => exact hq
  | joins => exact holdsOff_scanholdAfter ..
  | markerJoins => rwa [inputCount_append]
  | converts => rwa [inputCount_convert]
  | markerLeaves => rwa [inputCount_removeLost]
  | @headLeaves q h e =>
    cases e with
    | input => exact holdsOff_scanholdAfter ..
    | marker => exact hq
  | emptied => exact ⟨nofun, fun _ => rfl⟩
  | trans _ _ ih1 ih2 => exact ih2 (ih1 hq)

theorem holdOffOk_iff {s : State} : HoldOffOk s ↔ HoldsOff (inputCount s.events) s.scanhold :=
  ⟨fun h => ⟨h.asserted, h.released⟩, fun h => ⟨h.1, h.2⟩⟩

/-! ### One station's record (R75, R80) -/

/-- SUSPECT agrees with the fault flags of a station (R75). -/
def QuarantineInOrder (st : StationState) : Prop := st.suspect = decide (2 ≤ st.faults.size)

/-- The silence timer of a station runs where R80 says, and a LOST station requires a baseline. -/
structure Supervised (r : StationRec) (st : StationState) : Prop where
  timer : st.silence.isSome = (r.enabled && r.silenceLimit != 0 && !st.lost)
  lost : st.lost = true → st.baselineRequired = true

theorem supervisionOk_iff {s : State} : SupervisionOk s ↔ ∀ n, Supervised (s.active.station n) (s.station n) :=
  ⟨fun h n => ⟨h.timers n, h.lost n⟩, fun h => ⟨fun n => (h n).timer, fun n => (h n).lost⟩⟩

/-- Whether the silence timer runs, LOST, and the need of a baseline are as they were. -/
structure SameSupervision (before after : StationState) : Prop where
  silence : after.silence.isSome = before.silence.isSome
  lost : after.lost = before.lost
  baseline : after.baselineRequired = before.baselineRequired

theorem SameSupervision.refl (st : StationState) : SameSupervision st st := ⟨rfl, rfl, rfl⟩

theorem SameSupervision.trans {x y z : StationState} (h1 : SameSupervision x y) (h2 : SameSupervision y z) :
    SameSupervision x z :=
  ⟨h2.silence.trans h1.silence, h2.lost.trans h1.lost, h2.baseline.trans h1.baseline⟩

theorem Supervised.of_same {r : StationRec} {before after : StationState} (h : Supervised r before)
    (hs : SameSupervision before after) : Supervised r after where
  timer := by rw [hs.silence, hs.lost, h.timer]
  lost := by rw [hs.lost, hs.baseline]; exact h.lost

/-- A recording sets SUSPECT exactly as the second fault flag is set (R75). -/
theorem Records.quarantine {f : FaultSet} {n : StationId} {s t : State} (h : Records f n s t) (m : StationId)
    (hs : QuarantineInOrder (s.station m)) : QuarantineInOrder (t.station m) := by
  by_cases hm : m = n
  · subst hm
    unfold QuarantineInOrder at hs ⊢
    have hfaults := h.faults
    have hle : (s.station m).faults.size ≤ (t.station m).faults.size := by
      rw [hfaults]
      exact FaultSet.size_le_union ..
    rw [h.suspect, hs]
    by_cases hf : f.size = 0
    · rw [FaultSet.size_eq_zero.1 hf, FaultSet.union_none] at hfaults
      simp [hf, hfaults]
    · by_cases h2 : 2 ≤ (t.station m).faults.size
      · simp [hf, h2]
      · have h2' : ¬ 2 ≤ (s.station m).faults.size := by omega
        simp [h2, h2']
  · rw [h.others m hm]
    exact hs

theorem Records.supervision {f : FaultSet} {n : StationId} {s t : State} (h : Records f n s t) (m : StationId) :
    SameSupervision (s.station m) (t.station m) := by
  by_cases hm : m = n
  · subst hm
    rw [h.station]
    exact ⟨rfl, rfl, rfl⟩
  · rw [h.others m hm]
    exact .refl _

/-! ### What an operation makes of the queue and the stations -/

/-- The queue moves, SUSPECT stays in order at every station, the active map stands, and the supervision of every
station but those of `busy` is as it was. -/
structure Attends (busy : List StationId) (s t : State) : Prop where
  queue : QueueMoves s.events s.scanhold t.events t.scanhold
  quarantine : ∀ n, QuarantineInOrder (s.station n) → QuarantineInOrder (t.station n)
  active : t.active = s.active
  supervision : ∀ n, n ∉ busy → SameSupervision (s.station n) (t.station n)

theorem Attends.refl (busy : List StationId) (s : State) : Attends busy s s :=
  ⟨.stands .., fun _ h => h, rfl, fun _ _ => .refl _⟩

theorem Attends.trans {busy : List StationId} {s u t : State} (h1 : Attends busy s u) (h2 : Attends busy u t) :
    Attends busy s t :=
  ⟨h1.queue.trans h2.queue, fun n h => h2.quarantine n (h1.quarantine n h), h2.active.trans h1.active,
    fun n hn => (h1.supervision n hn).trans (h2.supervision n hn)⟩

/-- What disturbs no station's supervision is allowed where some are busy. -/
theorem Attends.mono {busy : List StationId} {s t : State} (h : Attends [] s t) : Attends busy s t :=
  ⟨h.queue, h.quarantine, h.active, fun n _ => h.supervision n List.not_mem_nil⟩

/-- The fields that the queue and the supervision of the stations stand in. -/
abbrev attendedFields : List Field := [.events, .scanhold, .stations, .active]

theorem station_of_stations {s t : State} (h : t.stations = s.stations) (n : StationId) : t.station n = s.station n :=
  congrArg (fun table => Table.get table n) h

/-- An operation on the queue alone. -/
theorem attends_of_queue {busy : List StationId} {s t : State}
    (hq : QueueMoves s.events s.scanhold t.events t.scanhold) (hst : t.stations = s.stations)
    (ha : t.active = s.active) : Attends busy s t :=
  ⟨hq, fun n h => (station_of_stations hst n).symm ▸ h, ha, fun n _ => (station_of_stations hst n).symm ▸ .refl _⟩

theorem QueueMoves.of_same {s t : State} (hevents : t.events = s.events) (hscanhold : t.scanhold = s.scanhold) :
    QueueMoves s.events s.scanhold t.events t.scanhold := by
  rw [hevents, hscanhold]
  exact .stands ..

/-- An operation on other fields alone. -/
theorem attends_of_same {busy : List StationId} {s t : State} (hevents : t.events = s.events)
    (hscanhold : t.scanhold = s.scanhold) (hst : t.stations = s.stations) (ha : t.active = s.active) :
    Attends busy s t := attends_of_queue (.of_same hevents hscanhold) hst ha

theorem Attends.of_changes {busy : List StationId} {fs : List Field} {s t : State} (h : Changes fs s t)
    (hfs : ∀ f ∈ attendedFields, f ∉ fs) : Attends busy s t :=
  attends_of_same (h .events (hfs _ (by decide))) (h .scanhold (hfs _ (by decide)))
    (h .stations (hfs _ (by decide))) (h .active (hfs _ (by decide)))

/-- A change of one station's record. -/
theorem attends_modStation {busy : List StationId} (s : State) (n : StationId) (f : StationState → StationState)
    (hq : QuarantineInOrder (s.station n) → QuarantineInOrder (f (s.station n)))
    (hs : n ∉ busy → SameSupervision (s.station n) (f (s.station n))) : Attends busy s (s.modStation n f) := by
  refine ⟨.stands .., fun m h => ?_, rfl, fun m hm => ?_⟩ <;> by_cases e : n = m
  · subst e
    rw [State.station_modStation_self]
    exact hq h
  · rw [State.station_modStation_ne s f e]
    exact h
  · subst e
    rw [State.station_modStation_self]
    exact hs hm
  · rw [State.station_modStation_ne s f e]
    exact .refl _

/-- A recording on one station. -/
theorem Records.attends {f : FaultSet} {n : StationId} {s t : State} (h : Records f n s t)
    (hevents : t.events = s.events) (hscanhold : t.scanhold = s.scanhold) (ha : t.active = s.active) :
    Attends [] s t := ⟨.of_same hevents hscanhold, h.quarantine, ha, fun m _ => h.supervision m⟩

/-! ### Offers and recordings -/

theorem attends_recordFaults (s : State) (n : StationId) (f : FaultSet) : Attends [] s (s.recordFaults n f) := by
  obtain ⟨hevents, hscanhold, -⟩ := recordFaults_events s n f
  exact (recordFaults_records s n f).attends hevents hscanhold (sameElsewhere_recordFaults s n f).active

theorem attends_loseInput (s : State) (e : Entry) : Attends [] s (s.loseInput e) := by
  obtain ⟨hevents, hscanhold, -⟩ := loseInput_queue s e
  exact (loseInput_records s e).attends hevents hscanhold (sameElsewhere_loseInput s e).active

theorem attends_loseInputs (lost : List Entry) (s : State) : Attends [] s (lost.foldl State.loseInput s) := by
  induction lost generalizing s with
  | nil => exact .refl [] s
  | cons e rest ih => exact (attends_loseInput s e).trans (ih _)

theorem attends_placeInputs (offer : List Entry) (hin : ∀ e ∈ offer, e.isInput = true) (s : State) :
    Attends [] s (s.placeInputs offer).1 := by
  induction offer generalizing s with
  | nil => exact .refl [] s
  | cons e rest ih =>
    have hrest : ∀ x ∈ rest, x.isInput = true := fun x hx => hin x (List.mem_cons_of_mem _ hx)
    unfold State.placeInputs
    split
    · next hroom =>
      have hjoin : Attends [] s (s.joinInput e) := attends_of_queue (.joins (hin e List.mem_cons_self) hroom) rfl rfl
      exact hjoin.trans (ih hrest _)
    · exact ih hrest s

theorem attends_offerInputs (s : State) (offer : List Entry) (hin : ∀ e ∈ offer, e.isInput = true) :
    Attends [] s (s.offerInputs offer) :=
  (attends_placeInputs offer hin s).trans (attends_loseInputs _ _)

/-- An offer of a station's plain events is one of input events. -/
theorem isInput_of_plain {n : StationId} {evs : List Entry} (h : ∀ e ∈ evs, ∃ i k, e = plainInput n i k) :
    ∀ e ∈ evs, e.isInput = true ∧ e.station = n := by
  intro e he
  obtain ⟨i, k, rfl⟩ := h e he
  exact ⟨rfl, rfl⟩

theorem reassertEvents_plain (b : Bank) (n : StationId) (st : StationState) (acted : InputId → Bool) :
    ∀ e ∈ reassertEvents b n st acted, ∃ i k, e = plainInput n i k := by
  intro e he
  obtain ⟨i, -, -, -, -, hi⟩ := ((reassertsAs_reassertEvents b n st acted).2 e).1 he
  exact ⟨i, _, hi⟩

theorem attends_offerWrite (s : State) (n : StationId) (found : TagSet) {evs : List Entry}
    (h : ∀ e ∈ evs, ∃ i k, e = plainInput n i k) : Attends [] s (s.offerWrite n found evs) := by
  have hin := isInput_of_plain h
  unfold State.offerWrite
  split
  · exact attends_offerInputs s _ (fun e he => (tagFirst_inputs hin e he).1)
  · exact (attends_recordFaults s n _).trans (attends_offerInputs _ evs (fun e he => (hin e he).1))

theorem attends_offerLost (s : State) (n : StationId) : Attends [] s (s.offerLost n) := by
  unfold State.offerLost
  split
  · next hnone => exact attends_of_queue (.markerJoins hnone) rfl rfl
  · exact attends_of_queue .converts rfl rfl
  · exact .refl [] s

theorem attends_offerReturn (s : State) (n : StationId) : Attends [] s (s.offerReturn n) := by
  unfold State.offerReturn
  split
  · next hnone => exact attends_of_queue (.markerJoins hnone) rfl rfl
  · exact .refl [] s
  · exact attends_of_queue .markerLeaves rfl rfl

/-! ### Evaluating writes (R67) -/

theorem attends_returnIfLost (s : State) (n : StationId) : Attends [n] s (s.returnIfLost n) := by
  unfold State.returnIfLost
  split
  · have hreturned : Attends [n] s (s.modStation n (fun st => { st with lost := false, baselineRequired := true })) :=
      attends_modStation s n _ id (fun hn => absurd (List.mem_singleton_self n) hn)
    exact hreturned.trans (attends_offerReturn _ n).mono
  · exact .refl _ s

theorem lost_returnIfLost (s : State) (n : StationId) : ((s.returnIfLost n).station n).lost = false := by
  cases h : (s.station n).lost with
  | true =>
    rw [returnIfLost_lost h]
    exact congrArg StationState.lost ((station_offerReturn _ n n).trans (State.station_modStation_self s n _))
  | false => rw [returnIfLost_present h, h]

/-- Steps 2 to 6 of R67, on a station that has returned if it was LOST. -/
def State.evaluated (s : State) (n : StationId) (reference : Byte) (returning : Bool) : State :=
  if (s.station n).baselineRequired then s.baselineWrite n reference returning else s.ordinaryWrite n reference

theorem evaluate_eq (s : State) (n : StationId) (reference : Byte) : s.evaluate n reference =
    ((s.returnIfLost n).evaluated n reference (s.station n).lost).restartSilence n := rfl

theorem attends_evaluated (s : State) (n : StationId) (reference : Byte) (returning : Bool) :
    Attends [n] s (s.evaluated n reference returning) ∧
      ((s.evaluated n reference returning).station n).lost = (s.station n).lost := by
  unfold State.evaluated
  split
  · have hbaseline : Attends [n] s (s.recordBaseline n) :=
      attends_modStation s n _ id (fun hn => absurd (List.mem_singleton_self n) hn)
    have hoffer : Attends [] (s.recordBaseline n) (s.baselineWrite n reference returning) :=
      attends_offerWrite _ n _ (reassertEvents_plain _ _ _ _)
    refine ⟨hbaseline.trans hoffer.mono, (hoffer.supervision n List.not_mem_nil).lost.trans ?_⟩
    rw [station_recordBaseline]
  · have hchange : Attends [n] s (s.changeInputs n) :=
      attends_modStation s n _ id (fun hn => absurd (List.mem_singleton_self n) hn)
    have hoffer : Attends [] (s.changeInputs n) (s.ordinaryWrite n reference) :=
      attends_offerWrite _ n _ changeEvents_plain
    refine ⟨hchange.trans hoffer.mono, (hoffer.supervision n List.not_mem_nil).lost.trans ?_⟩
    rw [station_changeInputs]

theorem attends_evaluate (s : State) (n : StationId) (reference : Byte) : Attends [n] s (s.evaluate n reference) := by
  have hrestart : ∀ u : State, Attends [n] u (u.restartSilence n) := fun u =>
    attends_modStation u n _ id (fun hn => absurd (List.mem_singleton_self n) hn)
  rw [evaluate_eq]
  exact ((attends_returnIfLost s n).trans (attends_evaluated _ n reference _).1).trans (hrestart _)

/-- After an evaluating write a station is not LOST and its silence timer runs if its limit is above 0 (R67, R80). -/
theorem supervised_evaluate {s : State} {n : StationId} (reference : Byte)
    (henabled : (s.active.station n).enabled = true) :
    Supervised (s.active.station n) ((s.evaluate n reference).station n) := by
  obtain ⟨hattends, hlost⟩ := attends_evaluated (s.returnIfLost n) n reference (s.station n).lost
  have hactive := hattends.active.trans (attends_returnIfLost s n).active
  rw [evaluate_eq, station_restartSilence, hactive]
  rw [lost_returnIfLost] at hlost
  refine ⟨?_, fun h => ?_⟩
  · show (restartedSilence (s.active.station n)).isSome = _
    rw [henabled, hlost, restartedSilence]
    split
    · next h => rw [h]; rfl
    · next h => simp [h]
  · rw [hlost] at h
    cases h

end Sys2Proof.Machine
end

section
/-! The event queue (spec chapter 5), O56: every command, the swap and the passing of time keep the order of the queue
and of the supervision of the stations. -/

namespace Sys2Proof.Machine

/-! ### What keeps the queue and the supervision in order -/

/-- What every command does: the queue moves, SUSPECT stays in order at every station, and so does the supervision of
the stations. -/
structure KeepsOrder (s t : State) : Prop where
  queue : QueueMoves s.events s.scanhold t.events t.scanhold
  quarantine : QuarantineOk s → QuarantineOk t
  supervision : SupervisionOk s → SupervisionOk t

theorem Attends.keepsOrder {s t : State} (h : Attends [] s t) : KeepsOrder s t where
  queue := h.queue
  quarantine hs n := h.quarantine n (hs n)
  supervision hs := supervisionOk_iff.2 fun n => by
    rw [h.active]
    exact (supervisionOk_iff.1 hs n).of_same (h.supervision n List.not_mem_nil)

theorem KeepsOrder.refl (s : State) : KeepsOrder s s := (Attends.refl [] s).keepsOrder

theorem KeepsOrder.trans {s u t : State} (h1 : KeepsOrder s u) (h2 : KeepsOrder u t) : KeepsOrder s t :=
  ⟨h1.queue.trans h2.queue, h2.quarantine ∘ h1.quarantine, h2.supervision ∘ h1.supervision⟩

theorem KeepsOrder.of_same {s t : State} (hevents : t.events = s.events) (hscanhold : t.scanhold = s.scanhold)
    (hst : t.stations = s.stations) (ha : t.active = s.active) : KeepsOrder s t :=
  (attends_of_same hevents hscanhold hst ha : Attends [] s t).keepsOrder

theorem KeepsOrder.of_changes {fs : List Field} {s t : State} (h : Changes fs s t)
    (hfs : ∀ f ∈ attendedFields, f ∉ fs) : KeepsOrder s t := (Attends.of_changes h hfs).keepsOrder

/-- An operation that disturbs one station and leaves its supervision in order. -/
theorem Attends.keepsOrder_one {n : StationId} {s t : State} (h : Attends [n] s t)
    (hn : Supervised (s.active.station n) (s.station n) → Supervised (s.active.station n) (t.station n)) :
    KeepsOrder s t where
  queue := h.queue
  quarantine hs m := h.quarantine m (hs m)
  supervision hs := supervisionOk_iff.2 fun m => by
    have hm := supervisionOk_iff.1 hs m
    rw [h.active]
    by_cases e : m = n
    · subst e
      exact hn hm
    · exact hm.of_same (h.supervision m (fun hmem => e (List.mem_singleton.1 hmem)))

/-- A reset: nothing is queued, and every station is as after POWER under the empty map. -/
theorem keepsOrder_emptied {s t : State} (hevents : t.events = []) (hscanhold : t.scanhold = false)
    (hst : t.stations = Table.fill 112 StationState.initial) (ha : t.active = Bank.empty) : KeepsOrder s t := by
  refine ⟨?_, fun _ n => ?_, fun _ => supervisionOk_iff.2 fun n => ?_⟩
  · rw [hevents, hscanhold]
    exact .emptied
  · rw [station_of_fill hst]
    rfl
  · have henabled : (t.active.station n).enabled = false := by rw [ha]; exact enabled_station_empty n
    rw [station_of_fill hst]
    exact ⟨by rw [henabled]; rfl, fun _ => rfl⟩

/-! ### Station writes and timers (R65, R73, R80) -/

theorem keepsOrder_monitorWrite (s : State) (n : StationId) (k : Nat) (lanes : Lanes) (data : Word) :
    KeepsOrder s (s.monitorWrite n k lanes data) := by
  have hcopy : Attends [] s (s.writeCopy n k lanes data) :=
    attends_modStation s n _ id (fun _ => ⟨rfl, rfl, rfl⟩)
  cases henabled : (s.active.station n).enabled with
  | false =>
    rw [monitorWrite_disabled henabled]
    exact .refl s
  | true =>
    by_cases hcovered : k = 4 ∧ lanes.lo = true
    · obtain ⟨rfl, hlo⟩ := hcovered
      rw [monitorWrite_evaluated henabled hlo]
      exact hcopy.keepsOrder.trans ((attends_evaluate _ n _).keepsOrder_one fun _ => supervised_evaluate _ henabled)
    · rw [monitorWrite_covered henabled (by simpa [or_iff_not_imp_left] using hcovered)]
      exact hcopy.keepsOrder

/-- An access held for its grant changes nothing here; one that is granted does its work. -/
theorem keepsOrder_takeAtGrant (s : State) (a : Access) {work : State → State}
    (hwork : ∀ u, KeepsOrder u (work u)) : KeepsOrder s (s.takeAtGrant a work) := by
  have hport : ∀ (p : Port) (k : Nat), KeepsOrder s { s with port := p, runCount := k } := fun _ _ =>
    .of_same rfl rfl rfl rfl
  unfold State.takeAtGrant
  split
  · exact .refl s
  split
  · exact (hport _ _).trans (hwork _)
  · exact hport _ _

theorem keepsOrder_stationCellWrite {a : WriteAccess} {s t : State} (he : execStationCellWrite a s = .next t) :
    KeepsOrder s t := by
  unfold execStationCellWrite at he
  split at he <;> cases he
  · refine keepsOrder_takeAtGrant s _ fun u => ?_
    exact (KeepsOrder.of_changes (changes_startWrite u _ _ _) (by decide)).trans (keepsOrder_monitorWrite ..)
  · exact .refl s

theorem keepsOrder_longPressExpires {n : StationId} {i : InputId} {s t : State}
    (he : execLongPressExpires n i s = .next t) : KeepsOrder s t := by
  unfold execLongPressExpires at he
  split at he <;> cases he
  · have hgiven : Attends [] s (s.giveLong n i) := attends_modStation s n _ id (fun _ => ⟨rfl, rfl, rfl⟩)
    refine (hgiven.trans (attends_offerInputs _ [plainInput n i .long] fun e h => ?_)).keepsOrder
    rw [List.mem_singleton.1 h]
    rfl
  · exact .refl s

/-- A silence timer that has run out was running, so its station is enabled with a limit above 0; it stops, and the
station becomes LOST and requires a baseline (R80). -/
theorem keepsOrder_silenceExpires {n : StationId} {s t : State} (he : execSilenceExpires n s = .next t) :
    KeepsOrder s t := by
  unfold execSilenceExpires at he
  split at he <;> cases he
  · have hlosing : Attends [n] s (s.modStation n StationState.losing) :=
      attends_modStation s n _ id (fun hn => absurd (List.mem_singleton_self n) hn)
    refine (hlosing.trans (attends_offerLost _ n).mono).keepsOrder_one fun _ => ?_
    rw [station_offerLost, State.station_modStation_self]
    exact ⟨(Bool.and_false _).symm, fun _ => rfl⟩
  · exact .refl s

/-- A release of RST# restarts the silence timers that run (R84). -/
theorem keepsOrder_rstRelease {straps : BitVec 2} {s t : State} (he : execRstRelease straps s = .next t) :
    KeepsOrder s t := by
  unfold execRstRelease at he
  split at he <;> cases he
  · let restart : StationState → StationState := fun st => { st with silence := st.silence.map (fun _ => 0) }
    have hst : ∀ n, (s.mapStations fun _ => restart).station n = restart (s.station n) :=
      State.station_mapStations s _
    have h : Attends [] s (s.mapStations fun _ => restart) :=
      ⟨.stands .., fun n hq => hst n ▸ hq, rfl, fun n _ => hst n ▸ ⟨Option.isSome_map, rfl, rfl⟩⟩
    exact h.keepsOrder.trans (.of_same rfl rfl rfl rfl)
  · exact .refl s

theorem keepsOrder_advanceTime (s : State) : KeepsOrder s s.advanceTime := by
  cases hrst : s.rst with
  | true => exact .of_same rfl rfl (stations_advanceTime_paused hrst) rfl
  | false =>
    have hst := station_advanceTime hrst
    have h : Attends [] s s.advanceTime :=
      ⟨.stands .., fun n hq => hst n ▸ hq, rfl, fun n _ => hst n ▸ ⟨Option.isSome_map, rfl, rfl⟩⟩
    exact h.keepsOrder

/-! ### CLEAR FAULTS and changes of mode (R76, R128 to R130) -/

theorem attends_clearStation (s : State) (n : StationId) : Attends [] s (s.clearStation n) := by
  have hcleared : Attends [] s (s.modStation n StationState.cleared) :=
    attends_modStation s n _ (fun _ => rfl) (fun _ => ⟨rfl, rfl, rfl⟩)
  rw [clearStation_eq]
  exact hcleared.trans (attends_offerInputs _ _ fun e he => (isInput_of_plain (liftEvents_plain s n) e he).1)

theorem attends_clearStations (ns : List StationId) (s : State) : Attends [] s (ns.foldl State.clearStation s) := by
  induction ns generalizing s with
  | nil => exact .refl [] s
  | cons n rest ih => exact (attends_clearStation s n).trans (ih _)

/-- The write of the command cell changes nothing here, so a command does what its act does. -/
theorem attends_offerCommand (s : State) (v : Word) {act : State → State} (hact : ∀ u, Attends [] u (act u)) :
    Attends [] s (s.offerCommand v act) := by
  refine offerCommand_induction (.refl [] s) (attends_of_same rfl rfl rfl rfl) fun _ => ?_
  have hcell : Attends [] s { s with command := v } := attends_of_same rfl rfl rfl rfl
  exact hcell.trans (hact _)

theorem attends_clearFaults (s : State) : Attends [] s s.clearFaults := by
  refine attends_offerCommand s 8 fun u => ?_
  split
  · exact (attends_clearStation u _).trans (.of_changes (changes_commandDone _ 0) (by decide))
  split
  · exact (attends_clearStations _ u).trans (.of_changes (changes_commandDone _ 0) (by decide))
  · exact .of_changes (changes_commandRefused u _ _ _) (by decide)

/-- The re-assertion of every station is an offer of input events (R130). -/
theorem isInput_openingOffer (s : State) : ∀ e ∈ s.openingOffer, e.isInput = true := by
  intro e he
  obtain ⟨n, -, hn⟩ := List.mem_flatMap.1 he
  split at hn
  · exact (isInput_of_plain (reassertEvents_plain _ _ _ _) e hn).1
  · cases hn

theorem attends_enterEffects (s : State) (m : HouseMode) : Attends [] s (s.enterEffects m) := by
  cases m with
  | open_ =>
    have hopen : Attends [] s { s with hold := false, amend := none } := attends_of_same rfl rfl rfl rfl
    show Attends [] s s.enterOpen
    unfold State.enterOpen
    dsimp only
    split
    · exact hopen.trans (attends_offerInputs _ _ (isInput_openingOffer _))
    · exact hopen
  | night => exact attends_of_same rfl rfl rfl rfl
  | prepare => exact .refl [] s
  | performance => exact .refl [] s
  | interval => exact .refl [] s

theorem attends_requestMode {s t : State} {m : HouseMode} (h : s.requestMode m = .ok t) : Attends [] s t := by
  unfold State.requestMode at h
  split at h
  · cases h
    exact .refl [] s
  split at h
  · cases h
    exact (attends_enterEffects s m).trans (attends_of_same rfl rfl rfl rfl)
  · cases h

theorem attends_setMode {s t : State} (he : execSetMode s = .next t) : Attends [] s t := by
  cases he
  refine attends_offerCommand s 3 fun u => ?_
  split
  · unfold State.settleCommand
    split
    · next v hv => exact (attends_requestMode hv).trans (.of_changes (changes_commandDone v 0) (by decide))
    · exact .of_changes (changes_commandRefused u _ _ _) (by decide)
  · exact .of_changes (changes_commandRefused u _ _ _) (by decide)

theorem attends_mode {s t : State} (he : execMode s = .next t) : Attends [] s t := by
  cases he
  rcases runAction_cases s .mode s.claimMode with e | ⟨a, t, ht, e⟩ | ⟨a, r, e⟩ <;> rw [e]
  · exact .refl [] s
  · unfold State.claimMode at ht
    split at ht
    · exact (attends_requestMode ht).trans (.of_changes (changes_finishAction t) (by decide))
    · cases ht
  · exact .of_changes ((changes_refuseAction s a r).trans (changes_finishAction _)) (by decide)

/-! ### The claims of an entry and of a LOST marker (R99, R100, R103, R105) -/

theorem attends_recordTags (s : State) (e : Entry) : Attends [] s (s.recordTags e) := by
  cases e with
  | input n i k t => exact attends_recordFaults s n _
  | marker n k => exact .refl [] s

theorem attends_beginSequence (s : State) (n : StationId) (i : InputId) (k : EventKind) (t : TagSet) :
    Attends [] s (s.beginSequence n i k t) := by
  unfold State.beginSequence
  split
  · next v _ =>
    have hacted : Attends [] s (s.modStation n (fun st => st.setActed i v)) :=
      attends_modStation s n _ id (fun _ => ⟨rfl, rfl, rfl⟩)
    exact hacted.trans (attends_of_same rfl rfl rfl rfl)
  · exact attends_of_same rfl rfl rfl rfl

theorem attends_entryClaim (s : State) (e : Entry) (stage : Stage) : Attends [] s (s.entryClaim e stage) := by
  cases stage with
  | taken => exact (attends_recordTags s e).trans (.of_changes (changes_holdAt _ e _) (by decide))
  | recorded => exact .of_changes (changes_testSuspect s e) (by decide)
  | trusted => exact .of_changes (changes_testMapAndMode s e) (by decide)
  | passed =>
    cases e with
    | input n i k t =>
      exact .of_changes ((changes_endHeldRamps s n i k).trans (changes_holdAt _ _ _)) (by decide)
    | marker n k => exact .refl [] s
  | rampsEnded =>
    cases e with
    | input n i k t => exact attends_beginSequence s n i k t
    | marker n k => exact .refl [] s
  | running next left => exact .refl [] s

theorem attends_takeClaim (s : State) : Attends [] s s.takeClaim := by
  unfold State.takeClaim
  split
  · exact attends_entryClaim s _ _
  split
  · exact .refl [] s
  split
  · exact .refl [] s
  · next e rest hevents =>
    refine attends_of_queue ?_ rfl rfl
    rw [hevents]
    exact .headLeaves

theorem attends_takeClaims (claims : Nat) (s : State) : Attends [] s (s.takeClaims claims) := by
  induction claims generalizing s with
  | zero => exact .refl [] s
  | succ k ih =>
    unfold State.takeClaims
    split
    · exact attends_takeClaim s
    · exact (attends_takeClaim s).trans (ih _)

theorem attends_lostPolicy (s : State) (n : StationId) : Attends [] s (s.lostPolicy n) := by
  have hend : ∀ u : State, Attends [] u (u.raiseCause .loss).finishEntry := fun u =>
    attends_of_same rfl rfl rfl rfl
  refine Attends.trans ?_ (hend _)
  split
  · have hleave : Attends [] s (s.leaveByDefault fun x => x.ownedBy (.station n)) :=
      .of_changes (changes_leaveByDefault s _) (by decide)
    exact hleave.trans (attends_modStation _ n _ id (fun _ => ⟨rfl, rfl, rfl⟩))
  · exact .refl [] s

theorem attends_lostClaims (claims : Nat) (s : State) : Attends [] s (s.lostClaims claims) := by
  induction claims generalizing s with
  | zero => exact .refl [] s
  | succ k ih =>
    refine Attends.trans ?_ (ih _)
    unfold State.lostClaim
    split
    · exact .of_changes ((changes_endRamps s _).trans (changes_holdAt _ _ _)) (by decide)
    · exact attends_lostPolicy s _
    · exact .refl [] s

/-! ### The swap (R83, R175) -/

/-- The state of a swap in which effect 4 finds the stations: the first three effects, with what is taken after each. -/
def State.beforeStations (s : State) (gaps : List (List Interlude)) : State :=
  ((((s.exchangeBanks.interludes (gaps.headD [])).closeAmend.interludes (gaps.tail.headD [])).endRamps
    (fun _ => true)).interludes (gaps.tail.tail.headD []))

/-- The effects of a swap after those on the stations, and what is taken between them. -/
theorem changes_afterStations (s : State) (gaps : List (List Interlude)) :
    Changes ([.circuits, .status, .causes] ++ interludeFields)
      ((s.beforeStations gaps).swapStations s.active) (s.swapBanks gaps) := by
  have hlater : ∀ effect ∈ (swapEffects s.active).drop 4, ∀ u, Changes [.circuits, .status, .causes] u (effect u) := by
    intro effect hmem u
    simp only [swapEffects, List.drop_succ_cons, List.drop_zero, List.mem_cons, List.not_mem_nil, or_false] at hmem
    rcases hmem with rfl | rfl | rfl | rfl
    · exact (changes_leaveByDefault u _).mono (by decide)
    · exact (changes_updateSlots u _ _).mono (by decide)
    · exact (changes_mapCircuits u _).mono (by decide)
    · exact (changes_commandDone u _).mono (by decide)
  exact (changes_interludes _ (gaps.tail.tail.tail.headD [])).then
    (changes_runEffects _ gaps.tail.tail.tail.tail _ hlater) (by decide)

theorem changes_beforeStations (s : State) (gaps : List (List Interlude)) :
    Changes ([.amend, .circuits] ++ interludeFields) s.exchangeBanks (s.beforeStations gaps) := by
  have hclosed := (changes_interludes s.exchangeBanks (gaps.headD [])).trans (changes_closeAmend _)
  have hended := (hclosed.trans (changes_interludes _ (gaps.tail.headD []))).trans (changes_endRamps _ (fun _ => true))
  exact (hended.trans (changes_interludes _ (gaps.tail.tail.headD []))).mono (by decide)

/-- A swap makes of every station's record what R83 says, whatever is taken between its effects. -/
theorem station_swapBanks (s : State) (gaps : List (List Interlude)) (n : StationId) :
    (s.swapBanks gaps).station n = swapStation (s.active.station n) (s.standby.station n) (s.station n) := by
  have hbefore := changes_beforeStations s gaps
  have hstation : (s.beforeStations gaps).station n = s.station n :=
    station_of_stations (hbefore .stations (by decide)) n
  have hactive : (s.beforeStations gaps).active = s.standby := hbefore .active (by decide)
  calc (s.swapBanks gaps).station n
      = ((s.beforeStations gaps).swapStations s.active).station n :=
        station_of_stations (changes_afterStations s gaps .stations (by decide)) n
    _ = swapStation (s.active.station n) ((s.beforeStations gaps).active.station n)
          ((s.beforeStations gaps).station n) := State.station_mapStations _ _ n
    _ = swapStation (s.active.station n) (s.standby.station n) (s.station n) := by rw [hactive, hstation]

/-- A swap records no fault and lifts none. -/
theorem quarantine_swapStation (old new : StationRec) (st : StationState) :
    (swapStation old new st).suspect = st.suspect ∧ (swapStation old new st).faults = st.faults := by
  unfold swapStation
  dsimp only
  repeat' split
  all_goals exact ⟨rfl, rfl⟩

theorem isSome_swapSilence (r : StationRec) (lost : Bool) :
    (swapSilence r lost).isSome = (r.silenceLimit != 0 && !lost) := by
  unfold swapSilence
  by_cases h : r.silenceLimit = 0 <;> cases lost <;> simp [h]

/-- A station supervised under the old map is supervised under the new one after the swap (R83). -/
theorem Supervised.swapStation {old new : StationRec} {st : StationState} (h : Supervised old st) :
    Supervised new (swapStation old new st) := by
  unfold Machine.swapStation
  dsimp only
  cases hold : old.enabled <;> cases hnew : new.enabled
  case false.false => exact ⟨by rw [hnew]; exact h.timer.trans (by rw [hold]; rfl), h.lost⟩
  case false.true => exact ⟨by rw [hnew]; exact isSome_swapSilence .., fun _ => rfl⟩
  case true.false => exact ⟨by rw [hnew]; rfl, fun _ => rfl⟩
  case true.true => exact ⟨by rw [hnew]; exact isSome_swapSilence .., h.lost⟩

theorem keepsOrder_swapBanks (s : State) (gaps : List (List Interlude)) : KeepsOrder s (s.swapBanks gaps) := by
  have hchanges := changes_swapBanks s gaps
  refine ⟨.of_same (hchanges .events (by decide)) (hchanges .scanhold (by decide)), fun hs n => ?_,
    fun hs => supervisionOk_iff.2 fun n => ?_⟩
  · rw [station_swapBanks, (quarantine_swapStation ..).1, (quarantine_swapStation ..).2]
    exact hs n
  · rw [station_swapBanks, active_swapBanks]
    exact (supervisionOk_iff.1 hs n).swapStation

theorem keepsOrder_mapSwap {gaps : List (List Interlude)} {s t : State} (he : execMapSwap s gaps = .next t) :
    KeepsOrder s t := by
  unfold execMapSwap at he
  split at he <;> cases he
  · split
    · exact .of_changes (changes_commandRefused s _ _ _) (by decide)
    · exact keepsOrder_swapBanks s gaps
  · exact .refl s

/-! ### Every step -/

theorem keepsOrder_restart {s t : State} (he : execRestart s = .next t) : KeepsOrder s t := by
  cases he
  refine offerCommand_induction (P := KeepsOrder s) (.refl s) (.of_same rfl rfl rfl rfl) fun _ => ?_
  have hclear := changes_beginFrameClear ({ s with command := 11 } : State).restarted
  exact keepsOrder_emptied (hclear .events (by decide)) (hclear .scanhold (by decide))
    (hclear .stations (by decide)) (hclear .active (by decide))

theorem exec_keepsOrder {c : Instr} {s t : State} (he : exec c s = .next t) : KeepsOrder s t := by
  cases c with
  | power straps =>
    cases he
    exact keepsOrder_emptied rfl rfl rfl rfl
  | rstRelease straps => exact keepsOrder_rstRelease he
  | longPressExpires n i => exact keepsOrder_longPressExpires he
  | silenceExpires n => exact keepsOrder_silenceExpires he
  | stationCellWrite a => exact keepsOrder_stationCellWrite he
  | setMode => exact (attends_setMode he).keepsOrder
  | clearFaults =>
    cases he
    exact (attends_clearFaults s).keepsOrder
  | restart => exact keepsOrder_restart he
  | mapSwap gaps => exact keepsOrder_mapSwap he
  | takeEntry claims =>
    cases he
    exact (attends_takeClaims claims s).keepsOrder
  | lostMarker claims =>
    cases he
    exact (attends_lostClaims claims s).keepsOrder
  | mode => exact (attends_mode he).keepsOrder
  | _ => exact .of_changes (changes_of_exec he) (by simp only [touched]; decide)

/-- What holds after `KeepsOrder` whenever it held before, every step keeps: the queue of commands and the passing of
time keep the order too. -/
theorem stepKeeps_of_keepsOrder {P : State → Prop} (h : ∀ {s t : State}, KeepsOrder s t → P s → P t) : StepKeeps P :=
  stepKeeps_of_exec (fun _ _ _ he => h (exec_keepsOrder he))
    (fun _ _ => h (.of_same rfl rfl rfl rfl)) (fun s => h (keepsOrder_advanceTime s))

theorem KeepsOrder.queueOk {s t : State} (h : KeepsOrder s t) (hs : QueueOk s) : QueueOk t :=
  ⟨h.queue.inputs hs.inputs, h.queue.markers hs.markers⟩

theorem KeepsOrder.holdOffOk {s t : State} (h : KeepsOrder s t) (hs : HoldOffOk s) : HoldOffOk t :=
  holdOffOk_iff.2 (h.queue.holdsOff (holdOffOk_iff.1 hs))

/-- Settles O56: each of the four is kept by every move of the queue, or by what a command does to a station. -/
theorem everyStepKeepsQueueAndSupervisionInOrder : Obligations.EveryStepKeepsQueueAndSupervisionInOrder := by
  exact ⟨stepKeeps_of_keepsOrder KeepsOrder.queueOk, stepKeeps_of_keepsOrder KeepsOrder.holdOffOk,
    stepKeeps_of_keepsOrder KeepsOrder.quarantine, stepKeeps_of_keepsOrder KeepsOrder.supervision⟩

end Sys2Proof.Machine
end

section
/-! The event queue (spec chapter 5), O20 and O21: an offer of input events, and the take of the head, claim by
claim. -/

namespace Sys2Proof.Machine

/-! ### Offers (R88, R89, R94) -/

/-- Settles O20: an offer of which every event joins changes the queue and SCANHOLD# alone; the rest is what any offer
does. -/
theorem offerQueuesWhatFitsAndCountsTheLoss : Obligations.OfferQueuesWhatFitsAndCountsTheLoss := by
  intro s offer hin t free
  obtain ⟨hevents, hscanhold, hcounters, hcauses, hqloss, hothers, hframe⟩ := offerInputs_spec s offer hin
  refine ⟨hevents, hcounters, hscanhold, fun hfits => ?_, hqloss, hothers, hcauses, hframe⟩
  have ht : t = _ := offerInputs_fits s offer hin hfits
  rw [ht]

/-! ### The claims of TAKE_ENTRY by the stage of the entry held (R99 to R102) -/

/-- The entry meets NIGHT at a station that is not served then (R100, step 4). -/
def State.nightFor (s : State) (e : Entry) : Prop :=
  s.mode = .night ∧ (s.active.station e.station).night = false

theorem exec_takeEntry_one (s : State) : exec (.takeEntry 1) s = .next s.takeClaim :=
  congrArg Host.Outcome.next (takeClaims_one s)

/-- Where the next claim changes nothing, the row changes nothing. -/
theorem exec_takeEntry_still {s : State} (h : s.takeClaim = s) (claims : Nat) :
    exec (.takeEntry claims) s = .next s := congrArg Host.Outcome.next (takeClaims_still h claims)

/-- At an idle point with a swap pending or an empty queue nothing is taken (R99). -/
theorem takeClaim_nothing {s : State} (hidle : s.current = none) (h : s.swapPending = true ∨ s.events = []) :
    s.takeClaim = s := by
  unfold State.takeClaim
  rw [hidle]
  dsimp only
  split
  · rfl
  · next hswap => rw [h.resolve_left hswap]

theorem popEntry_eq (s : State) (e : Entry) (rest : List Entry) : s.popEntry e rest = { s with
    events := rest
    scanhold := if e.isInput then scanholdAfter (inputCount rest) s.scanhold else s.scanhold
    current := some ⟨e, .taken⟩ } := rfl

/-- The tags of an entry are recorded on its station; a marker carries none (R85, R101). -/
theorem recordTags_eq (s : State) (e : Entry) : s.recordTags e = s.recordFaults e.station e.tagged := by
  cases e with
  | input n i k t => rfl
  | marker n k => exact (if_pos rfl).symm

theorem frame_recordFaults (s : State) (n : StationId) (f : FaultSet) : s.recordFaults n f = { s with
    stations := (s.recordFaults n f).stations
    circuits := (s.recordFaults n f).circuits
    causes := (s.recordFaults n f).causes } := by
  unfold State.recordFaults
  split
  · rfl
  · dsimp only
    split <;> rfl

/-- A marker that has passed its tests is left to the row of its own kind (R103, R104). -/
theorem takeClaim_marker {s : State} {e : Entry} {n : StationId} {k : MarkerKind} (he : e = .marker n k)
    (h : s.current = some ⟨e, .passed⟩) : s.takeClaim = s := by
  subst he
  exact takeClaim_held h

section Claims
variable {s : State} {e : Entry}

theorem takeClaim_taken (h : s.current = some ⟨e, .taken⟩) :
    s.takeClaim = (s.recordFaults e.station e.tagged).holdAt e .recorded := by
  rw [takeClaim_held h, ← recordTags_eq]
  rfl

theorem takeClaim_quarantined (h : s.current = some ⟨e, .recorded⟩)
    (hsuspect : (s.station e.station).suspect = true) :
    s.takeClaim = { s with counters := s.counters.bump .quarantineDrops, current := none } :=
  (takeClaim_held h).trans (if_pos hsuspect)

theorem takeClaim_trusted (h : s.current = some ⟨e, .recorded⟩)
    (hsuspect : (s.station e.station).suspect = false) : s.takeClaim = s.holdAt e .trusted :=
  (takeClaim_held h).trans (if_neg (Bool.eq_false_iff.1 hsuspect))

theorem takeClaim_disabled (h : s.current = some ⟨e, .trusted⟩)
    (henabled : (s.active.station e.station).enabled = false) : s.takeClaim = { s with current := none } :=
  (takeClaim_held h).trans (if_pos (by rw [henabled]; rfl))

theorem testMapAndMode_enabled (henabled : (s.active.station e.station).enabled = true) : s.testMapAndMode e =
    if s.mode = .night && !(s.active.station e.station).night then (s.count .nightDrops).finishEntry
    else s.holdAt e .passed := if_neg (by rw [henabled]; decide)

theorem nightFor_iff : s.nightFor e ↔ (decide (s.mode = .night) && !(s.active.station e.station).night) = true := by
  rw [Bool.and_eq_true, decide_eq_true_eq, Bool.not_eq_true']
  rfl

theorem takeClaim_night (h : s.current = some ⟨e, .trusted⟩)
    (henabled : (s.active.station e.station).enabled = true) (hnight : s.nightFor e) :
    s.takeClaim = { s with counters := s.counters.bump .nightDrops, current := none } :=
  (takeClaim_held h).trans ((testMapAndMode_enabled henabled).trans (if_pos (nightFor_iff.1 hnight)))

theorem takeClaim_passed (h : s.current = some ⟨e, .trusted⟩)
    (henabled : (s.active.station e.station).enabled = true) (hnight : ¬ s.nightFor e) :
    s.takeClaim = s.holdAt e .passed :=
  (takeClaim_held h).trans ((testMapAndMode_enabled henabled).trans (if_neg (fun hn => hnight (nightFor_iff.2 hn))))

end Claims

/-- Several claims of one presentation are the first, and then the others unless it has finished the entry (R99). -/
theorem exec_takeEntry_succ {s u : State} (h : exec (.takeEntry 1) s = .next u) (claims : Nat) :
    (u.current = none → exec (.takeEntry (claims + 1)) s = .next u) ∧
    (u.current ≠ none → exec (.takeEntry (claims + 1)) s = exec (.takeEntry claims) u) := by
  rw [exec_takeEntry_one] at h
  cases h
  exact ⟨fun hfinished => congrArg Host.Outcome.next (takeClaims_finished hfinished claims),
    fun hheld => congrArg Host.Outcome.next (takeClaims_held hheld claims)⟩

/-! ### The row taken whole (R92, R100 to R102) -/

/-- The head has left the queue and its tags are recorded; what is held is as before. -/
def State.headOut (s : State) (e : Entry) (rest : List Entry) : State :=
  let recorded := (s.popEntry e rest).recordFaults e.station e.tagged
  { s with
    events := rest
    scanhold := if e.isInput then scanholdAfter (inputCount rest) s.scanhold else s.scanhold
    stations := recorded.stations
    circuits := recorded.circuits
    causes := recorded.causes }

/-- The claims after the first two act on the state in which the head is out, its entry held. -/
theorem takeClaims_idle {s : State} {e : Entry} {rest : List Entry} (hidle : s.current = none)
    (hswap : s.swapPending = false) (hevents : s.events = e :: rest) (k : Nat) :
    s.takeClaims (k + 2) = ((s.headOut e rest).holdAt e .recorded).takeClaims k := by
  have hfirst : s.takeClaim = s.popEntry e rest := takeClaim_idle hidle hswap hevents
  have hrecorded := frame_recordFaults (s.popEntry e rest) e.station e.tagged
  have hsecond : (s.popEntry e rest).takeClaim = (s.headOut e rest).holdAt e .recorded := by
    rw [takeClaim_taken rfl, hrecorded]
    rfl
  rw [takeClaims_held (by rw [hfirst]; nofun), hfirst, takeClaims_held (by rw [hsecond]; nofun), hsecond]

theorem headTaken_headOut (s : State) (e : Entry) (rest : List Entry) : HeadTaken e rest s (s.headOut e rest) where
  records :=
    have hrecords := recordFaults_records (s.popEntry e rest) e.station e.tagged
    (hrecords.congr_left (u := s) rfl rfl rfl rfl).congr_right (u := s.headOut e rest) rfl rfl
  scanhold := rfl
  causes := recordFaults_causes (s.popEntry e rest) _ _
  frame := rfl

section Held
variable (u : State) {e : Entry} (k : Nat)

theorem takeClaims_quarantined (hsuspect : (u.station e.station).suspect = true) (hidle : u.current = none) :
    (u.holdAt e .recorded).takeClaims (k + 1) = { u with counters := u.counters.bump .quarantineDrops } := by
  have h := takeClaim_quarantined (s := u.holdAt e .recorded) rfl hsuspect
  rw [takeClaims_finished (by rw [h]), h, ← hidle]
  rfl

theorem takeClaims_trusted (hsuspect : (u.station e.station).suspect = false) :
    (u.holdAt e .recorded).takeClaims (k + 1) = (u.holdAt e .trusted).takeClaims k := by
  have h : (u.holdAt e .recorded).takeClaim = u.holdAt e .trusted := takeClaim_trusted rfl hsuspect
  rw [takeClaims_held (by rw [h]; nofun), h]

theorem takeClaims_disabled (henabled : (u.active.station e.station).enabled = false) (hidle : u.current = none) :
    (u.holdAt e .trusted).takeClaims (k + 1) = u := by
  have h := takeClaim_disabled (s := u.holdAt e .trusted) rfl henabled
  rw [takeClaims_finished (by rw [h]), h, ← hidle]
  rfl

theorem takeClaims_night (henabled : (u.active.station e.station).enabled = true) (hnight : u.nightFor e)
    (hidle : u.current = none) :
    (u.holdAt e .trusted).takeClaims (k + 1) = { u with counters := u.counters.bump .nightDrops } := by
  have h := takeClaim_night (s := u.holdAt e .trusted) rfl henabled hnight
  rw [takeClaims_finished (by rw [h]), h, ← hidle]
  rfl

theorem takeClaims_passed (henabled : (u.active.station e.station).enabled = true) (hnight : ¬ u.nightFor e) :
    (u.holdAt e .trusted).takeClaims (k + 1) = (u.holdAt e .passed).takeClaims k := by
  have h : (u.holdAt e .trusted).takeClaim = u.holdAt e .passed := takeClaim_passed rfl henabled hnight
  rw [takeClaims_held (by rw [h]; nofun), h]

end Held

/-- The two claims of an input event that has passed its tests (R105). -/
theorem takeClaims_begin (u : State) (n : StationId) (i : InputId) (k : EventKind) (tags : TagSet) :
    (u.holdAt (.input n i k tags) .passed).takeClaims 2 = (u.endHeldRamps n i k).beginSequence n i k tags := by
  rw [takeClaims_held (by cases k <;> nofun), takeClaims_one]
  cases k <;> rfl

/-- They change station records, circuits and what is held alone. -/
theorem frame_begin (u : State) (n : StationId) (i : InputId) (k : EventKind) (tags : TagSet) :
    (u.endHeldRamps n i k).beginSequence n i k tags = { u with
      stations := ((u.endHeldRamps n i k).beginSequence n i k tags).stations
      circuits := ((u.endHeldRamps n i k).beginSequence n i k tags).circuits
      current := ((u.endHeldRamps n i k).beginSequence n i k tags).current } := by
  cases k <;> rfl

theorem station_begin_ne (u : State) {n m : StationId} (i : InputId) (k : EventKind) (tags : TagSet) (h : m ≠ n) :
    ((u.endHeldRamps n i k).beginSequence n i k tags).station m = u.station m := by
  have hended : (u.endHeldRamps n i k).station m = u.station m :=
    station_of_stations (changes_endHeldRamps u n i k .stations (by decide)) m
  rw [← hended]
  unfold State.beginSequence
  split
  · next v _ => exact State.station_modStation_ne (u.endHeldRamps n i k) (fun st => st.setActed i v) (Ne.symm h)
  · rfl

/-- Settles O21: each claim by the stage of the entry held; the row taken whole is these claims in turn. -/
theorem takeEntryDropsInTheOrderOfItsTests : Obligations.TakeEntryDropsInTheOrderOfItsTests := by
  refine ⟨fun s e rest hidle hswap hevents => ?head, fun s claims hidle h => ?nothing,
    fun s e => ⟨fun hstage => ?taken, fun hstage => ⟨fun hsuspect => ?quarantined, fun hsuspect => ?trusted⟩,
      fun hstage => ⟨fun hoff => ?disabled, fun hon hnight => ?night, fun hon hnight => ?passed⟩⟩,
    fun s claims => ⟨fun n k hstage => ?marker, fun e next left hstage => ?running⟩,
    fun s u claims h => exec_takeEntry_succ h claims, fun s e rest hidle hswap hevents => ?whole⟩
  case head => rw [exec_takeEntry_one, takeClaim_idle hidle hswap hevents, popEntry_eq]
  case nothing => exact exec_takeEntry_still (takeClaim_nothing hidle h) claims
  case taken =>
    refine ⟨_, (exec_takeEntry_one s).trans (congrArg Host.Outcome.next (takeClaim_taken hstage)),
      (recordFaults_records s e.station e.tagged).congr_right rfl rfl, recordFaults_causes .., ?_⟩
    exact congrArg (fun u : State => u.holdAt e .recorded) (frame_recordFaults s _ _)
  case quarantined => rw [exec_takeEntry_one, takeClaim_quarantined hstage hsuspect]
  case trusted =>
    rw [exec_takeEntry_one, takeClaim_trusted hstage hsuspect]
    rfl
  case disabled => rw [exec_takeEntry_one, takeClaim_disabled hstage hoff]
  case night => rw [exec_takeEntry_one, takeClaim_night hstage hon hnight]
  case passed =>
    rw [exec_takeEntry_one, takeClaim_passed hstage hon hnight]
    rfl
  case marker => exact exec_takeEntry_still (takeClaim_marker rfl hstage) claims
  case running => exact exec_takeEntry_still (takeClaim_held hstage) claims
  case whole =>
    have hout : HeadTaken e rest s (s.headOut e rest) := headTaken_headOut s e rest
    have htake : exec (.takeEntry 6) s = .next (((s.headOut e rest).holdAt e .recorded).takeClaims 4) :=
      congrArg Host.Outcome.next (takeClaims_idle hidle hswap hevents 4)
    have hnone : (s.headOut e rest).current = none := hidle
    generalize s.headOut e rest = u at hout htake hnone
    have htrusted : ¬ (u.station e.station).suspect = true →
        (u.holdAt e .recorded).takeClaims 4 = (u.holdAt e .trusted).takeClaims 3 := fun h =>
      takeClaims_trusted u 3 (Bool.eq_false_iff.2 h)
    refine ⟨u, _, htake, hout, fun hsuspect => ?_, fun hsuspect hoff => ?_, fun hsuspect hon hnight => ?_,
      fun hpasses k he => ?_, fun hpasses hinput => ?_⟩
    · exact takeClaims_quarantined u 3 hsuspect hnone
    · exact (htrusted hsuspect).trans (takeClaims_disabled u 2 hoff hnone)
    · exact (htrusted hsuspect).trans (takeClaims_night u 2 hon hnight hnone)
    · obtain ⟨hsuspect, hon, hnight⟩ := hpasses
      rw [htrusted hsuspect, takeClaims_passed u 2 hon hnight]
      exact takeClaims_still (takeClaim_marker he rfl) 2
    · obtain ⟨hsuspect, hon, hnight⟩ := hpasses
      rw [htrusted hsuspect, takeClaims_passed u 2 hon hnight]
      cases e with
      | marker n k => cases hinput
      | input n i k tags =>
        rw [takeClaims_begin]
        exact ⟨frame_begin u n i k tags, fun m hm => station_begin_ne u i k tags hm⟩

end Sys2Proof.Machine
end

section
/-! Executing actions (spec chapter 6), O32, O33 and O10: requests that a command of the command cell and an action of
a sequence make alike, to the fade hold, the amend window and the egress state. -/

namespace Sys2Proof.Machine

/-! ### A request of a command (R169) -/

section Request
variable {s t : State} (htakes : s.takesCommand) {v : Word} {request : State → Except Reason State}
include htakes

/-- A command whose request is accepted is DONE. -/
theorem settled_ok (h : request { s with command := v } = .ok t) :
    s.offerCommand v (fun u => u.settleCommand (request u)) = t.commandDone 0 := by
  rw [offerCommand_taken htakes, h]
  rfl

/-- A command whose request is refused is REFUSED with the reason, and changes nothing else. -/
theorem settled_refused {r : Reason} (h : request { s with command := v } = .error r) :
    s.offerCommand v (fun u => u.settleCommand (request u)) = { s with
      command := v, status := .refused r 0 0, causes := Cause.command.mark s.causes } := by
  rw [offerCommand_taken htakes, h]
  rfl

end Request

/-! ### The fade hold (R61, R119) -/

/-- Settles O32: the rows set or clear the flag, whatever it was. -/
theorem holdAndResumeSetAndClearTheFadeHold : Obligations.HoldAndResumeSetAndClearTheFadeHold := by
  refine ⟨fun s htakes => ⟨?holdFades, ?resumeFades⟩, fun s a => ⟨fun hruns => ?hold, fun hruns => ?resume⟩⟩
  case holdFades => exact congrArg Host.Outcome.next (offerCommand_taken htakes 4 _)
  case resumeFades => exact congrArg Host.Outcome.next (offerCommand_taken htakes 5 _)
  case hold => exact congrArg Host.Outcome.next (runAction_ok (t := { s with hold := true }) hruns rfl rfl rfl)
  case resume => exact congrArg Host.Outcome.next (runAction_ok (t := { s with hold := false }) hruns rfl rfl rfl)

/-! ### The amend window (R120, R137, R138) -/

theorem requestAmend_inShow {s : State} (h : s.mode = .performance ∨ s.mode = .interval) :
    s.requestAmend = .ok { s with amend := some 120000 } :=
  if_pos (by simpa using h)

theorem requestAmend_outside {s : State} (h : s.mode = .open_ ∨ s.mode = .prepare ∨ s.mode = .night) :
    s.requestAmend = .error .notInShow := by
  refine if_neg (fun hshow => ?_)
  rcases h with h | h | h <;> rw [h] at hshow <;> exact absurd hshow (by decide)

theorem exec_amend_inShow {s : State} {a : RunningAction} (hruns : s.runs 9 a)
    (h : s.mode = .performance ∨ s.mode = .interval) :
    exec .amend s = .next { s with amend := some 120000, current := s.afterAction } :=
  congrArg Host.Outcome.next
    (runAction_ok (t := { s with amend := some 120000 }) hruns rfl (requestAmend_inShow h) rfl)

/-- A window with time left, or shut, does not expire (log 7). -/
theorem exec_amendWindowExpires_idle {s : State} (h : s.amend ≠ some 0) : exec .amendWindowExpires s = .next s :=
  if_neg h

/-- Settles O33: the mode alone judges the request, and the time left alone the expiry. -/
theorem amendWindowOpensOnlyInAShow : Obligations.AmendWindowOpensOnlyInAShow := by
  refine ⟨fun s htakes => ⟨fun hshow => ?opened, fun hmode => ?refused⟩,
    fun s a hruns => ⟨exec_amend_inShow hruns, fun hmode => ?actionRefused⟩,
    fun s => ⟨fun hrun => if_pos hrun, exec_amendWindowExpires_idle⟩, fun s t a hruns hshow he => ?restarted⟩
  case opened =>
    exact congrArg Host.Outcome.next (settled_ok htakes (requestAmend_inShow (s := { s with command := 6 }) hshow))
  case refused =>
    exact congrArg Host.Outcome.next
      (settled_refused htakes (requestAmend_outside (s := { s with command := 6 }) hmode))
  case actionRefused =>
    exact congrArg Host.Outcome.next (runAction_refused hruns rfl (requestAmend_outside hmode))
  case restarted =>
    rw [exec_amend_inShow hruns hshow] at he
    cases he
    exact ⟨exec_amendWindowExpires_idle nofun, rfl⟩

/-! ### The egress state (R39, R121, R134) -/

/-- Every ACTIVE slot has begun to leave with its circuit's default profile, or is EMPTY at fade time 0; every other
circuit is as it was (R39). -/
def SlotsLeave (s t : State) : Prop := ∀ c,
  ((s.circuit c).slot = .active →
    (s.active.defaultTime c = 0 → (t.circuit c).slot = .empty) ∧
    (s.active.defaultTime c ≠ 0 → (t.circuit c).slot =
      .leaving 1000 ((1000 + 4 * s.active.defaultTime c - 1) / (4 * s.active.defaultTime c))) ∧
    (t.circuit c).list = (s.circuit c).list ∧ Recomputed s.active s.mode c (s.circuit c) (t.circuit c)) ∧
  ((s.circuit c).slot ≠ .active → t.circuit c = s.circuit c)

theorem slotsLeave_restoreSlots (s : State) : SlotsLeave s s.restoreSlots := by
  refine fun c => ⟨fun hactive => ?_, fun hother => ?_⟩
  · obtain ⟨hslot, hlist, hrecomputed⟩ := touched_updateSlots (s := s)
      (touch := fun _ cs => decide (cs.slot = .active)) (f := fun c _ => slotLeaving (s.active.defaultTime c))
      (c := c) (decide_eq_true hactive)
    exact ⟨fun hzero => hslot.trans (if_pos hzero), fun htime => hslot.trans (if_neg htime), hlist, hrecomputed⟩
  · exact untouched_updateSlots (touch := fun _ cs => decide (cs.slot = .active)) (decide_eq_false hother)

/-- A state in which a restore has been accepted (R134). -/
def State.restored (s : State) : State := (({ s with egress := .clear } : State).raiseCause .egress).restoreSlots

theorem requestRestore_cleared {s : State} (h : s.egress = .latchedCleared) :
    s.requestRestore = .ok s.restored := by
  unfold State.requestRestore
  rw [h]
  rfl

theorem requestRestore_lineActive {s : State} (h : s.egress = .latchedActive ∨ ∃ ms, s.egress = .pending ms) :
    s.requestRestore = .error .lineActive := by
  unfold State.requestRestore
  rcases h with h | ⟨ms, h⟩ <;> rw [h]

theorem requestRestore_notLatched {s : State} (h : s.egress = .clear) :
    s.requestRestore = .error .notLatched := by
  unfold State.requestRestore
  rw [h]

theorem slotsLeave_restored (s : State) : SlotsLeave s s.restored :=
  slotsLeave_restoreSlots (({ s with egress := .clear } : State).raiseCause .egress)

/-- Settles O10: the egress state judges the request, of the command and of the action alike. -/
theorem restoreIsJudgedByTheEgressState : Obligations.RestoreIsJudgedByTheEgressState := by
  refine ⟨fun s htakes => ⟨fun hcleared => ?restored, fun hline => ?lineActive, fun hclear => ?notLatched⟩,
    fun s a hruns => ⟨fun hcleared => ?actionRestored, fun hline => ?actionLineActive,
      fun hclear => ?actionNotLatched⟩⟩
  case restored =>
    let u : State := { s with command := 7 }
    have hexec : exec .restoreEgress s = .next (u.restored.commandDone 0) :=
      congrArg Host.Outcome.next (settled_ok htakes (requestRestore_cleared (s := u) hcleared))
    exact ⟨_, hexec, slotsLeave_restored u, rfl⟩
  case lineActive =>
    exact congrArg Host.Outcome.next
      (settled_refused htakes (requestRestore_lineActive (s := { s with command := 7 }) hline))
  case notLatched =>
    exact congrArg Host.Outcome.next
      (settled_refused htakes (requestRestore_notLatched (s := { s with command := 7 }) hclear))
  case actionRestored =>
    exact ⟨_, congrArg Host.Outcome.next (runAction_ok hruns rfl (requestRestore_cleared hcleared) rfl),
      slotsLeave_restored s, rfl⟩
  case actionLineActive =>
    exact congrArg Host.Outcome.next (runAction_refused hruns rfl (requestRestore_lineActive hline))
  case actionNotLatched =>
    exact congrArg Host.Outcome.next (runAction_refused hruns rfl (requestRestore_notLatched hclear))

end Sys2Proof.Machine
end

section
/-! Executing actions (spec chapter 6), O24 to O26: what an action names in the map, and the creates and renewals of SET,
TOGGLE, RAISE and LOWER on its target set. -/

namespace Sys2Proof.Machine

/-! ### The fields of a cell (R164) -/

theorem toNat_loByte (w : Word) : (loByte w).toNat = w.toNat % 256 := BitVec.toNat_setWidth 8 w

theorem toNat_hiByte (w : Word) : (hiByte w).toNat = w.toNat / 256 := by
  have hlt := w.isLt
  rw [hiByte, BitVec.toNat_setWidth, BitVec.toNat_ushiftRight, Nat.shiftRight_eq_div_pow]
  omega

/-! ### Target sets and profiles (R13, R14, R168) -/

section Named
variable {b : Bank} {a : ActionRec} {c : CircuitId}

theorem inTarget_circuit (h : a.targetType = 0) : b.inTarget a c = true ↔ c.val = a.targetIndex := by
  unfold Bank.inTarget
  rw [h]
  exact beq_iff_eq

theorem inTarget_group (h : a.targetType = 1) : b.inTarget a c = true ↔
    ∃ k, k < (b.groupRec a.targetIndex).count ∧ b.memberCircuit ((b.groupRec a.targetIndex).start + k) = c.val := by
  unfold Bank.inTarget
  rw [h]
  simp only [List.contains_iff_mem, Bank.groupMembers, List.mem_map, List.mem_range]

theorem inTarget_zone (h : a.targetType = 2) : b.inTarget a c = true ↔ (b.circuit c).zone = a.targetIndex := by
  unfold Bank.inTarget
  rw [h]
  exact beq_iff_eq

theorem inTarget_none (h : a.targetType = 3) : b.inTarget a c = false := by
  unfold Bank.inTarget
  rw [h]
  rfl

theorem circuit_zone : (b.circuit c).zone = (b.cell (0x2200 + 4 * c.val)).toNat % 256 := toNat_loByte _

theorem circuit_profile : (b.circuit c).profile = (b.cell (0x2200 + 4 * c.val)).toNat / 2048 := by
  have hfield : (b.circuit c).profile = (hiByte (b.cell (0x2200 + 4 * c.val))).toNat / 8 := rfl
  rw [hfield, toNat_hiByte, Nat.div_div_eq_div_mul]

theorem operandTime_default : b.operandTime 8 c =
    (b.cell (0x2000 + 2 * ((b.cell (0x2200 + 4 * c.val)).toNat / 2048))).toNat := by
  rw [← circuit_profile]
  rfl

/-! ### The level a scene gives a circuit (R16) -/

/-- The first item of a scene that names a circuit gives its level. -/
theorem sceneLevel_of_first {n k : Nat} (hk : k < (b.sceneRec n).count)
    (hitem : b.itemCircuit ((b.sceneRec n).start + k) = c.val)
    (hfirst : ∀ j, j < k → b.itemCircuit ((b.sceneRec n).start + j) ≠ c.val) :
    b.sceneLevel n c = some (b.itemLevel ((b.sceneRec n).start + k)) := by
  have hfind : (b.sceneItems n).find? (fun item => item.1 == c.val) =
      some (b.itemCircuit ((b.sceneRec n).start + k), b.itemLevel ((b.sceneRec n).start + k)) := by
    have hlength : k < (b.sceneItems n).length := by simpa [Bank.sceneItems] using hk
    refine List.find?_eq_some_iff_getElem.2 ⟨beq_iff_eq.2 hitem, k, hlength, ?_, fun j hj => ?_⟩
    · simp [Bank.sceneItems]
    · simpa [Bank.sceneItems] using hfirst j hj
  unfold Bank.sceneLevel
  rw [hfind]
  rfl

theorem sceneLevel_of_unnamed {n : Nat}
    (h : ∀ k, k < (b.sceneRec n).count → b.itemCircuit ((b.sceneRec n).start + k) ≠ c.val) :
    b.sceneLevel n c = none := by
  have hfind : (b.sceneItems n).find? (fun item => item.1 == c.val) = none := by
    refine List.find?_eq_none.2 (fun item hmem hnamed => ?_)
    obtain ⟨k, hk, rfl⟩ := List.mem_map.1 hmem
    exact h k (List.mem_range.1 hk) (beq_iff_eq.1 hnamed)
  unfold Bank.sceneLevel
  rw [hfind]
  rfl

end Named

/-! ### What an action asks of each circuit (R112, R115) -/

theorem asksLevel_eq (b : Bank) (a : ActionRec) (c : CircuitId) : b.asksLevel a c =
    if b.inTarget a c then some (askLevel a.level (b.operandTime a.profile c)) else none := rfl

theorem asksRamp_eq (b : Bank) (a : ActionRec) (goal : Nat) (i : InputId) (c : CircuitId) :
    b.asksRamp a goal i c = if b.inTarget a c then some (.ramp goal (b.operandTime a.profile c) i) else none := rfl

theorem asksOf_asksLevel (b : Bank) (a : ActionRec) : AsksOf (b.inTarget a) (b.asksLevel a) := by
  intro c
  rw [asksLevel_eq]
  cases b.inTarget a c <;> rfl

theorem asksOf_asksRamp (b : Bank) (a : ActionRec) (goal : Nat) (i : InputId) :
    AsksOf (b.inTarget a) (b.asksRamp a goal i) := by
  intro c
  rw [asksRamp_eq]
  cases b.inTarget a c <;> rfl

/-! ### Creates and renewals on a target set (R110, R111) -/

/-- An action has been taken: each circuit of `touch` is changed as `change` says, keeps its slot and is recomputed,
every other circuit is as it was, and the sequence has gone on. -/
def ActsOn (touch : CircuitId → Bool) (change : CircuitId → CircuitState → CircuitState → Prop) (s t : State) : Prop :=
  (∀ c, touch c = true → change c (s.circuit c) (t.circuit c) ∧ (t.circuit c).slot = (s.circuit c).slot ∧
    Recomputed s.active s.mode c (s.circuit c) (t.circuit c)) ∧
  (∀ c, touch c = false → t.circuit c = s.circuit c) ∧
  t = { s with circuits := t.circuits, current := s.afterAction }

section Asks
variable {s : State} {a : RunningAction} {code : Nat} {k : ActionKind} {touch : CircuitId → Bool}
  {ask : CircuitId → Option Ask} {claim : RunningAction → Except Reason State}

/-- What the asks of an action make of the circuits of `touch`. -/
theorem actsOn_applyAsks {o : Owner} {cls : Cls} {change : CircuitId → CircuitState → CircuitState → Prop}
    (hasks : AsksOf touch ask)
    (hchange : ∀ c x before after, ask c = some x → after.list = createOrRenew o cls x before → change c before after) :
    ActsOn touch change s { s.applyAsks o cls ask with current := s.afterAction } := by
  refine ⟨fun c hc => ?_, fun c hc => ?_, rfl⟩
  · obtain ⟨x, hx⟩ := Option.isSome_iff_exists.1 ((hasks c).trans hc)
    obtain ⟨hlist, hslot, hrecomputed⟩ := asked_applyAsks (s := s) (o := o) (k := cls) hx
    exact ⟨hchange c x _ _ hx hlist, hslot, hrecomputed⟩
  · exact unasked_applyAsks (Option.not_isSome_iff_eq_none.1 (by rw [hasks c, hc]; decide))

/-- An action that asks for what the store has room for is taken. -/
theorem runAction_asks (hruns : s.runs code a) (hkind : kindOfCode code = some k)
    (hclaim : claim a = s.claimAsks a.station ask) (hasks : AsksOf touch ask)
    (hroom : s.hasRoom (.station a.station) touch) : s.runAction k claim =
      { s.applyAsks (.station a.station) (s.active.station a.station).cls ask with current := s.afterAction } :=
  runAction_ok hruns hkind (hclaim.trans (claimAsks_ok hasks hroom)) rfl

end Asks

/-- What SET asks, of a target set that it has room for (R112). -/
theorem actsOn_asksLevel (s : State) (o : Owner) (cls : Cls) (a : ActionRec) : ActsOn (s.active.inTarget a)
    (fun c => GoesToLevel o cls a.level (s.active.operandTime a.profile c)) s
    { s.applyAsks o cls (s.active.asksLevel a) with current := s.afterAction } := by
  refine actsOn_applyAsks (asksOf_asksLevel s.active a) (fun c x before after hx hlist => ?_)
  rw [asksLevel_eq, Option.ite_none_right_eq_some, Option.some.injEq] at hx
  obtain ⟨-, rfl⟩ := hx
  exact createOrRenew_goes hlist

/-- What RAISE and LOWER ask (R115). -/
theorem actsOn_asksRamp (s : State) (o : Owner) (cls : Cls) (a : ActionRec) (goal : Nat) (i : InputId) :
    ActsOn (s.active.inTarget a) (fun c => RampsToward o cls goal (s.active.operandTime a.profile c) i) s
    { s.applyAsks o cls (s.active.asksRamp a goal i) with current := s.afterAction } := by
  refine actsOn_applyAsks (asksOf_asksRamp s.active a goal i) (fun c x before after hx hlist => ?_)
  rw [asksRamp_eq, Option.ite_none_right_eq_some, Option.some.injEq] at hx
  obtain ⟨-, rfl⟩ := hx
  exact createOrRenew_ramps hlist

/-- Settles O24: what the map's cells name, and the asks of SET on the target set. -/
theorem setSendsTheOwnersContributionToTheLevel : Obligations.SetSendsTheOwnersContributionToTheLevel := by
  refine ⟨fun b a c => ⟨inTarget_circuit, inTarget_group, fun h => ?zone, inTarget_none, fun p hp => if_pos hp,
    operandTime_default, fun n => ⟨fun k => sceneLevel_of_first, sceneLevel_of_unnamed⟩⟩,
    fun s a hruns hroom => ?set⟩
  case zone => rw [inTarget_zone h, circuit_zone]
  case set =>
    have hrun := runAction_asks (claim := s.claimSet) hruns rfl rfl (asksOf_asksLevel s.active a.action) hroom
    exact ⟨_, congrArg Host.Outcome.next hrun, actsOn_asksLevel s _ _ a.action⟩

/-! ### TOGGLE (R113, R114) -/

section Toggle
variable {s : State} {a : RunningAction}

/-- A contribution of the class is STEADY, FADING or RAMP on some target circuit. -/
theorem presentFor_iff {l : List Contribution} {k : Cls} :
    l.any (presentFor k) = true ↔ ∃ x ∈ l, x.cls = k ∧ x.isLeaving = false := by
  simp only [List.any_eq_true, presentFor, Bool.and_eq_true, decide_eq_true_eq, Bool.not_eq_true']

/-- With its class present on the target set a TOGGLE makes it leave there. -/
theorem claimToggle_present (h : ∃ c, s.active.inTarget a.action c = true ∧ ∃ x ∈ (s.circuit c).list,
      x.cls = (s.active.station a.station).cls ∧ x.isLeaving = false) :
    s.claimToggle a = .ok (s.leaveWith (s.active.inTarget a.action)
      (fun x => decide (x.cls = (s.active.station a.station).cls)) a.action.profile) := by
  obtain ⟨c, hc, hpresent⟩ := h
  refine if_pos (List.any_eq_true.2 ⟨c, List.mem_finRange c, ?_⟩)
  rw [hc, presentFor_iff.2 hpresent]
  rfl

/-- Otherwise it asks what SET asks. -/
theorem claimToggle_absent (h : ∀ c, s.active.inTarget a.action c = true → ∀ x ∈ (s.circuit c).list,
      x.cls = (s.active.station a.station).cls → x.isLeaving = true) :
    s.claimToggle a = s.claimAsks a.station (s.active.asksLevel a.action) := by
  refine if_neg (fun hany => ?_)
  obtain ⟨c, -, hpresent⟩ := List.any_eq_true.1 hany
  obtain ⟨hc, hlist⟩ := Bool.and_eq_true_iff.1 hpresent
  obtain ⟨x, hx, hcls, hleaving⟩ := presentFor_iff.1 hlist
  rw [h c hc x hx hcls] at hleaving
  cases hleaving

end Toggle

/-- Settles O25: one judgement over the whole target set; then a leave, or the asks of SET. -/
theorem toggleJudgesItsClassOverTheWholeTarget : Obligations.ToggleJudgesItsClassOverTheWholeTarget := by
  refine fun s a hruns => ⟨fun hpresent => ?leaves, fun habsent hroom => ?sets⟩
  case leaves =>
    have hrun := runAction_ok (claim := s.claimToggle) hruns rfl (claimToggle_present hpresent) rfl
    exact ⟨_, congrArg Host.Outcome.next hrun, fun c hc hp => left_leaveWith hc hp, fun c hc => kept_leaveWith hc, rfl⟩
  case sets =>
    have hrun := runAction_asks (claim := s.claimToggle) hruns rfl (claimToggle_absent habsent)
      (asksOf_asksLevel s.active a.action) hroom
    exact ⟨_, congrArg Host.Outcome.next hrun, actsOn_asksLevel s _ _ a.action⟩

/-! ### RAISE and LOWER (R53, R115) -/

/-- Settles O26: both ask for a ramp held by the entry's input. -/
theorem raiseAndLowerStartRampsHeldByTheInput : Obligations.RaiseAndLowerStartRampsHeldByTheInput := by
  refine fun s a hroom => ⟨fun hruns => ?raise, fun hruns => ?lower⟩
  case raise =>
    have hrun := runAction_asks (claim := s.claimRamp 1000) hruns rfl rfl
      (asksOf_asksRamp s.active a.action 1000 a.input) hroom
    exact ⟨_, congrArg Host.Outcome.next hrun, actsOn_asksRamp s _ _ a.action 1000 a.input⟩
  case lower =>
    have hrun := runAction_asks (claim := s.claimRamp 0) hruns rfl rfl
      (asksOf_asksRamp s.active a.action 0 a.input) hroom
    exact ⟨_, congrArg Host.Outcome.next hrun, actsOn_asksRamp s _ _ a.action 0 a.input⟩

end Sys2Proof.Machine
end

section
/-! Executing actions (spec chapter 6), O27 to O29: RELEASE, SCENE, and the actions for which the store has no room. -/

namespace Sys2Proof.Machine

/-! ### RELEASE (R116) -/

/-- Settles O27: the claim is a leave of the owner's contributions, and is never refused. -/
theorem releaseMakesTheOwnersContributionsLeave : Obligations.ReleaseMakesTheOwnersContributionsLeave := by
  intro s a hruns own
  have hclaim : s.claimRelease a = .ok (s.leaveWith (s.active.inTarget a.action) own a.action.profile) := rfl
  have hrun := runAction_ok (claim := s.claimRelease) hruns rfl hclaim rfl
  exact ⟨_, congrArg Host.Outcome.next hrun, fun c hc hp => left_leaveWith hc hp, fun c hc => kept_leaveWith hc, rfl⟩

/-! ### SCENE (R117) -/

theorem asksScene_eq (b : Bank) (a : ActionRec) (c : CircuitId) : b.asksScene a c =
    (b.sceneLevel a.param c).map (fun v => askLevel v (b.operandTime a.profile c)) := rfl

theorem asksOf_asksScene (s : State) (a : ActionRec) : AsksOf (s.inScene a) (s.active.asksScene a) :=
  fun _ => Option.isSome_map

/-- What the claim of SCENE does behind its asks: with the exclusive flag the owner's contributions on the circuits that
no item names leave. -/
def State.othersLeave (s : State) (a : RunningAction) (u : State) : State :=
  if a.action.exclusive then
    u.leaveWith (fun c => (s.active.asksScene a.action c).isNone) (fun x => decide (x.owner = .station a.station))
      a.action.profile
  else u

theorem claimScene_ok {s u : State} {a : RunningAction}
    (h : s.claimAsks a.station (s.active.asksScene a.action) = .ok u) :
    s.claimScene a = .ok (s.othersLeave a u) := by
  unfold State.claimScene State.othersLeave
  rw [h]
  dsimp only
  split <;> rfl

theorem claimScene_refused {s : State} {a : RunningAction} {r : Reason}
    (h : s.claimAsks a.station (s.active.asksScene a.action) = .error r) : s.claimScene a = .error r := by
  unfold State.claimScene
  rw [h]

section Scene
variable {s u : State} {a : RunningAction} {c : CircuitId}

theorem isNone_asksScene : (s.active.asksScene a.action c).isNone = !s.inScene a.action c := by
  rw [asksScene_eq, Option.isNone_map, ← Option.not_isSome]
  rfl

theorem frame_othersLeave : s.othersLeave a u = { u with circuits := (s.othersLeave a u).circuits } := by
  unfold State.othersLeave
  split <;> rfl

/-- The circuits of a scene's items, and all of them without the exclusive flag, are left as they are. -/
theorem othersLeave_kept (h : s.inScene a.action c = true ∨ a.action.exclusive = false ∨
      (u.circuit c).list.any (fun x => decide (x.owner = .station a.station)) = false) :
    (s.othersLeave a u).circuit c = u.circuit c := by
  unfold State.othersLeave
  split
  · next hexclusive =>
    refine kept_leaveWith ?_
    rw [isNone_asksScene, Bool.not_eq_false']
    rw [hexclusive] at h
    simpa using h
  · rfl

theorem othersLeave_left (hscene : s.inScene a.action c = false) (hexclusive : a.action.exclusive = true)
    (hown : (u.circuit c).list.any (fun x => decide (x.owner = .station a.station)) = true) :
    LeavesWith (fun x => decide (x.owner = .station a.station)) (u.active.operandTime a.action.profile c)
      (u.circuit c).list ((s.othersLeave a u).circuit c).list ∧
    ((s.othersLeave a u).circuit c).slot = (u.circuit c).slot ∧
    Recomputed u.active u.mode c (u.circuit c) ((s.othersLeave a u).circuit c) := by
  unfold State.othersLeave
  rw [if_pos hexclusive]
  exact left_leaveWith (by rw [isNone_asksScene, hscene]; rfl) hown

end Scene

/-- What SCENE asks (R117). -/
theorem actsOn_asksScene (s : State) (o : Owner) (cls : Cls) (a : ActionRec) : ActsOn (s.inScene a)
    (fun c before after => ∀ v, s.active.sceneLevel a.param c = some v →
      GoesToLevel o cls v (s.active.operandTime a.profile c) before after) s
    { s.applyAsks o cls (s.active.asksScene a) with current := s.afterAction } := by
  refine actsOn_applyAsks (asksOf_asksScene s a) (fun c x before after hx hlist v hv => ?_)
  rw [asksScene_eq, hv] at hx
  cases hx
  exact createOrRenew_goes hlist

/-- Settles O28: the asks of the items first; then, under the exclusive flag, a leave on the circuits they left alone. -/
theorem sceneSetsItsItemsAndLeavesTheOthers : Obligations.SceneSetsItsItemsAndLeavesTheOthers := by
  intro s a hruns hroom own
  let u := s.applyAsks (.station a.station) (s.active.station a.station).cls (s.active.asksScene a.action)
  obtain ⟨hitems, hothers, -⟩ :
      ActsOn (s.inScene a.action) _ s { u with current := s.afterAction } := actsOn_asksScene s _ _ a.action
  have hclaim : s.claimScene a = .ok (s.othersLeave a u) :=
    claimScene_ok (claimAsks_ok (asksOf_asksScene s a.action) hroom)
  have hframe : s.othersLeave a u = { s with circuits := (s.othersLeave a u).circuits } := frame_othersLeave
  have hcurrent : (s.othersLeave a u).current = s.current := (congrArg State.current hframe :)
  have hrun := runAction_ok (claim := s.claimScene) hruns rfl hclaim hcurrent
  refine ⟨_, congrArg Host.Outcome.next hrun, fun c v hv => ?item, fun c hscene hexclusive hown => ?left,
    fun c hscene hkept => ?kept, ?frame⟩
  case item =>
    have hscene : s.inScene a.action c = true := Option.isSome_iff_exists.2 ⟨v, hv⟩
    obtain ⟨hgoes, hslot, hrecomputed⟩ := hitems c hscene
    have hsame : (s.othersLeave a u).circuit c = u.circuit c := othersLeave_kept (.inl hscene)
    show GoesToLevel _ _ _ _ _ ((s.othersLeave a u).circuit c) ∧ ((s.othersLeave a u).circuit c).slot = _ ∧
      Recomputed _ _ _ _ ((s.othersLeave a u).circuit c)
    rw [hsame]
    exact ⟨hgoes v hv, hslot, hrecomputed⟩
  case left =>
    have hsame : u.circuit c = s.circuit c := hothers c hscene
    have hleft := othersLeave_left (u := u) hscene hexclusive (by rw [hsame]; exact hown)
    rw [hsame] at hleft
    exact hleft
  case kept =>
    have hsame : u.circuit c = s.circuit c := hothers c hscene
    refine (othersLeave_kept (.inr (hkept.imp_right fun hnone => ?_))).trans hsame
    rw [hsame]
    exact hnone
  case frame => exact congrArg (fun v : State => { v with current := s.afterAction }) hframe

/-! ### No room (R110, R111, R122, R123) -/

section NoRoom
variable {s : State} {a : RunningAction} {code : Nat} {k : ActionKind} {touch : CircuitId → Bool}
  {ask : CircuitId → Option Ask} {claim : RunningAction → Except Reason State} {i : Instr}

/-- The state that an action leaves when the store has no room for it. -/
def State.refusedResource (s : State) (a : RunningAction) (r : Reason) : State :=
  { s with current := s.afterAction, causes := Cause.resource.mark s.causes,
           counters := s.counters.bump .refusedActions, lastRefusal := a.refusal r }

/-- An action that is refused when its asks are: by the free pool first, then by a full list. -/
theorem exec_noRoom (hexec : exec i s = .next (s.runAction k claim)) (hruns : s.runs code a)
    (hkind : kindOfCode code = some k)
    (hclaim : ∀ r, s.claimAsks a.station ask = .error r → claim a = .error r) (hasks : AsksOf touch ask) :
    (s.poolFree < s.newRecords (.station a.station) touch →
      exec i s = .next (s.refusedResource a .poolExhausted)) ∧
    (s.newRecords (.station a.station) touch ≤ s.poolFree →
      (∃ c, touch c = true ∧ holds (s.circuit c).list (.station a.station) = false ∧
        8 ≤ (s.circuit c).list.length) →
      exec i s = .next (s.refusedResource a .circuitFull)) :=
  ⟨fun hpool => hexec.trans (congrArg Host.Outcome.next
      (runAction_refused hruns hkind (hclaim _ (claimAsks_poolExhausted hasks hpool)))),
    fun hpool hfull => hexec.trans (congrArg Host.Outcome.next
      (runAction_refused hruns hkind (hclaim _ (claimAsks_circuitFull hasks hpool hfull))))⟩

end NoRoom

/-- Settles O29: each of the five kinds is refused as its asks are. -/
theorem actionWithoutRoomIsRefusedWhole : Obligations.ActionWithoutRoomIsRefusedWhole := by
  refine fun s a => ⟨fun hruns => ?set, fun hruns habsent => ?toggle, fun hruns => ?raise, fun hruns => ?lower,
    fun hruns => ?scene⟩
  case set => exact exec_noRoom (claim := s.claimSet) rfl hruns rfl (fun _ => id) (asksOf_asksLevel s.active a.action)
  case toggle =>
    exact exec_noRoom (claim := s.claimToggle) rfl hruns rfl (fun _ => (claimToggle_absent habsent).trans)
      (asksOf_asksLevel s.active a.action)
  case raise =>
    exact exec_noRoom (claim := s.claimRamp 1000) rfl hruns rfl (fun _ => id)
      (asksOf_asksRamp s.active a.action 1000 a.input)
  case lower =>
    exact exec_noRoom (claim := s.claimRamp 0) rfl hruns rfl (fun _ => id)
      (asksOf_asksRamp s.active a.action 0 a.input)
  case scene =>
    exact exec_noRoom (claim := s.claimScene) rfl hruns rfl (fun _ => claimScene_refused)
      (asksOf_asksScene s a.action)

end Sys2Proof.Machine
end

section
/-! Executing actions (spec chapter 6), O22: an input event that has passed its tests ends the ramps its input holds, and
begins its sequence. -/

namespace Sys2Proof.Machine

/-! ### The end of held ramps (R105, R106) -/

/-- The kinds that end a hold end the ramps that the input holds for its station; the other kinds change no circuit. -/
def HeldRampsEnd (n : StationId) (i : InputId) (k : EventKind) (s t : State) : Prop :=
  (k = .release ∨ k = .longEnd ∨ k = .off →
    RampsEndedOn (fun x => decide (x.owner = .station n) && x.heldBy i) s t) ∧
  (k = .press ∨ k = .tap ∨ k = .on ∨ k = .long → t.circuits = s.circuits)

theorem heldRampsEnd_endHeldRamps (s : State) (n : StationId) (i : InputId) (k : EventKind) :
    HeldRampsEnd n i k s (s.endHeldRamps n i k) := by
  refine ⟨fun hends => ?_, fun hstands => ?_⟩
  · rcases hends with rfl | rfl | rfl <;> exact rampsEndedOn_endRamps s _
  · rcases hstands with rfl | rfl | rfl | rfl <;> rfl

theorem HeldRampsEnd.congr_right {n : StationId} {i : InputId} {k : EventKind} {s u t : State}
    (h : HeldRampsEnd n i k s u) (hcircuits : t.circuits = u.circuits) : HeldRampsEnd n i k s t :=
  ⟨fun hends => (h.1 hends).congr_right hcircuits, fun hstands => hcircuits.trans (h.2 hstands)⟩

section EndHeldRamps
variable (s : State) (n : StationId) (i : InputId) (k : EventKind)

theorem frame_endHeldRamps : s.endHeldRamps n i k = { s with circuits := (s.endHeldRamps n i k).circuits } := by
  unfold State.endHeldRamps
  split <;> rfl

@[simp] theorem active_endHeldRamps : (s.endHeldRamps n i k).active = s.active :=
  changes_endHeldRamps s n i k .active (by decide)

@[simp] theorem station_endHeldRamps (m : StationId) : (s.endHeldRamps n i k).station m = s.station m :=
  station_of_stations (changes_endHeldRamps s n i k .stations (by decide)) m

end EndHeldRamps

/-! ### The acted state and the sequence (R11, R105, R107) -/

theorem actedAfter_getD (k : EventKind) (old : Bool) :
    k.actedAfter.getD old = if k = .on then true else if k = .off then false else old := by
  cases k <;> rfl

section Begin
variable (s : State) (n : StationId) (i : InputId) (k : EventKind) (tags : TagSet)

theorem station_beginSequence_ne {m : StationId} (h : m ≠ n) :
    (s.beginSequence n i k tags).station m = s.station m := by
  unfold State.beginSequence
  split
  · next v _ => exact State.station_modStation_ne s (fun st => st.setActed i v) (Ne.symm h)
  · rfl

/-- The record of the entry's station: the acted state of its input is set, or stands. -/
theorem station_beginSequence : (s.beginSequence n i k tags).station n =
    match k.actedAfter with
    | some v => (s.station n).setActed i v
    | none => s.station n := by
  unfold State.beginSequence
  cases k.actedAfter with
  | some v => exact State.station_modStation_self s n (fun st => st.setActed i v)
  | none => rfl

theorem input_beginSequence : ((s.beginSequence n i k tags).station n).inputs.get i =
    { (s.station n).inputs.get i with acted := k.actedAfter.getD ((s.station n).inputs.get i).acted } := by
  rw [station_beginSequence]
  cases k.actedAfter with
  | some v => exact Table.get_set_self _ i _
  | none => rfl

theorem input_beginSequence_ne {j : InputId} (h : j ≠ i) :
    ((s.beginSequence n i k tags).station n).inputs.get j = (s.station n).inputs.get j := by
  rw [station_beginSequence]
  cases k.actedAfter with
  | some v => exact Table.get_set_ne _ _ (Ne.symm h)
  | none => rfl

theorem record_beginSequence : (s.beginSequence n i k tags).station n =
    { s.station n with inputs := ((s.beginSequence n i k tags).station n).inputs } := by
  rw [station_beginSequence]
  cases k.actedAfter <;> rfl

theorem frame_beginSequence : s.beginSequence n i k tags = { s with
    stations := (s.beginSequence n i k tags).stations
    current := (s.beginSequence n i k tags).current } := by
  unfold State.beginSequence
  cases k.actedAfter <;> rfl

end Begin

section Sequence
variable {b : Bank} {n : StationId} {i : InputId} {k : EventKind} {tags : TagSet}

/-- An input that is UNUSED or out of use, and an empty sequence, run no action (R11). -/
theorem sequenceInFlight_none (h : (b.binding n i).trigger = .unused ∨ (b.station n).inputsUsed ≤ i.val ∨
      ((b.binding n i).sequence k).count = 0) : sequenceInFlight b n i k tags = none :=
  if_pos (by simpa [or_assoc] using h)

theorem sequenceInFlight_some (htrigger : (b.binding n i).trigger ≠ .unused) (hused : i.val < (b.station n).inputsUsed)
    (hcount : ((b.binding n i).sequence k).count ≠ 0) : sequenceInFlight b n i k tags =
      some ⟨.input n i k tags, .running ((b.binding n i).sequence k).start ((b.binding n i).sequence k).count⟩ :=
  if_neg (by simpa [htrigger, hcount] using hused)

end Sequence

/-- The acted state of the input is as its event leaves it, and the sequence of the event's kind is begun, or none; the
rest of the stations stands. -/
def SequenceBegins (n : StationId) (i : InputId) (k : EventKind) (tags : TagSet) (u t : State) : Prop :=
  let b := u.active.binding n i
  (t.station n).inputs.get i = { (u.station n).inputs.get i with
    acted := if k = .on then true else if k = .off then false else ((u.station n).inputs.get i).acted } ∧
  (∀ j, j ≠ i → (t.station n).inputs.get j = (u.station n).inputs.get j) ∧
  t.station n = { u.station n with inputs := (t.station n).inputs } ∧
  (∀ m, m ≠ n → t.station m = u.station m) ∧
  (b.trigger = .unused ∨ (u.active.station n).inputsUsed ≤ i.val ∨ (b.sequence k).count = 0 → t.current = none) ∧
  (b.trigger ≠ .unused → i.val < (u.active.station n).inputsUsed → (b.sequence k).count ≠ 0 →
    t.current = some ⟨.input n i k tags, .running (b.sequence k).start (b.sequence k).count⟩)

theorem sequenceBegins_beginSequence (s : State) (n : StationId) (i : InputId) (k : EventKind) (tags : TagSet) :
    SequenceBegins n i k tags s (s.beginSequence n i k tags) := by
  refine ⟨?_, fun j => input_beginSequence_ne s n i k tags, record_beginSequence s n i k tags,
    fun m => station_beginSequence_ne s n i k tags, sequenceInFlight_none, sequenceInFlight_some⟩
  rw [input_beginSequence, actedAfter_getD]

/-- After the end of held ramps, which leaves the stations and the active map, the begin is as from the state before. -/
theorem sequenceBegins_begin (u : State) (n : StationId) (i : InputId) (k : EventKind) (tags : TagSet) :
    SequenceBegins n i k tags u ((u.endHeldRamps n i k).beginSequence n i k tags) := by
  have h := sequenceBegins_beginSequence (u.endHeldRamps n i k) n i k tags
  unfold SequenceBegins at h ⊢
  simpa only [station_endHeldRamps, active_endHeldRamps] using h

/-! ### The row taken whole (R100 to R102, R105) -/

/-- A station stays out of quarantine where the head's tags record nothing, or no second fault (R75). -/
theorem HeadTaken.trusted {e : Entry} {rest : List Entry} {s u : State} (h : HeadTaken e rest s u)
    (hsuspect : (s.station e.station).suspect = false)
    (htags : e.tagged.size = 0 ∨ ((s.station e.station).faults.union e.tagged).size < 2) :
    (u.station e.station).suspect = false := by
  rw [h.records.suspect, h.records.faults, hsuspect]
  rcases htags with hnone | hfew
  · simp [hnone]
  · simp [Nat.not_le.2 hfew]

theorem HeadTaken.nightFor {e : Entry} {rest : List Entry} {s u : State} (h : HeadTaken e rest s u) :
    u.nightFor e ↔ s.nightFor e := by
  rw [h.frame]
  rfl

theorem HeadTaken.active {e : Entry} {rest : List Entry} {s u : State} (h : HeadTaken e rest s u) :
    u.active = s.active := by
  rw [h.frame]

/-- An input event that its tests let pass, from the record of its tags to the begin of its sequence. -/
theorem takeClaims_input (u : State) {n : StationId} {i : InputId} {k : EventKind} {tags : TagSet}
    (hsuspect : (u.station n).suspect = false) (henabled : (u.active.station n).enabled = true)
    (hnight : ¬ u.nightFor (.input n i k tags)) : (u.holdAt (.input n i k tags) .recorded).takeClaims 4 =
      (u.endHeldRamps n i k).beginSequence n i k tags := by
  have htrusted := takeClaims_trusted (e := .input n i k tags) u 3 hsuspect
  have hpassed := takeClaims_passed (e := .input n i k tags) u 2 henabled hnight
  exact htrusted.trans (hpassed.trans (takeClaims_begin u n i k tags))

/-- Settles O22: the two claims one by one, and the row taken whole, which is the take of the head and then these. -/
theorem takeEntryBeginsTheSequenceOfItsKind : Obligations.TakeEntryBeginsTheSequenceOfItsKind := by
  refine fun s n i k tags => ⟨fun hstage => ?ends, fun hstage => ?begins,
    fun rest hidle hswap hevents hsuspect htags henabled hserved => ?whole⟩
  case ends =>
    have hclaim : s.takeClaim = (s.endHeldRamps n i k).holdAt (.input n i k tags) .rampsEnded := takeClaim_held hstage
    refine ⟨_, (exec_takeEntry_one s).trans (congrArg Host.Outcome.next hclaim),
      (heldRampsEnd_endHeldRamps s n i k).congr_right rfl, ?_⟩
    exact congrArg (fun u : State => u.holdAt (.input n i k tags) .rampsEnded) (frame_endHeldRamps s n i k)
  case begins =>
    have hclaim : s.takeClaim = s.beginSequence n i k tags := takeClaim_held hstage
    exact ⟨_, (exec_takeEntry_one s).trans (congrArg Host.Outcome.next hclaim),
      sequenceBegins_beginSequence s n i k tags, frame_beginSequence s n i k tags⟩
  case whole =>
    have hout : HeadTaken (.input n i k tags) rest s (s.headOut (.input n i k tags) rest) := headTaken_headOut ..
    have htake := takeClaims_idle hidle hswap hevents 4
    generalize s.headOut (.input n i k tags) rest = u at hout htake
    have hnight : ¬ u.nightFor (.input n i k tags) := fun h => by
      obtain ⟨hmode, hoff⟩ := hout.nightFor.1 h
      cases hoff.symm.trans (hserved hmode)
    rw [takeClaims_input (n := n) u (hout.trusted hsuspect htags) (by rw [hout.active]; exact henabled) hnight] at htake
    refine ⟨u, _, congrArg Host.Outcome.next htake, hout, (heldRampsEnd_endHeldRamps u n i k).congr_right ?_,
      sequenceBegins_begin u n i k tags, frame_begin u n i k tags⟩
    exact changes_beginSequence _ n i k tags .circuits (by decide)

end Sys2Proof.Machine
end

section
/-! Executing actions (spec chapter 6), O23: the two claims of a LOST marker, and the RETURNED marker. -/

namespace Sys2Proof.Machine

/-! ### Claims on lists, where stored levels are current (R44) -/

theorem LevelCurrent.recomputed {b : Bank} {mode : HouseMode} {c : CircuitId} {cs : CircuitState}
    (h : LevelCurrent b mode c cs) : Recomputed b mode c cs cs :=
  ⟨h, fun _ => ⟨rfl, rfl⟩, fun hne => absurd rfl hne⟩

/-- Where stored levels are current, a claim leaves the circuits that it does not touch as a recompute does. -/
theorem ListsClaimed.recomputed {touch : CircuitId → List Contribution → Bool}
    {claim : CircuitId → List Contribution → List Contribution → Prop} {s t : State} (h : ListsClaimed touch claim s t)
    (hs : LevelsCurrent s) (c : CircuitId) : Recomputed s.active s.mode c (s.circuit c) (t.circuit c) := by
  cases htouch : touch c (s.circuit c).list with
  | true => exact ((h c).1 htouch).2.2
  | false =>
    rw [(h c).2 htouch]
    exact LevelCurrent.recomputed (hs c)

theorem listsClaimed_leaveByDefault (s : State) (p : Contribution → Bool) :
    ListsClaimed (fun _ l => l.any p) (fun c => LeavesWith p (s.active.defaultTime c)) s (s.leaveByDefault p) := by
  refine fun c => ⟨fun htouch => ?_, fun htouch => ?_⟩
  · obtain ⟨hlist, hslot, hrecomputed⟩ := touched_updateLists (s := s) (touch := fun _ cs => cs.list.any p)
      (f := fun c cs => leaveWhere p (s.active.defaultTime c) cs.list) htouch
    refine ⟨?_, hslot, hrecomputed⟩
    unfold State.leaveByDefault
    rw [hlist]
    exact leavesWith_leaveWhere p _ _
  · exact untouched_updateLists (touch := fun _ cs => cs.list.any p) htouch

/-! ### The end of ramps moves no level (R32) -/

theorem endRamp_current (x : Contribution) : x.endRamp.current = x.current := by
  unfold Contribution.endRamp
  split <;> rfl

theorem levelForLevel_endRampsWhere (p : Contribution → Bool) (l : List Contribution) :
    LevelForLevel (endRampsWhere p l) l := by
  refine List.forall₂_map_left_iff.2 (List.forall₂_same.2 (fun x _ => ?_))
  split
  · exact ⟨endRamp_cls x, endRamp_current x⟩
  · exact ⟨rfl, rfl⟩

theorem effectiveLevel_endRampsWhere (b : Bank) (mode : HouseMode) (c : CircuitId) (p : Contribution → Bool)
    (cs : CircuitState) :
    effectiveLevel b mode c { cs with list := endRampsWhere p cs.list } = effectiveLevel b mode c cs :=
  effectiveLevel_of_levels (x := cs) (y := { cs with list := endRampsWhere p cs.list })
    (levelForLevel_endRampsWhere p cs.list) rfl

/-- Where stored levels are current, the end of ramps changes a circuit's list alone. -/
theorem circuit_endRamps_of_current {s : State} (h : LevelsCurrent s) (p : Contribution → Bool) (c : CircuitId) :
    (s.endRamps p).circuit c = { s.circuit c with list := endRampsWhere p (s.circuit c).list } := by
  cases htouch : (s.circuit c).list.any (fun x => p x && x.ramping) with
  | true =>
    have hlevel := (effectiveLevel_endRampsWhere s.active s.mode c p (s.circuit c)).trans (h c).symm
    unfold State.endRamps
    rw [circuit_updateLists, if_pos htouch, recompute_same hlevel]
  | false => rw [(rampsEndedOn_endRamps s p c).2 htouch, endRampsWhere_idle htouch]

theorem levelsCurrent_endRamps {s : State} (h : LevelsCurrent s) (p : Contribution → Bool) :
    LevelsCurrent (s.endRamps p) := by
  intro c
  rw [circuit_endRamps_of_current h]
  exact (h c).trans (effectiveLevel_endRampsWhere s.active s.mode c p (s.circuit c)).symm

/-! ### The loss policy (R103) -/

section Lost
variable {s : State} {n : StationId}

theorem exec_lostMarker_one (s : State) : exec (.lostMarker 1) s = .next s.lostClaim := rfl

/-- Two claims of one presentation are one, and then another. -/
theorem exec_lostMarker_two (s : State) : exec (.lostMarker 2) s = exec (.lostMarker 1) s.lostClaim := rfl

theorem lostPolicy_hold (h : (s.active.station n).releaseOnLoss = false) :
    s.lostPolicy n = { s with current := none, causes := Cause.loss.mark s.causes } := by
  unfold State.lostPolicy
  rw [h]
  rfl

/-- What policy RELEASE does: the station's contributions leave, and its acted states become OFF. -/
def State.lostRelease (s : State) (n : StationId) : State :=
  (s.leaveByDefault (fun x => decide (x.owner = .station n))).clearActedMaintained n

theorem lostPolicy_release (h : (s.active.station n).releaseOnLoss = true) :
    s.lostPolicy n = { s.lostRelease n with current := none, causes := Cause.loss.mark s.causes } := by
  unfold State.lostPolicy
  rw [h]
  rfl

theorem listsClaimed_lostRelease (s : State) (n : StationId) :
    ListsClaimed (fun _ l => l.any (fun x => decide (x.owner = .station n)))
      (fun c => LeavesWith (fun x => decide (x.owner = .station n)) (s.active.defaultTime c)) s (s.lostRelease n) :=
  listsClaimed_leaveByDefault s _

theorem station_lostRelease (s : State) (n : StationId) : (s.lostRelease n).station n = { s.station n with
    inputs := (s.station n).inputs.mapIdx (fun i x =>
      if (s.active.binding n i).maintained then { x with acted := false } else x) } :=
  State.station_modStation_self (s.leaveByDefault (fun x => decide (x.owner = .station n))) n _

theorem record_lostRelease (s : State) (n : StationId) : (s.lostRelease n).station n =
    { s.station n with inputs := ((s.lostRelease n).station n).inputs } := by
  rw [station_lostRelease]

theorem station_lostRelease_ne {m : StationId} (h : m ≠ n) : (s.lostRelease n).station m = s.station m :=
  State.station_modStation_ne (s.leaveByDefault (fun x => decide (x.owner = .station n))) _ (Ne.symm h)

/-- Of a station's inputs the MAINTAINED ones become OFF. -/
theorem input_lostRelease (s : State) (n : StationId) (i : InputId) : ((s.lostRelease n).station n).inputs.get i =
    if (s.active.binding n i).trigger = .maintained then { (s.station n).inputs.get i with acted := false }
    else (s.station n).inputs.get i := by
  rw [station_lostRelease, Table.get_mapIdx, BindingRec.maintained]
  simp only [decide_eq_true_eq]

/-- Where stored levels are current, the rest of a LOST marker leaves every circuit as a recompute does. -/
theorem recomputed_lostPolicy (h : LevelsCurrent s) (n : StationId) (c : CircuitId) :
    Recomputed s.active s.mode c (s.circuit c) ((s.lostPolicy n).circuit c) := by
  cases hrelease : (s.active.station n).releaseOnLoss with
  | false =>
    rw [lostPolicy_hold hrelease]
    exact LevelCurrent.recomputed (h c)
  | true =>
    rw [lostPolicy_release hrelease]
    exact (listsClaimed_lostRelease s n).recomputed h c

/-- The two claims in turn, where stored levels are current: the first moves none, so the second's recompute is that of
the row. -/
theorem recomputed_lostMarker (h : LevelsCurrent s) (n : StationId) (c : CircuitId) : Recomputed s.active s.mode c
    (s.circuit c) ((((s.lostRamps n).holdAt (.marker n .lost) .rampsEnded).lostPolicy n).circuit c) := by
  have hended : LevelsCurrent ((s.lostRamps n).holdAt (.marker n .lost) .rampsEnded) := levelsCurrent_endRamps h _
  have hcircuit : ((s.lostRamps n).holdAt (.marker n .lost) .rampsEnded).circuit c =
      { s.circuit c with list := endRampsWhere (fun x => x.ownedBy (.station n)) (s.circuit c).list } :=
    circuit_endRamps_of_current h _ c
  obtain ⟨hlevel, howed⟩ := recomputed_lostPolicy hended n c
  rw [hcircuit] at howed
  exact ⟨hlevel, howed⟩

end Lost

/-- Settles O23: the claims of a LOST marker by its stage, the row as the two in turn, and the RETURNED marker. -/
theorem markersApplyTheLossPolicy : Obligations.MarkersApplyTheLossPolicy := by
  refine ⟨fun s n => ⟨fun hstage => ⟨?ends, fun hcurrent => ?whole⟩,
    fun hstage => ⟨fun hhold => ?hold, fun hrelease => ?release⟩⟩, fun s n hstage => ?returned⟩
  case ends =>
    refine ⟨(s.lostRamps n).holdAt (.marker n .lost) .rampsEnded, ?_,
      (rampsEndedOn_endRamps s _).congr_right rfl, rfl, ?_⟩
    · rw [exec_lostMarker_one, lostClaim_passed hstage]
    · rw [exec_lostMarker_two, lostClaim_passed hstage]
  case whole =>
    refine ⟨_, ?_, recomputed_lostMarker hcurrent n⟩
    rw [exec_lostMarker_two, lostClaim_passed hstage, exec_lostMarker_one, lostClaim_rampsEnded rfl]
  case hold => rw [exec_lostMarker_one, lostClaim_rampsEnded hstage, lostPolicy_hold hhold]
  case release =>
    refine ⟨{ s.lostRelease n with current := none, causes := Cause.loss.mark s.causes }, ?_,
      listsClaimed_lostRelease s n, input_lostRelease s n, record_lostRelease s n, fun m => station_lostRelease_ne,
      rfl⟩
    rw [exec_lostMarker_one, lostClaim_rampsEnded hstage, lostPolicy_release hrelease]
  case returned =>
    show execReturnedMarker s = _
    unfold execReturnedMarker
    rw [hstage]
    rfl

end Sys2Proof.Machine
end

section
/-! Executing actions (spec chapter 6), O31: entry into NIGHT and entry into OPEN, by the command SET_MODE and by the
action MODE. -/

namespace Sys2Proof.Machine

/-! ### A change of mode, requested (R127, R128) -/

theorem modeOfCode_code (m : HouseMode) : modeOfCode m.code = some m := by
  cases m <;> rfl

theorem requestMode_changes {s : State} {m : HouseMode} (h : legalTransition s.mode m = true) :
    s.requestMode m = .ok (s.changeMode m) := by
  have hne : m ≠ s.mode := fun e => by
    rw [← e] at h
    cases m <;> cases h
  unfold State.requestMode
  rw [if_neg hne, if_pos h]

/-- The command for a legal transition makes it, and is DONE. -/
theorem exec_setMode_changes {s : State} {m : HouseMode} (htakes : s.takesCommand)
    (hparameter : s.parameter.toNat = m.code) (h : legalTransition s.mode m = true) :
    exec .setMode s = .next ((({ s with command := 3 } : State).changeMode m).commandDone 0) := by
  let u : State := { s with command := 3 }
  have hrequest : u.requestMode m = .ok (u.changeMode m) := requestMode_changes h
  have hcode : modeOfCode u.parameter.toNat = some m := by
    rw [← modeOfCode_code m]
    exact congrArg modeOfCode hparameter
  refine congrArg Host.Outcome.next ((offerCommand_taken htakes 3 _).trans ?_)
  change (match modeOfCode u.parameter.toNat with
    | some m => u.settleCommand (u.requestMode m)
    | none => u.badParameter) = (u.changeMode m).commandDone 0
  rw [hcode]
  dsimp only
  rw [hrequest]
  rfl

/-- The action for a legal transition makes it, and the sequence goes on. -/
theorem exec_mode_changes {s : State} {a : RunningAction} {m : HouseMode} (hruns : s.runs 6 a)
    (hparam : a.action.param = m.code) (h : legalTransition s.mode m = true) :
    exec .mode s = .next { s.changeMode m with current := s.afterAction } := by
  have hclaim : s.claimMode a = .ok (s.changeMode m) := by
    unfold State.claimMode
    rw [hparam, modeOfCode_code]
    exact requestMode_changes h
  exact congrArg Host.Outcome.next
    (runAction_ok (claim := s.claimMode) hruns rfl hclaim (changes_changeMode s m .current (by decide)))

theorem allRecomputed_recomputeAll (s : State) : AllRecomputed s.active s.mode s s.recomputeAll := by
  intro c
  rw [circuit_recomputeAll]
  exact ⟨recompute_list .., recompute_slot .., recomputed_recompute rfl rfl rfl⟩

theorem AllRecomputed.congr_left {b : Bank} {mode : HouseMode} {s u t : State} (h : AllRecomputed b mode u t)
    (hcircuit : ∀ c, u.circuit c = s.circuit c) : AllRecomputed b mode s t := fun c => hcircuit c ▸ h c

/-! ### Entry into NIGHT (R129) -/

/-- The contribution's owner is no night-flagged station. -/
def unflagged (b : Bank) (x : Contribution) : Bool :=
  match x.owner with
  | .station n => !(b.station n).night
  | .desk _ => true

theorem unflagged_eq (b : Bank) : unflagged b = fun x => !nightServed b x.owner := by
  funext x
  unfold unflagged nightServed
  cases x.owner <;> rfl

/-- The claim of entry into NIGHT: every ramp ends, and then what is not flagged leaves (R31, R32). -/
theorem listsClaimed_nightClaim (s : State) :
    ListsClaimed (fun _ l => l.any (fun x => x.ramping || unflagged s.active x))
      (fun c before after => ∃ ended, RampsEnded (fun _ => true) before ended ∧
        LeavesWith (unflagged s.active) (s.active.defaultTime c) ended after) s s.nightClaim := by
  rw [unflagged_eq]
  refine fun c => ⟨fun htouch => ?_, fun htouch => ?_⟩
  · obtain ⟨hlist, hslot, hrecomputed⟩ := touched_updateLists (s := s)
      (touch := fun _ cs => cs.list.any (fun x => x.ramping || !nightServed s.active x.owner))
      (f := fun c cs => leaveWhere (fun x => !nightServed s.active x.owner) (s.active.defaultTime c)
        (endRampsWhere (fun _ => true) cs.list)) htouch
    refine ⟨⟨_, rampsEnded_endRampsWhere _ _, ?_⟩, hslot, hrecomputed⟩
    unfold State.nightClaim
    rw [hlist]
    exact leavesWith_leaveWhere _ _ _
  · exact untouched_updateLists
      (touch := fun _ cs => cs.list.any (fun x => x.ramping || !nightServed s.active x.owner)) htouch

/-- Entry into NIGHT leaves the claim's circuits recomputed in NIGHT (R128). -/
theorem allRecomputed_changeMode_night (s : State) :
    AllRecomputed s.active .night s.nightClaim (s.changeMode .night) :=
  allRecomputed_recomputeAll { s.nightClaim with hold := false, amend := none, mode := .night }

theorem changeMode_night (s : State) : s.changeMode .night =
    ({ s.nightClaim with hold := false, amend := none, mode := .night } : State).recomputeAll.raiseCause .mode := rfl

theorem frame_changeMode_night (s : State) : s.changeMode .night = { s with
    mode := .night
    hold := false
    amend := none
    circuits := (s.changeMode .night).circuits
    causes := Cause.mode.mark s.causes } := by
  have hclaim : s.nightClaim = { s with circuits := s.nightClaim.circuits } := frame_updateLists s _ _
  rw [changeMode_night]
  generalize s.nightClaim = u at hclaim
  exact congrArg (fun v : State => { v with
    mode := .night
    hold := false
    amend := none
    circuits := ({ u with hold := false, amend := none, mode := .night } : State).recomputeAll.circuits
    causes := Cause.mode.mark v.causes }) hclaim

/-! ### Entry into OPEN (R130) -/

/-- Entry into OPEN from another mode than NIGHT offers nothing. -/
theorem changeMode_open_day {s : State} (h : s.mode ≠ .night) : s.changeMode .open_ =
    ({ s with hold := false, amend := none, mode := .open_ } : State).recomputeAll.raiseCause .mode := by
  show ({ s.enterOpen with mode := .open_ } : State).recomputeAll.raiseCause .mode = _
  unfold State.enterOpen
  rw [if_neg h]

/-- Entry into OPEN from NIGHT has cleared the hold, shut the window and offered the re-assertion of every station. -/
def State.reasserted (s : State) : State :=
  ({ s with hold := false, amend := none } : State).offerInputs s.openingOffer

theorem changeMode_open_night {s : State} (h : s.mode = .night) : s.changeMode .open_ =
    ({ s.reasserted with mode := .open_ } : State).recomputeAll.raiseCause .mode := by
  show ({ s.enterOpen with mode := .open_ } : State).recomputeAll.raiseCause .mode = _
  unfold State.enterOpen
  rw [if_pos h]
  rfl

/-! ### The events offered (R78, R87, R130) -/

/-- The events that entry into OPEN offers for one station. -/
def State.openingEvents (s : State) (n : StationId) : List Entry := if s.mayReassert n then s.reassertion n else []

theorem openingOffer_eq (s : State) : s.openingOffer = allStations.flatMap s.openingEvents := rfl

theorem mem_openingEvents {s : State} {n : StationId} {e : Entry} : e ∈ s.openingEvents n ↔
    ∃ i : InputId, (s.active.station n).enabled = true ∧ (s.station n).lost = false ∧
      (s.station n).baselineRequired = false ∧ (s.station n).suspect = false ∧
      i.val < (s.active.station n).inputsUsed ∧ (s.active.binding n i).trigger = .maintained ∧
      ((s.station n).inputs.get i).closed ≠ ((s.station n).inputs.get i).acted ∧
      e = .input n i (if ((s.station n).inputs.get i).closed then .on else .off) ⟨false, false, false⟩ := by
  have hmade : e ∈ s.openingEvents n ↔ s.mayReassert n = true ∧ e ∈ s.reassertion n := by
    unfold State.openingEvents
    split <;> simp [*]
  have hmay : s.mayReassert n = true ↔ (s.active.station n).enabled = true ∧ (s.station n).lost = false ∧
      (s.station n).baselineRequired = false := by
    simp only [State.mayReassert, Bool.and_eq_true, Bool.not_eq_true', and_assoc]
  rw [hmade, hmay, State.reassertion, (reassertsAs_reassertEvents ..).2, ← exists_and_left]
  refine exists_congr fun i => ?_
  rw [and_assoc, and_assoc, and_left_comm (a := i.val < _)]
  rfl

theorem mem_openingOffer {s : State} {e : Entry} : e ∈ s.openingOffer ↔ ∃ n, e ∈ s.openingEvents n := by
  simp only [openingOffer_eq, allStations, List.mem_flatMap, List.mem_finRange, true_and]

theorem pairwise_openingEvents (s : State) (n : StationId) :
    (s.openingEvents n).Pairwise (fun e f => e.place < f.place) := by
  unfold State.openingEvents
  split
  · exact (reassertsAs_reassertEvents ..).1
  · exact .nil

/-- The stations stand in ascending order, and so do the events of each. -/
theorem pairwise_openingOffer (s : State) : s.openingOffer.Pairwise (fun e f => e.place < f.place) := by
  refine List.pairwise_flatMap.2 ⟨fun n _ => pairwise_openingEvents s n,
    (List.pairwise_lt_finRange 112).imp (fun {n m} hnm e he f hf => ?_)⟩
  obtain ⟨i, -, -, -, -, -, -, -, rfl⟩ := mem_openingEvents.1 he
  obtain ⟨j, -, -, -, -, -, -, -, rfl⟩ := mem_openingEvents.1 hf
  show 16 * n.val + i.val < 16 * m.val + j.val
  omega

theorem reassertion_openingOffer (s : State) : s.openingOffer.Pairwise (fun e f => e.place < f.place) ∧
    ∀ e, e ∈ s.openingOffer ↔ ∃ (n : StationId) (i : InputId), (s.active.station n).enabled = true ∧
      (s.station n).lost = false ∧ (s.station n).baselineRequired = false ∧ (s.station n).suspect = false ∧
      i.val < (s.active.station n).inputsUsed ∧ (s.active.binding n i).trigger = .maintained ∧
      ((s.station n).inputs.get i).closed ≠ ((s.station n).inputs.get i).acted ∧
      e = .input n i (if ((s.station n).inputs.get i).closed then .on else .off) ⟨false, false, false⟩ :=
  ⟨pairwise_openingOffer s, fun _ => mem_openingOffer.trans (exists_congr fun _ => mem_openingEvents)⟩

/-! ### What the offer of entry into OPEN leaves (R88, R94) -/

/-- The events `made` have been offered: those that fit are queued, the others are lost and counted, and where all of
them fit nothing but the recompute has touched a circuit. -/
def OfferedAtOpening (s t : State) (made : List Entry) : Prop :=
  let free := 64 - inputCount s.events
  t.events = s.events ++ made.take free ∧
  t.scanhold = (List.range (min made.length free)).foldl
    (fun h j => scanholdAfter (inputCount s.events + j + 1) h) s.scanhold ∧
  (∀ e ∈ made.drop free, (t.station e.station).faults.qloss = true) ∧
  (∀ n, (∀ e ∈ made.drop free, e.station ≠ n) → t.station n = s.station n) ∧
  t.counters = { s.counters with queueLosses := raisedBy (made.length - free) s.counters.queueLosses } ∧
  (∀ k, k ≠ .mode → k ≠ .command →
    (t.causePending k = true ↔ s.causePending k = true ∨ ((k = .queue ∨ k = .fault) ∧ free < made.length))) ∧
  t.causePending .mode = true ∧
  (made.length ≤ free → AllRecomputed s.active .open_ s t)

theorem reasserted_spec (s : State) :
    let t := s.reasserted
    let free := 64 - inputCount s.events
    t.events = s.events ++ s.openingOffer.take free ∧
    t.scanhold = (List.range (min s.openingOffer.length free)).foldl
      (fun h j => scanholdAfter (inputCount s.events + j + 1) h) s.scanhold ∧
    t.counters =
      { s.counters with queueLosses := raisedBy (s.openingOffer.length - free) s.counters.queueLosses } ∧
    (∀ c, t.causePending c = true ↔
      s.causePending c = true ∨ ((c = .queue ∨ c = .fault) ∧ free < s.openingOffer.length)) ∧
    (∀ e ∈ s.openingOffer.drop free, (t.station e.station).faults.qloss = true) ∧
    (∀ n, (∀ e ∈ s.openingOffer.drop free, e.station ≠ n) → t.station n = s.station n) ∧
    SameElsewhere { s with hold := false, amend := none } t :=
  offerInputs_spec { s with hold := false, amend := none } s.openingOffer (isInput_openingOffer s)

theorem circuit_reasserted {s : State} (hfits : s.openingOffer.length ≤ 64 - inputCount s.events) (c : CircuitId) :
    s.reasserted.circuit c = s.circuit c := by
  have hoffer : s.reasserted = _ := offerInputs_fits _ _ (isInput_openingOffer s) hfits
  rw [hoffer]
  rfl

section Opening
variable {s : State} (h : s.mode = .night)
include h

theorem causePending_changeMode_open (k : Cause) : (s.changeMode .open_).causePending k = true ↔
    (s.causePending k = true ∨
      ((k = .queue ∨ k = .fault) ∧ 64 - inputCount s.events < s.openingOffer.length)) ∨ k = .mode := by
  obtain ⟨-, -, -, hcauses, -⟩ := reasserted_spec s
  rw [changeMode_open_night h, causePending_raiseCause]
  exact or_congr_left (hcauses k)

theorem allRecomputed_changeMode_open (hfits : s.openingOffer.length ≤ 64 - inputCount s.events) :
    AllRecomputed s.active .open_ s (s.changeMode .open_) := by
  have hcircuit := circuit_reasserted hfits
  have hactive : s.reasserted.active = s.active := changes_offerInputs _ _ .active (by decide)
  rw [changeMode_open_night h]
  generalize s.reasserted = u at hactive hcircuit
  rw [← hactive]
  exact (allRecomputed_recomputeAll { u with mode := .open_ }).congr_left hcircuit

theorem offeredAtOpening_changeMode : OfferedAtOpening s (s.changeMode .open_) s.openingOffer := by
  have hcauses := causePending_changeMode_open h
  have hrecomputed := allRecomputed_changeMode_open h
  obtain ⟨hevents, hscanhold, hcounters, -, hqloss, hothers, -⟩ := reasserted_spec s
  rw [changeMode_open_night h] at hcauses hrecomputed ⊢
  generalize s.reasserted = u at *
  refine ⟨hevents, hscanhold, hqloss, hothers, hcounters, fun k hmode _ => ?_, (hcauses .mode).2 (.inr rfl),
    hrecomputed⟩
  rw [hcauses k, or_iff_left hmode]

theorem frame_changeMode_open : s.changeMode .open_ = { s with
    mode := .open_
    hold := false
    amend := none
    circuits := (s.changeMode .open_).circuits
    causes := (s.changeMode .open_).causes
    counters := (s.changeMode .open_).counters
    stations := (s.changeMode .open_).stations
    events := (s.changeMode .open_).events
    scanhold := (s.changeMode .open_).scanhold } := by
  obtain ⟨-, -, -, -, -, -, hframe⟩ := reasserted_spec s
  rw [changeMode_open_night h]
  generalize s.reasserted = u at hframe
  exact congrArg (fun v : State => { v with
    mode := .open_
    circuits := ({ u with mode := .open_ } : State).recomputeAll.circuits
    causes := Cause.mode.mark u.causes }) hframe

end Opening

theorem OfferedAtOpening.commandDone {s t : State} {made : List Entry} (h : OfferedAtOpening s t made) (d : Nat) :
    OfferedAtOpening s (t.commandDone d) made := by
  obtain ⟨hevents, hscanhold, hqloss, hothers, hcounters, hcauses, hmode, hrecomputed⟩ := h
  have hmarked : ∀ k, (t.commandDone d).causePending k = true ↔ t.causePending k = true ∨ k = .command :=
    fun k => mark_pending k .command t.causes
  refine ⟨hevents, hscanhold, hqloss, hothers, hcounters, fun k hk hcommand => ?_, (hmarked .mode).2 (.inl hmode),
    hrecomputed⟩
  rw [hmarked k, or_iff_left hcommand]
  exact hcauses k hk hcommand

/-! ### The command and the action -/

/-- OPEN may be entered from a show and from PREPARE (R127). -/
theorem legalTransition_open {m : HouseMode} (h : m = .prepare ∨ m = .performance ∨ m = .interval) :
    legalTransition m .open_ = true ∧ m ≠ .night := by
  rcases h with rfl | rfl | rfl <;> exact ⟨rfl, nofun⟩

/-- Settles O31: the command and the action make one change of mode; entry into NIGHT is its claim and a recompute, and
entry into OPEN from NIGHT an offer and a recompute. -/
theorem entryIntoNightReleasesAndEntryIntoOpenReasserts :
    Obligations.EntryIntoNightReleasesAndEntryIntoOpenReasserts := by
  refine ⟨fun s htakes hparameter hopen => ?night, fun s a hruns hparam hopen => ?actionNight,
    fun s htakes hparameter => ⟨fun hday => ?day, fun hnight => ?reasserts⟩,
    fun s a hruns hparam => ⟨fun hday => ?actionDay, fun hnight => ?actionReasserts⟩⟩
  case night =>
    let u : State := { s with command := 3 }
    have hlegal : legalTransition s.mode .night = true := by rw [hopen]; rfl
    have hframe := congrArg (fun v : State => v.commandDone 0) (frame_changeMode_night u)
    exact ⟨_, exec_setMode_changes (m := .night) htakes hparameter hlegal,
      ⟨u.nightClaim, listsClaimed_nightClaim u, allRecomputed_changeMode_night u⟩, hframe⟩
  case actionNight =>
    have hlegal : legalTransition s.mode .night = true := by rw [hopen]; rfl
    exact ⟨_, exec_mode_changes (m := .night) hruns hparam hlegal,
      ⟨s.nightClaim, listsClaimed_nightClaim s, allRecomputed_changeMode_night s⟩,
      congrArg (fun v : State => { v with current := s.afterAction }) (frame_changeMode_night s)⟩
  case day =>
    obtain ⟨hlegal, hmode⟩ := legalTransition_open hday
    have hexec := exec_setMode_changes (m := .open_) htakes hparameter hlegal
    rw [changeMode_open_day (s := { s with command := 3 }) hmode] at hexec
    exact ⟨_, hexec, allRecomputed_recomputeAll _, rfl⟩
  case actionDay =>
    obtain ⟨hlegal, hmode⟩ := legalTransition_open hday
    have hexec := exec_mode_changes (m := .open_) hruns hparam hlegal
    rw [changeMode_open_day hmode] at hexec
    exact ⟨_, hexec, allRecomputed_recomputeAll _, rfl⟩
  case reasserts =>
    let u : State := { s with command := 3 }
    have hu : u.mode = .night := hnight
    have hlegal : legalTransition s.mode .open_ = true := by rw [hnight]; rfl
    refine ⟨_, s.openingOffer, exec_setMode_changes (m := .open_) htakes hparameter hlegal,
      reassertion_openingOffer s, (offeredAtOpening_changeMode hu).commandDone 0,
      (mark_pending .command .command _).2 (.inr rfl), ?_⟩
    exact congrArg (fun v : State => v.commandDone 0) (frame_changeMode_open hu)
  case actionReasserts =>
    have hlegal : legalTransition s.mode .open_ = true := by rw [hnight]; rfl
    refine ⟨_, s.openingOffer, exec_mode_changes (m := .open_) hruns hparam hlegal,
      reassertion_openingOffer s, offeredAtOpening_changeMode hnight, ?_, ?_⟩
    · refine Bool.eq_iff_iff.2 ((causePending_changeMode_open hnight .command).trans ?_)
      simp
    · exact congrArg (fun v : State => { v with current := s.afterAction }) (frame_changeMode_open hnight)

end Sys2Proof.Machine
end

section
/-! House modes, egress and amendment (spec chapter 7), O8 and the egress part of O55: the line EGR# and the egress
state. -/

namespace Sys2Proof.Machine

/-! ### The columns of the line in the table of R132 -/

/-- What an assertion of EGR# makes of the egress state (R132); in the cells that cannot occur the state stands
(log 3). -/
def EgressState.onAssertion : EgressState → EgressState
  | .clear => .pending 0
  | .pending ms => .pending ms
  | .latchedActive => .latchedActive
  | .latchedCleared => .latchedActive

/-- What a release of EGR# makes of the egress state (R132); in LATCHED-CLEARED, where none can occur, the state stands
(log 3). -/
def EgressState.onRelease : EgressState → EgressState
  | .clear => .clear
  | .pending _ => .clear
  | .latchedActive => .latchedCleared
  | .latchedCleared => .latchedCleared

theorem exec_egrAsserted (s : State) : exec .egrAsserted s = .next { s with
    egrLine := true
    egress := s.egress.onAssertion
    causes := if s.egress = .latchedCleared then Cause.egress.mark s.causes else s.causes } := by
  show execEgrAsserted s = _
  unfold execEgrAsserted
  cases h : s.egress <;> simp [EgressState.onAssertion, State.raiseCause]

theorem exec_egrReleased (s : State) : exec .egrReleased s = .next { s with
    egrLine := false
    egress := s.egress.onRelease
    causes := if s.egress = .latchedActive then Cause.egress.mark s.causes else s.causes } := by
  show execEgrReleased s = _
  unfold execEgrReleased
  cases h : s.egress <;> simp [EgressState.onRelease, State.raiseCause]

/-- Settles O8: each clause is a cell of the two columns. -/
theorem egressLineMovesTheEgressState : Obligations.EgressLineMovesTheEgressState := by
  intro s
  rw [exec_egrAsserted, exec_egrReleased]
  refine ⟨fun h => ?_, fun h => ?_, fun h => ?_, fun ms h => ?_, fun h => ?_⟩
  all_goals
    rw [h]
    rfl

/-! ### The egress state agrees with the line (R132) -/

/-- The egress states in which the line is asserted. -/
def EgressState.asserting : EgressState → Bool
  | .clear => false
  | .pending _ => true
  | .latchedActive => true
  | .latchedCleared => false

theorem egressFollowsLine_iff {s : State} : EgressFollowsLine s ↔ s.egrLine = s.egress.asserting := by
  unfold EgressFollowsLine
  cases s.egress <;> exact Iff.rfl

theorem asserting_onAssertion (e : EgressState) : e.onAssertion.asserting = true := by
  cases e <;> rfl

theorem asserting_onRelease (e : EgressState) : e.onRelease.asserting = false := by
  cases e <;> rfl

theorem asserting_sampledEgress (line : Bool) : (sampledEgress line).asserting = line := by
  cases line <;> rfl

theorem asserting_tick (e : EgressState) : e.tick.asserting = e.asserting := by
  cases e <;> rfl

theorem EgressFollowsLine.of_changes {fs : List Field} {s t : State} (h : EgressFollowsLine s) (hc : Changes fs s t)
    (hfs : ∀ f ∈ [Field.egrLine, .egress], f ∉ fs) : EgressFollowsLine t := by
  rw [egressFollowsLine_iff] at h ⊢
  rw [hc .egrLine (hfs _ (by decide)), hc .egress (hfs _ (by decide))]
  exact h

/-- The latch is taken while the line is asserted (R133). -/
theorem egressFollowsLine_debounceExpires {s t : State} (he : execDebounceExpires s = .next t)
    (h : EgressFollowsLine s) : EgressFollowsLine t := by
  unfold execDebounceExpires at he
  split at he <;> cases he
  · next hdue =>
    obtain ⟨ms, hpending, -⟩ := debounceDue_iff.1 hdue
    rw [egressFollowsLine_iff, hpending] at h
    exact egressFollowsLine_iff.2 h
  · exact h

/-- A restore is accepted while the line is released (R134). -/
theorem egressFollowsLine_requestRestore {s t : State} (ht : s.requestRestore = .ok t) (h : EgressFollowsLine s) :
    EgressFollowsLine t := by
  unfold State.requestRestore at ht
  split at ht <;> cases ht
  next hcleared =>
    rw [egressFollowsLine_iff, hcleared] at h
    exact egressFollowsLine_iff.2 h

theorem egressFollowsLine_restoreEgress {s t : State} (he : execRestoreEgress s = .next t)
    (h : EgressFollowsLine s) : EgressFollowsLine t := by
  cases he
  refine offerCommand_induction h h (fun _ => ?_)
  unfold State.settleCommand
  split
  · next u hu => exact (egressFollowsLine_requestRestore hu h).of_changes (changes_commandDone u 0) (by decide)
  · exact h

theorem egressFollowsLine_restore {s t : State} (he : execRestore s = .next t) (h : EgressFollowsLine s) :
    EgressFollowsLine t := by
  cases he
  rcases runAction_cases s .restore (fun _ => s.requestRestore) with e | ⟨a, u, hu, e⟩ | ⟨a, r, e⟩ <;> rw [e]
  · exact h
  · exact (egressFollowsLine_requestRestore hu h).of_changes (changes_finishAction u) (by decide)
  · exact h.of_changes ((changes_refuseAction s a r).trans (changes_finishAction _)) (by decide)

/-- A RESTART samples EGR# (R141). -/
theorem egressFollowsLine_restart {s t : State} (he : execRestart s = .next t) (h : EgressFollowsLine s) :
    EgressFollowsLine t := by
  cases he
  refine offerCommand_induction h h (fun _ => ?_)
  have hsampled : EgressFollowsLine ({ s with command := 11 } : State).restarted :=
    egressFollowsLine_iff.2 (asserting_sampledEgress s.egrLine).symm
  exact hsampled.of_changes (changes_beginFrameClear _) (by decide)

theorem exec_egressFollowsLine {c : Instr} {s t : State} (he : exec c s = .next t) (h : EgressFollowsLine s) :
    EgressFollowsLine t := by
  cases c with
  | power straps =>
    cases he
    exact egressFollowsLine_iff.2 (asserting_sampledEgress s.egrLine).symm
  | egrAsserted =>
    rw [exec_egrAsserted] at he
    cases he
    exact egressFollowsLine_iff.2 (asserting_onAssertion s.egress).symm
  | egrReleased =>
    rw [exec_egrReleased] at he
    cases he
    exact egressFollowsLine_iff.2 (asserting_onRelease s.egress).symm
  | debounceExpires => exact egressFollowsLine_debounceExpires he h
  | restoreEgress => exact egressFollowsLine_restoreEgress he h
  | restore => exact egressFollowsLine_restore he h
  | restart => exact egressFollowsLine_restart he h
  | _ => exact h.of_changes (changes_of_exec he) (by simp only [touched]; decide)

theorem stepKeeps_egressFollowsLine : StepKeeps EgressFollowsLine :=
  stepKeeps_of_exec (fun _ _ _ => exec_egressFollowsLine) (fun _ _ h => h) (fun s h =>
    egressFollowsLine_iff.2 ((egressFollowsLine_iff.1 h).trans (asserting_tick s.egress).symm))

end Sys2Proof.Machine
end

section
/-! House modes, egress and amendment (spec chapter 7), O55: the amend window is shut outside a show, and no COMMIT runs
while the map is closed. -/

namespace Sys2Proof.Machine

/-! ### The amend window (R128 to R130, R137, R138, R175) -/

theorem WindowOnlyInShow.of_changes {fs : List Field} {s t : State} (h : WindowOnlyInShow s) (hc : Changes fs s t)
    (hfs : ∀ f ∈ [Field.mode, .amend], f ∉ fs) : WindowOnlyInShow t := by
  intro hmode
  rw [hc .mode (hfs _ (by decide))] at hmode
  rw [hc .amend (hfs _ (by decide))]
  exact h hmode

theorem windowOnlyInShow_of_shut {s : State} (h : s.amend = none) : WindowOnlyInShow s := fun _ => h

theorem windowOnlyInShow_of_inShow {s : State} (h : s.mode.inShow = true) : WindowOnlyInShow s := fun hmode => by
  rw [h] at hmode
  cases hmode

theorem amend_enterOpen (s : State) : s.enterOpen.amend = none := by
  unfold State.enterOpen
  dsimp only
  split
  · exact changes_offerInputs _ _ .amend (by decide)
  · rfl

theorem open_of_legal_prepare {m : HouseMode} (h : legalTransition m .prepare = true) : m = .open_ := by
  cases m with
  | open_ => rfl
  | _ => cases h

/-- PREPARE is entered from OPEN alone, and entry into OPEN or NIGHT shuts the window. -/
theorem windowOnlyInShow_changeMode {s : State} {m : HouseMode} (hlegal : legalTransition s.mode m = true)
    (h : WindowOnlyInShow s) : WindowOnlyInShow (s.changeMode m) := by
  cases m with
  | open_ => exact windowOnlyInShow_of_shut (amend_enterOpen s)
  | night => exact windowOnlyInShow_of_shut rfl
  | performance => exact windowOnlyInShow_of_inShow rfl
  | interval => exact windowOnlyInShow_of_inShow rfl
  | prepare =>
    exact windowOnlyInShow_of_shut (h (congrArg HouseMode.inShow (open_of_legal_prepare hlegal)))

theorem windowOnlyInShow_requestMode {s t : State} {m : HouseMode} (ht : s.requestMode m = .ok t)
    (h : WindowOnlyInShow s) : WindowOnlyInShow t := by
  unfold State.requestMode at ht
  split at ht
  · cases ht
    exact h
  split at ht <;> cases ht
  next hlegal => exact windowOnlyInShow_changeMode hlegal h

/-- The window opens in a show alone (R137). -/
theorem windowOnlyInShow_requestAmend {s t : State} (ht : s.requestAmend = .ok t) : WindowOnlyInShow t := by
  unfold State.requestAmend at ht
  split at ht <;> cases ht
  next hshow =>
    refine windowOnlyInShow_of_inShow ?_
    rw [Bool.or_eq_true, decide_eq_true_eq, decide_eq_true_eq] at hshow
    rcases hshow with hmode | hmode <;> exact congrArg HouseMode.inShow hmode

/-- A request that a command or an action makes: what its acceptance keeps, the command keeps. -/
theorem windowOnlyInShow_settleCommand {s : State} {r : Except Reason State} (hs : WindowOnlyInShow s)
    (hr : ∀ t, r = .ok t → WindowOnlyInShow t) : WindowOnlyInShow (s.settleCommand r) := by
  cases r with
  | ok t => exact (hr t rfl).of_changes (changes_commandDone t 0) (by decide)
  | error r => exact hs.of_changes (changes_commandRefused s r 0 0) (by decide)

theorem windowOnlyInShow_runAction {s : State} {k : ActionKind} {claim : RunningAction → Except Reason State}
    (hs : WindowOnlyInShow s) (hclaim : ∀ a t, claim a = .ok t → WindowOnlyInShow t) :
    WindowOnlyInShow (s.runAction k claim) := by
  rcases runAction_cases s k claim with e | ⟨a, t, ht, e⟩ | ⟨a, r, e⟩ <;> rw [e]
  · exact hs
  · exact (hclaim a t ht).of_changes (changes_finishAction t) (by decide)
  · exact hs.of_changes ((changes_refuseAction s a r).trans (changes_finishAction _)) (by decide)

theorem windowOnlyInShow_setMode {s t : State} (he : execSetMode s = .next t) (h : WindowOnlyInShow s) :
    WindowOnlyInShow t := by
  cases he
  refine offerCommand_induction h h (fun _ => ?_)
  dsimp only
  split
  · exact windowOnlyInShow_settleCommand h (fun _ hu => windowOnlyInShow_requestMode hu h)
  · exact h

theorem windowOnlyInShow_mode {s t : State} (he : execMode s = .next t) (h : WindowOnlyInShow s) :
    WindowOnlyInShow t := by
  cases he
  refine windowOnlyInShow_runAction h (fun a u hu => ?_)
  unfold State.claimMode at hu
  split at hu
  · exact windowOnlyInShow_requestMode hu h
  · cases hu

/-- Effect 2 of a swap shuts the window, and nothing after it opens one. -/
theorem amend_swapBanks (s : State) (gaps : List (List Interlude)) : (s.swapBanks gaps).amend = none := by
  refine runEffects_establishes (P := fun u => u.amend = none) [State.exchangeBanks] (fun _ => rfl) ?_
    (fun u i hu => Eq.trans (changes_interlude u i .amend (by decide)) hu) gaps s
  intro effect hmem u hu
  simp only [List.mem_cons, List.not_mem_nil, or_false] at hmem
  rcases hmem with rfl | rfl | rfl | rfl | rfl | rfl <;> exact hu

theorem windowOnlyInShow_mapSwap {gaps : List (List Interlude)} {s t : State} (he : execMapSwap s gaps = .next t)
    (h : WindowOnlyInShow s) : WindowOnlyInShow t := by
  unfold execMapSwap at he
  split at he <;> cases he
  · split
    · exact h
    · exact windowOnlyInShow_of_shut (amend_swapBanks s gaps)
  · exact h

theorem exec_windowOnlyInShow {c : Instr} {s t : State} (he : exec c s = .next t) (h : WindowOnlyInShow s) :
    WindowOnlyInShow t := by
  cases c with
  | power straps =>
    cases he
    exact windowOnlyInShow_of_shut rfl
  | amendWindowExpires =>
    have he' : execAmendWindowExpires s = .next t := he
    unfold execAmendWindowExpires at he'
    split at he' <;> cases he'
    · exact windowOnlyInShow_of_shut rfl
    · exact h
  | setMode => exact windowOnlyInShow_setMode he h
  | mode => exact windowOnlyInShow_mode he h
  | amendCommand =>
    cases he
    exact offerCommand_induction h h
      (fun _ => windowOnlyInShow_settleCommand h (fun _ => windowOnlyInShow_requestAmend))
  | amend =>
    cases he
    exact windowOnlyInShow_runAction h (fun _ _ => windowOnlyInShow_requestAmend)
  | restart =>
    cases he
    exact offerCommand_induction h h
      (fun _ => windowOnlyInShow_of_shut (changes_beginFrameClear _ .amend (by decide)))
  | mapSwap gaps => exact windowOnlyInShow_mapSwap he h
  | _ => exact h.of_changes (changes_of_exec he) (by simp only [touched]; decide)

theorem stepKeeps_windowOnlyInShow : StepKeeps WindowOnlyInShow := by
  refine stepKeeps_of_exec (fun _ _ _ => exec_windowOnlyInShow) (fun _ _ h => h) (fun s h hmode => ?_)
  show s.amend.map _ = none
  rw [h hmode]
  rfl

/-! ### A closed map is quiet (R140) -/

theorem ClosedMapQuiet.of_changes {fs : List Field} {s t : State} (h : ClosedMapQuiet s) (hc : Changes fs s t)
    (hfs : ∀ f ∈ [Field.mapClosed, .status], f ∉ fs) : ClosedMapQuiet t := by
  intro hclosed
  rw [hc .mapClosed (hfs _ (by decide))] at hclosed
  rw [hc .status (hfs _ (by decide))]
  exact h hclosed

theorem closedMapQuiet_of_idle {s : State} (h : s.status.commits = false) : ClosedMapQuiet s := fun _ => h

/-- A step that takes no COMMIT further than it was, the map closed or not. -/
theorem ClosedMapQuiet.of_commits {s t : State} (h : ClosedMapQuiet s) (hclosed : t.mapClosed = s.mapClosed)
    (hcommits : t.status.commits = true → s.status.commits = true) : ClosedMapQuiet t := by
  intro ht
  have hs := h (hclosed.symm.trans ht)
  rw [← Bool.not_eq_true] at hs ⊢
  exact fun hc => hs (hcommits hc)

theorem commits_settleCommand (s : State) (r : Except Reason State) : (s.settleCommand r).status.commits = false := by
  cases r <;> rfl

/-- A COMMIT is taken with the map open alone. -/
theorem closedMapQuiet_takeCommit (s : State) : ClosedMapQuiet s.takeCommit := by
  unfold State.takeCommit
  split
  · exact closedMapQuiet_of_idle rfl
  split
  · exact closedMapQuiet_of_idle rfl
  · next hopen _ => exact fun hclosed => absurd hclosed hopen

theorem closedMapQuiet_offerCommand {s : State} {v : Word} {act : State → State} (hact : ∀ u, ClosedMapQuiet (act u))
    (h : ClosedMapQuiet s) : ClosedMapQuiet (s.offerCommand v act) :=
  offerCommand_induction h h (fun _ => hact _)

/-- A command that ends as it is taken leaves no COMMIT running. -/
theorem closedMapQuiet_immediate {s : State} {v : Word} {act : State → State}
    (hact : ∀ u, (act u).status.commits = false) (h : ClosedMapQuiet s) : ClosedMapQuiet (s.offerCommand v act) :=
  closedMapQuiet_offerCommand (fun u => closedMapQuiet_of_idle (hact u)) h

theorem commits_afterLine (status : CommandStatus) : status.afterLine.commits = false := by
  cases status <;> rfl

theorem commits_storeLoaded {s : State} {k : Nat} {data : Word} (h : (s.storeLoaded k data).status.commits = true) :
    s.status.commits = true := by
  unfold State.storeLoaded at h
  split at h
  · next hloading => rw [hloading]; rfl
  all_goals exact h

theorem commits_finishRestart {s : State} (h : s.finishRestart.status.commits = true) : s.status.commits = true := by
  unfold State.finishRestart at h
  split at h
  · cases h
  · exact h

theorem closedMapQuiet_transferEnd {s t : State} (he : execTransferEnd s = .next t) (h : ClosedMapQuiet s) :
    ClosedMapQuiet t := by
  refine h.of_commits (changes_of_exec (c := .transferEnd) he .mapClosed (by decide)) ?_
  unfold execTransferEnd at he
  split at he
  · cases he
    exact id
  dsimp only at he
  split at he <;> cases he
  · rw [changes_endUpstream _ _ .status (by decide)]
    exact id
  · rw [changes_endUpstream _ _ .status (by decide)]
    exact id
  · rw [changes_tryFlip _ .status (by decide)]
    exact id
  · split
    · exact id
    · exact commits_storeLoaded (s := { s with transfer := none })
  · exact id

theorem closedMapQuiet_frameClearEnds {s t : State} (he : execFrameClearEnds s = .next t) (h : ClosedMapQuiet s) :
    ClosedMapQuiet t := by
  refine h.of_commits (changes_of_exec (c := .frameClearEnds) he .mapClosed (by decide)) ?_
  unfold execFrameClearEnds at he
  split at he <;> cases he
  · exact commits_finishRestart (s := { s.mapCircuits (fun _ cs => cs.remark) with clear := none })
  · exact id

theorem closedMapQuiet_validationEnds {s t : State} (he : execValidationEnds s = .next t) (h : ClosedMapQuiet s) :
    ClosedMapQuiet t := by
  unfold execValidationEnds at he
  split at he
  · next hvalidating =>
    split at he <;> cases he
    · exact closedMapQuiet_of_idle rfl
    · exact h.of_commits rfl (fun _ => congrArg CommandStatus.commits hvalidating)
  · cases he
    exact h

/-- A swap ends with its COMMIT DONE. -/
theorem commits_swapBanks (s : State) (gaps : List (List Interlude)) :
    (s.swapBanks gaps).status.commits = false :=
  runEffects_establishes (P := fun u => u.status.commits = false) (after := []) ((swapEffects s.active).take 7)
    (fun _ => rfl) nofun
    (fun u i hu => (congrArg CommandStatus.commits (changes_interlude u i .status (by decide))).trans hu) gaps s

theorem closedMapQuiet_mapSwap {gaps : List (List Interlude)} {s t : State} (he : execMapSwap s gaps = .next t)
    (h : ClosedMapQuiet s) : ClosedMapQuiet t := by
  unfold execMapSwap at he
  split at he <;> cases he
  · split
    · exact closedMapQuiet_of_idle rfl
    · exact closedMapQuiet_of_idle (commits_swapBanks s gaps)
  · exact h

theorem exec_closedMapQuiet {c : Instr} {s t : State} (he : exec c s = .next t) (h : ClosedMapQuiet s) :
    ClosedMapQuiet t := by
  cases c with
  | power straps =>
    cases he
    exact closedMapQuiet_of_idle rfl
  | lineReset =>
    have he' : execLineReset s = .next t := he
    unfold execLineReset at he'
    split at he' <;> cases he'
    · exact h
    · exact closedMapQuiet_of_idle (commits_afterLine s.status)
  | unknownCommand v =>
    cases he
    split
    · exact closedMapQuiet_immediate (fun _ => rfl) h
    · exact h
  | commit =>
    cases he
    exact closedMapQuiet_offerCommand closedMapQuiet_takeCommit h
  | closeMap =>
    cases he
    exact closedMapQuiet_immediate (fun _ => rfl) h
  | setMode =>
    cases he
    refine closedMapQuiet_immediate (fun u => ?_) h
    split
    · exact commits_settleCommand u _
    · rfl
  | holdFades =>
    cases he
    exact closedMapQuiet_immediate (fun _ => rfl) h
  | resumeFades =>
    cases he
    exact closedMapQuiet_immediate (fun _ => rfl) h
  | amendCommand =>
    cases he
    exact closedMapQuiet_immediate (fun u => commits_settleCommand u _) h
  | restoreEgress =>
    cases he
    exact closedMapQuiet_immediate (fun u => commits_settleCommand u _) h
  | clearFaults =>
    cases he
    refine closedMapQuiet_immediate (fun u => ?_) h
    split
    · rfl
    split <;> rfl
  | clearCounters =>
    cases he
    exact closedMapQuiet_immediate (fun _ => rfl) h
  | releaseDesk =>
    cases he
    refine closedMapQuiet_immediate (fun u => ?_) h
    split
    · rfl
    split <;> rfl
  | restart =>
    cases he
    exact closedMapQuiet_immediate
      (fun u => congrArg CommandStatus.commits (changes_beginFrameClear u.restarted .status (by decide))) h
  | transferEnd => exact closedMapQuiet_transferEnd he h
  | frameClearEnds => exact closedMapQuiet_frameClearEnds he h
  | validationEnds => exact closedMapQuiet_validationEnds he h
  | mapSwap gaps => exact closedMapQuiet_mapSwap he h
  | _ => exact h.of_changes (changes_of_exec he) (by simp only [touched]; decide)

theorem stepKeeps_closedMapQuiet : StepKeeps ClosedMapQuiet :=
  stepKeeps_of_exec (fun _ _ _ => exec_closedMapQuiet) (fun _ _ h => h) (fun _ h => h)

/-- Settles O55: each of the three is kept by every command, and the passing of time keeps what it reads. -/
theorem everyStepKeepsTheHouseStateConsistent : Obligations.EveryStepKeepsTheHouseStateConsistent :=
  ⟨stepKeeps_egressFollowsLine, stepKeeps_windowOnlyInShow, stepKeeps_closedMapQuiet⟩

end Sys2Proof.Machine
end

section
/-! House modes, egress and amendment (spec chapter 7), O30: the requests for a mode that SET_MODE and MODE make, by the
table of R127. -/

namespace Sys2Proof.Machine

/-! ### The table of R127 -/

theorem legalTransition_iff (a b : HouseMode) : legalTransition a b = true ↔ (a, b) ∈ legalMoves := by
  cases a <;> cases b <;> decide

theorem requestMode_present (s : State) : s.requestMode s.mode = .ok s := if_pos rfl

theorem requestMode_illegal {s : State} {m : HouseMode} (hne : m ≠ s.mode) (h : (s.mode, m) ∉ legalMoves) :
    s.requestMode m = .error .illegalTransition :=
  (if_neg hne).trans (if_neg (mt (legalTransition_iff s.mode m).1 h))

/-! ### The command and the action (R118, R127, R171) -/

/-- The codes of the modes are 0 to 4 (R167). -/
theorem modeOfCode_none : ∀ {k : Nat}, 4 < k → modeOfCode k = none
  | _ + 5, _ => rfl

/-- The command makes the request that its parameter names. -/
theorem exec_setMode_request {s : State} {m : HouseMode} (htakes : s.takesCommand)
    (hparameter : s.parameter.toNat = m.code) : exec .setMode s =
      .next (({ s with command := 3 } : State).settleCommand (({ s with command := 3 } : State).requestMode m)) := by
  refine congrArg Host.Outcome.next ((offerCommand_taken htakes 3 _).trans ?_)
  dsimp only
  rw [hparameter, modeOfCode_code]

theorem exec_setMode_bad {s : State} (htakes : s.takesCommand) (h : 4 < s.parameter.toNat) : exec .setMode s =
    .next { s with command := 3, status := .refused .badParameter 1 0, causes := Cause.command.mark s.causes } := by
  refine congrArg Host.Outcome.next ((offerCommand_taken htakes 3 _).trans ?_)
  dsimp only
  rw [modeOfCode_none h]
  rfl

theorem claimMode_code {s : State} {a : RunningAction} {m : HouseMode} (h : a.action.param = m.code) :
    s.claimMode a = s.requestMode m := by
  unfold State.claimMode
  rw [h, modeOfCode_code]

/-! ### The change itself (R128, R131) -/

section Change
variable (s : State) (m : HouseMode)

theorem mode_changeMode : (s.changeMode m).mode = m := rfl

theorem mode_pending_changeMode : (s.changeMode m).causePending .mode = true :=
  (causePending_raiseCause _ .mode .mode).2 (.inr rfl)

/-- Every stored level is the effective level under the new mode (R128). -/
theorem level_changeMode (c : CircuitId) : ((s.changeMode m).circuit c).level =
    effectiveLevel s.active m c ((s.changeMode m).circuit c) := by
  have hactive : (s.enterEffects m).active = s.active := changes_enterEffects s m .active (by decide)
  rw [← hactive]
  exact (allRecomputed_recomputeAll { s.enterEffects m with mode := m } c).2.2.level

variable {s m} (hopen : m ≠ .open_) (hnight : m ≠ .night)
include hopen hnight

/-- Entry into PREPARE, PERFORMANCE or INTERVAL has no effects of its own (R131). -/
theorem changeMode_plain : s.changeMode m = ({ s with mode := m } : State).recomputeAll.raiseCause .mode := by
  cases m with
  | open_ => exact absurd rfl hopen
  | night => exact absurd rfl hnight
  | _ => rfl

/-- Such an entry recomputes every circuit and touches none otherwise. -/
theorem circuit_changeMode_plain (c : CircuitId) : ((s.changeMode m).circuit c).list = (s.circuit c).list ∧
    ((s.changeMode m).circuit c).slot = (s.circuit c).slot ∧
    OwedFollows (s.circuit c) ((s.changeMode m).circuit c) := by
  rw [changeMode_plain hopen hnight]
  obtain ⟨hlist, hslot, hrecomputed⟩ := allRecomputed_recomputeAll { s with mode := m } c
  exact ⟨hlist, hslot, hrecomputed.owed⟩

theorem frame_changeMode_plain : s.changeMode m = { s with
    mode := m, circuits := (s.changeMode m).circuits, causes := Cause.mode.mark s.causes } := by
  rw [changeMode_plain hopen hnight]
  rfl

end Change

/-- Settles O30: the command and the action make one request, which the table judges. -/
theorem modeRequestsFollowTheTransitionTable : Obligations.ModeRequestsFollowTheTransitionTable := by
  refine ⟨legalTransition_iff,
    fun s m htakes hparameter => ⟨fun hpresent => ?present, fun hne hillegal => ?illegal, fun hlegal => ?changed⟩,
    fun s => exec_setMode_bad,
    fun s a m hruns hparam =>
      ⟨fun hpresent => ?actionPresent, fun hne hillegal => ?actionIllegal, fun hlegal => ?actionChanged⟩⟩
  case present =>
    rw [exec_setMode_request htakes hparameter, hpresent, requestMode_present { s with command := 3 }]
    rfl
  case illegal =>
    rw [exec_setMode_request htakes hparameter, requestMode_illegal (s := { s with command := 3 }) hne hillegal]
    rfl
  case changed =>
    let u : State := { s with command := 3 }
    refine ⟨_, exec_setMode_changes htakes hparameter ((legalTransition_iff _ _).2 hlegal), mode_changeMode u m,
      changes_changeMode u m .command (by decide), rfl, (mark_pending .mode .command _).2 (.inl ?_),
      (mark_pending .command .command _).2 (.inr rfl), level_changeMode u m, fun hopen hnight => ⟨?_, ?_⟩⟩
    · exact mode_pending_changeMode u m
    · exact circuit_changeMode_plain hopen hnight
    · exact congrArg (fun v : State => v.commandDone 0) (frame_changeMode_plain (s := u) hopen hnight)
  case actionPresent =>
    refine congrArg Host.Outcome.next (runAction_ok (claim := s.claimMode) hruns rfl ?_ rfl)
    rw [claimMode_code hparam, hpresent, requestMode_present]
  case actionIllegal =>
    refine congrArg Host.Outcome.next (runAction_refused (claim := s.claimMode) hruns rfl ?_)
    rw [claimMode_code hparam, requestMode_illegal hne hillegal]
  case actionChanged =>
    refine ⟨_, exec_mode_changes hruns hparam ((legalTransition_iff _ _).2 hlegal), mode_changeMode s m, rfl,
      mode_pending_changeMode s m, level_changeMode s m, fun hopen hnight => ⟨?_, ?_⟩⟩
    · exact circuit_changeMode_plain hopen hnight
    · exact congrArg (fun v : State => { v with current := s.afterAction }) (frame_changeMode_plain hopen hnight)

end Sys2Proof.Machine
end

section
/-! House modes, egress and amendment (spec chapter 7), O50: the swap of the banks, its eight effects in their order with
what is taken between them (R175, log 5), each recomputing the circuits that it changes (log 6). -/

namespace Sys2Proof.Machine

/-! ### What is taken between two effects (R175) -/

theorem exec_commandOf (s : State) (i : Interlude) : exec (commandOf i) s = .next (s.interlude i) := by
  cases i <;> rfl

theorem takenBetween_interludes : ∀ (between : List Interlude) (s : State),
    TakenBetween between s (s.interludes between)
  | [], s => .nothing s
  | i :: rest, s => .command (exec_commandOf s i) (takenBetween_interludes rest (s.interlude i))

/-- The state of a swap in which the first `k` effects have been taken, and what falls in the gap after each. -/
@[irreducible] def State.swapTaken (s : State) (gaps : List (List Interlude)) (k : Nat) : State :=
  k.rec s (fun k u => ((swapEffects s.active).getD k id u).interludes (gaps.getD k []))

theorem swapTaken_zero (s : State) (gaps : List (List Interlude)) : s.swapTaken gaps 0 = s := by
  unfold State.swapTaken
  rfl

theorem swapTaken_succ (s : State) (gaps : List (List Interlude)) (k : Nat) : s.swapTaken gaps (k + 1) =
    ((swapEffects s.active).getD k id (s.swapTaken gaps k)).interludes (gaps.getD k []) := by
  unfold State.swapTaken
  rfl

/-- An effect that is not the last is taken, and then what falls in the gap after it. -/
theorem runEffects_drop {effects : List (State → State)} (gaps : List (List Interlude)) (u : State) {k : Nat}
    (h : k + 1 < effects.length) : State.runEffects (effects.drop k) (gaps.drop k) u =
      State.runEffects (effects.drop (k + 1)) (gaps.drop (k + 1))
        ((effects.getD k id u).interludes (gaps.getD k [])) := by
  have hgap : (gaps.drop k).headD [] = gaps.getD k [] := by
    rw [List.headD_eq_head?_getD, List.head?_drop, List.getD_eq_getElem?_getD]
  rw [List.drop_eq_getElem_cons (Nat.lt_of_succ_lt h), List.drop_eq_getElem_cons h, List.getD_eq_getElem _ _ _]
  show State.runEffects _ (gaps.drop k).tail _ = _
  rw [hgap, List.tail_drop]

/-- The last effect ends the swap, with nothing after it. -/
theorem swapBanks_eq (s : State) (gaps : List (List Interlude)) : s.swapBanks gaps =
    (s.swapTaken gaps 7).commandDone (s.swapTaken gaps 7).generation.toNat := by
  have htaken : ∀ k, k ≤ 7 → s.swapBanks gaps =
      State.runEffects ((swapEffects s.active).drop k) (gaps.drop k) (s.swapTaken gaps k) := fun k => by
    induction k with
    | zero => exact fun _ => by rw [swapTaken_zero]; rfl
    | succ k ih =>
      intro hk
      rw [swapTaken_succ]
      exact (ih (by omega)).trans (runEffects_drop gaps _ (Nat.succ_lt_succ hk))
  exact htaken 7 (Nat.le_refl 7)

/-- With nothing between its effects, a swap is the swap without gaps. -/
theorem swapBanks_undivided {gaps : List (List Interlude)} (h : ∀ l ∈ gaps, l = []) (s : State) :
    s.swapBanks gaps = s.swapBanks [] := by
  have hgap : ∀ k, gaps.getD k [] = [] := fun k => by
    rw [List.getD_eq_getElem?_getD]
    cases hk : gaps[k]? with
    | none => rfl
    | some l => exact h l (List.mem_of_getElem? hk)
  have htaken : ∀ k, s.swapTaken gaps k = s.swapTaken [] k := fun k => by
    induction k with
    | zero => rw [swapTaken_zero, swapTaken_zero]
    | succ k ih =>
      rw [swapTaken_succ, swapTaken_succ, ih, hgap]
      rfl
  rw [swapBanks_eq, swapBanks_eq, htaken]

/-- The fields that the effects between the first and the last may change. -/
abbrev middleFields : List Field := [.amend, .stations, .circuits]

theorem changes_middleEffect (old : Bank) {k : Nat} (h : k < 6) (u : State) :
    Changes middleFields u ((swapEffects old).getD (k + 1) id u) := by
  match k with
  | 0 => exact (changes_closeAmend u).mono (by decide)
  | 1 => exact (changes_endRamps u _).mono (by decide)
  | 2 => exact (changes_swapStations u old).mono (by decide)
  | 3 => exact (changes_leaveByDefault u _).mono (by decide)
  | 4 => exact (changes_updateSlots u _ _).mono (by decide)
  | 5 => exact (changes_mapCircuits u _).mono (by decide)

/-- Once the banks are exchanged, they, the generation, the mode and the egress state stand. -/
theorem changes_swapTaken (s : State) (gaps : List (List Interlude)) {k : Nat} (h : k < 7) :
    Changes (middleFields ++ interludeFields) s.exchangeBanks (s.swapTaken gaps (k + 1)) := by
  induction k with
  | zero =>
    rw [swapTaken_succ, swapTaken_zero]
    exact (changes_interludes s.exchangeBanks (gaps.getD 0 [])).mono (by decide)
  | succ k ih =>
    rw [swapTaken_succ]
    have heffect := (ih (by omega)).then (changes_middleEffect s.active (k := k) (by omega) _)
      (hs := middleFields ++ interludeFields) (by decide)
    exact heffect.then (changes_interludes _ (gaps.getD (k + 1) [])) (by decide)

/-- With nothing between the effects, the next one is taken on what the last has left. -/
theorem swapTaken_nil (s : State) (k : Nat) :
    s.swapTaken [] (k + 1) = (swapEffects s.active).getD k id (s.swapTaken [] k) := swapTaken_succ s [] k

theorem changes_swapTaken_nil (s : State) {k : Nat} (h : k < 7) :
    Changes middleFields s.exchangeBanks (s.swapTaken [] (k + 1)) := by
  induction k with
  | zero =>
    rw [swapTaken_nil, swapTaken_zero]
    exact Changes.refl _ _
  | succ k ih =>
    rw [swapTaken_nil]
    exact (ih (by omega)).then (changes_middleEffect s.active (by omega) _) (by decide)

/-! ### Effect 4: the stations (R83) -/

/-- What a swap makes of a station's record: its long-press timers stop; a station that the new map enables or disables
requires a baseline; one that it disables is no longer LOST, and its acted states are OFF; the silence timer of an
enabled station restarts, and that of a disabled one stops. -/
def StationSwapped (old new : StationRec) (before after : StationState) : Prop :=
  (∀ i, (after.inputs.get i).closed = (before.inputs.get i).closed ∧
    (after.inputs.get i).acted = (if old.enabled && !new.enabled then false else (before.inputs.get i).acted) ∧
    (∀ r, (before.inputs.get i).phase = .timing r → (after.inputs.get i).phase = .idle) ∧
    ((∀ r, (before.inputs.get i).phase ≠ .timing r) →
      (after.inputs.get i).phase = (before.inputs.get i).phase)) ∧
  after.baselineRequired = (if old.enabled = new.enabled then before.baselineRequired else true) ∧
  after.lost = (if old.enabled && !new.enabled then false else before.lost) ∧
  (new.enabled = true → after.silence = if new.silenceLimit ≠ 0 ∧ before.lost = false then some 0 else none) ∧
  (old.enabled = true → new.enabled = false → after.silence = none) ∧
  (old.enabled = false → new.enabled = false → after.silence = before.silence) ∧
  after.copy = before.copy ∧ after.faults = before.faults ∧ after.suspect = before.suspect

theorem swapStation_eq (old new : StationRec) (st : StationState) : swapStation old new st = { st with
    inputs := (swapStation old new st).inputs
    baselineRequired := if old.enabled = new.enabled then st.baselineRequired else true
    lost := if old.enabled && !new.enabled then false else st.lost
    silence := if new.enabled then swapSilence new st.lost else if old.enabled then none else st.silence } := by
  unfold swapStation
  cases old.enabled <;> cases new.enabled <;> rfl

theorem input_swapStation (old new : StationRec) (st : StationState) (i : InputId) :
    (swapStation old new st).inputs.get i = { st.stopTimers.inputs.get i with
      acted := if old.enabled && !new.enabled then false else (st.stopTimers.inputs.get i).acted } := by
  unfold swapStation
  cases old.enabled <;> cases new.enabled
  case true.false => exact Table.get_mapIdx ..
  all_goals rfl

theorem swapSilence_eq (r : StationRec) (lost : Bool) :
    swapSilence r lost = if r.silenceLimit ≠ 0 ∧ lost = false then some 0 else none := by
  unfold swapSilence
  simp only [Bool.and_eq_true, decide_eq_true_eq, Bool.not_eq_true']

theorem stationSwapped_swapStation (old new : StationRec) (st : StationState) :
    StationSwapped old new st (swapStation old new st) := by
  refine ⟨fun i => ?_, ?_⟩
  · obtain ⟨hclosed, hacted, htiming, hother⟩ := timersStopped_stopTimers st i
    rw [input_swapStation, hacted]
    exact ⟨hclosed, rfl, htiming, hother⟩
  · rw [swapStation_eq]
    exact ⟨rfl, rfl, fun hnew => (if_pos hnew).trans (swapSilence_eq new st.lost),
      fun hold hnew => (if_neg (by rw [hnew]; decide)).trans (if_pos hold),
      fun hold hnew => (if_neg (by rw [hnew]; decide)).trans (if_neg (by rw [hold]; decide)), rfl, rfl, rfl⟩

/-- Every station's record is swapped, from the map `old` to the active one, and nothing else changes. -/
def StationsSwapped (old : Bank) (s t : State) : Prop :=
  (∀ n, StationSwapped (old.station n) (s.active.station n) (s.station n) (t.station n)) ∧
  t = { s with stations := t.stations }

theorem stationsSwapped_swapStations (old : Bank) (s : State) : StationsSwapped old s (s.swapStations old) := by
  refine ⟨fun n => ?_, rfl⟩
  unfold State.swapStations
  rw [State.station_mapStations]
  exact stationSwapped_swapStation ..

/-! ### Effect 5: the contributions of disabled stations (R125) -/

/-- The contribution's owner is a station that the new map disables. -/
def disabledOwner (old new : Bank) (x : Contribution) : Bool :=
  match x.owner with
  | .station n => (old.station n).enabled && !(new.station n).enabled
  | .desk _ => false

theorem disabledOwner_eq (old new : Bank) : disabledOwner old new = fun x => disabledBy old new x.owner := by
  funext x
  unfold disabledOwner disabledBy
  cases x.owner <;> rfl

theorem listsClaimed_leaveDisabled (old : Bank) (s : State) :
    ListsClaimed (fun _ l => l.any (disabledOwner old s.active))
      (fun c => LeavesWith (disabledOwner old s.active) (s.active.defaultTime c)) s (s.leaveDisabled old) := by
  rw [disabledOwner_eq]
  exact listsClaimed_leaveByDefault s _

/-- A leave leaves a list without such a contribution as it is. -/
theorem leavesWith_idle {p : Contribution → Bool} {time : Nat} {l : List Contribution} (h : l.any p = false) :
    LeavesWith p time l l := by
  have hnone : ∀ x ∈ l, p x = false := by simpa using h
  refine ⟨fun _ => (List.filter_eq_self.2 fun x hx => by rw [hnone x hx]; rfl).symm, fun _ => ?_⟩
  exact ((List.map_congr_left fun x hx => if_neg (by rw [hnone x hx]; decide)).trans (List.map_id' l)).symm

/-- What a leave by default makes of a circuit, whether or not it held such a contribution. -/
theorem leavesWith_circuit_leaveByDefault (s : State) (p : Contribution → Bool) (c : CircuitId) :
    LeavesWith p (s.active.defaultTime c) (s.circuit c).list ((s.leaveByDefault p).circuit c).list ∧
      ((s.leaveByDefault p).circuit c).slot = (s.circuit c).slot := by
  cases htouch : (s.circuit c).list.any p with
  | true =>
    obtain ⟨hlist, hslot, -⟩ := (listsClaimed_leaveByDefault s p c).1 htouch
    exact ⟨hlist, hslot⟩
  | false =>
    rw [(listsClaimed_leaveByDefault s p c).2 htouch]
    exact ⟨leavesWith_idle htouch, rfl⟩

/-! ### Effect 6: the slots (R40, R136) -/

/-- A slot reconciled with a map: a member's is ACTIVE, another ACTIVE one begins to leave with the circuit's default
profile, and the others stand (R40). -/
def SlotReconciled (b : Bank) (c : CircuitId) (before after : Slot) : Prop :=
  ((b.circuit c).egressMember = true → after = .active) ∧
  ((b.circuit c).egressMember = false → before ≠ .active → after = before) ∧
  ((b.circuit c).egressMember = false → before = .active →
    (b.defaultTime c = 0 → after = .empty) ∧
    (b.defaultTime c ≠ 0 → after = .leaving 1000 ((1000 + 4 * b.defaultTime c - 1) / (4 * b.defaultTime c))))

theorem slotReconciled_reconcileSlot (b : Bank) (c : CircuitId) (slot : Slot) :
    SlotReconciled b c slot (reconcileSlot (b.circuit c).egressMember (b.defaultTime c) slot) := by
  refine ⟨fun hmember => if_pos hmember, fun hother hslot => ?_, fun hother hslot => ?_⟩
  · rw [hother]
    cases slot with
    | active => exact absurd rfl hslot
    | _ => rfl
  · rw [hother, hslot]
    exact ⟨fun hzero => if_pos hzero, fun htime => if_neg htime⟩

/-- While the latch is held every slot is reconciled with the active map, and the circuits whose slots change are
recomputed; otherwise nothing changes. -/
def SlotsReconciled (s t : State) : Prop :=
  (s.egress.latched = false → t = s) ∧
  (s.egress.latched = true → ∀ c, SlotReconciled s.active c (s.circuit c).slot (t.circuit c).slot ∧
    (t.circuit c).list = (s.circuit c).list ∧
    ((t.circuit c).slot = (s.circuit c).slot → t.circuit c = s.circuit c) ∧
    ((t.circuit c).slot ≠ (s.circuit c).slot → Recomputed s.active s.mode c (s.circuit c) (t.circuit c))) ∧
  t = { s with circuits := t.circuits }

section Slots
variable (s : State) (c : CircuitId)

/-- A circuit either has its slot already and is left as it is, or takes it and is recomputed. -/
theorem swapSlots_cases :
    (swapSlot s.egress s.active c (s.circuit c).slot = (s.circuit c).slot ∧ s.swapSlots.circuit c = s.circuit c) ∨
    (swapSlot s.egress s.active c (s.circuit c).slot ≠ (s.circuit c).slot ∧
      (s.swapSlots.circuit c).slot = swapSlot s.egress s.active c (s.circuit c).slot ∧
      (s.swapSlots.circuit c).list = (s.circuit c).list ∧
      Recomputed s.active s.mode c (s.circuit c) (s.swapSlots.circuit c)) := by
  by_cases h : swapSlot s.egress s.active c (s.circuit c).slot = (s.circuit c).slot
  · exact .inl ⟨h, untouched_updateSlots
      (touch := fun c cs => decide (swapSlot s.egress s.active c cs.slot ≠ cs.slot)) (decide_eq_false (not_not.2 h))⟩
  · exact .inr ⟨h, touched_updateSlots
      (touch := fun c cs => decide (swapSlot s.egress s.active c cs.slot ≠ cs.slot))
      (f := fun c cs => swapSlot s.egress s.active c cs.slot) (decide_eq_true h)⟩

theorem slot_swapSlots : (s.swapSlots.circuit c).slot = swapSlot s.egress s.active c (s.circuit c).slot := by
  rcases swapSlots_cases s c with ⟨hsame, hcircuit⟩ | ⟨-, hslot, -, -⟩
  · rw [hcircuit, hsame]
  · exact hslot

theorem list_swapSlots : (s.swapSlots.circuit c).list = (s.circuit c).list := by
  rcases swapSlots_cases s c with ⟨-, hcircuit⟩ | ⟨-, -, hlist, -⟩
  · rw [hcircuit]
  · exact hlist

variable {s c}

theorem swapSlot_unlatched {egress : EgressState} {b : Bank} {slot : Slot} (h : egress.latched = false) :
    swapSlot egress b c slot = slot := if_neg (by rw [h]; decide)

theorem swapSlot_latched {egress : EgressState} {b : Bank} {slot : Slot} (h : egress.latched = true) :
    SlotReconciled b c slot (swapSlot egress b c slot) := by
  unfold swapSlot
  rw [if_pos h]
  exact slotReconciled_reconcileSlot b c slot

theorem swapSlots_unlatched (h : s.egress.latched = false) : s.swapSlots = s := by
  have hcircuits : s.swapSlots.circuits = s.circuits := circuits_ext fun c => by
    rcases swapSlots_cases s c with ⟨-, hcircuit⟩ | ⟨hne, -⟩
    · exact hcircuit
    · exact absurd (swapSlot_unlatched h) hne
  exact (frame_updateSlots s _ _).trans (congrArg (fun circuits => { s with circuits := circuits }) hcircuits)

end Slots

theorem slotsReconciled_swapSlots (s : State) : SlotsReconciled s s.swapSlots := by
  refine ⟨swapSlots_unlatched, fun hlatched c => ⟨?_, list_swapSlots s c, fun hsame => ?_, fun hmoved => ?_⟩, rfl⟩
  · rw [slot_swapSlots]
    exact swapSlot_latched hlatched
  · rw [slot_swapSlots] at hsame
    rcases swapSlots_cases s c with ⟨-, hcircuit⟩ | ⟨hne, -⟩
    · exact hcircuit
    · exact absurd hsame hne
  · rcases swapSlots_cases s c with ⟨-, hcircuit⟩ | ⟨-, -, -, hrecomputed⟩
    · exact absurd (congrArg CircuitState.slot hcircuit) hmoved
    · exact hrecomputed

/-! ### Owed flags through several claims (R45) -/

/-- Through one recompute or several a level that has changed is owed, and what was owed is owed still. -/
structure OwedSince (before after : CircuitState) : Prop where
  moved : after.level ≠ before.level → after.owedA = true ∧ after.owedB = true
  stillA : before.owedA = true → after.owedA = true
  stillB : before.owedB = true → after.owedB = true

theorem OwedSince.refl (cs : CircuitState) : OwedSince cs cs := ⟨fun h => absurd rfl h, id, id⟩

theorem OwedSince.trans {x y z : CircuitState} (h1 : OwedSince x y) (h2 : OwedSince y z) : OwedSince x z := by
  refine ⟨fun hmoved => ?_, h2.stillA ∘ h1.stillA, h2.stillB ∘ h1.stillB⟩
  by_cases hlast : z.level = y.level
  · obtain ⟨ha, hb⟩ := h1.moved (hlast ▸ hmoved)
    exact ⟨h2.stillA ha, h2.stillB hb⟩
  · exact h2.moved hlast

theorem OwedFollows.since {x y : CircuitState} (h : OwedFollows x y) : OwedSince x y := by
  obtain ⟨hsame, hmoved⟩ := h
  by_cases hlevel : y.level = x.level
  · obtain ⟨ha, hb⟩ := hsame hlevel
    exact ⟨hmoved, ha.trans, hb.trans⟩
  · obtain ⟨ha, hb⟩ := hmoved hlevel
    exact ⟨hmoved, fun _ => ha, fun _ => hb⟩

theorem ListsClaimed.owedSince {touch : CircuitId → List Contribution → Bool}
    {claim : CircuitId → List Contribution → List Contribution → Prop} {s t : State}
    (h : ListsClaimed touch claim s t) (c : CircuitId) : OwedSince (s.circuit c) (t.circuit c) := by
  cases htouch : touch c (s.circuit c).list with
  | true => exact ((h c).1 htouch).2.2.owed.since
  | false =>
    rw [(h c).2 htouch]
    exact .refl _

theorem owedSince_swapSlots (s : State) (c : CircuitId) : OwedSince (s.circuit c) (s.swapSlots.circuit c) := by
  rcases swapSlots_cases s c with ⟨-, hcircuit⟩ | ⟨-, -, -, hrecomputed⟩
  · rw [hcircuit]
    exact .refl _
  · exact hrecomputed.owed.since

/-! ### The row -/

section Row
variable {s : State} (gaps : List (List Interlude)) (hstatus : s.status = .commitRunning .swapPending)
  (hidle : s.current = none)
include hstatus hidle

/-- At an idle point with a swap pending the lock test is asked again (R174). -/
theorem exec_mapSwap_due :
    exec (.mapSwap gaps) s = .next (if s.locked then s.commandRefused .locked 0 0 else s.swapBanks gaps) :=
  if_pos ((Bool.and_eq_true _ _).mpr ⟨decide_eq_true hstatus, decide_eq_true hidle⟩)

theorem exec_mapSwap_locked (h : s.locked = true) : exec (.mapSwap gaps) s =
    .next { s with status := .refused .locked 0 0, causes := Cause.command.mark s.causes } :=
  (exec_mapSwap_due gaps hstatus hidle).trans (congrArg Host.Outcome.next (if_pos h))

theorem exec_mapSwap_taken (h : ¬ s.locked = true) : exec (.mapSwap gaps) s = .next (s.swapBanks gaps) :=
  (exec_mapSwap_due gaps hstatus hidle).trans (congrArg Host.Outcome.next (if_neg h))

end Row

/-! ### The swap with nothing between its effects -/

/-- What the undivided swap makes of a circuit under the map `new`: its ramps end and the contributions of the stations
that `new` disables leave, its slot is reconciled while the latch is held, and its level is recomputed. -/
structure CircuitSwapped (s : State) (c : CircuitId) (after : CircuitState) : Prop where
  list : ∃ ended, RampsEnded (fun _ => true) (s.circuit c).list ended ∧
    LeavesWith (disabledOwner s.active s.standby) (s.standby.defaultTime c) ended after.list
  slot : after.slot = swapSlot s.egress s.standby c (s.circuit c).slot
  level : after.level = effectiveLevel s.standby s.mode c after
  owed : OwedSince (s.circuit c) after

/-- The stages that touch circuits: the ramps end in `u`, and on what the stations' effect `v` leaves of that, effects
5 to 7 are taken. -/
theorem circuitSwapped_of_stages {s u v : State} {c : CircuitId} (hbegun : u.circuit c = s.circuit c)
    (hramps : v.circuit c = (u.endRamps (fun _ => true)).circuit c) (hactive : v.active = s.standby)
    (hmode : v.mode = s.mode) (hegress : v.egress = s.egress) :
    CircuitSwapped s c ((v.leaveDisabled s.active).swapSlots.recomputeAll.circuit c) := by
  obtain ⟨hended, hslot3⟩ := rampsEnded_circuit_endRamps u (fun _ => true) c
  have howed3 := (rampsEndedOn_endRamps u (fun _ => true)).owedSince c
  rw [← hramps, hbegun] at hended hslot3 howed3
  obtain ⟨hleft, hslot5⟩ := leavesWith_circuit_leaveByDefault v (fun x => disabledBy s.active v.active x.owner) c
  have howed5 := (listsClaimed_leaveDisabled s.active v).owedSince c
  have hslot6 := slot_swapSlots (v.leaveDisabled s.active) c
  have hlist6 := list_swapSlots (v.leaveDisabled s.active) c
  have howed6 := owedSince_swapSlots (v.leaveDisabled s.active) c
  obtain ⟨hlist, hslot, hrecomputed⟩ := allRecomputed_recomputeAll (v.leaveDisabled s.active).swapSlots c
  refine ⟨⟨_, hended, ?_⟩, ?_, ?_, ((howed3.trans howed5).trans howed6).trans hrecomputed.owed.since⟩
  · rw [hlist, hlist6, disabledOwner_eq, ← hactive]
    exact hleft
  · rw [hslot, hslot6, ← hactive, ← hegress, ← hslot3, ← hslot5]
    rfl
  · rw [← hactive, ← hmode]
    exact hrecomputed.level

theorem circuitSwapped_swapBanks (s : State) (c : CircuitId) : CircuitSwapped s c ((s.swapBanks []).circuit c) := by
  have hstands := changes_swapTaken_nil s (k := 3) (by decide)
  have hbegun : (s.swapTaken [] 2).circuit c = s.circuit c := by
    rw [swapTaken_nil, swapTaken_nil, swapTaken_zero]
    rfl
  have hramps : (s.swapTaken [] 4).circuit c = ((s.swapTaken [] 2).endRamps (fun _ => true)).circuit c := by
    rw [swapTaken_nil s 3, swapTaken_nil s 2]
    rfl
  rw [swapBanks_eq, swapTaken_nil s 6, swapTaken_nil s 5, swapTaken_nil s 4]
  exact circuitSwapped_of_stages hbegun hramps (hstands .active (by decide)) (hstands .mode (by decide))
    (hstands .egress (by decide))

theorem frame_swapBanks (s : State) : s.swapBanks [] = { s with
    active := s.standby
    standby := s.active
    generation := s.generation + 1
    amend := none
    status := .done (s.generation + 1).toNat
    causes := Cause.command.mark s.causes
    circuits := (s.swapBanks []).circuits
    stations := (s.swapBanks []).stations } := by
  have hstands := changes_swapTaken_nil s (k := 6) (by decide)
  have hamend := amend_swapBanks s []
  have hgeneration : (s.swapTaken [] 7).generation = s.generation + 1 := hstands .generation (by decide)
  have hcauses : (s.swapTaken [] 7).causes = s.causes := hstands .causes (by decide)
  rw [swapBanks_eq, hgeneration] at hamend ⊢
  refine eq_of_agree fun f => ?_
  have hf := hstands f
  cases f
  case amend => exact hamend
  case causes => exact congrArg Cause.command.mark hcauses
  case status | circuits | stations => rfl
  all_goals exact hf (by decide)

theorem stationsSwapped_swapBanks (s : State) : StationsSwapped s.active { s with active := s.standby }
    { s with active := s.standby, stations := (s.swapBanks []).stations } := by
  have hstation : ∀ n, StationSwapped (s.active.station n) (s.standby.station n) (s.station n)
      ((s.swapBanks []).station n) := fun n => by
    rw [station_swapBanks]
    exact stationSwapped_swapStation ..
  generalize s.swapBanks [] = t at hstation ⊢
  exact ⟨hstation, rfl⟩

/-- Settles O50: the effects one after the other on what the last and its gap have left, and with nothing between them
the lists, slots, levels and stations whole. -/
theorem swapExchangesTheBanksWithAllItsEffects : Obligations.SwapExchangesTheBanksWithAllItsEffects := by
  intro gaps s hstatus hidle shut map gap
  have hlocked : shut ↔ s.locked = true := locked_iff.symm
  have hexec : ¬ shut → exec (.mapSwap gaps) s = .next (s.swapBanks gaps) := fun hopen =>
    exec_mapSwap_taken gaps hstatus hidle (mt hlocked.2 hopen)
  refine ⟨fun hshut => exec_mapSwap_locked gaps hstatus hidle (hlocked.1 hshut), fun hopen => ?taken,
    fun hopen hnothing => ?whole⟩
  case taken =>
    have hstands := fun k (h : k < 7) => changes_swapTaken s gaps h
    have hactive4 : (s.swapTaken gaps 4).active = map := hstands 3 (by decide) .active (by decide)
    have hactive6 : (s.swapTaken gaps 6).active = map := hstands 5 (by decide) .active (by decide)
    have hmode6 : (s.swapTaken gaps 6).mode = s.mode := hstands 5 (by decide) .mode (by decide)
    have hgeneration : (s.swapTaken gaps 7).generation = s.generation + 1 :=
      hstands 6 (by decide) .generation (by decide)
    have hgap : ∀ k, TakenBetween (gaps.getD k []) ((swapEffects s.active).getD k id (s.swapTaken gaps k))
        (s.swapTaken gaps (k + 1)) := fun k => by
      rw [swapTaken_succ]
      exact takenBetween_interludes _ _
    have hbegun := hgap 0
    rw [swapTaken_zero] at hbegun
    have hend := hexec hopen
    have hamend := amend_swapBanks s gaps
    rw [swapBanks_eq, hgeneration] at hend hamend
    refine ⟨_, _, _, _, _, _, _, _, _, _, _, _, _, _, _, hend, rfl, hbegun, rfl, hgap 1, ?ramps, hgap 2,
      ?stations, hgap 3, ?leave, hgap 4, slotsReconciled_swapSlots _, hgap 5, ?levels, hgap 6, rfl, ?ends⟩
    case ramps => exact ⟨rampsEndedOn_endRamps _ _, rfl⟩
    case stations => exact stationsSwapped_swapStations _ _
    case leave =>
      have hleave := listsClaimed_leaveDisabled s.active (s.swapTaken gaps 4)
      rw [hactive4] at hleave
      exact ⟨hleave, frame_leaveByDefault _ _⟩
    case levels =>
      have hlevels := allRecomputed_recomputeAll (s.swapTaken gaps 6)
      rw [hactive6, hmode6] at hlevels
      exact ⟨hlevels, rfl⟩
    case ends =>
      have hlast := hstands 6 (by decide)
      exact ⟨hlast .active (by decide), hlast .standby (by decide), hgeneration, hlast .mode (by decide),
        hlast .egress (by decide), hamend⟩
  case whole =>
    have hend := hexec hopen
    rw [swapBanks_undivided hnothing] at hend
    refine ⟨_, hend, fun c => ?circuits, stationsSwapped_swapBanks s, frame_swapBanks s⟩
    case circuits =>
      obtain ⟨hlist, hslot, hlevel, howed⟩ := circuitSwapped_swapBanks s c
      refine ⟨hlist, fun hunlatched => hslot.trans (swapSlot_unlatched hunlatched), fun hlatched => ?_, hlevel,
        howed.moved, howed.stillA, howed.stillB⟩
      rw [hslot]
      exact swapSlot_latched hlatched

end Sys2Proof.Machine
end

section
/-! House modes, egress and amendment (spec chapter 7), O45: the writes to the control block, the pending causes and ATTN#
(R179, R180), the counters (R181), and what a read of every cell of the control block is answered (R157, R167). -/

namespace Sys2Proof.Machine

/-! ### The writes (R169, R179, R180) -/

section Writes
variable {s : State} (v : Word) (hready : s.upstreamReady = true)
include hready

theorem exec_pendingCausesWrite_ready : exec (.pendingCausesWrite v) s =
    .next { s with causes := s.causes &&& ~~~(v.setWidth 9) } := congrArg Host.Outcome.next (if_pos hready)

theorem exec_enableMaskWrite_ready : exec (.enableMaskWrite v) s = .next { s with mask := v.setWidth 9 } :=
  congrArg Host.Outcome.next (if_pos hready)

theorem exec_controlCellWrite_ready : exec (.controlCellWrite v) s = .next { s with parameter := v } :=
  congrArg Host.Outcome.next (if_pos hready)

end Writes

theorem getLsbD_enabled (v : Word) {k : Nat} (h : k < 9) : (v.setWidth 9).getLsbD k = v.getLsbD k := by
  rw [BitVec.getLsbD_setWidth, decide_eq_true h, Bool.true_and]

/-- Each flag written as 1 is cleared (R179). -/
theorem getLsbD_cleared (x : BitVec 9) (v : Word) {k : Nat} (h : k < 9) :
    (x &&& ~~~(v.setWidth 9)).getLsbD k = (x.getLsbD k && !v.getLsbD k) := by
  rw [BitVec.getLsbD_and, BitVec.getLsbD_not, getLsbD_enabled v h, decide_eq_true h, Bool.true_and]

/-! ### The top cause (R180) and the counters (R181) -/

theorem topCauseCode_ne_zero_iff {bits : BitVec 9} :
    topCauseCode bits ≠ 0 ↔ ∃ k, k < 9 ∧ bits.getLsbD k = true := by
  unfold topCauseCode
  split
  · next k hfound =>
    refine ⟨fun _ => ⟨k, ?_, List.find?_some hfound⟩, fun _ => Nat.succ_ne_zero k⟩
    exact List.mem_range.1 (List.mem_of_find?_eq_some hfound)
  · next hnone =>
    refine ⟨fun h => absurd rfl h, fun ⟨k, hk, hbit⟩ => ?_⟩
    exact absurd hbit (List.find?_eq_none.1 hnone k (List.mem_range.2 hk))

/-- The first bit set is the top cause. -/
theorem topCauseCode_of_first {bits : BitVec 9} {k : Nat} (hk : k < 9) (hbit : bits.getLsbD k = true)
    (hfirst : ∀ j, j < k → bits.getLsbD j = false) : topCauseCode bits = k + 1 := by
  have hfound : (List.range 9).find? (fun k => bits.getLsbD k) = some k :=
    List.find?_range_eq_some.2 ⟨hbit, List.mem_range.2 hk, fun j hj => by rw [hfirst j hj]; rfl⟩
  unfold topCauseCode
  rw [hfound]

theorem attn_iff {s : State} :
    s.attn = true ↔ ∃ k, k < 9 ∧ s.causes.getLsbD k = true ∧ s.mask.getLsbD k = true := by
  unfold State.attn State.topCause
  rw [bne_iff_ne, topCauseCode_ne_zero_iff]
  simp only [BitVec.getLsbD_and, Bool.and_eq_true]

theorem topCause_of_first {s : State} {k : Nat} (hk : k < 9) (hpending : s.causes.getLsbD k = true)
    (henabled : s.mask.getLsbD k = true)
    (hfirst : ∀ j, j < k → s.causes.getLsbD j = false ∨ s.mask.getLsbD j = false) : s.topCause = k + 1 := by
  refine topCauseCode_of_first hk ?_ fun j hj => ?_
  · rw [BitVec.getLsbD_and, hpending, henabled, Bool.and_self]
  · rw [BitVec.getLsbD_and, Bool.and_eq_false_iff]
    exact hfirst j hj

theorem topCause_of_attn {s : State} (h : s.attn = false) : s.topCause = 0 := by simpa [State.attn] using h

/-- One counter rises, saturating, and the others stand. -/
theorem value_bump (x : Counters) (n m : CounterName) :
    (x.bump n).value m = if m = n then min (x.value m + 1) 65535 else x.value m := by
  cases n <;> cases m <;> rfl

/-! ### The reads (R157) -/

theorem controlRead_control {s : State} {a : ReadAccess} {offset : Nat} (haddr : s.addresses a.addr offset)
    (hlanes : a.lanes.any = true) (hready : s.upstreamReady = true) (h : offset < 0x0400) :
    s.controlRead a = some (laneData a.lanes (s.controlCell offset)) := by
  unfold State.controlRead
  rw [offsetOf_of_addresses haddr]
  exact if_pos (by simp [hready, hlanes, regionOf_control h])

theorem controlRead_elsewhere {s : State} {a : ReadAccess} {offset : Nat} (haddr : s.addresses a.addr offset)
    (h : 0x0400 ≤ offset) : s.controlRead a = none := by
  have hregion : regionOf offset ≠ .control := fun hcontrol => absurd (regionOf_bounds hcontrol) (Nat.not_lt.2 h)
  unfold State.controlRead
  rw [offsetOf_of_addresses haddr]
  exact if_neg (by simp [hregion])

/-! ### The cells (R167) -/

section Cells
variable {s : State}

theorem controlCell_eq {offset n : Nat} (h : s.controlNumber offset = n) : s.controlCell offset = BitVec.ofNat 16 n :=
  congrArg (BitVec.ofNat 16) h

theorem ofNat_toNat_word (w : Word) : BitVec.ofNat 16 w.toNat = w := by simp

/-- The status cell and the two details follow the command status (R169). -/
theorem statusCells {status : CommandStatus} {d e : Nat} (hstatus : s.status = status) (hd : s.detail1 = d)
    (he : s.detail2 = e) : s.controlCell 0x0006 = BitVec.ofNat 16 (status.code + 256 * status.reason.code) ∧
      s.controlCell 0x0008 = BitVec.ofNat 16 d ∧ s.controlCell 0x000A = BitVec.ofNat 16 e := by
  subst hstatus
  exact ⟨rfl, controlCell_eq hd, controlCell_eq he⟩

theorem detail1_eq {status : CommandStatus} (h : s.status = status) :
    s.detail1 = ({ s with status := status } : State).detail1 := h ▸ rfl

theorem detail2_eq {status : CommandStatus} (h : s.status = status) :
    s.detail2 = ({ s with status := status } : State).detail2 := h ▸ rfl

theorem statusCells_of {status : CommandStatus} (h : s.status = status) :
    s.controlCell 0x0006 = BitVec.ofNat 16 (status.code + 256 * status.reason.code) ∧
      s.controlCell 0x0008 = BitVec.ofNat 16 ({ s with status := status } : State).detail1 ∧
      s.controlCell 0x000A = BitVec.ofNat 16 ({ s with status := status } : State).detail2 :=
  statusCells h (detail1_eq h) (detail2_eq h)

theorem egressCell {egress : EgressState} (h : s.egress = egress) :
    s.controlCell 0x0012 = BitVec.ofNat 16 (egress.code + if s.egrLine then 256 else 0) := by
  subst h
  rfl

theorem amendCell {seconds : Nat} (h : s.amendSeconds = seconds) : s.controlCell 0x0016 = BitVec.ofNat 16 seconds :=
  controlCell_eq h

theorem amendSeconds_shut (h : s.amend = none) : s.amendSeconds = 0 := by
  unfold State.amendSeconds
  rw [h]

theorem amendSeconds_open {ms : Nat} (h : s.amend = some ms) : s.amendSeconds = max 1 ((ms + 999) / 1000) := by
  unfold State.amendSeconds
  rw [h]

/-- The cells of the last refusal record that may name nothing. -/
theorem ownerCell_eq {owner : Option Owner} (h : s.lastRefusal.owner = owner) :
    s.controlCell 0x0040 = BitVec.ofNat 16 (ownerCell owner) := controlCell_eq (congrArg ownerCell h)

theorem inputCell_eq {input : Option InputId} (h : s.lastRefusal.input = input) :
    s.controlCell 0x0042 = BitVec.ofNat 16 ((input.map (fun i => i.val)).getD 0xFFFF) :=
  controlCell_eq (congrArg (fun i => (i.map (fun i => i.val)).getD 0xFFFF) h)

theorem kindCell_eq {kind : Option RefusedKind} (h : s.lastRefusal.kind = kind) :
    s.controlCell 0x0044 = BitVec.ofNat 16 (kindCell kind) := controlCell_eq (congrArg kindCell h)

theorem actionCell_eq {action : Option Nat} (h : s.lastRefusal.action = action) :
    s.controlCell 0x0046 = BitVec.ofNat 16 (action.getD 0xFFFF) := controlCell_eq (congrArg (·.getD 0xFFFF) h)

theorem frameCell_control : s.controlCell 0x002C = BitVec.ofNat 16 ((if s.front = .b then 1 else 0) +
    (if s.flipPending then 2 else 0) + (if s.clear = none then 0 else 4)) := by
  have hfront : flagBit 0 s.front.isB = if s.front = .b then 1 else 0 := by cases s.front <;> rfl
  have hclear : flagBit 2 s.clearRunning = if s.clear = none then 0 else 4 := by
    unfold State.clearRunning
    cases s.clear <;> rfl
  exact controlCell_eq (congrArg₂ (· + ·) (congrArg₂ (· + ·) hfront rfl) hclear)

theorem causesCell (x : BitVec 9) : BitVec.ofNat 16 x.toNat = x.setWidth 16 := by
  rw [← BitVec.ofNat_toNat]

/-- The cells above the last refusal are the stations' status words. -/
theorem controlNumber_upper {offset : Nat} (h : 0x004A ≤ offset) : s.controlNumber offset =
    if 0x0100 ≤ offset && offset % 2 == 0 then s.stationCell offset else 0 := by
  unfold State.controlNumber
  split <;> omega

theorem controlNumber_station (n : StationId) : s.controlNumber (0x0100 + 2 * n.val) = s.statusWord n := by
  have hindex : (0x0100 + 2 * n.val - 0x0100) / 2 = n.val := by omega
  have heven : (0x0100 + 2 * n.val) % 2 = 0 := by omega
  rw [controlNumber_upper (by omega), if_pos (by simp [heven])]
  unfold State.stationCell
  simp only [hindex]
  exact dif_pos n.isLt

theorem controlNumber_unnamed {offset : Nat} (h : (0x004A ≤ offset ∧ offset < 0x0100) ∨ 0x01E0 ≤ offset) :
    s.controlNumber offset = 0 := by
  rw [controlNumber_upper (by omega)]
  split
  · next hstation =>
    simp only [Bool.and_eq_true, decide_eq_true_eq, beq_iff_eq] at hstation
    exact dif_neg (by omega)
  · rfl

theorem controlCell_unnamed {offset : Nat} (h : offset ∈ [0x0004, 0x000C, 0x000E, 0x001C, 0x001E, 0x0026] ∨
    (0x004A ≤ offset ∧ offset < 0x0100) ∨ 0x01E0 ≤ offset) : s.controlCell offset = BitVec.ofNat 16 0 := by
  rcases h with hlow | hhigh
  · simp only [List.mem_cons, List.not_mem_nil, or_false] at hlow
    rcases hlow with rfl | rfl | rfl | rfl | rfl | rfl <;> rfl
  · exact controlCell_eq (controlNumber_unnamed hhigh)

end Cells

/-! ### Status words (R167, R178) -/

/-- The number whose bits, from bit 0 up, are the flags of a list. -/
def flagWord : List Bool → Nat
  | [] => 0
  | b :: flags => Nat.bit b (flagWord flags)

theorem testBit_flagWord (flags : List Bool) (k : Nat) : (flagWord flags).testBit k = flags.getD k false := by
  induction flags generalizing k with
  | nil => exact Nat.zero_testBit k
  | cons b flags ih =>
    cases k with
    | zero => exact Nat.testBit_bit_zero b _
    | succ k => exact (Nat.testBit_bit_succ k b _).trans (ih k)

theorem flagBit_eq (k : Nat) (b : Bool) : flagBit k b = 2 ^ k * b.toNat := by
  cases b <;> simp [flagBit]

/-- The flags of a station, in the order of their bits. -/
def State.stationFlags (s : State) (n : StationId) : List Bool :=
  let st := s.station n
  [(s.active.station n).enabled, !st.baselineRequired, st.lost, st.suspect, st.faults.contact, st.faults.gap,
    st.faults.line, st.faults.qloss, (markerIn s.events n).isSome]

theorem statusWord_eq (s : State) (n : StationId) : s.statusWord n = flagWord (s.stationFlags n) := by
  unfold State.statusWord State.stationFlags State.markerQueued
  simp only [flagWord, flagBit_eq, Nat.bit_val]
  omega

theorem getLsbD_stationCell (s : State) (n : StationId) (k : Nat) :
    (s.controlCell (0x0100 + 2 * n.val)).getLsbD k = (s.stationFlags n).getD k false := by
  rw [controlCell_eq (controlNumber_station n), statusWord_eq, BitVec.getLsbD_ofNat, testBit_flagWord]
  by_cases hk : k < 16
  · rw [decide_eq_true hk, Bool.true_and]
  · rw [List.getD_eq_default _ _ (by simp only [State.stationFlags, List.length_cons, List.length_nil]; omega),
      Bool.and_false]

/-! ### The row -/

/-- Settles O45: the writes, the top cause, the marks and counters, the reads, and the cells in the order of R167. -/
theorem controlCellWritesStoreAndClear : Obligations.ControlCellWritesStoreAndClear := by
  refine ⟨fun s v hready => ⟨?clears, ?stores, exec_controlCellWrite_ready v hready⟩,
    fun s => ⟨attn_iff, fun k => topCause_of_first⟩, getLsbD_mark, value_bump,
    fun s a offset haddr hlanes hready =>
      ⟨controlRead_control haddr hlanes hready, controlRead_elsewhere haddr⟩, fun s => ?cells, ?codes⟩
  case clears => exact ⟨_, exec_pendingCausesWrite_ready v hready, rfl, fun k => getLsbD_cleared s.causes v⟩
  case stores => exact ⟨_, exec_enableMaskWrite_ready v hready, rfl, fun k => getLsbD_enabled v⟩
  case codes => exact ⟨rfl, rfl, rfl, rfl⟩
  case cells =>
    intro number
    refine ⟨⟨ofNat_toNat_word s.command, ofNat_toNat_word s.parameter⟩,
      statusCells_of, fun k => statusCells_of, statusCells_of, statusCells_of,
      fun k h hclear => statusCells h ((detail1_eq h).trans (congrArg (Option.getD · 0) hclear)) (detail2_eq h),
      fun d => statusCells_of, fun r d e => statusCells_of,
      rfl, ?egress, rfl, ?shut, ?lastSecond, ?seconds, rfl, ofNat_toNat_word s.generation, causesCell s.causes,
      causesCell s.mask, rfl, topCause_of_attn, rfl, rfl, frameCell_control, rfl, rfl, rfl, rfl, rfl, rfl, rfl, rfl, rfl,
      ?lastRefusal⟩
    case egress =>
      exact ⟨fun h => (egressCell h).trans (congrArg (BitVec.ofNat 16) (Nat.zero_add _)), fun ms h => egressCell h,
        fun h => egressCell h, fun h => egressCell h⟩
    case shut => exact fun h => amendCell (amendSeconds_shut h)
    case lastSecond => exact fun h => amendCell (amendSeconds_open h)
    case seconds =>
      exact fun ms h hms => amendCell ((amendSeconds_open h).trans (Nat.max_eq_right (by omega)))
    case lastRefusal =>
      refine ⟨ownerCell_eq, fun n => ownerCell_eq, fun k => ownerCell_eq, inputCell_eq, fun i => inputCell_eq,
        kindCell_eq, fun k => kindCell_eq, actionCell_eq, fun k => actionCell_eq, rfl, ?stations,
        fun offset => controlCell_unnamed⟩
      case stations =>
        intro n k
        rw [getLsbD_stationCell]
        match k with
        | 0 | 1 | 2 | 3 | 4 | 5 | 6 | 7 | 8 | _ + 9 => rfl

end Sys2Proof.Machine
end

section
/-! Frames and publication (spec chapter 8), the facts its statements rest on: the cells of the two frames in the window
(R143, R155), the owed flags (R145), and what a granted write of write-back or of the frame clear leaves (R146, R151).
That SRAM holds a write from its grant is log 13. -/

namespace Sys2Proof.Machine

/-! ### The cells of the frames -/

/-- A cell apart from the written one reads as before. -/
theorem Memory.readCell_writeCell_ne {m : List Host.Cell} {a k : Nat} {lanes : Lanes} {w : Word} (ha : a % 2 = 0)
    (hk : k % 2 = 0) (h : k ≠ a) : Memory.readCell (Memory.writeCell m a lanes w) k = Memory.readCell m k := by
  unfold Memory.readCell
  rw [Memory.read_writeCell_ne h (by omega), Memory.read_writeCell_ne (by omega) (by omega)]

/-- The cells of a frame lie in the frame's region. -/
theorem regionOf_frameOffset (f : Frame) (c : CircuitId) :
    regionOf (frameOffset f c) = .frameA ∨ regionOf (frameOffset f c) = .frameB := by
  have hc := c.isLt
  cases f <;> dsimp only [frameOffset]
  · exact .inl (regionOf_frameA (Nat.le_add_right _ _) (by omega))
  · exact .inr (regionOf_frameB (Nat.le_add_right _ _) (by omega))

theorem frameOffset_even (f : Frame) (c : CircuitId) : frameOffset f c % 2 = 0 := by
  cases f <;> (simp only [frameOffset]; omega)

/-- The 768 cells of the two frames are apart. -/
theorem frameOffset_inj {f g : Frame} {c d : CircuitId} : frameOffset f c = frameOffset g d ↔ f = g ∧ c = d := by
  have hc := c.isLt
  have hd := d.isLt
  rw [Fin.ext_iff]
  cases f <;> cases g <;> simp only [frameOffset, reduceCtorEq, true_and, false_and, iff_false] <;> omega

theorem cellAddress_frameCell (s : State) (f : Frame) (c : CircuitId) :
    cellAddress (s.frameCell f c) = s.frameCell f c := windowAddress_even (frameOffset_even f c)

theorem windowAddress_mod_two (base : BitVec 2) {offset : Nat} (h : offset % 2 = 0) :
    windowAddress base offset % 2 = 0 := by
  unfold windowAddress
  omega

theorem frameCell_lt (s : State) (f : Frame) (c : CircuitId) : s.frameCell f c < 2 ^ 20 :=
  windowAddress_lt (by have := frameOffset_below_map f c; omega)

/-- A write to a cell of the window leaves the frames' cells elsewhere. -/
theorem readCell_frame_ne {base : BitVec 2} {m : List Host.Cell} {lanes : Lanes} {w : Word} {offset : Nat} {f : Frame}
    {c : CircuitId} (heven : offset % 2 = 0) (h : frameOffset f c ≠ offset) :
    Memory.readCell (Memory.writeCell m (windowAddress base offset) lanes w) (windowAddress base (frameOffset f c)) =
      Memory.readCell m (windowAddress base (frameOffset f c)) :=
  Memory.readCell_writeCell_ne (windowAddress_mod_two base heven) (windowAddress_mod_two base (frameOffset_even f c))
    (fun e => h (windowAddress_inj.1 e))

theorem Frame.other_ne (f : Frame) : f.other ≠ f := by
  cases f <;> decide

/-! ### Owed flags (R145) -/

/-- A frame owes where one of its circuits does. -/
theorem frameOwes_iff {s : State} {f : Frame} : s.frameOwes f = true ↔ ∃ c, (s.circuit c).owes f = true :=
  Table.any_cells s.circuits (fun cs => cs.owes f)

theorem frameOwes_eq_false {s : State} {f : Frame} : s.frameOwes f = false ↔ ∀ c, (s.circuit c).owes f = false := by
  rw [← Bool.not_eq_true, frameOwes_iff, not_exists]
  exact forall_congr' (fun c => Bool.not_eq_true _ ▸ Iff.rfl)

theorem owes_clearOwed_ne (cs : CircuitState) {f g : Frame} (h : g ≠ f) : (cs.clearOwed f).owes g = cs.owes g := by
  cases f <;> cases g
  · exact absurd rfl h
  · rfl
  · rfl
  · exact absurd rfl h

@[simp] theorem level_clearOwed (cs : CircuitState) (f : Frame) : (cs.clearOwed f).level = cs.level := by
  cases f <;> rfl

theorem writeBackInFlight_iff {s : State} :
    s.writeBackInFlight = true ↔ ∃ cycle, s.transfer = some ⟨.writeBack, cycle⟩ := by
  unfold State.writeBackInFlight
  cases s.transfer with
  | none => simp
  | some t =>
    obtain ⟨who, cycle⟩ := t
    simp

/-- The lowest circuit owed is owed. -/
theorem owes_of_lowestOwed {s : State} {f : Frame} {c : CircuitId} (h : s.lowestOwed f = some c) :
    (s.circuit c).owes f = true := List.find?_some (p := fun c => (s.circuit c).owes f) h

theorem lowestOwed_of_least {s : State} {f : Frame} {c : CircuitId} (h : (s.circuit c).owes f = true)
    (hleast : ∀ d, d < c → (s.circuit d).owes f = false) : s.lowestOwed f = some c := by
  unfold State.lowestOwed allCircuits
  rw [List.find?_eq_some_iff_getElem]
  refine ⟨h, c.val, by simp, by simp, fun j hj => ?_⟩
  rw [List.getElem_finRange, hleast _ (Fin.lt_def.2 hj)]
  rfl

/-! ### Write-back (R146) -/

/-- A write-back grant has paid circuit `c`: its level stands in its cell of the back frame, which owes it no more. -/
def State.paid (s : State) (c : CircuitId) : State :=
  (s.modCircuit c (fun cs => cs.clearOwed s.back)).internalWrite .writeBack (s.frameCell s.back c)
    (BitVec.ofNat 16 (s.circuit c).level)

theorem mem_paid (s : State) (c : CircuitId) : (s.paid c).mem =
    Memory.writeCell s.mem (s.frameCell s.back c) Lanes.both (BitVec.ofNat 16 (s.circuit c).level) := rfl

theorem circuit_paid_self (s : State) (c : CircuitId) : (s.paid c).circuit c = (s.circuit c).clearOwed s.back :=
  State.circuit_modCircuit_self s c (fun cs => cs.clearOwed s.back)

theorem circuit_paid_ne (s : State) {c d : CircuitId} (h : c ≠ d) : (s.paid c).circuit d = s.circuit d :=
  State.circuit_modCircuit_ne s (fun cs => cs.clearOwed s.back) h

theorem exec_writeBackGrant_paid {s : State} {c : CircuitId} (hgrant : s.grantsInternal = true)
    (hclear : s.clear = none) (hlowest : s.lowestOwed s.back = some c) :
    exec .writeBackGrant s = .next (s.paid c) := by
  have howes : s.frameOwes s.back = true := frameOwes_iff.2 ⟨c, owes_of_lowestOwed hlowest⟩
  have hrequests : s.writeBackRequests = true := by
    unfold State.writeBackRequests State.clearRunning
    rw [hclear, howes]
    rfl
  show execWriteBackGrant s = _
  unfold execWriteBackGrant
  rw [hgrant, hrequests, hlowest]
  rfl

/-- A write-back grant pays a circuit that the back frame owes, outside a frame clear, or changes nothing. -/
theorem exec_writeBackGrant_cases {s t : State} (he : exec .writeBackGrant s = .next t) :
    t = s ∨ ∃ c, s.clear = none ∧ t = s.paid c := by
  have he' : execWriteBackGrant s = .next t := he
  unfold execWriteBackGrant at he'
  split at he'
  · next hdue =>
    simp only [State.writeBackRequests, State.clearRunning, Bool.and_eq_true, Bool.not_eq_true',
      Option.isSome_eq_false_iff, Option.isNone_iff_eq_none] at hdue
    obtain ⟨-, hclear, -⟩ := hdue
    split at he' <;> cases he'
    · next c _ => exact .inr ⟨c, hclear, rfl⟩
    · exact .inl rfl
  · cases he'
    exact .inl rfl

/-! ### The frame clear (R151) -/

/-- Write `k` of a frame clear writes a circuit's cell of a frame. -/
theorem clearOffset_eq_frameOffset {k : Nat} (hk : k < 768) : ∃ f c, clearOffset k = frameOffset f c := by
  unfold clearOffset
  split
  · next h => exact ⟨.a, ⟨k, h⟩, rfl⟩
  · exact ⟨.b, ⟨k - 384, by omega⟩, rfl⟩

/-- A frame clear writes every circuit's cell of both frames. -/
theorem frameOffset_eq_clearOffset (f : Frame) (c : CircuitId) : ∃ k, k < 768 ∧ frameOffset f c = clearOffset k := by
  have hc := c.isLt
  unfold clearOffset
  cases f with
  | a => exact ⟨c.val, by omega, (if_pos hc).symm⟩
  | b => exact ⟨c.val + 384, by omega, by rw [if_neg (by omega), Nat.add_sub_cancel]; rfl⟩

theorem clearOffset_even (k : Nat) : clearOffset k % 2 = 0 := by
  unfold clearOffset
  split <;> omega

/-- No cell is written twice. -/
theorem clearOffset_ne {j k : Nat} (h : j < k) (hk : k < 768) : clearOffset j ≠ clearOffset k := by
  unfold clearOffset
  split <;> split <;> omega

/-- The granted write `k` of a frame clear: the cell holds 0, and the write is counted. -/
def State.cellCleared (s : State) (k : Nat) : State :=
  { s.internalWrite .frameClear (windowAddress s.base (clearOffset k)) 0 with clear := some (k + 1) }

theorem mem_cellCleared (s : State) (k : Nat) : (s.cellCleared k).mem =
    Memory.writeCell s.mem (windowAddress s.base (clearOffset k)) Lanes.both 0 := rfl

theorem exec_frameClearGrant_cleared {s : State} {k : Nat} (hclear : s.clear = some k) (hk : k < 768)
    (hgrant : s.grantsInternal = true) (hloader : s.loaderRequests = false) :
    exec .frameClearGrant s = .next (s.cellCleared k) := by
  have hrequests : s.clearRequests = true := by
    unfold State.clearRequests
    rw [hclear]
    exact decide_eq_true hk
  have hwriteBack : s.writeBackRequests = false := by
    unfold State.writeBackRequests State.clearRunning
    rw [hclear]
    rfl
  show execFrameClearGrant s = _
  unfold execFrameClearGrant
  rw [hclear]
  dsimp only
  rw [hgrant, hrequests, hwriteBack, hloader]
  rfl

/-- A frame-clear grant writes the next cell of a running clear, or changes nothing. -/
theorem exec_frameClearGrant_cases {s t : State} (he : exec .frameClearGrant s = .next t) :
    t = s ∨ ∃ k, s.clear = some k ∧ k < 768 ∧ t = s.cellCleared k := by
  have he' : execFrameClearGrant s = .next t := he
  unfold execFrameClearGrant at he'
  split at he'
  · next k hk =>
    split at he' <;> cases he'
    · next hgrant =>
      simp only [State.clearRequests, hk, Bool.and_eq_true, decide_eq_true_eq] at hgrant
      obtain ⟨⟨⟨-, hlt⟩, -⟩, -⟩ := hgrant
      exact .inr ⟨k, hk, hlt, rfl⟩
    · exact .inl rfl
  · cases he'
    exact .inl rfl

theorem clearComplete_iff {s : State} :
    s.clearComplete = true ↔ s.clear = some 768 ∧ ∀ cycle, s.transfer ≠ some ⟨.frameClear, cycle⟩ := by
  unfold State.clearComplete State.clearWriteInFlight
  rw [Bool.and_eq_true, decide_eq_true_eq]
  refine and_congr_right (fun _ => ?_)
  cases s.transfer with
  | none => simp
  | some t =>
    obtain ⟨who, cycle⟩ := t
    simp

/-- The state once a frame clear has ended, a RESTART apart (R46, R152). -/
def State.remarked (s : State) : State := { s.mapCircuits (fun _ cs => cs.remark) with clear := none }

theorem exec_frameClearEnds_due {s : State} (h : s.clearComplete = true) :
    exec .frameClearEnds s = .next s.remarked.finishRestart := if_pos h

theorem exec_frameClearEnds_idle {s : State} (h : ¬ s.clearComplete = true) : exec .frameClearEnds s = .next s :=
  if_neg h

theorem circuit_remarked (s : State) (c : CircuitId) : s.remarked.circuit c = (s.circuit c).remark :=
  State.circuit_mapCircuits s _ c

/-- What finishes a RESTART leaves the circuits. -/
theorem circuit_finishRestart (s : State) (c : CircuitId) : s.finishRestart.circuit c = s.circuit c :=
  circuit_of_circuits (changes_finishRestart s .circuits (by decide)) c

end Sys2Proof.Machine
end

section
/-! Frames and publication (spec chapter 8), O36, O37, O38 and O40: the flip, write-back, the frame clear, and the reads
of the circuit window. That SRAM takes a write and gives a read its data at the grant is log 13; that the end of a frame
clear is a step of its own is log 20. -/

namespace Sys2Proof.Machine

/-! ### The flip (R148, R149) -/

/-- The back frame owes nothing, the front frame owes, and no frame clear runs (R148, but for a write in flight). -/
def FlipDue (s : State) : Prop :=
  (∀ c, (s.circuit c).owes s.front.other = false) ∧ (∃ c, (s.circuit c).owes s.front = true) ∧ s.clear = none

theorem flipReady_iff {s : State} :
    s.flipReady = true ↔ FlipDue s ∧ ¬ ∃ cycle, s.transfer = some ⟨.writeBack, cycle⟩ := by
  unfold State.flipReady State.backClean State.clearRunning FlipDue
  rw [← writeBackInFlight_iff, ← frameOwes_iff, ← frameOwes_eq_false]
  simp only [Bool.and_eq_true, Bool.not_eq_true', Bool.not_eq_true, Option.isSome_eq_false_iff,
    Option.isNone_iff_eq_none]
  exact ⟨fun ⟨⟨⟨hback, hflight⟩, hfront⟩, hclear⟩ => ⟨⟨hback, hfront, hclear⟩, hflight⟩,
    fun ⟨⟨hback, hfront, hclear⟩, hflight⟩ => ⟨⟨⟨hback, hflight⟩, hfront⟩, hclear⟩⟩

theorem tryFlip_taken {s : State} (hready : s.flipReady = true) (hpass : s.passHigh = false) : s.tryFlip = s.flip := by
  unfold State.tryFlip
  rw [hready, hpass]
  rfl

theorem tryFlip_not_taken {s : State} (h : ¬ s.flipReady = true ∨ s.passHigh = true) : s.tryFlip = s := by
  unfold State.tryFlip
  rcases h with h | h
  · rw [Bool.eq_false_iff.2 h]
    rfl
  · rw [h, Bool.not_true, Bool.and_false]
    rfl

/-- A write-back write leaves flight, and may complete a flip. -/
theorem exec_transferEnd_writeBack {s : State} {cycle : BusCycle} (h : s.transfer = some ⟨.writeBack, cycle⟩) :
    exec .transferEnd s = .next ({ s with transfer := none } : State).tryFlip := by
  show execTransferEnd s = _
  unfold execTransferEnd
  rw [h]

/-- Settles O36: PASS falling and the end of a write-back transfer try the flip, whose readiness is R148's. -/
theorem flipIsTakenWhenItsFourConditionsHold : Obligations.FlipIsTakenWhenItsFourConditionsHold := by
  refine ⟨fun s => ?_, rfl, rfl⟩
  intro due flipped inFlight
  have hfalls : ({ s with passHigh := false } : State).flipReady = true ↔ due ∧ ¬ inFlight :=
    flipReady_iff (s := { s with passHigh := false })
  have hends : ({ s with transfer := none } : State).flipReady = true ↔ due :=
    (flipReady_iff (s := { s with transfer := none })).trans (and_iff_left nofun)
  refine ⟨fun hdue hflight => ?_, fun h => ?_, rfl, fun ⟨cycle, htransfer⟩ hdue hpass => ?_,
    fun ⟨cycle, htransfer⟩ h => ?_, ?_⟩
  · exact congrArg Host.Outcome.next (tryFlip_taken (hfalls.2 ⟨hdue, hflight⟩) rfl)
  · refine congrArg Host.Outcome.next (tryFlip_not_taken (.inl (fun hready => ?_)))
    obtain ⟨hdue, hflight⟩ := hfalls.1 hready
    exact h.elim (· hdue) hflight
  · rw [exec_transferEnd_writeBack htransfer]
    exact congrArg Host.Outcome.next (tryFlip_taken (hends.2 hdue) hpass)
  · rw [exec_transferEnd_writeBack htransfer]
    exact congrArg Host.Outcome.next (tryFlip_not_taken (h.imp_left (mt hends.1)))
  · unfold State.flipPending
    rw [Bool.and_eq_true, flipReady_iff, and_assoc]
    rfl

/-! ### Write-back (R146) -/

/-- Settles O37: the grant pays the lowest circuit owed. -/
theorem writeBackPaysTheLowestOwedCircuit : Obligations.WriteBackPaysTheLowestOwedCircuit := by
  intro s c hwf hfree hclear hturn howes hleast cell
  refine ⟨_, exec_writeBackGrant_paid (grantsInternal_of hfree hturn) hclear (lowestOwed_of_least howes hleast),
    ?_, fun a hlo hhi => ?_, circuit_paid_self s c, fun d hd => circuit_paid_ne s hd.symm, rfl, rfl⟩
  · exact Memory.readCell_writeCell_both hwf (frameCell_lt s s.front.other c)
  · rw [mem_paid]
    exact Memory.read_writeCell_ne hlo hhi

/-! ### The frame clear (R46, R151, R152) -/

theorem loaderRequests_eq_false {s : State} (h : ∀ j, s.status ≠ .commitRunning (.loading j)) :
    s.loaderRequests = false := by
  unfold State.loaderRequests
  split
  · next j hstatus => exact absurd hstatus (h j)
  all_goals rfl

theorem exec_transferEnd_frameClear {s : State} {cycle : BusCycle} (h : s.transfer = some ⟨.frameClear, cycle⟩) :
    exec .transferEnd s = .next { s with transfer := none } := by
  show execTransferEnd s = _
  unfold execTransferEnd
  rw [h]

/-- The marking sets both flags exactly where the stored level is not 0 (R46). -/
theorem remark_eq (cs : CircuitState) :
    cs.remark = { cs with owedA := decide (cs.level ≠ 0), owedB := decide (cs.level ≠ 0) } := by
  have hmark : (cs.level != 0) = decide (cs.level ≠ 0) := by
    rw [Bool.eq_iff_iff, bne_iff_ne, decide_eq_true_eq]
  unfold CircuitState.remark
  rw [hmark]

/-- Settles O38: each grant clears the next cell, and the end marks the flags anew. -/
theorem frameClearZeroesBothFramesThenRemarks : Obligations.FrameClearZeroesBothFramesThenRemarks := by
  refine ⟨fun s k hwf hclear hk hfree hturn hstatus => ?_, fun s cycle => exec_transferEnd_frameClear,
    fun s hclear hflight => ?_⟩
  · intro cell
    refine ⟨_, exec_frameClearGrant_cleared hclear hk (grantsInternal_of hfree hturn) (loaderRequests_eq_false hstatus),
      ?_, fun a hlo hhi => ?_, rfl, rfl⟩
    · exact Memory.readCell_writeCell_both hwf (windowAddress_lt (by have := clearOffset_below_map hk; omega))
    · rw [mem_cellCleared]
      exact Memory.read_writeCell_ne hlo hhi
  · refine ⟨_, exec_frameClearEnds_due (clearComplete_iff.2 ⟨hclear, hflight⟩),
      changes_finishRestart s.remarked .clear (by decide), fun c => ?_, fun hrestart => ?_, fun hrestart => ?_⟩
    · rw [circuit_finishRestart, circuit_remarked, remark_eq]
    · have hfinish : s.remarked.finishRestart = s.remarked.commandDone 0 := if_pos hrestart
      rw [hfinish]
      rfl
    · have hfinish : s.remarked.finishRestart = s.remarked := if_neg hrestart
      rw [hfinish]
      rfl

/-! ### The circuit window (R144) -/

section WindowRead
variable {s : State} {r : ReadAccess} {c : CircuitId} (haddr : s.addresses r.addr (0x0800 + 2 * c.val))
  (hlanes : r.lanes.any = true)
include haddr hlanes

/-- Outside a frame clear the read goes to the front frame at its grant. -/
theorem exec_circuitWindowRead (hclear : s.clear = none) : exec (.circuitWindowRead r) s =
    .next (s.takeAtGrant (.read r) (fun t => t.startRead (t.frameCell t.front c) r.lanes)) := by
  show execCircuitWindowRead r s = _
  unfold execCircuitWindowRead State.clearRunning
  rw [windowCircuit_of_addresses haddr hlanes, hclear]
  rfl

/-- While a frame clear runs, a read that the port takes is answered 0 at once. -/
theorem exec_circuitWindowRead_clearing {k : Nat} (hclear : s.clear = some k) (hready : s.upstreamReady = true) :
    exec (.circuitWindowRead r) s = .next { s with port := .idle, upData := ⟨some 0, some 0⟩ } := by
  obtain ⟨hrst, hport, htransfer⟩ := port_of_ready hready
  have htakes : s.portTakes (.read r) = true := by
    unfold State.portTakes
    rw [hrst, hport, htransfer]
    rfl
  show execCircuitWindowRead r s = _
  unfold execCircuitWindowRead State.clearRunning
  rw [windowCircuit_of_addresses haddr hlanes, hclear]
  exact congrArg Host.Outcome.next (if_pos htakes)

end WindowRead

/-- Settles O40: granted, held, or answered 0 during a frame clear. -/
theorem circuitWindowReadFollowsTheFrontFrame : Obligations.CircuitWindowReadFollowsTheFrontFrame := by
  intro s r c haddr hlanes
  refine ⟨fun hclear hgranted => ?_, fun hclear hawaits => ?_,
    fun k hclear hready => exec_circuitWindowRead_clearing haddr hlanes hclear hready⟩
  · intro cell
    have hcell : s.frameCell s.front c = cell := by
      show windowAddress s.base (frameOffset s.front c) = windowAddress s.base (_ + 2 * c.val)
      cases s.front <;> rfl
    rw [exec_circuitWindowRead haddr hlanes hclear, takeAtGrant_granted hgranted, ← hcell,
      ← congrArg (Memory.readCell s.mem) (cellAddress_frameCell s s.front c)]
    rfl
  · rw [exec_circuitWindowRead haddr hlanes hclear, takeAtGrant_held hawaits]

end Sys2Proof.Machine
end

section
/-! Frames and publication (spec chapter 8), O60: which commands store into SRAM, and what stores into the frames. That
a write is stored at its grant is log 13; that POWER keeps SRAM is log 2. -/

namespace Sys2Proof.Machine

/-! ### What leaves the frames (R143, R155) -/

/-- Every circuit's cell of either frame, in the window that begins at `base`, is as it was. -/
def FramesKept (base : BitVec 2) (before after : List Host.Cell) : Prop :=
  ∀ f c, Memory.readCell after (windowAddress base (frameOffset f c)) =
    Memory.readCell before (windowAddress base (frameOffset f c))

theorem FramesKept.of_eq {base : BitVec 2} {before after : List Host.Cell} (h : after = before) :
    FramesKept base before after := fun _ _ => h ▸ rfl

/-- A write to a cell of the window outside the regions of the frames leaves the frames. -/
theorem framesKept_window {base : BitVec 2} (m : List Host.Cell) {offset : Nat} (lanes : Lanes) (data : Word)
    (heven : offset % 2 = 0) (hA : regionOf offset ≠ .frameA) (hB : regionOf offset ≠ .frameB) :
    FramesKept base m (Memory.writeCell m (windowAddress base offset) lanes data) := by
  refine fun f c => readCell_frame_ne heven (fun e => ?_)
  have hregion := regionOf_frameOffset f c
  rw [e] at hregion
  exact hregion.elim hA hB

/-- A write to a cell outside the window leaves the frames. -/
theorem framesKept_outside {s : State} (m : List Host.Cell) {addr : Address} (lanes : Lanes) (data : Word)
    (h : s.offsetOf addr = none) :
    FramesKept s.base m (Memory.writeCell m (cellAddress addr.toNat) lanes data) := by
  have hout := offsetOf_eq_none.1 h
  intro f c
  have hoffset := frameOffset_below_map f c
  have heven : cellAddress addr.toNat % 2 = 0 := Nat.mul_mod_left _ 2
  refine Memory.readCell_writeCell_ne heven (windowAddress_mod_two s.base (frameOffset_even f c)) ?_
  unfold windowAddress cellAddress
  omega

/-- A station write goes to the station region (R65). -/
theorem framesKept_stationCellWrite {w : WriteAccess} {s t : State} (he : execStationCellWrite w s = .next t) :
    FramesKept s.base s.mem t.mem := by
  unfold execStationCellWrite at he
  split at he <;> cases he
  · next n k htarget =>
    obtain ⟨offset, haddr, hlt⟩ := stationTarget_offset htarget
    have hregion : regionOf offset ≠ .frameA ∧ regionOf offset ≠ .frameB :=
      ⟨fun e => absurd (regionOf_bounds e).1 (by omega), fun e => absurd (regionOf_bounds e).1 (by omega)⟩
    refine mem_takeAtGrant (P := FramesKept s.base s.mem) (.of_eq rfl) (fun u hu => ?_)
    rw [changes_monitorWrite _ n k w.lanes w.data .mem (by decide)]
    unfold State.startWrite
    rw [downstreamAddress_of_addresses haddr, windowAddress_even haddr.1, hu]
    exact framesKept_window s.mem _ _ haddr.1 hregion.1 hregion.2
  · exact .of_eq rfl

/-- A write that is forwarded lies outside the window or outside the frames' regions (R155). -/
theorem forwards_write_region {s : State} {w : WriteAccess} (h : s.forwards (.write w) = true) :
    s.offsetOf w.addr = none ∨
      ∃ offset, s.addresses w.addr offset ∧ regionOf offset ≠ .frameA ∧ regionOf offset ≠ .frameB := by
  cases hoffset : s.offsetOf w.addr with
  | none => exact .inl rfl
  | some offset =>
    unfold State.forwards State.regionAt at h
    simp only [Access.addr, hoffset, Option.map_some, Bool.and_eq_true] at h
    refine .inr ⟨offset, addresses_of_offsetOf hoffset, fun e => ?_, fun e => ?_⟩
    all_goals
      rw [e] at h
      exact Bool.false_ne_true h.2

theorem framesKept_forwardedAccess {a : Access} {s t : State} (he : execForwardedAccess a s = .next t) :
    FramesKept s.base s.mem t.mem := by
  unfold execForwardedAccess at he
  split at he <;> cases he
  · next hforwards =>
    refine mem_takeAtGrant (P := FramesKept s.base s.mem) (.of_eq rfl) (fun u hu => ?_)
    cases a with
    | read r => exact .of_eq hu
    | write w =>
      show FramesKept s.base s.mem (Memory.writeCell u.mem _ _ _)
      rw [hu]
      rcases forwards_write_region hforwards with hout | ⟨offset, haddr, hA, hB⟩
      · have haddress : s.downstreamAddress w.addr = w.addr.toNat := by
          unfold State.downstreamAddress
          rw [hout]
        rw [haddress]
        exact framesKept_outside s.mem _ _ hout
      · rw [downstreamAddress_of_addresses haddr, windowAddress_even haddr.1]
        exact framesKept_window s.mem _ _ haddr.1 hA hB
  · exact .of_eq rfl

/-! ### Which commands store into SRAM -/

theorem exec_mem {c : Instr} {s t : State} (he : exec c s = .next t) (hstation : ∀ w, c ≠ .stationCellWrite w)
    (hforwarded : ∀ a, c ≠ .forwardedAccess a) (hwriteBack : c ≠ .writeBackGrant) (hclear : c ≠ .frameClearGrant) :
    t.mem = s.mem := by
  cases c with
  | stationCellWrite w => exact absurd rfl (hstation w)
  | forwardedAccess a => exact absurd rfl (hforwarded a)
  | writeBackGrant => exact absurd rfl hwriteBack
  | frameClearGrant => exact absurd rfl hclear
  | _ => exact changes_of_exec he .mem (by simp only [touched]; decide)

/-- Write-back and the frame clear alone store into the frames. -/
theorem exec_framesKept {c : Instr} {s t : State} (he : exec c s = .next t) (hwriteBack : c ≠ .writeBackGrant)
    (hclear : c ≠ .frameClearGrant) : FramesKept s.base s.mem t.mem := by
  by_cases hstation : ∃ w, c = .stationCellWrite w
  · obtain ⟨w, rfl⟩ := hstation
    exact framesKept_stationCellWrite he
  by_cases hforwarded : ∃ a, c = .forwardedAccess a
  · obtain ⟨a, rfl⟩ := hforwarded
    exact framesKept_forwardedAccess he
  exact .of_eq (exec_mem he (not_exists.1 hstation) (not_exists.1 hforwarded) hwriteBack hclear)

/-- Write-back stores into the back frame alone (R146). -/
theorem readCell_front_paid (s : State) (c k : CircuitId) :
    Memory.readCell (s.paid c).mem (s.frameCell s.front k) = Memory.readCell s.mem (s.frameCell s.front k) := by
  rw [mem_paid]
  refine readCell_frame_ne (frameOffset_even s.back c) (fun e => ?_)
  exact Frame.other_ne s.front (frameOffset_inj.1 e).1.symm

/-- Outside a frame clear no command changes the front frame. -/
theorem exec_frontKept {c : Instr} {s t : State} (he : exec c s = .next t) (hclear : s.clear = none) (k : CircuitId) :
    Memory.readCell t.mem (s.frameCell s.front k) = Memory.readCell s.mem (s.frameCell s.front k) := by
  by_cases hwriteBack : c = .writeBackGrant
  · subst hwriteBack
    rcases exec_writeBackGrant_cases he with rfl | ⟨d, -, rfl⟩
    · rfl
    · exact readCell_front_paid s d k
  by_cases hgrant : c = .frameClearGrant
  · subst hgrant
    rcases exec_frameClearGrant_cases he with rfl | ⟨j, hrunning, -⟩
    · rfl
    · cases hclear.symm.trans hrunning
  exact exec_framesKept he hwriteBack hgrant s.front k

/-- Settles O60, by command. -/
theorem onlyFourCommandsWriteSram : Obligations.OnlyFourCommandsWriteSram := by
  intro c s t he
  refine ⟨fun hstation hforwarded hwriteBack hclear a => ?_, exec_frontKept he⟩
  rw [exec_mem he hstation hforwarded hwriteBack hclear]

end Sys2Proof.Machine
end

section
/-! Frames and publication (spec chapter 8), O58: outside a frame clear a cell that owes nothing holds its circuit's
stored level. Every claim owes what it changes (`OwedSince`), write-back pays a cell as it clears its flag, and the end
of a frame clear owes all but the levels that are 0. That a cell holds its level from the grant of the write is
log 13. -/

namespace Sys2Proof.Machine

/-! ### Claims owe what they change (R45) -/

theorem owedSince_recompute (b : Bank) (mode : HouseMode) (c : CircuitId) (x : CircuitState)
    (l : List Contribution) (slot : Slot) : OwedSince x (recompute b mode c { x with list := l, slot := slot }) :=
  (recomputed_recompute (before := x) (cs := { x with list := l, slot := slot }) rfl rfl rfl).owed.since

theorem owedSince_moves {G A : Prop} {new : Nat} {b : Bank} {mode : HouseMode} {c : CircuitId} {x y : CircuitState}
    (hm : Moves G A new b mode c x y) : OwedSince x y := by
  obtain ⟨l, slot, -, -, rfl | ⟨rfl, -⟩⟩ := hm
  · exact owedSince_recompute b mode c x l slot
  · exact ⟨fun h => absurd rfl h, id, id⟩

/-- From `s` to `t` every level that has changed is owed, and what was owed is owed still. -/
def AllOwedSince (s t : State) : Prop := ∀ c, OwedSince (s.circuit c) (t.circuit c)

theorem AllOwedSince.of_circuits {s t : State} (h : t.circuits = s.circuits) : AllOwedSince s t := by
  intro c
  rw [circuit_of_circuits h]
  exact .refl _

theorem AllOwedSince.refl (s : State) : AllOwedSince s s := .of_circuits rfl

theorem AllOwedSince.trans {s u t : State} (h1 : AllOwedSince s u) (h2 : AllOwedSince u t) : AllOwedSince s t :=
  fun c => (h1 c).trans (h2 c)

theorem AllOwedSince.takesRecords {G A : Prop} {s u t : State} (h : AllOwedSince s u) (hm : TakesRecords G A u t) :
    AllOwedSince s t :=
  takesRecords_keeps (P := fun _ _ c cs => OwedSince (s.circuit c) cs)
    (fun hmoves hx => hx.trans (owedSince_moves hmoves)) hm h

theorem AllOwedSince.takesInTurn {G A : Prop} {s u t : State} (h : AllOwedSince s u) (hm : TakesInTurn G A u t) :
    AllOwedSince s t := by
  induction hm with
  | refl => exact h
  | tail _ hlast ih => exact ih.takesRecords hlast

theorem AllOwedSince.movesAll {G A : Prop} {s u t : State} (h : AllOwedSince s u) (hm : MovesAll G A u t) :
    AllOwedSince s t := h.takesRecords hm.takes

theorem AllOwedSince.recomputeAll {s u : State} (h : AllOwedSince s u) : AllOwedSince s u.recomputeAll :=
  fun c => (h c).trans (allRecomputed_recomputeAll u c).2.2.owed.since

/-- A change of mode recomputes every circuit (R128). -/
theorem owedSince_changeMode (s : State) (m : HouseMode) : AllOwedSince s (s.changeMode m) :=
  ((AllOwedSince.refl s).movesAll (movesAll_enterEffects (G := False) (A := False) s m)).trans
    (AllOwedSince.recomputeAll (u := { s.enterEffects m with mode := m }) (.of_circuits rfl))

theorem owedSince_requestMode {s t : State} {m : HouseMode} (h : s.requestMode m = .ok t) : AllOwedSince s t := by
  unfold State.requestMode at h
  split at h
  · cases h
    exact .refl s
  split at h <;> cases h
  exact owedSince_changeMode s m

theorem owedSince_setMode {s t : State} (he : execSetMode s = .next t) : AllOwedSince s t := by
  cases he
  refine offerCommand_induction (P := AllOwedSince s) (.refl s) (.of_circuits rfl) (fun _ => ?_)
  dsimp only
  split
  · unfold State.settleCommand
    split
    · next u hu => exact (owedSince_requestMode hu).trans (.of_circuits rfl)
    · exact .of_circuits rfl
  · exact .of_circuits rfl

theorem owedSince_mode {s t : State} (he : execMode s = .next t) : AllOwedSince s t := by
  cases he
  rcases runAction_cases s .mode s.claimMode with e | ⟨a, t, ht, e⟩ | ⟨a, r, e⟩ <;> rw [e]
  · exact .refl s
  · unfold State.claimMode at ht
    split at ht
    · exact (owedSince_requestMode ht).trans (.of_circuits (changes_finishAction t .circuits (by decide)))
    · cases ht
  · exact .of_circuits (((changes_refuseAction s a r).trans (changes_finishAction _)) .circuits (by decide))

/-- Each effect of a swap owes the levels it changes (R175). -/
theorem owedSince_effect {s : State} (old : Bank) :
    ∀ effect ∈ swapEffects old, ∀ u, AllOwedSince s u → AllOwedSince s (effect u) := by
  intro effect hmem u hu
  have claims : ∀ {t : State}, MovesAll False False u t → AllOwedSince s t := hu.movesAll
  simp only [swapEffects, List.mem_cons, List.not_mem_nil, or_false] at hmem
  rcases hmem with rfl | rfl | rfl | rfl | rfl | rfl | rfl | rfl
  · exact hu
  · exact hu
  · exact claims (movesAll_endRamps u _)
  · exact hu
  · exact claims (movesAll_leaveByDefault u _)
  · exact claims (movesAll_swapSlots u)
  · exact hu.recomputeAll
  · exact hu

theorem owedSince_mapSwap {gaps : List (List Interlude)} {s t : State} (he : execMapSwap s gaps = .next t) :
    AllOwedSince s t := by
  unfold execMapSwap at he
  split at he <;> cases he
  · split
    · exact .of_circuits rfl
    · exact runEffects_keeps _ (owedSince_effect s.active) (fun u i hu =>
        hu.takesRecords (takes_interlude (G := False) (A := False) u i False.elim False.elim)) gaps (.refl s)
  · exact .refl s

/-! ### Commands that follow the frames -/

/-- The commands that do more to the frames than owe them: those that begin, serve or end a frame clear, and the one
that pays. -/
def Instr.publishes : Instr → Bool
  | .power _ => true
  | .restart => true
  | .writeBackGrant => true
  | .frameClearGrant => true
  | .frameClearEnds => true
  | _ => false

theorem exec_owedSince {c : Instr} {s t : State} (he : exec c s = .next t) (hc : Instr.publishes c = false) :
    AllOwedSince s t := by
  by_cases hclaims : Instr.claims c = true
  · exact (AllOwedSince.refl s).takesInTurn (exec_moves (A := False) he hclaims (fun _ => id))
  · cases c with
    | setMode => exact owedSince_setMode he
    | mode => exact owedSince_mode he
    | mapSwap gaps => exact owedSince_mapSwap he
    | power straps => cases hc
    | restart => cases hc
    | writeBackGrant => cases hc
    | frameClearEnds => cases hc
    | _ => exact absurd rfl hclaims

/-- The window, the frame clear and the cells of the frames stand, and every level that has changed is owed. -/
structure FramesFollow (s t : State) : Prop where
  base : t.base = s.base
  clear : t.clear = s.clear
  mem : FramesKept s.base s.mem t.mem
  owed : AllOwedSince s t

theorem exec_base {c : Instr} {s t : State} (he : exec c s = .next t) (hc : Instr.publishes c = false)
    (hrelease : ∀ straps, c = .rstRelease straps → straps = s.base) : t.base = s.base := by
  cases c with
  | power straps => cases hc
  | rstRelease straps =>
    have he' : execRstRelease straps s = .next t := he
    unfold execRstRelease at he'
    split at he' <;> cases he'
    · exact hrelease straps rfl
    · rfl
  | _ => exact changes_of_exec he .base (by simp only [touched]; decide)

theorem exec_clear {c : Instr} {s t : State} (he : exec c s = .next t) (hc : Instr.publishes c = false) :
    t.clear = s.clear := by
  cases c with
  | power straps => cases hc
  | restart => cases hc
  | frameClearGrant => cases hc
  | frameClearEnds => cases hc
  | _ => exact changes_of_exec he .clear (by simp only [touched]; decide)

theorem exec_framesFollow {c : Instr} {s t : State} (he : exec c s = .next t) (hc : Instr.publishes c = false)
    (hrelease : ∀ straps, c = .rstRelease straps → straps = s.base) : FramesFollow s t where
  base := exec_base he hc hrelease
  clear := exec_clear he hc
  mem := exec_framesKept he (fun e => by rw [e] at hc; cases hc) (fun e => by rw [e] at hc; cases hc)
  owed := exec_owedSince he hc

/-- A flag that is clear through claims was clear before them, and its level is as it was. -/
theorem OwedSince.of_clear {x y : CircuitState} (h : OwedSince x y) {f : Frame} (hf : y.owes f = false) :
    x.owes f = false ∧ y.level = x.level := by
  obtain ⟨hmoved, hA, hB⟩ := h
  refine ⟨?_, ?_⟩
  · rw [← Bool.not_eq_true] at hf ⊢
    cases f with
    | a => exact mt hA hf
    | b => exact mt hB hf
  · by_contra hne
    obtain ⟨ha, hb⟩ := hmoved hne
    cases f with
    | a => cases ha.symm.trans hf
    | b => cases hb.symm.trans hf

theorem FramesHold.follow {s t : State} (h : FramesHold s) (hf : FramesFollow s t) : FramesHold t := by
  obtain ⟨hbase, hclear, hmem, howed⟩ := hf
  have hcell : ∀ f c, Memory.readCell t.mem (t.frameCell f c) = Memory.readCell s.mem (s.frameCell f c) := by
    intro f c
    unfold State.frameCell
    rw [hbase]
    exact hmem f c
  refine ⟨fun hnone f c hflag => ?_, fun k hk j hj hlt => ?_, fun k hk => h.range k (hclear ▸ hk)⟩
  · obtain ⟨hbefore, hlevel⟩ := (howed c).of_clear hflag
    rw [hcell, hlevel]
    exact h.published (hclear ▸ hnone) f c hbefore
  · obtain ⟨f, c, e⟩ := clearOffset_eq_frameOffset hlt
    have hzero := h.cleared k (hclear ▸ hk) j hj hlt
    rw [e] at hzero ⊢
    exact (hcell f c).trans hzero

/-! ### The commands that publish -/

/-- A frame clear that has written no cell asks nothing of the frames. -/
theorem framesHold_of_begun {s : State} (h : s.clear = some 0) : FramesHold s where
  published hnone := by cases h.symm.trans hnone
  cleared k hk j hj := by
    cases h.symm.trans hk
    exact absurd hj (Nat.not_lt_zero j)
  range k hk := by
    cases h.symm.trans hk
    exact Nat.zero_le _

theorem clear_beginFrameClear (s : State) : s.beginFrameClear.clear = some 0 := by
  unfold State.beginFrameClear
  dsimp only
  split <;> rfl

theorem framesHold_restart {s t : State} (he : execRestart s = .next t) (h : FramesHold s) : FramesHold t := by
  cases he
  refine offerCommand_induction (P := FramesHold) h ?_ (fun _ => framesHold_of_begun (clear_beginFrameClear _))
  exact h.follow ⟨rfl, rfl, .of_eq rfl, .of_circuits rfl⟩

/-- Write-back pays one cell: the flag it clears is that of the cell it writes (R146). -/
theorem FramesHold.paid {s : State} (h : FramesHold s) (hwf : Memory.wf s.mem = true) (hclear : s.clear = none)
    (c : CircuitId) : FramesHold (s.paid c) := by
  have hrunning : ∀ k, (s.paid c).clear ≠ some k := fun k hk => by cases hclear.symm.trans hk
  refine ⟨fun _ f d hflag => ?_, fun k hk => absurd hk (hrunning k), fun k hk => absurd hk (hrunning k)⟩
  by_cases hpaid : f = s.back ∧ d = c
  · obtain ⟨rfl, rfl⟩ := hpaid
    rw [circuit_paid_self, level_clearOwed, mem_paid]
    exact Memory.readCell_writeCell_both hwf (frameCell_lt s s.back d)
  · have hcircuit : (s.circuit d).owes f = false ∧ ((s.paid c).circuit d).level = (s.circuit d).level := by
      by_cases hd : c = d
      · subst hd
        rw [circuit_paid_self] at hflag ⊢
        rw [owes_clearOwed_ne _ (fun e => hpaid ⟨e, rfl⟩)] at hflag
        exact ⟨hflag, level_clearOwed _ _⟩
      · rw [circuit_paid_ne s hd] at hflag ⊢
        exact ⟨hflag, rfl⟩
    rw [hcircuit.2, mem_paid]
    refine Eq.trans ?_ (h.published hclear f d hcircuit.1)
    exact readCell_frame_ne (frameOffset_even s.back c) (fun e => hpaid (frameOffset_inj.1 e))

/-- A frame clear writes one cell more, and leaves those it has passed (R151). -/
theorem FramesHold.cellCleared {s : State} (h : FramesHold s) (hwf : Memory.wf s.mem = true) {k : Nat}
    (hclear : s.clear = some k) (hk : k < 768) : FramesHold (s.cellCleared k) := by
  refine ⟨nofun, fun n hn j hj hlt => ?_, fun n hn => ?_⟩ <;> cases hn
  · rw [mem_cellCleared]
    rcases Nat.lt_succ_iff_lt_or_eq.1 hj with hbefore | rfl
    · refine Eq.trans ?_ (h.cleared k hclear j hbefore hlt)
      refine Memory.readCell_writeCell_ne (windowAddress_mod_two _ (clearOffset_even k))
        (windowAddress_mod_two _ (clearOffset_even j)) (fun e => ?_)
      exact clearOffset_ne hbefore hk (windowAddress_inj.1 e)
    · exact Memory.readCell_writeCell_both hwf (windowAddress_lt (by have := clearOffset_below_map hk; omega))
  · exact hk

/-- At the end of a frame clear every cell holds 0, and every other level is owed (R46, R151). -/
theorem FramesHold.remarked {s : State} (h : FramesHold s) (hclear : s.clear = some 768) :
    FramesHold s.remarked := by
  refine ⟨fun _ f c hflag => ?_, nofun, nofun⟩
  have hlevel : (s.circuit c).level = 0 := by
    rw [circuit_remarked, remark_eq] at hflag
    cases f <;> exact of_not_not (of_decide_eq_false hflag)
  obtain ⟨k, hk, hoffset⟩ := frameOffset_eq_clearOffset f c
  have hzero : Memory.readCell s.mem (windowAddress s.base (frameOffset f c)) = 0 :=
    hoffset ▸ h.cleared 768 hclear k hk hk
  rw [circuit_remarked, remark_eq]
  exact hzero.trans (congrArg (BitVec.ofNat 16) hlevel.symm)

theorem framesHold_frameClearEnds {s t : State} (he : exec .frameClearEnds s = .next t) (h : FramesHold s) :
    FramesHold t := by
  by_cases hdue : s.clearComplete = true
  · rw [exec_frameClearEnds_due hdue] at he
    cases he
    have hfinish := changes_finishRestart s.remarked
    exact (h.remarked (clearComplete_iff.1 hdue).1).follow ⟨hfinish .base (by decide),
      hfinish .clear (by decide), .of_eq (hfinish .mem (by decide)), .of_circuits (hfinish .circuits (by decide))⟩
  · rw [exec_frameClearEnds_idle hdue] at he
    cases he
    exact h

theorem exec_framesHold {c : Instr} {s t : State} (h : FramesHold s) (hwf : Memory.wf s.mem = true)
    (he : exec c s = .next t) (hrelease : ∀ straps, c = .rstRelease straps → straps = s.base) : FramesHold t := by
  by_cases hpublishes : Instr.publishes c = false
  · exact h.follow (exec_framesFollow he hpublishes hrelease)
  · cases c with
    | power straps =>
      cases he
      exact framesHold_of_begun rfl
    | restart => exact framesHold_restart he h
    | writeBackGrant =>
      rcases exec_writeBackGrant_cases he with rfl | ⟨k, hclear, rfl⟩
      · exact h
      · exact h.paid hwf hclear k
    | frameClearGrant =>
      rcases exec_frameClearGrant_cases he with rfl | ⟨k, hclear, hk, rfl⟩
      · exact h
      · exact h.cellCleared hwf hclear hk
    | frameClearEnds => exact framesHold_frameClearEnds he h
    | _ => exact absurd rfl hpublishes

/-! ### At a flip (R148) -/

/-- A flip that is tried is taken when it is ready, or changes nothing. -/
theorem tryFlip_cases (s : State) : s.tryFlip = s ∨ (s.flipReady = true ∧ s.tryFlip = s.flip) := by
  by_cases h : s.flipReady = true ∧ s.passHigh = false
  · exact .inr ⟨h.1, tryFlip_taken h.1 h.2⟩
  · refine .inl (tryFlip_not_taken ?_)
    rwa [not_and_or, Bool.not_eq_false] at h

/-- Where PASS falls or a transfer ends and the frames change roles, a flip was tried, with the frames as they were. -/
theorem tryFlip_of_front_changed {c : Instr} {s t : State} (hc : c = .passFalls ∨ c = .transferEnd)
    (he : exec c s = .next t) (hfront : t.front ≠ s.front) :
    ∃ u, t = u.tryFlip ∧ Changes [.passHigh, .transfer] s u := by
  have hpass : Changes [.passHigh, .transfer] s { s with passHigh := false } := by
    intro f hf
    cases f with
    | passHigh => exact absurd (by decide) hf
    | _ => rfl
  have htransfer : Changes [.passHigh, .transfer] s { s with transfer := none } := by
    intro f hf
    cases f with
    | transfer => exact absurd (by decide) hf
    | _ => rfl
  rcases hc with rfl | rfl
  · cases he
    exact ⟨_, rfl, hpass⟩
  · have he' : execTransferEnd s = .next t := he
    unfold execTransferEnd at he'
    split at he'
    · cases he'
      exact absurd rfl hfront
    · next transfer _ =>
      obtain ⟨requester, cycle⟩ := transfer
      cases requester with
      | upstream | upstreamPast =>
        cases he'
        exact absurd (changes_endUpstream _ cycle .front (by decide)) hfront
      | writeBack =>
        cases he'
        exact ⟨_, rfl, htransfer⟩
      | loader index discarded =>
        cases he'
        split at hfront
        · exact absurd rfl hfront
        · exact absurd (changes_storeLoaded _ index _ .front (by decide)) hfront
      | frameClear =>
        cases he'
        exact absurd rfl hfront

/-- When a flip is due the back frame owes nothing, so each of its cells holds its circuit's level. -/
theorem readCell_front_flip {s : State} (h : FramesHold s) (hdue : FlipDue s) (k : CircuitId) :
    Memory.readCell s.flip.mem (s.flip.frameCell s.flip.front k) = BitVec.ofNat 16 (s.flip.circuit k).level := by
  obtain ⟨hback, -, hclear⟩ := hdue
  exact h.published hclear s.back k (hback k)

/-- Settles O58: the invariant of the frames by command, and its use at a flip. -/
theorem flippedFrameHoldsEveryLevel : Obligations.FlippedFrameHoldsEveryLevel := by
  refine ⟨fun c s t h hwf he hrelease => exec_framesHold h hwf he hrelease, fun c s t h _ hc he hfront k => ?_⟩
  obtain ⟨u, rfl, hu⟩ := tryFlip_of_front_changed hc he hfront
  have hhold : FramesHold u := h.follow ⟨hu .base (by decide), hu .clear (by decide), .of_eq (hu .mem (by decide)),
    .of_circuits (hu .circuits (by decide))⟩
  rcases tryFlip_cases u with hsame | ⟨hready, hflip⟩
  · rw [hsame] at hfront
    exact absurd (hu .front (by decide)) hfront
  · rw [hflip]
    exact readCell_front_flip hhold (flipReady_iff.1 hready).1 k

end Sys2Proof.Machine
end

section
/-! Passing through the part (spec chapter 9), the facts its statements rest on: where a forwarded access goes (R154,
R155), how a desk write and a refused write are judged (R156, R158), how an upstream transfer ends (R160), and what an
assertion of RST# leaves (R162). -/

namespace Sys2Proof.Machine

/-! ### Where a forwarded access goes (R154, R155) -/

/-- The gaps of the window are reserved. -/
theorem regionOf_other {o : Nat} (h : (0x0780 ≤ o ∧ o < 0x0800) ∨ (0x0B00 ≤ o ∧ o < 0x0C00) ∨
    (0x0F00 ≤ o ∧ o < 0x1000) ∨ (0x1300 ≤ o ∧ o < 0x1400) ∨ (0x1700 ≤ o ∧ o < 0x2000)) : regionOf o = .other := by
  cases hregion : regionOf o with
  | other => rfl
  | _ =>
    have hbounds := regionOf_bounds hregion
    dsimp only at hbounds
    omega

/-- Outside the window an access keeps its address, inside it A0 is taken as 0. -/
theorem downstreamAddress_eq (s : State) (addr : Address) : s.downstreamAddress addr =
    if addr.toNat / 0x10000 ≠ s.base.toNat * 4 then addr.toNat else addr.toNat / 2 * 2 := by
  unfold State.downstreamAddress
  split
  · next offset hoffset =>
    have hinside : ¬ addr.toNat / 0x10000 ≠ s.base.toNat * 4 := fun hout => by
      rw [offsetOf_eq_none.2 hout] at hoffset
      cases hoffset
    obtain ⟨heven, -, haddr⟩ := addresses_of_offsetOf hoffset
    rw [if_neg hinside]
    unfold windowAddress at haddr ⊢
    omega
  · next hout => rw [if_pos (offsetOf_eq_none.1 hout)]

/-- Either way it reaches the cell at its even address (log 12). -/
theorem cellAddress_downstreamAddress (s : State) (addr : Address) :
    cellAddress (s.downstreamAddress addr) = addr.toNat / 2 * 2 := by
  rw [downstreamAddress_eq]
  unfold cellAddress
  split <;> omega

/-- Both bytes of a cell lie within the 20 bits of the bus. -/
theorem cell_succ_lt (addr : Address) : addr.toNat / 2 * 2 + 1 < 2 ^ 20 := by
  have := addr.isLt
  omega

theorem windowAddress_succ_lt {base : BitVec 2} {offset : Nat} (h : offset + 1 < 0x10000) :
    windowAddress base offset + 1 < 2 ^ 20 := by
  have := base.isLt
  unfold windowAddress
  omega

/-- Which accesses that select a byte of a region of the window are forwarded (R155). -/
def State.forwardsIn (s : State) (a : Access) : Region → Prop
  | .control | .circuitWindow | .viewWindow => False
  | .station | .frameA | .frameB => ∃ r, a = .read r
  | .mapRegion => (∃ r, a = .read r) ∨ s.mapClosed = false
  | .other => True

theorem forwards_iff {s : State} {a : Access} {offset : Nat} (haddr : s.addresses a.addr offset)
    (hlanes : a.lanes.any = true) : s.forwards a = true ↔ s.forwardsIn a (regionOf offset) := by
  unfold State.forwards State.regionAt
  rw [offsetOf_of_addresses haddr]
  dsimp only [Option.map_some]
  rw [hlanes]
  cases a with
  | read r => cases regionOf offset <;> simp [State.forwardsIn]
  | write w => cases regionOf offset <;> simp [State.forwardsIn]

theorem forwards_outside {s : State} {a : Access} (h : a.addr.toNat / 0x10000 ≠ s.base.toNat * 4) :
    s.forwards a = true := by
  unfold State.forwards State.regionAt
  rw [offsetOf_eq_none.2 h]
  rfl

/-- Inside the window an access that selects no byte is not forwarded (R157). -/
theorem forwards_no_byte {s : State} {a : Access} {offset : Nat} (haddr : s.addresses a.addr offset)
    (hlanes : a.lanes.any = false) : s.forwards a = false := by
  unfold State.forwards State.regionAt
  rw [offsetOf_of_addresses haddr]
  dsimp only [Option.map_some]
  rw [hlanes]
  exact Bool.false_and _

theorem exec_forwardedAccess_read {s : State} {r : ReadAccess} (h : s.forwards (.read r) = true) :
    exec (.forwardedAccess (.read r)) s =
      .next (s.takeAtGrant (.read r) fun t => t.startRead (s.downstreamAddress r.addr) r.lanes) := if_pos h

theorem exec_forwardedAccess_write {s : State} {w : WriteAccess} (h : s.forwards (.write w) = true) :
    exec (.forwardedAccess (.write w)) s =
      .next (s.takeAtGrant (.write w) fun t => t.startWrite (s.downstreamAddress w.addr) w.lanes w.data) := if_pos h

theorem exec_forwardedAccess_held {s : State} {a : Access} (h : s.forwards a = true) (hwaits : s.awaitsGrant a) :
    exec (.forwardedAccess a) s = .next { s with port := .waitGrant a } := by
  cases a with
  | read r => rw [exec_forwardedAccess_read h, takeAtGrant_held hwaits]
  | write w => rw [exec_forwardedAccess_write h, takeAtGrant_held hwaits]

/-! ### The end of an upstream transfer (R160) -/

/-- The transfer ends alike whether or not RST# has been asserted since its grant (log 21). -/
theorem exec_transferEnd_upstream {s : State} {who : Requester} {cycle : BusCycle}
    (hwho : who = .upstream ∨ who = .upstreamPast) (h : s.transfer = some ⟨who, cycle⟩) :
    exec .transferEnd s = .next (({ s with transfer := none } : State).endUpstream cycle) := by
  show execTransferEnd s = _
  unfold execTransferEnd
  rw [h]
  rcases hwho with rfl | rfl <;> rfl

/-! ### Desk writes and refused writes (R156, R158) -/

/-- A write selects both bytes. -/
theorem eq_both_iff {l : Lanes} : l = Lanes.both ↔ (l.lo && l.hi) = true := by
  obtain ⟨lo, hi⟩ := l
  cases lo <;> cases hi <;> decide

theorem deskValueOk_iff {v : Word} : deskValueOk v = true ↔ v.toNat ≤ 1000 ∨ v = 0xFFFF := by
  unfold deskValueOk
  rw [Bool.or_eq_true, decide_eq_true_eq, decide_eq_true_eq]
  rfl

/-- What the port accepts of a desk write: its width, then its value. -/
theorem deskAccepted_iff {w : WriteAccess} : (w.lanes = Lanes.both && deskValueOk w.data) = true ↔
    (w.lanes.lo && w.lanes.hi) = true ∧ (w.data.toNat ≤ 1000 ∨ w.data = 0xFFFF) := by
  rw [Bool.and_eq_true, decide_eq_true_eq, eq_both_iff, deskValueOk_iff]

theorem controlWritable_iff {o : Nat} : controlWritable o = true ↔ o = 0 ∨ o = 2 ∨ o = 0x20 ∨ o = 0x22 := by
  simp [controlWritable, or_assoc]

section DeskWrite
variable {s : State} {w : WriteAccess} {c : CircuitId} (haddr : s.addresses w.addr (0x0800 + 2 * c.val))
  (hlanes : w.lanes.any = true) (hready : s.upstreamReady = true)
include haddr hlanes hready

theorem exec_deskWrite_accepted (h : (w.lanes = Lanes.both && deskValueOk w.data) = true) :
    exec (.deskWrite w) s = .next (s.acceptDesk ⟨w.tag, c, w.data⟩) := by
  show execDeskWrite w s = _
  unfold execDeskWrite
  rw [windowCircuit_of_addresses haddr hlanes, hready]
  exact if_pos h

theorem exec_deskWrite_refused (h : ¬ (w.lanes = Lanes.both && deskValueOk w.data) = true) :
    exec (.deskWrite w) s = .next (s.refuseWrite .refusedDeskWrites) := by
  show execDeskWrite w s = _
  unfold execDeskWrite
  rw [windowCircuit_of_addresses haddr hlanes, hready]
  exact if_neg h

end DeskWrite

section RefusedWrite
variable {s : State} {w : WriteAccess}

/-- A write that the port refuses is counted, and WRITE is raised. -/
theorem exec_refusedWrite {k : CounterName} (hready : s.upstreamReady = true) (h : s.refusalCounter w = some k) :
    exec (.refusedWrite w) s = .next (s.refuseWrite k) := by
  show execRefusedWrite w s = _
  unfold execRefusedWrite
  rw [h]
  exact congrArg Host.Outcome.next (if_pos hready)

variable {offset : Nat} (haddr : s.addresses w.addr offset) (hlanes : w.lanes.any = true)
include haddr hlanes

theorem refusalCounter_circuitWindow (hregion : regionOf offset = .circuitWindow)
    (h : ¬ (w.lanes = Lanes.both && deskValueOk w.data) = true) :
    s.refusalCounter w = some .refusedDeskWrites := by
  unfold State.refusalCounter
  rw [offsetOf_of_addresses haddr]
  dsimp only
  rw [hlanes, hregion]
  exact if_neg h

/-- The view window and the frames take no write. -/
theorem refusalCounter_readOnly
    (hregion : regionOf offset = .viewWindow ∨ regionOf offset = .frameA ∨ regionOf offset = .frameB) :
    s.refusalCounter w = some .refusedOtherWrites := by
  unfold State.refusalCounter
  rw [offsetOf_of_addresses haddr]
  dsimp only
  rw [hlanes]
  rcases hregion with hregion | hregion | hregion <;> (rw [hregion]; rfl)

theorem refusalCounter_mapRegion (hregion : regionOf offset = .mapRegion) (hclosed : s.mapClosed = true) :
    s.refusalCounter w = some .refusedOtherWrites := by
  unfold State.refusalCounter
  rw [offsetOf_of_addresses haddr]
  dsimp only
  rw [hlanes, hregion]
  exact if_pos hclosed

theorem refusalCounter_control (hregion : regionOf offset = .control)
    (h : ¬ (w.lanes = Lanes.both && controlWritable offset) = true) :
    s.refusalCounter w = some .refusedOtherWrites := by
  unfold State.refusalCounter
  rw [offsetOf_of_addresses haddr]
  dsimp only
  rw [hlanes, hregion]
  exact if_neg h

end RefusedWrite

section NoByteAccess
variable {s : State} {offset : Nat} (hready : s.upstreamReady = true)
include hready

/-- Inside the window an access that selects no byte is taken at once (R157). -/
theorem takes_noByteAccess {a : Access} (haddr : s.addresses a.addr offset) (hlanes : a.lanes.any = false) :
    (s.upstreamReady && (s.offsetOf a.addr).isSome && !a.lanes.any) = true := by
  rw [hready, offsetOf_of_addresses haddr, hlanes]
  rfl

theorem exec_noByteAccess_read {r : ReadAccess} (haddr : s.addresses r.addr offset) (hlanes : r.lanes.any = false) :
    exec (.noByteAccess (.read r)) s = .next { s with upData := ⟨some 0, some 0⟩ } :=
  if_pos (takes_noByteAccess (a := .read r) hready haddr hlanes)

theorem exec_noByteAccess_write {w : WriteAccess} (haddr : s.addresses w.addr offset)
    (hlanes : w.lanes.any = false) : exec (.noByteAccess (.write w)) s = .next s :=
  if_pos (takes_noByteAccess (a := .write w) hready haddr hlanes)

end NoByteAccess

/-! ### RST# (R162, R176) -/

/-- What becomes of the transfer in progress at an assertion of RST#: its cycle runs on. -/
def Transfer.pastLine (x : Transfer) : Transfer := { x with requester := x.requester.abandoned }

/-- The state that an assertion of RST# leaves. -/
def State.lineReset (s : State) : State :=
  { s with rst := true, port := .idle, deskQueue := [], runCount := 0, causes := 0, mask := 0, resetCause := .line
           status := s.status.afterLine
           transfer := s.transfer.map Transfer.pastLine }

theorem exec_lineReset_asserted {s : State} (h : s.rst = true) : exec .lineReset s = .next s := if_pos h

theorem exec_lineReset_released {s : State} (h : s.rst = false) : exec .lineReset s = .next s.lineReset :=
  if_neg (by rw [h]; exact Bool.false_ne_true)

theorem abandoned_ne_upstream (r : Requester) : r.abandoned ≠ .upstream := by
  cases r <;> exact Requester.noConfusion

theorem abandoned_of_kept {r : Requester} (hupstream : r ≠ .upstream) (hloader : ∀ k d, r ≠ .loader k d) :
    r.abandoned = r := by
  cases r with
  | upstream => exact absurd rfl hupstream
  | loader k d => exact absurd rfl (hloader k d)
  | _ => rfl

theorem upstreamInTransfer_of_none {s : State} (h : s.transfer = none) : s.upstreamInTransfer = false := by
  unfold State.upstreamInTransfer
  rw [h]

theorem upstreamInTransfer_of_transfer {s t : State} (h : t.transfer = s.transfer) :
    t.upstreamInTransfer = s.upstreamInTransfer := by
  unfold State.upstreamInTransfer
  rw [h]

/-- The port waits for no transfer that was granted before the assertion (log 21). -/
theorem upstreamInTransfer_lineReset (s : State) : s.lineReset.upstreamInTransfer = false := by
  unfold State.upstreamInTransfer State.lineReset
  cases s.transfer with
  | none => rfl
  | some x => exact decide_eq_false (abandoned_ne_upstream x.requester)

theorem not_swapPending_lineReset (s : State) : s.lineReset.swapPending = false := by
  refine decide_eq_false fun hpending => ?_
  have hcommits := commits_afterLine s.status
  rw [show s.status.afterLine = _ from hpending] at hcommits
  cases hcommits

theorem afterLine_of_not_running {status : CommandStatus} (h : status.running = false) : status.afterLine = .idle := by
  cases status with
  | commitRunning phase => cases h
  | restartRunning => cases h
  | _ => rfl

end Sys2Proof.Machine
end

section
/-! Passing through the part (spec chapter 9), O52: every step keeps SRAM in canonical form and the ports in order
(R159, R161, R162). That a desk write waiting for a slot joins within the take that frees it is log 23. -/

namespace Sys2Proof.Machine

/-! ### SRAM stays canonical -/

theorem memoryWf_startWrite {s : State} (h : Memory.wf s.mem = true) (u : State) (addr : Address) (lanes : Lanes)
    (data : Word) : Memory.wf (s.startWrite (u.downstreamAddress addr) lanes data).mem = true := by
  refine Memory.wf_writeCell h ?_
  rw [cellAddress_downstreamAddress]
  exact cell_succ_lt addr

theorem memoryWf_stationCellWrite {w : WriteAccess} {s t : State} (he : execStationCellWrite w s = .next t)
    (h : Memory.wf s.mem = true) : Memory.wf t.mem = true := by
  unfold execStationCellWrite at he
  split at he <;> cases he
  · next n k _ =>
    refine mem_takeAtGrant (P := fun m => Memory.wf m = true) h fun u hu => ?_
    rw [changes_monitorWrite _ n k w.lanes w.data .mem (by decide)]
    exact memoryWf_startWrite (hu ▸ h) s w.addr w.lanes w.data
  · exact h

theorem memoryWf_forwardedAccess {a : Access} {s t : State} (he : execForwardedAccess a s = .next t)
    (h : Memory.wf s.mem = true) : Memory.wf t.mem = true := by
  unfold execForwardedAccess at he
  split at he <;> cases he
  · refine mem_takeAtGrant (P := fun m => Memory.wf m = true) h fun u hu => ?_
    cases a with
    | read r => exact hu ▸ h
    | write w => exact memoryWf_startWrite (hu ▸ h) s w.addr w.lanes w.data
  · exact h

/-- The four commands that store into SRAM store cells of the bus. -/
theorem exec_memoryWf {c : Instr} {s t : State} (he : exec c s = .next t) (h : Memory.wf s.mem = true) :
    Memory.wf t.mem = true := by
  cases c with
  | stationCellWrite w => exact memoryWf_stationCellWrite he h
  | forwardedAccess a => exact memoryWf_forwardedAccess he h
  | writeBackGrant =>
    rcases exec_writeBackGrant_cases he with rfl | ⟨k, -, rfl⟩
    · exact h
    · have hoffset := frameOffset_below_map s.back k
      rw [mem_paid]
      exact Memory.wf_writeCell h (windowAddress_succ_lt (offset := frameOffset s.back k) (by omega))
  | frameClearGrant =>
    rcases exec_frameClearGrant_cases he with rfl | ⟨k, -, hk, rfl⟩
    · exact h
    · have hoffset := clearOffset_below_map hk
      rw [mem_cellCleared]
      exact Memory.wf_writeCell h (windowAddress_succ_lt (by omega))
  | _ =>
    rw [changes_of_exec he .mem (by simp only [touched]; decide)]
    exact h

/-! ### What keeps the ports in order -/

/-- With RST# released nothing is asked of what the port holds but that a write waits only for a slot. -/
theorem portsOk_of_released {s : State} (hrst : s.rst = false)
    (hqueue : s.deskQueue.length ≤ Config.deskQueueCapacity)
    (hwaits : ∀ d, s.port = .waitSlot d → Config.deskQueueCapacity ≤ s.deskQueue.length)
    (hrun : s.runCount ≤ Config.runLimit) : PortsOk s :=
  ⟨hqueue, hwaits, hrun, fun hasserted => absurd (hrst.symm.trans hasserted) Bool.false_ne_true⟩

/-- An operation on the downstream port: it leaves the upstream port and its queue, and grants no upstream access. -/
theorem PortsOk.of_downstream {fs : List Field} {s t : State} (h : PortsOk s) (hch : Changes fs s t)
    (hfs : ∀ f ∈ [Field.rst, .port, .deskQueue], f ∉ fs) (hrun : t.runCount ≤ Config.runLimit)
    (htransfer : s.upstreamInTransfer = false → t.upstreamInTransfer = false) : PortsOk t := by
  have hrst : t.rst = s.rst := hch .rst (hfs _ (by decide))
  have hport : t.port = s.port := hch .port (hfs _ (by decide))
  have hqueue : t.deskQueue = s.deskQueue := hch .deskQueue (hfs _ (by decide))
  refine ⟨hqueue ▸ h.queue, fun d hd => hqueue ▸ h.waits d (hport ▸ hd), hrun, fun hasserted => ?_⟩
  obtain ⟨hidle, hempty, hquiet⟩ := h.reset (hrst ▸ hasserted)
  exact ⟨hport.trans hidle, hqueue.trans hempty, htransfer hquiet⟩

theorem PortsOk.of_changes {fs : List Field} {s t : State} (h : PortsOk s) (hch : Changes fs s t)
    (hfs : ∀ f ∈ [Field.rst, .port, .deskQueue, .transfer, .runCount], f ∉ fs) : PortsOk t := by
  have hrun : t.runCount = s.runCount := hch .runCount (hfs _ (by decide))
  have htransfer : t.transfer = s.transfer := hch .transfer (hfs _ (by decide))
  refine h.of_downstream hch (fun f hf => hfs f ?_) (hrun ▸ h.run) fun hquiet =>
    (upstreamInTransfer_of_transfer htransfer).trans hquiet
  revert f
  decide

theorem rst_of_portTakes {s : State} {a : Access} (h : s.portTakes a = true) : s.rst = false := by
  unfold State.portTakes at h
  simp only [Bool.and_eq_true, Bool.not_eq_true'] at h
  obtain ⟨⟨hrst, -⟩, -⟩ := h
  exact hrst

/-- An access is not taken under RST#; its grant counts up to the limit (R161). -/
theorem portsOk_takeAtGrant {fs : List Field} {s : State} (a : Access) {work : State → State}
    (hwork : ∀ u, Changes fs u (work u)) (hfs : ∀ f ∈ [Field.rst, .port, .deskQueue, .runCount], f ∉ fs)
    (h : PortsOk s) : PortsOk (s.takeAtGrant a work) := by
  unfold State.takeAtGrant
  split
  · exact h
  · next htakes =>
    have hrst : s.rst = false := rst_of_portTakes (by simpa using htakes)
    split
    · have hch := hwork { s with port := .idle, runCount := min (s.runCount + 1) Config.runLimit }
      have hidle := hch .port (hfs _ (by decide))
      have hrun := hch .runCount (hfs _ (by decide))
      have hqueue := hch .deskQueue (hfs _ (by decide))
      refine portsOk_of_released (Eq.trans (hch .rst (hfs _ (by decide))) hrst)
        (le_of_eq_of_le (congrArg List.length hqueue) h.queue) (fun d hd => ?_)
        (le_of_eq_of_le hrun (Nat.min_le_right _ _))
      cases hidle.symm.trans hd
    · exact portsOk_of_released hrst h.queue nofun h.run

/-! ### Upstream accesses -/

theorem portsOk_stationCellWrite {w : WriteAccess} {s t : State} (he : execStationCellWrite w s = .next t)
    (h : PortsOk s) : PortsOk t := by
  unfold execStationCellWrite at he
  split at he <;> cases he
  · exact portsOk_takeAtGrant _
      (fun u => (changes_startWrite u _ _ _).trans (changes_monitorWrite _ _ _ _ _)) (by decide) h
  · exact h

theorem portsOk_forwardedAccess {a : Access} {s t : State} (he : execForwardedAccess a s = .next t)
    (h : PortsOk s) : PortsOk t := by
  unfold execForwardedAccess at he
  split at he <;> cases he
  · refine portsOk_takeAtGrant (fs := [.mem, .transfer]) _ (fun u => ?_) (by decide) h
    cases a with
    | read r => exact (changes_startRead u _ _).mono (by decide)
    | write w => exact changes_startWrite u _ _ _
  · exact h

theorem portsOk_circuitWindowRead {r : ReadAccess} {s t : State} (he : execCircuitWindowRead r s = .next t)
    (h : PortsOk s) : PortsOk t := by
  unfold execCircuitWindowRead at he
  split at he
  · split at he <;> cases he
    · split
      · next htakes => exact portsOk_of_released (rst_of_portTakes (s := s) htakes) h.queue nofun h.run
      · exact h
    · exact portsOk_takeAtGrant _ (fun u => changes_startRead u _ _) (by decide) h
  · cases he
    exact h

/-- An accepted desk write joins while a slot is free, and waits only while none is (R159). -/
theorem portsOk_acceptDesk {s : State} (hready : s.upstreamReady = true) (d : DeskEntry) (h : PortsOk s) :
    PortsOk (s.acceptDesk d) := by
  obtain ⟨hrst, hport, -⟩ := port_of_ready hready
  unfold State.acceptDesk
  split
  · next hfree =>
    refine portsOk_of_released hrst ?_ (fun e he => ?_) h.run
    · rw [List.length_append]
      exact hfree
    · cases hport.symm.trans he
  · next hfull => exact portsOk_of_released hrst h.queue (fun _ _ => Nat.not_lt.1 hfull) h.run

theorem portsOk_deskWrite {w : WriteAccess} {s t : State} (he : execDeskWrite w s = .next t) (h : PortsOk s) :
    PortsOk t := by
  unfold execDeskWrite at he
  split at he
  · split at he
    · cases he
      exact h
    · next hready =>
      split at he <;> cases he
      · exact portsOk_acceptDesk (by simpa using hready) _ h
      · exact h.of_changes (changes_refuseWrite s _) (by decide)
  · cases he
    exact h

/-! ### The Desk Write Queue (R159) -/

/-- The head leaves, and a write that waits joins within the same take (log 23). -/
theorem portsOk_takeDeskClaim {s : State} (h : PortsOk s) : PortsOk s.takeDeskClaim := by
  unfold State.takeDeskClaim
  split
  · next d rest hqueue =>
    refine PortsOk.of_changes ?_ (changes_deskClaim _ d) (by decide)
    refine portsOk_joinWaiting (s := { s with deskQueue := rest }) ?_ h.run fun hasserted => ?_
    · have hlength := h.queue
      rw [hqueue] at hlength
      exact Nat.le_of_succ_le hlength
    · obtain ⟨-, hempty, -⟩ := h.reset hasserted
      cases hqueue.symm.trans hempty
  · exact h

theorem PortsOk.interlude {s : State} (h : PortsOk s) (i : Interlude) : PortsOk (s.interlude i) := by
  cases i with
  | deskClaim => exact portsOk_takeDeskClaim h
  | step => exact h.of_changes (changes_fadeStep s) (by decide)

/-- The effects of a swap leave the ports; what is taken between them are desk claims and steps (R175). -/
theorem portsOk_mapSwap {gaps : List (List Interlude)} {s t : State} (he : execMapSwap s gaps = .next t)
    (h : PortsOk s) : PortsOk t := by
  unfold execMapSwap at he
  split at he <;> cases he
  · split
    · exact h.of_changes (changes_commandRefused s _ _ _) (by decide)
    · exact runEffects_keeps _
        (fun effect hmem u hu => hu.of_changes (changes_swapEffects s.active effect hmem u) (by decide))
        (fun _ i hu => hu.interlude i) gaps h
  · exact h

/-! ### Resets (R162, R177) -/

theorem portsOk_lineReset {s t : State} (he : exec .lineReset s = .next t) (h : PortsOk s) : PortsOk t := by
  cases hrst : s.rst with
  | true =>
    rw [exec_lineReset_asserted hrst] at he
    cases he
    exact h
  | false =>
    rw [exec_lineReset_released hrst] at he
    cases he
    exact ⟨Nat.zero_le _, nofun, Nat.zero_le _, fun _ => ⟨rfl, rfl, upstreamInTransfer_lineReset s⟩⟩

theorem portsOk_rstRelease {straps : BitVec 2} {s t : State} (he : execRstRelease straps s = .next t)
    (h : PortsOk s) : PortsOk t := by
  unfold execRstRelease at he
  split at he <;> cases he
  · exact portsOk_of_released rfl h.queue h.waits h.run
  · exact h

/-- A RESTART is taken through an idle port, and empties the queue. -/
theorem portsOk_restart {s t : State} (he : execRestart s = .next t) (h : PortsOk s) : PortsOk t := by
  cases he
  refine offerCommand_induction h ⟨h.queue, h.waits, h.run, h.reset⟩ fun htakes => ?_
  obtain ⟨hrst, hport, -⟩ := port_of_ready htakes.1
  have hholds : ({ s with command := 11 } : State).restarted.beginFrameClear.port = .idle := by
    unfold State.beginFrameClear
    dsimp only
    split
    · rfl
    · exact hport
  have hch := changes_beginFrameClear ({ s with command := 11 } : State).restarted
  have hqueue : ({ s with command := 11 } : State).restarted.beginFrameClear.deskQueue = [] :=
    hch .deskQueue (by decide)
  refine portsOk_of_released (Eq.trans (hch .rst (by decide)) hrst) ?_ (fun d hd => ?_)
    (le_of_eq_of_le (hch .runCount (by decide)) h.run)
  · rw [hqueue]
    exact Nat.zero_le _
  · cases hholds.symm.trans hd

/-! ### The downstream port (R160, R161) -/

/-- A grant of an internal requester ends the run of upstream grants, or changes nothing. -/
theorem internalGrant_cases {c : Instr} {s t : State} (he : exec c s = .next t)
    (hc : c = .writeBackGrant ∨ c = .loaderReadGrant ∨ c = .frameClearGrant) :
    t = s ∨ (t.runCount = 0 ∧ t.upstreamInTransfer = false) := by
  rcases hc with rfl | rfl | rfl
  · rcases exec_writeBackGrant_cases he with rfl | ⟨k, -, rfl⟩
    · exact .inl rfl
    · exact .inr ⟨rfl, rfl⟩
  · have he' : execLoaderReadGrant s = .next t := he
    unfold execLoaderReadGrant at he'
    split at he'
    · split at he' <;> cases he'
      · exact .inr ⟨rfl, rfl⟩
      · exact .inl rfl
    all_goals
      cases he'
      exact .inl rfl
  · rcases exec_frameClearGrant_cases he with rfl | ⟨k, -, -, rfl⟩
    · exact .inl rfl
    · exact .inr ⟨rfl, rfl⟩

theorem portsOk_internalGrant {c : Instr} {s t : State} (he : exec c s = .next t)
    (hc : c = .writeBackGrant ∨ c = .loaderReadGrant ∨ c = .frameClearGrant) (h : PortsOk s) : PortsOk t := by
  have hfs : ∀ f ∈ [Field.rst, .port, .deskQueue], f ∉ touched c := by
    rcases hc with rfl | rfl | rfl <;> decide
  rcases internalGrant_cases he hc with rfl | ⟨hrun, hquiet⟩
  · exact h
  · exact h.of_downstream (changes_of_exec he) hfs (hrun ▸ Nat.zero_le _) fun _ => hquiet

/-- At the end of a transfer none is in progress. -/
theorem transfer_transferEnd {s t : State} (he : execTransferEnd s = .next t) : t.transfer = none := by
  unfold execTransferEnd at he
  split at he
  · next hnone =>
    cases he
    exact hnone
  dsimp only at he
  split at he <;> cases he
  · exact changes_endUpstream _ _ .transfer (by decide)
  · exact changes_endUpstream _ _ .transfer (by decide)
  · exact changes_tryFlip _ .transfer (by decide)
  · split
    · rfl
    · exact changes_storeLoaded _ _ _ .transfer (by decide)
  · rfl

theorem portsOk_transferEnd {s t : State} (he : exec .transferEnd s = .next t) (h : PortsOk s) : PortsOk t := by
  have hch := changes_of_exec he
  have hrun : t.runCount = s.runCount := hch .runCount (by decide)
  exact h.of_downstream hch (by decide) (hrun ▸ h.run) fun _ => upstreamInTransfer_of_none (transfer_transferEnd he)

/-! ### Every step -/

theorem exec_portsOk {c : Instr} {s t : State} (he : exec c s = .next t) (h : PortsOk s) : PortsOk t := by
  cases c with
  | power straps =>
    cases he
    exact ⟨Nat.zero_le _, nofun, Nat.zero_le _, fun _ => ⟨rfl, rfl, rfl⟩⟩
  | lineReset => exact portsOk_lineReset he h
  | rstRelease straps => exact portsOk_rstRelease he h
  | stationCellWrite w => exact portsOk_stationCellWrite he h
  | forwardedAccess a => exact portsOk_forwardedAccess he h
  | circuitWindowRead r => exact portsOk_circuitWindowRead he h
  | deskWrite w => exact portsOk_deskWrite he h
  | deskWriteJoins =>
    cases he
    exact portsOk_joinWaiting h.queue h.run h.reset
  | deskClaim =>
    cases he
    exact portsOk_takeDeskClaim h
  | restart => exact portsOk_restart he h
  | writeBackGrant => exact portsOk_internalGrant he (.inl rfl) h
  | loaderReadGrant => exact portsOk_internalGrant he (.inr (.inl rfl)) h
  | frameClearGrant => exact portsOk_internalGrant he (.inr (.inr rfl)) h
  | transferEnd => exact portsOk_transferEnd he h
  | mapSwap gaps => exact portsOk_mapSwap he h
  | _ => exact h.of_changes (changes_of_exec he) (by simp only [touched]; decide)

/-- Settles O52: every command keeps both, and neither the queue of commands nor the passing of time touches them. -/
theorem everyStepKeepsSramCanonicalAndThePortsInOrder : Obligations.EveryStepKeepsSramCanonicalAndThePortsInOrder := by
  exact ⟨stepKeeps_of_exec (fun _ _ _ => exec_memoryWf) (fun _ _ h => h) (fun _ h => h),
    stepKeeps_of_exec (fun _ _ _ => exec_portsOk) (fun _ _ h => ⟨h.queue, h.waits, h.run, h.reset⟩)
      (fun _ h => ⟨h.queue, h.waits, h.run, h.reset⟩)⟩

end Sys2Proof.Machine
end

section
/-! Passing through the part (spec chapter 9), O5, O39, O42 and O44: RST#, forwarded accesses, desk writes and refused
writes. That an access which is not granted is held by the port is log 4; that SRAM takes a write and gives a read its
data at the grant is log 13; that the port does not wait for a transfer granted before an assertion of RST# is log 21;
that a read drives the lanes it selects is log 11. -/

namespace Sys2Proof.Machine

/-! ### RST# (R162, R176, R84) -/

theorem attn_of_causes {s : State} (h : s.causes = 0) : s.attn = false := by
  unfold State.attn
  rw [topCause_of_causes h]
  rfl

/-- An idle port that waits for no transfer, with RST# released, is ready for an access and takes any. -/
theorem port_ready {s : State} (hrst : s.rst = false) (hport : s.port = .idle) (hquiet : s.upstreamInTransfer = false) :
    s.upstreamReady = true ∧ s.rdyLow = false ∧ ∀ a, s.portTakes a = true := by
  have hlow : s.rdyLow = (s.rst || !decide (s.port = .idle) || s.upstreamInTransfer) := rfl
  unfold State.upstreamReady State.portTakes
  rw [hlow, hrst, hport, hquiet]
  exact ⟨rfl, rfl, fun _ => rfl⟩

/-- The state that a release of RST# leaves. -/
def State.released (s : State) (straps : BitVec 2) : State :=
  { s.mapStations (fun _ st => { st with silence := st.silence.map (fun _ => 0) }) with rst := false, base := straps }

theorem exec_rstRelease_asserted {s : State} (straps : BitVec 2) (h : s.rst = true) :
    exec (.rstRelease straps) s = .next (s.released straps) := if_pos h

theorem station_released (s : State) (straps : BitVec 2) (n : StationId) : (s.released straps).station n =
    { s.station n with silence := (s.station n).silence.map (fun _ => 0) } :=
  State.station_mapStations s (fun _ st => { st with silence := st.silence.map (fun _ => 0) }) n

/-- Settles O5: the state that each edge of RST# leaves, field by field. -/
theorem rstLineClearsThePortsAndKeepsTheLighting : Obligations.RstLineClearsThePortsAndKeepsTheLighting := by
  refine ⟨fun s hrst => ?_, fun straps s hrst => ?_⟩
  · have hstatus : ∀ {status}, s.status = status → s.lineReset.status = status.afterLine :=
      congrArg CommandStatus.afterLine
    have htransfer : ∀ {x}, s.transfer = x → s.lineReset.transfer = x.map Transfer.pastLine :=
      congrArg (Option.map Transfer.pastLine)
    exact ⟨_, exec_lineReset_released hrst, rfl, rfl, rfl, rfl, rfl, rfl, attn_of_causes rfl, rfl,
      not_swapPending_lineReset s, fun k => hstatus, hstatus, hstatus, hstatus, afterLine_of_not_running, htransfer,
      fun x hx => ⟨x.pastLine, htransfer hx, rfl, fun k d => congrArg Requester.abandoned,
        congrArg Requester.abandoned, abandoned_of_kept⟩, upstreamInTransfer_lineReset s, rfl⟩
  · have hsilence : ∀ n {timer}, (s.station n).silence = timer →
        ((s.released straps).station n).silence = timer.map (fun _ => 0) := fun n timer h => by
      rw [station_released, h]
    refine ⟨_, exec_rstRelease_asserted straps hrst, rfl, rfl,
      fun n => ⟨hsilence n, fun ms => hsilence n, ?_⟩, rfl, fun hports => ?_⟩
    · rw [station_released]
    · obtain ⟨hport, -, hquiet⟩ := hports.reset hrst
      obtain ⟨hready, hlow, htakes⟩ := port_ready (s := s.released straps) rfl hport hquiet
      exact ⟨hready, hlow, htakes, fun a hforwards hbusy =>
        exec_forwardedAccess_held hforwards ⟨rfl, .inl hport, hquiet, .inl hbusy⟩⟩

/-! ### Forwarded accesses (R154, R155, R157, R160, R161) -/

/-- Settles O39: what is forwarded by region, the grant or the wait for it, and the end of the transfer. -/
theorem forwardedAccessIsGrantedOrHeldAndAnswered : Obligations.ForwardedAccessIsGrantedOrHeldAndAnswered := by
  refine ⟨fun s a => ⟨forwards_outside, fun offset => forwards_no_byte, fun offset haddr hlanes => ?_⟩,
    fun s a hforwards => ?_, fun s who addr lanes data hwho => ⟨exec_transferEnd_upstream hwho,
      exec_transferEnd_upstream hwho⟩⟩
  · have hregion : ∀ {region}, regionOf offset = region → (s.forwards a = true ↔ s.forwardsIn a region) :=
      fun h => h ▸ forwards_iff haddr hlanes
    exact ⟨fun h => Bool.eq_false_iff.2 (hregion (regionOf_control h)).1,
      fun hlo hhi => hregion (regionOf_station hlo hhi),
      fun hlo hhi => Bool.eq_false_iff.2 (hregion (regionOf_circuitWindow hlo hhi)).1,
      fun hlo hhi => Bool.eq_false_iff.2 (hregion (regionOf_viewWindow hlo hhi)).1,
      fun hlo hhi => hregion (regionOf_frameA hlo hhi), fun hlo hhi => hregion (regionOf_frameB hlo hhi),
      fun h => hregion (regionOf_mapRegion h), fun h => (hregion (regionOf_other h)).2 trivial⟩
  · intro addr outside dest cell
    have hdest : s.downstreamAddress a.addr = dest := downstreamAddress_eq s a.addr
    have hcell : cellAddress dest = cell := hdest ▸ cellAddress_downstreamAddress s a.addr
    refine ⟨fun hgranted => ⟨?_, ?_⟩, exec_forwardedAccess_held hforwards⟩
    · rintro r rfl
      rw [exec_forwardedAccess_read hforwards, takeAtGrant_granted hgranted, ← hcell, ← hdest]
      rfl
    · rintro w rfl hwf
      have hlt : cell + 1 < 2 ^ 20 := cell_succ_lt w.addr
      have hexec := exec_forwardedAccess_write hforwards
      rw [takeAtGrant_granted hgranted, show s.downstreamAddress w.addr = dest from hdest] at hexec
      unfold State.startWrite at hexec
      rw [hcell] at hexec
      exact ⟨_, hexec, Memory.read_writeCell_lo hwf, Memory.read_writeCell_hi hwf (Nat.lt_of_succ_lt hlt),
        fun x => Memory.read_writeCell_ne, rfl⟩

/-! ### Desk writes (R158, R159) -/

/-- Settles O42: the judgement on width and value, and the join at the tail or the wait for a slot. -/
theorem deskWriteIsJudgedOnWidthThenValue : Obligations.DeskWriteIsJudgedOnWidthThenValue := by
  refine ⟨fun s w c haddr hlanes hready => ?_, fun s d hport => ⟨fun hfree => ?_, fun hfull => ?_⟩⟩
  · intro refused accepted
    have hrefused := exec_deskWrite_refused haddr hlanes hready
    have haccepted := exec_deskWrite_accepted haddr hlanes hready
    rw [deskAccepted_iff] at hrefused haccepted
    refine ⟨fun hnarrow => hrefused fun ⟨hwide, _⟩ => ?_, fun _ hvalue => hrefused fun ⟨_, h⟩ => hvalue h,
      fun hwide hvalue hfree => ?_, fun hwide hvalue hfull => ?_⟩
    · cases hnarrow.symm.trans hwide
    · exact (haccepted ⟨hwide, hvalue⟩).trans (congrArg Host.Outcome.next (if_pos hfree))
    · exact (haccepted ⟨hwide, hvalue⟩).trans (congrArg Host.Outcome.next (if_neg (Nat.not_lt.2 hfull)))
  · exact congrArg Host.Outcome.next (joinWaiting_of_free hport hfree)
  · exact congrArg Host.Outcome.next (joinWaiting_of_full hfull)

/-! ### Refused writes and accesses that select no byte (R156, R157) -/

/-- Settles O44: each row of R156's table names its counter. -/
theorem refusedWriteIsOnlyCounted : Obligations.RefusedWriteIsOnlyCounted := by
  refine ⟨fun s w offset haddr hlanes hready => ?_, fun s addr tag data offset haddr hready =>
    ⟨exec_noByteAccess_read hready haddr rfl, exec_noByteAccess_write hready haddr rfl⟩⟩
  intro refused wide
  have hcount : ∀ {k}, s.refusalCounter w = some k → exec (.refusedWrite w) s = .next (refused k) :=
    exec_refusedWrite hready
  refine ⟨fun hlo hhi hbad => hcount (refusalCounter_circuitWindow haddr hlanes (regionOf_circuitWindow hlo hhi) ?_),
    fun hlo hhi => hcount (refusalCounter_readOnly haddr hlanes (.inl (regionOf_viewWindow hlo hhi))),
    fun hlo hhi => hcount (refusalCounter_readOnly haddr hlanes (.inr (.inl (regionOf_frameA hlo hhi)))),
    fun hlo hhi => hcount (refusalCounter_readOnly haddr hlanes (.inr (.inr (regionOf_frameB hlo hhi)))),
    fun hlo hclosed => hcount (refusalCounter_mapRegion haddr hlanes (regionOf_mapRegion hlo) hclosed),
    fun hlt hbad => hcount (refusalCounter_control haddr hlanes (regionOf_control hlt) ?_)⟩
  · rw [deskAccepted_iff]
    rintro ⟨hwide, hvalue⟩
    rcases hbad with hnarrow | ⟨hlarge, hremove⟩
    · exact hnarrow hwide
    · exact hvalue.elim (Nat.not_le.2 hlarge) hremove
  · rw [Bool.and_eq_true, decide_eq_true_eq, eq_both_iff, controlWritable_iff]
    rintro ⟨hwide, hcell⟩
    rcases hbad with hnarrow | hreadOnly
    · exact hnarrow hwide
    · omega

end Sys2Proof.Machine
end

section
/-! Control and command (spec chapter 10), O46, O47, O6 and O48: the command cell, the immediate commands, RESTART, and
the take and the load of a COMMIT. -/

namespace Sys2Proof.Machine

/-! ### The command cell (R169) -/

theorem namesNoCommand_iff {v : Word} : namesNoCommand v = true ↔ v.toNat = 0 ∨ 12 ≤ v.toNat := by
  rw [namesNoCommand, Bool.or_eq_true, beq_iff_eq, decide_eq_true_eq]

theorem exec_unknownCommand {v : Word} (h : v.toNat = 0 ∨ 12 ≤ v.toNat) (s : State) :
    exec (.unknownCommand v) s = .next (s.offerCommand v (fun t => t.commandRefused .unknown 0 0)) :=
  congrArg Host.Outcome.next (if_pos (namesNoCommand_iff.2 h))

/-- Settles O46: every row of the command cell is an offer of its value. -/
theorem commandIsCountedWhenBusyAndRefusedWhenUnknown :
    Obligations.CommandIsCountedWhenBusyAndRefusedWhenUnknown := by
  refine ⟨fun s hready hrunning => ?busy, fun s v htakes hunknown => ?unknown⟩
  case busy =>
    intro busy
    have hoffer : ∀ (v : Word) (act : State → State),
        (.next (s.offerCommand v act) : Host.Outcome State Fault Refusal) = .next (busy v) :=
      fun v act => congrArg Host.Outcome.next (offerCommand_busy hready hrunning v act)
    exact ⟨hoffer 1 _, hoffer 2 _, hoffer 3 _, hoffer 4 _, hoffer 5 _, hoffer 6 _, hoffer 7 _, hoffer 8 _, hoffer 9 _,
      hoffer 10 _, hoffer 11 _, fun v hunknown => (exec_unknownCommand hunknown s).trans (hoffer v _)⟩
  case unknown =>
    exact (exec_unknownCommand hunknown s).trans (congrArg Host.Outcome.next (offerCommand_taken htakes v _))

/-! ### Immediate commands (R140, R171, R172) -/

/-- The contributions of the owners that satisfy `p` are gone from every list, and a circuit that held one is recomputed
(R44, R172). -/
theorem circuit_removeOwned (s : State) (p : Owner → Bool) (c : CircuitId) :
    ((s.removeOwned p).circuit c).list = (s.circuit c).list.filter (fun x => !p x.owner) ∧
    ((s.removeOwned p).circuit c).slot = (s.circuit c).slot ∧
    ((s.circuit c).list.any (fun x => p x.owner) = true →
      Recomputed s.active s.mode c (s.circuit c) ((s.removeOwned p).circuit c)) ∧
    ((s.circuit c).list.any (fun x => p x.owner) = false → (s.removeOwned p).circuit c = s.circuit c) := by
  unfold State.removeOwned
  cases hany : (s.circuit c).list.any (fun x => p x.owner) with
  | true =>
    obtain ⟨hlist, hslot, hrecomputed⟩ := touched_updateLists (s := s)
      (touch := fun _ cs => cs.list.any (fun x => p x.owner))
      (f := fun _ cs => removeWhere (fun x => p x.owner) cs.list) hany
    exact ⟨hlist, hslot, fun _ => hrecomputed, nofun⟩
  | false =>
    have hkept : (s.circuit c).list.filter (fun x => !p x.owner) = (s.circuit c).list :=
      List.filter_eq_self.2 (fun x hx => by simpa using List.any_eq_false.1 hany x hx)
    rw [untouched_updateLists hany, hkept]
    exact ⟨rfl, rfl, nofun, fun _ => rfl⟩

theorem eq_isDesk {p : Owner → Bool} (hdesk : ∀ tag, p (.desk tag) = true) (hstation : ∀ n, p (.station n) = false) :
    p = Owner.isDesk := by
  funext o
  cases o with
  | desk tag => exact hdesk tag
  | station n => exact hstation n

section ReleaseDesk
variable {s : State} (h : s.takesCommand)
include h

theorem exec_releaseDesk_tag (tag : TagId) (htag : s.parameter.toNat = tag.val) : exec .releaseDesk s =
    .next (({ s with command := 10 }.removeOwned (fun o => decide (o = Owner.desk tag))).commandDone 0) := by
  have hlt : s.parameter.toNat < 8 := htag ▸ tag.isLt
  have heq : (⟨s.parameter.toNat, hlt⟩ : TagId) = tag := Fin.ext htag
  refine congrArg Host.Outcome.next ((offerCommand_taken h 10 _).trans ?_)
  rw [← heq]
  exact dif_pos hlt

theorem exec_releaseDesk_all (hall : s.parameter = 0xFFFF) : exec .releaseDesk s =
    .next (({ s with command := 10 }.removeOwned Owner.isDesk).commandDone 0) := by
  refine congrArg Host.Outcome.next ((offerCommand_taken h 10 _).trans ?_)
  have hge : ¬ s.parameter.toNat < 8 := by rw [hall]; decide
  exact (dif_neg hge).trans (if_pos hall)

theorem exec_releaseDesk_bad (hge : 8 ≤ s.parameter.toNat) (hne : s.parameter ≠ 0xFFFF) : exec .releaseDesk s =
    .next { s with command := 10, status := .refused .badParameter 1 0, causes := Cause.command.mark s.causes } := by
  refine congrArg Host.Outcome.next ((offerCommand_taken h 10 _).trans ?_)
  exact (dif_neg (Nat.not_lt.2 hge)).trans (if_neg hne)

end ReleaseDesk

/-- Settles O47: two commands set one field, and RELEASE_DESK is one claim on the lists. -/
theorem immediateCommandsTakeEffectAtOnce : Obligations.ImmediateCommandsTakeEffectAtOnce := by
  refine fun s htakes => ⟨congrArg Host.Outcome.next (offerCommand_taken htakes 2 _),
    congrArg Host.Outcome.next (offerCommand_taken htakes 9 _), fun p hp => ?released, exec_releaseDesk_bad htakes⟩
  have hexec : exec .releaseDesk s = .next (({ s with command := 10 }.removeOwned p).commandDone 0) := by
    rcases hp with ⟨tag, htag, rfl⟩ | ⟨hall, hp⟩
    · exact exec_releaseDesk_tag htakes tag htag
    · rw [eq_isDesk (fun tag => congrFun hp (.desk tag)) (fun n => congrFun hp (.station n))]
      exact exec_releaseDesk_all htakes hall
  exact ⟨_, hexec, circuit_removeOwned { s with command := 10 } p, rfl⟩

/-! ### RESTART (R177) -/

/-- A frame clear that begins while the port holds no access leaves the port as it is (R151, R157). -/
theorem beginFrameClear_of_idle {s : State} (h : s.port = .idle) :
    s.beginFrameClear = { s with front := .a, clear := some 0 } := by
  have hholds : s.holdsWindowRead = false := by
    unfold State.holdsWindowRead
    rw [h]
  unfold State.beginFrameClear
  rw [hholds]
  rfl

/-- What a RESTART that is taken leaves: its value stored, the part as POWER leaves it, and a frame clear begun. -/
def State.afterRestart (s : State) : State :=
  { ({ s with command := 11 } : State).restarted with front := .a, clear := some 0 }

theorem exec_restart_taken {s : State} (h : s.takesCommand) : exec .restart s = .next s.afterRestart := by
  obtain ⟨-, hport, -⟩ := port_of_ready h.1
  refine congrArg Host.Outcome.next ((offerCommand_taken h 11 _).trans ?_)
  exact beginFrameClear_of_idle (s := ({ s with command := 11 } : State).restarted) hport

/-- Settles O6: every field of the state after the RESTART is the field of POWER or the field before. -/
theorem restartReturnsTheLightingStateToItsBeginning : Obligations.RestartReturnsTheLightingStateToItsBeginning := by
  intro s htakes
  have hcircuit : ∀ c, s.afterRestart.circuit c = CircuitState.initial := circuit_of_fill rfl
  have hstation : ∀ n, s.afterRestart.station n = StationState.initial := station_of_fill rfl
  have hegress : ∀ {line}, s.egrLine = line → s.afterRestart.egress = sampledEgress line := congrArg sampledEgress
  refine ⟨s.afterRestart, exec_restart_taken htakes, ⟨rfl, rfl, rfl, rfl⟩, ⟨rfl, rfl, rfl⟩,
    ⟨hcircuit, poolFree_of_nil (fun c => congrArg CircuitState.list (hcircuit c))⟩, ⟨rfl, rfl, rfl⟩, hegress, hegress,
    ⟨rfl, rfl, rfl, rfl, rfl⟩, fun n => ?stations, rfl, fun k => ?counters, rfl,
    ⟨rfl, rfl, rfl, flipPending_of_clear rfl⟩, ⟨rfl, rfl, rfl, rfl, rfl, rfl, rfl, rfl, rfl, rfl, rfl, rfl⟩⟩
  case stations =>
    rw [hstation n]
    exact ⟨rfl, Table.get_fill InputState.initial, rfl, rfl, rfl, rfl, rfl⟩
  case counters => cases k <;> rfl

/-! ### The take of a COMMIT (R139, R173) -/

section Commit
variable {s : State} (h : s.takesCommand)
include h

theorem exec_commit_taken : exec .commit s = .next ({ s with command := 1 } : State).takeCommit :=
  congrArg Host.Outcome.next (offerCommand_taken h 1 _)

theorem exec_commit_closed (hclosed : s.mapClosed = true) : exec .commit s =
    .next { s with command := 1, status := .refused .closed 0 0, causes := Cause.command.mark s.causes } :=
  (exec_commit_taken h).trans (congrArg Host.Outcome.next (if_pos hclosed))

theorem exec_commit_locked (hclosed : s.mapClosed = false) (hlocked : s.locked = true) : exec .commit s =
    .next { s with command := 1, status := .refused .locked 0 0, causes := Cause.command.mark s.causes } :=
  (exec_commit_taken h).trans
    (congrArg Host.Outcome.next ((if_neg (Bool.eq_false_iff.1 hclosed)).trans (if_pos hlocked)))

theorem exec_commit_begun (hclosed : s.mapClosed = false) (hlocked : ¬ s.locked = true) : exec .commit s =
    .next { s with command := 1, status := .commitRunning (.loading 0) } :=
  (exec_commit_taken h).trans
    (congrArg Host.Outcome.next ((if_neg (Bool.eq_false_iff.1 hclosed)).trans (if_neg hlocked)))

end Commit

/-! ### The load (R160, R173) -/

theorem exec_loaderReadGrant_granted {s : State} {k : Nat} (hstatus : s.status = .commitRunning (.loading k))
    (hgrant : s.grantsInternal = true) (hwriteBack : s.writeBackRequests = false) :
    exec .loaderReadGrant s = .next { s with
      runCount := 0
      transfer := some ⟨.loader k false, ⟨windowAddress s.base (imageOffset k), false, Lanes.both,
        Memory.readCell s.mem (windowAddress s.base (imageOffset k))⟩⟩ } := by
  show execLoaderReadGrant s = _
  unfold execLoaderReadGrant
  rw [hstatus]
  dsimp only
  rw [hgrant, hwriteBack]
  rfl

theorem exec_transferEnd_loader {s : State} {k : Nat} {discarded : Bool} {cycle : BusCycle}
    (h : s.transfer = some ⟨.loader k discarded, cycle⟩) : exec .transferEnd s = .next (if discarded then
      { s with transfer := none } else ({ s with transfer := none } : State).storeLoaded k cycle.data) := by
  show execTransferEnd s = _
  unfold execTransferEnd
  rw [h]

/-- The phase of a COMMIT that has loaded `k` cells (R173). -/
def phaseAfter (k : Nat) : CommitPhase := if k < Config.imageCells then .loading k else .validating

theorem storeLoaded_loading {s : State} {k : Nat} (h : s.status = .commitRunning (.loading k)) (index : Nat)
    (data : Word) : s.storeLoaded index data = { s with
      standby := s.standby.setCell (imageOffset index) data, status := .commitRunning (phaseAfter (k + 1)) } := by
  unfold State.storeLoaded
  rw [h]
  rfl

/-- Settles O48: the order of the tests at the take, the read at its grant, and the cell stored when the read ends
(log 13). -/
theorem commitIsJudgedAtItsTakeAndLoadsCellByCell : Obligations.CommitIsJudgedAtItsTakeAndLoadsCellByCell := by
  refine ⟨fun s htakes => ?take, fun s k hstatus hfree hturn hwriteBack => ?grant,
    fun s k cycle htransfer hstatus => ?loaded, fun s k cycle => exec_transferEnd_loader,
    rfl, rfl, rfl, rfl, rfl, rfl, rfl, rfl⟩
  case take =>
    exact ⟨exec_commit_closed htakes, fun hclosed hshut => exec_commit_locked htakes hclosed (locked_iff.2 hshut),
      fun hclosed hopen => exec_commit_begun htakes hclosed (fun hlocked => hopen (locked_iff.1 hlocked))⟩
  case grant => exact exec_loaderReadGrant_granted hstatus (grantsInternal_of hfree hturn) hwriteBack
  case loaded =>
    have hstored := storeLoaded_loading (s := { s with transfer := none }) hstatus k cycle.data
    refine ⟨_, (exec_transferEnd_loader htransfer).trans (congrArg Host.Outcome.next hstored),
      Bank.cell_setCell_self, fun o ho => Bank.cell_setCell_ne ho, fun hmore => ?_, fun hlast => ?_, rfl⟩
    · exact congrArg CommandStatus.commitRunning (if_pos hmore)
    · exact congrArg CommandStatus.commitRunning (if_neg (Nat.not_lt.2 hlast))

end Sys2Proof.Machine
end

section
/-! Control and command (spec chapter 10), O49: the order of validation (R19, R174), the records as their cells hold
them (R168), and what the check of each table asks (R12, R20, R21, R22). -/

namespace Sys2Proof.Machine

/-! ### The order of validation (R19) -/

/-- The first record of a table that fails its check, with the number of the table. -/
def firstFailing (t : Nat × Nat × (Nat → Bool)) : Option (Nat × Nat) :=
  ((List.range t.2.1).find? (fun k => !t.2.2 k)).map (fun k => (t.1, k))

theorem firstFault_eq (b : Bank) : b.firstFault = (validationTables b).findSome? firstFailing := rfl

section Order
variable {b : Bank} {number table index size : Nat} {check : Nat → Bool}

theorem firstFailing_none {t : Nat × Nat × (Nat → Bool)} :
    firstFailing t = none ↔ ∀ j, j < t.2.1 → t.2.2 j = true := by
  simp only [firstFailing, Option.map_eq_none_iff, List.find?_range_eq_none, Bool.not_not]

theorem firstFailing_some (h : firstFailing (number, size, check) = some (table, index)) :
    number = table ∧ index < size ∧ check index = false ∧ ∀ j, j < index → check j = true := by
  obtain ⟨k, hfound, heq⟩ := Option.map_eq_some_iff.1 h
  cases heq
  obtain ⟨hfails, hmem, hfirst⟩ := List.find?_range_eq_some.1 hfound
  exact ⟨rfl, List.mem_range.1 hmem, by simpa using hfails, fun j hj => by simpa using hfirst j hj⟩

/-- A map is valid exactly when every record of every table passes (R19). -/
theorem valid_iff : b.valid = true ↔ ∀ t ∈ validationTables b, ∀ j, j < t.2.1 → t.2.2 j = true := by
  simp only [Bank.valid, firstFault_eq, Option.isNone_iff_eq_none, List.findSome?_eq_none_iff, firstFailing_none]

theorem validationTables_ascend (b : Bank) : (validationTables b).Pairwise (fun t u => t.1 < u.1) := by
  have hnumbers : ((validationTables b).map (fun t => t.1)).Pairwise (fun m n => m < n) :=
    show [1, 2, 3, 4, 5, 6, 7, 8, 9, 10].Pairwise (fun m n : Nat => m < n) by decide
  exact List.pairwise_map.1 hnumbers

/-- The first fault is the first failing record of its table, and the tables before it pass (R19, R174). -/
theorem firstFault_spec (h : b.firstFault = some (table, index)) :
    ∃ size check, (table, size, check) ∈ validationTables b ∧ index < size ∧ check index = false ∧
      (∀ j, j < index → check j = true) ∧
      ∀ t ∈ validationTables b, t.1 < table → ∀ j, j < t.2.1 → t.2.2 j = true := by
  rw [firstFault_eq] at h
  obtain ⟨ahead, ⟨number, size, check⟩, behind, htables, hfails, hpass⟩ := List.findSome?_eq_some_iff.1 h
  obtain ⟨rfl, hindex, hfalse, hfirst⟩ := firstFailing_some hfails
  have hascend := validationTables_ascend b
  rw [htables] at hascend ⊢
  obtain ⟨-, hbehind, -⟩ := List.pairwise_append.1 hascend
  refine ⟨size, check, List.mem_append_right _ List.mem_cons_self, hindex, hfalse, hfirst, fun t ht hbefore => ?_⟩
  rcases List.mem_append.1 ht with hahead | hrest
  · exact firstFailing_none.1 (hpass t hahead)
  · rcases List.mem_cons.1 hrest with rfl | hlater
    · exact absurd hbefore (Nat.lt_irrefl _)
    · exact absurd hbefore (Nat.lt_asymm ((List.pairwise_cons.1 hbehind).1 t hlater))

end Order

section Ends
variable {s : State} (h : s.status = .commitRunning .validating)
include h

theorem exec_validationEnds_invalid {table index : Nat} (hfault : s.standby.firstFault = some (table, index)) :
    exec .validationEnds s =
      .next { s with status := .refused .invalid table index, causes := Cause.command.mark s.causes } := by
  refine (if_pos h).trans ?_
  rw [hfault]
  rfl

theorem exec_validationEnds_valid (hvalid : s.standby.valid = true) :
    exec .validationEnds s = .next { s with status := .commitRunning .swapPending } := by
  refine (if_pos h).trans ?_
  rw [Option.isNone_iff_eq_none.1 hvalid]

end Ends

/-! ### The records, from their cells (R168) -/

theorem testBit_loByte (w : Word) {j : Nat} (h : j < 8) : (loByte w).toNat.testBit j = w.getLsbD j := by
  rw [BitVec.testBit_toNat, loByte, BitVec.getLsbD_setWidth, decide_eq_true h, Bool.true_and]

theorem testBit_hiByte (w : Word) {j : Nat} (h : j < 8) : (hiByte w).toNat.testBit j = w.getLsbD (8 + j) := by
  rw [BitVec.testBit_toNat, hiByte, BitVec.getLsbD_setWidth, BitVec.getLsbD_ushiftRight, decide_eq_true h,
    Bool.true_and]

section Records
variable (b : Bank) (k : Nat)

theorem circuitRec_eq : b.circuitRec k = ⟨(b.cell (0x2200 + 4 * k)).toNat % 256,
    (b.cell (0x2200 + 4 * k)).toNat / 256 % 4, (b.cell (0x2200 + 4 * k)).getLsbD 10,
    (b.cell (0x2200 + 4 * k)).toNat / 2048, (b.cell (0x2200 + 4 * k + 2)).toNat⟩ := by
  simp only [Bank.circuitRec, toNat_loByte, testBit_hiByte _ (show 2 < 8 by decide)]
  simp only [toNat_hiByte, Nat.div_div_eq_div_mul]

theorem stationRec_eq : b.stationRec k =
    (let bit := fun j => (b.cell (0x2800 + 8 * k)).getLsbD j
     ⟨bit 0, bit 1, bit 2, bit 3, bit 4, bit 5, bit 6, bit 7, (b.cell (0x2800 + 8 * k)).toNat / 256,
      (b.cell (0x2800 + 8 * k + 2)).toNat % 256, (b.cell (0x2800 + 8 * k + 2)).toNat / 256,
      b.cell (0x2800 + 8 * k + 4)⟩) := by
  simp (disch := decide) only [Bank.stationRec, testBit_loByte]
  simp only [toNat_loByte, toNat_hiByte]

theorem bindingRec_eq : b.bindingRec k = ⟨(b.cell (0x4800 + 8 * k)).toNat % 256, seqOf (b.cell (0x4800 + 8 * k + 2)),
    seqOf (b.cell (0x4800 + 8 * k + 4)), seqOf (b.cell (0x4800 + 8 * k + 6))⟩ := by
  rw [Bank.bindingRec, toNat_loByte]

theorem actionRec_eq : b.actionRec k = ⟨(b.cell (0x8000 + 8 * k)).toNat % 256, (b.cell (0x8000 + 8 * k)).toNat / 256,
    (b.cell (0x8000 + 8 * k + 2)).toNat, (b.cell (0x8000 + 8 * k + 4)).toNat, (b.cell (0x8000 + 8 * k + 6)).toNat % 256,
    (b.cell (0x8000 + 8 * k + 6)).getLsbD 8, (b.cell (0x8000 + 8 * k + 6)).toNat / 512⟩ := by
  simp only [Bank.actionRec, testBit_hiByte _ (show 0 < 8 by decide)]
  simp only [toNat_loByte, toNat_hiByte, Nat.div_div_eq_div_mul]

end Records

/-! ### The checks of fields alone (R9, R20) -/

section Fields
variable {b : Bank} {k : Nat}

theorem profileOk_iff : b.profileOk k = true ↔ b.profileTime k ≤ 600 := decide_eq_true_iff

theorem zoneOk_iff : b.zoneOk k = true ↔ ∀ j, j < 10 → b.ceilingCell k j ≤ Config.fullLevel := by
  simp only [Bank.zoneOk, List.all_eq_true, List.mem_range, decide_eq_true_eq]

theorem circuitOk_iff : b.circuitOk k = true ↔ (b.circuitRec k).zone ≤ 15 ∧ (b.circuitRec k).mergeCode ≤ 1 ∧
    (b.circuitRec k).profile ≤ 7 ∧ (b.circuitRec k).rest ≤ Config.fullLevel := by
  simp only [Bank.circuitOk, Bool.and_eq_true, decide_eq_true_eq, and_assoc]

theorem stationOk_iff : b.stationOk k = true ↔ (b.stationRec k).classCode ≤ 2 ∧ 1 ≤ (b.stationRec k).inputsUsed ∧
    (b.stationRec k).inputsUsed ≤ 16 ∧ (b.stationRec k).silenceLimit ≤ 15 ∧
    (96 ≤ k → (b.stationRec k).silenceLimit = 0) := by
  simp only [Bank.stationOk, Bool.and_eq_true, Bool.or_eq_true, decide_eq_true_eq, beq_iff_eq, and_assoc,
    or_iff_not_imp_left, Nat.not_lt]

theorem memberOk_iff : b.memberOk k = true ↔ b.memberCircuit k ≤ 383 := decide_eq_true_iff

theorem itemOk_iff : b.itemOk k = true ↔ b.itemCircuit k ≤ 383 ∧ b.itemLevel k ≤ Config.fullLevel := by
  simp only [Bank.itemOk, Bool.and_eq_true, decide_eq_true_eq]

end Fields

/-! ### Groups and scenes (R21) -/

theorem nodup_map_range {f : Nat → Nat} {n : Nat} :
    ((List.range n).map f).Nodup ↔ ∀ i j, i < j → j < n → f i ≠ f j := by
  rw [List.Nodup, List.pairwise_map, List.pairwise_iff_getElem]
  simp only [List.length_range, List.getElem_range]
  exact ⟨fun h i j hij hj => h i j (hij.trans hj) hj hij, fun h i j _ hj hij => h i j hij hj⟩

section Runs
variable {b : Bank} {k : Nat}

theorem groupOk_iff : b.groupOk k = true ↔ (b.groupRec k).start ≤ 1023 ∧ (b.groupRec k).count ≤ 128 ∧
    ((b.groupRec k).count ≠ 0 → (b.groupRec k).start + (b.groupRec k).count ≤ 1024 ∧
      ∀ i j, i < j → j < (b.groupRec k).count →
        b.memberCircuit ((b.groupRec k).start + i) ≠ b.memberCircuit ((b.groupRec k).start + j)) := by
  have hnodup : (b.groupMembers k).Nodup ↔ _ := nodup_map_range
  simp only [Bank.groupOk, Bool.and_eq_true, Bool.or_eq_true, decide_eq_true_eq, beq_iff_eq, and_assoc,
    or_iff_not_imp_left, hnodup, ne_eq]

theorem sceneOk_iff : b.sceneOk k = true ↔ (b.sceneRec k).start ≤ 1023 ∧ (b.sceneRec k).count ≤ 256 ∧
    ((b.sceneRec k).count ≠ 0 → (b.sceneRec k).start + (b.sceneRec k).count ≤ 1024 ∧
      ∀ i j, i < j → j < (b.sceneRec k).count →
        b.itemCircuit ((b.sceneRec k).start + i) ≠ b.itemCircuit ((b.sceneRec k).start + j)) := by
  have hcircuits : (b.sceneItems k).map (fun item => item.1) =
      (List.range (b.sceneRec k).count).map (fun j => b.itemCircuit ((b.sceneRec k).start + j)) := List.map_map
  simp only [Bank.sceneOk, Bool.and_eq_true, Bool.or_eq_true, decide_eq_true_eq, beq_iff_eq, and_assoc,
    or_iff_not_imp_left, hcircuits, nodup_map_range, ne_eq]

end Runs

/-! ### Actions (R12, R20, R21) -/

/-- The code of a kind of action (R168). -/
def ActionKind.code : ActionKind → Nat
  | .set => 0
  | .toggle => 1
  | .raise => 2
  | .lower => 3
  | .release => 4
  | .scene => 5
  | .mode => 6
  | .hold => 7
  | .resume => 8
  | .amend => 9
  | .restore => 10

theorem kindOfCode_iff {code : Nat} {kind : ActionKind} : kindOfCode code = some kind ↔ code = kind.code := by
  constructor
  · intro h
    unfold kindOfCode at h
    split at h <;> cases h <;> rfl
  · rintro rfl
    cases kind <;> rfl

theorem kindOfCode_none {code : Nat} (h : kindOfCode code = none) : 11 ≤ code := by
  by_contra hlt
  interval_cases code <;> cases h

section Actions
variable {b : Bank} {a : ActionRec}

/-- The target of an action on circuits, in the words of R12 and R21. -/
def Bank.Targets (b : Bank) (a : ActionRec) : Prop :=
  (a.targetType = 0 ∧ a.targetIndex ≤ 383) ∨
  (a.targetType = 1 ∧ a.targetIndex ≤ 63 ∧ (b.groupRec a.targetIndex).count ≠ 0) ∨
  (a.targetType = 2 ∧ a.targetIndex ≤ 15)

/-- No target, in the words of R12. -/
def ActionRec.Untargeted (a : ActionRec) : Prop := a.targetType = 3 ∧ a.targetIndex = 0 ∧ a.level = 0

theorem targetOk_iff : b.targetOk a = true ↔ b.Targets a := by
  unfold Bank.targetOk Bank.Targets
  split
  · next hcircuit => simp [hcircuit]
  · next hgroup => simp [hgroup]
  · next hzone => simp [hzone]
  · next hcircuit hgroup hzone =>
    exact ⟨nofun, fun h => h.elim (fun h0 => (hcircuit h0.1).elim)
      (fun h => h.elim (fun h1 => (hgroup h1.1).elim) (fun h2 => (hzone h2.1).elim))⟩

theorem noTarget_iff : a.noTarget = true ↔ a.Untargeted := by
  simp only [ActionRec.noTarget, ActionRec.Untargeted, Bool.and_eq_true, beq_iff_eq, and_assoc]

/-- The fields of SET and TOGGLE (R12). -/
theorem actionFieldsOk_level {kind : ActionKind} (h : kind = .set ∨ kind = .toggle) :
    b.actionFieldsOk a kind = true ↔ b.Targets a ∧ a.level ≤ Config.fullLevel ∧ a.profile ≤ 8 ∧ a.exclusive = false ∧
      a.param = 0 := by
  rcases h with rfl | rfl <;>
    simp only [Bank.actionFieldsOk, Bool.and_eq_true, decide_eq_true_eq, beq_iff_eq, Bool.not_eq_true', targetOk_iff,
      and_assoc]

/-- The fields of RAISE, LOWER and RELEASE (R12). -/
theorem actionFieldsOk_noLevel {kind : ActionKind} (h : kind = .raise ∨ kind = .lower ∨ kind = .release) :
    b.actionFieldsOk a kind = true ↔ b.Targets a ∧ a.level = 0 ∧ a.profile ≤ 8 ∧ a.exclusive = false ∧
      a.param = 0 := by
  rcases h with rfl | rfl | rfl <;>
    simp only [Bank.actionFieldsOk, Bool.and_eq_true, decide_eq_true_eq, beq_iff_eq, Bool.not_eq_true', targetOk_iff,
      and_assoc]

/-- The fields of SCENE (R12, R21). -/
theorem actionFieldsOk_scene : b.actionFieldsOk a .scene = true ↔ a.Untargeted ∧ a.profile ≤ 8 ∧ a.param ≤ 31 ∧
    (b.sceneRec a.param).count ≠ 0 := by
  simp only [Bank.actionFieldsOk, Bool.and_eq_true, decide_eq_true_eq, bne_iff_ne, noTarget_iff, and_assoc]

/-- The fields of MODE (R12). -/
theorem actionFieldsOk_mode : b.actionFieldsOk a .mode = true ↔ a.Untargeted ∧ a.profile = 0 ∧ a.exclusive = false ∧
    a.param ≤ 4 := by
  simp only [Bank.actionFieldsOk, Bool.and_eq_true, decide_eq_true_eq, beq_iff_eq, Bool.not_eq_true', noTarget_iff,
    and_assoc]

/-- The fields of HOLD, RESUME, AMEND and RESTORE (R12). -/
theorem actionFieldsOk_house {kind : ActionKind} (h : kind = .hold ∨ kind = .resume ∨ kind = .amend ∨ kind = .restore) :
    b.actionFieldsOk a kind = true ↔ a.Untargeted ∧ a.profile = 0 ∧ a.exclusive = false ∧ a.param = 0 := by
  rcases h with rfl | rfl | rfl | rfl <;>
    simp only [Bank.actionFieldsOk, Bool.and_eq_true, beq_iff_eq, Bool.not_eq_true', noTarget_iff, and_assoc]

/-- The fields that an action must have, by the code of its kind (R12, R20, R21). -/
def Bank.ActionFits (b : Bank) (a : ActionRec) : Prop :=
  (a.kindCode ≤ 1 ∧ b.Targets a ∧ a.level ≤ Config.fullLevel ∧ a.profile ≤ 8 ∧ a.exclusive = false ∧ a.param = 0) ∨
  (2 ≤ a.kindCode ∧ a.kindCode ≤ 4 ∧ b.Targets a ∧ a.level = 0 ∧ a.profile ≤ 8 ∧ a.exclusive = false ∧ a.param = 0) ∨
  (a.kindCode = 5 ∧ a.Untargeted ∧ a.profile ≤ 8 ∧ a.param ≤ 31 ∧ (b.sceneRec a.param).count ≠ 0) ∨
  (a.kindCode = 6 ∧ a.Untargeted ∧ a.profile = 0 ∧ a.exclusive = false ∧ a.param ≤ 4) ∨
  (7 ≤ a.kindCode ∧ a.kindCode ≤ 10 ∧ a.Untargeted ∧ a.profile = 0 ∧ a.exclusive = false ∧ a.param = 0)

theorem actionFits_iff_of_kind {kind : ActionKind} (h : a.kindCode = kind.code) :
    b.ActionFits a ↔ b.actionFieldsOk a kind = true := by
  unfold Bank.ActionFits
  rw [h]
  cases kind with
  | set => simp [actionFieldsOk_level (.inl rfl), ActionKind.code]
  | toggle => simp [actionFieldsOk_level (.inr rfl), ActionKind.code]
  | raise => simp [actionFieldsOk_noLevel (.inl rfl), ActionKind.code]
  | lower => simp [actionFieldsOk_noLevel (.inr (.inl rfl)), ActionKind.code]
  | release => simp [actionFieldsOk_noLevel (.inr (.inr rfl)), ActionKind.code]
  | scene => simp [actionFieldsOk_scene, ActionKind.code]
  | mode => simp [actionFieldsOk_mode, ActionKind.code]
  | hold => simp [actionFieldsOk_house (.inl rfl), ActionKind.code]
  | resume => simp [actionFieldsOk_house (.inr (.inl rfl)), ActionKind.code]
  | amend => simp [actionFieldsOk_house (.inr (.inr (.inl rfl))), ActionKind.code]
  | restore => simp [actionFieldsOk_house (.inr (.inr (.inr rfl))), ActionKind.code]

end Actions

theorem actionOk_iff {b : Bank} {k : Nat} : b.actionOk k = true ↔ b.ActionFits (b.actionRec k) := by
  unfold Bank.actionOk
  cases hkind : kindOfCode (b.actionRec k).kindCode with
  | some kind => exact (actionFits_iff_of_kind (kindOfCode_iff.1 hkind)).symm
  | none =>
    have hcode := kindOfCode_none hkind
    refine ⟨nofun, fun hfits => ?_⟩
    unfold Bank.ActionFits at hfits
    omega

/-! ### Bindings (R8, R10, R20, R21, R22) -/

section Bindings
variable {b : Bank} {q : SeqRef}

theorem seqOk_iff : q.ok = true ↔ q.count ≤ 16 ∧ q.start + q.count ≤ 2048 := by
  simp only [SeqRef.ok, Bool.and_eq_true, decide_eq_true_eq]

/-- What is asked of every kind of a sequence is asked of the code of each of its actions (R10). -/
theorem all_sequenceKinds {p : ActionKind → Bool} : (b.sequenceKinds q).all p = true ↔
    ∀ j, j < q.count → ∀ kind : ActionKind, (b.actionRec (q.start + j)).kindCode = kind.code → p kind = true := by
  simp only [Bank.sequenceKinds, List.all_eq_true, List.mem_filterMap, List.mem_range, kindOfCode_iff]
  exact ⟨fun h j hj kind hkind => h kind ⟨j, hj, hkind⟩, fun h kind ⟨j, hj, hkind⟩ => h j hj kind hkind⟩

/-- The privileges that an action of this code needs of its station (R8). -/
def StationRec.Allows (r : StationRec) (code : Nat) : Prop :=
  (code = 6 → r.mayMode = true) ∧ (code = 7 ∨ code = 8 → r.mayHold = true) ∧ (code = 9 → r.mayAmend = true) ∧
    (code = 10 → r.mayRestore = true)

theorem allows_iff {r : StationRec} {code : Nat} :
    (∀ kind : ActionKind, code = kind.code → r.privileged kind = true) ↔ r.Allows code := by
  constructor
  · exact fun h => ⟨h .mode, fun hhold => hhold.elim (h .hold) (h .resume), h .amend, h .restore⟩
  · rintro ⟨hmode, hhold, hamend, hrestore⟩ kind hcode
    cases kind with
    | mode => exact hmode hcode
    | hold => exact hhold (.inl hcode)
    | resume => exact hhold (.inr hcode)
    | amend => exact hamend hcode
    | restore => exact hrestore hcode
    | _ => rfl

theorem noRamp_iff {code : Nat} :
    (∀ kind : ActionKind, code = kind.code → (!kind.ramps) = true) ↔ code ≠ 2 ∧ code ≠ 3 := by
  constructor
  · exact fun h => ⟨fun hraise => absurd (h .raise hraise) nofun, fun hlower => absurd (h .lower hlower) nofun⟩
  · rintro ⟨hraise, hlower⟩ kind hcode
    cases kind with
    | raise => exact absurd hcode hraise
    | lower => exact absurd hcode hlower
    | _ => rfl

/-- Every action of a sequence has a code of which `p` holds. -/
def Bank.SequenceCodes (b : Bank) (q : SeqRef) (p : Nat → Prop) : Prop :=
  ∀ j, j < q.count → p (b.actionRec (q.start + j)).kindCode

theorem privileged_iff {r : StationRec} :
    (b.sequenceKinds q).all r.privileged = true ↔ b.SequenceCodes q r.Allows := by
  simp only [all_sequenceKinds, allows_iff, Bank.SequenceCodes]

theorem rampFree_iff : (b.sequenceKinds q).all (fun kind => !kind.ramps) = true ↔
    b.SequenceCodes q (fun code => code ≠ 2 ∧ code ≠ 3) := by
  simp only [all_sequenceKinds, noRamp_iff, Bank.SequenceCodes]

end Bindings

theorem bindingOk_iff {b : Bank} {k : Nat} :
    let r := b.bindingRec k
    let allowed := fun q => b.SequenceCodes q (b.stationRec (k / 16)).Allows
    let rampFree := fun q => b.SequenceCodes q (fun code => code ≠ 2 ∧ code ≠ 3)
    b.bindingOk k = true ↔ r.triggerCode ≤ 2 ∧ (r.press.count ≤ 16 ∧ r.press.start + r.press.count ≤ 2048) ∧
      (r.release.count ≤ 16 ∧ r.release.start + r.release.count ≤ 2048) ∧
      (r.long.count ≤ 16 ∧ r.long.start + r.long.count ≤ 2048) ∧ allowed r.press ∧ allowed r.release ∧
      allowed r.long ∧ rampFree r.release ∧ (r.long.count ≠ 0 → rampFree r.press) := by
  unfold Bank.bindingOk
  simp only [Bool.and_eq_true, Bool.or_eq_true, decide_eq_true_eq, beq_iff_eq, seqOk_iff, privileged_iff, rampFree_iff,
    or_iff_not_imp_left, and_assoc, ne_eq]

/-- Settles O49: validation as it ends, the order of its tables, the records and the ten checks. -/
theorem validationReportsTheFirstFailingRecord : Obligations.ValidationReportsTheFirstFailingRecord := by
  refine ⟨fun s hstatus => ⟨fun table index => exec_validationEnds_invalid hstatus, exec_validationEnds_valid hstatus⟩,
    fun b table index => firstFault_spec, fun b => valid_iff, valid_empty, fun b => rfl, fun b k => ?records,
    fun b k => ?checks⟩
  case records => exact ⟨circuitRec_eq b k, stationRec_eq b k, bindingRec_eq b k, actionRec_eq b k⟩
  case checks =>
    exact ⟨profileOk_iff, zoneOk_iff, circuitOk_iff, stationOk_iff, memberOk_iff, itemOk_iff, groupOk_iff, sceneOk_iff,
      actionOk_iff, bindingOk_iff⟩

end Sys2Proof.Machine
end

section
/-! Reporting and causes (spec chapter 11), O7: the values of R182 after each reset, and what may change the reset cause
and the enable mask. -/

namespace Sys2Proof.Machine

/-! ### The Control Block after each reset (R182) -/

theorem value_zero (k : CounterName) : Counters.zero.value k = 0 := by
  cases k <;> rfl

theorem finishRestart_running {s : State} (h : s.status = .restartRunning) : s.finishRestart = s.commandDone 0 :=
  if_pos h

/-- A command that finishes DONE leaves COMMAND pending (R169). -/
theorem command_pending_commandDone (s : State) (detail1 : Nat) :
    (s.commandDone detail1).causePending .command = true :=
  (causePending_raiseCause _ .command .command).2 (.inr rfl)

/-! ### What changes the reset cause and the mask -/

theorem takesCommand_of_resetCause {s t : State} (he : exec .restart s = .next t) (hne : t.resetCause ≠ s.resetCause) :
    s.takesCommand := by
  cases he
  revert hne
  exact offerCommand_induction (P := fun u => u.resetCause ≠ s.resetCause → s.takesCommand) (fun hne => absurd rfl hne)
    (fun hne => absurd rfl hne) (fun htakes _ => htakes)

theorem rst_of_lineReset_changed {s t : State} (he : exec .lineReset s = .next t) (hne : t ≠ s) : s.rst = false := by
  cases hrst : s.rst with
  | false => rfl
  | true =>
    rw [exec_lineReset_asserted hrst] at he
    cases he
    exact absurd rfl hne

theorem resetCause_changed {c : Instr} {s t : State} (he : exec c s = .next t) (hne : t.resetCause ≠ s.resetCause) :
    (∃ straps, c = .power straps) ∨ (c = .lineReset ∧ s.rst = false) ∨ (c = .restart ∧ s.takesCommand) := by
  cases c with
  | power straps => exact .inl ⟨straps, rfl⟩
  | lineReset => exact .inr (.inl ⟨rfl, rst_of_lineReset_changed he (fun hsame => hne (hsame ▸ rfl))⟩)
  | restart => exact .inr (.inr ⟨rfl, takesCommand_of_resetCause he hne⟩)
  | _ => exact absurd (changes_of_exec he .resetCause (by simp only [touched]; decide)) hne

theorem mask_changed {c : Instr} {s t : State} (he : exec c s = .next t) (hne : t.mask ≠ s.mask) :
    (∃ straps, c = .power straps) ∨ c = .lineReset ∨ ∃ v, c = .enableMaskWrite v := by
  cases c with
  | power straps => exact .inl ⟨straps, rfl⟩
  | lineReset => exact .inr (.inl rfl)
  | enableMaskWrite v => exact .inr (.inr ⟨v, rfl⟩)
  | _ => exact absurd (changes_of_exec he .mask (by simp only [touched]; decide)) hne

/-- Settles O7: what each reset leaves, the finish of a RESTART, and the commands that touch the two fields. -/
theorem resetCauseNamesTheLastReset : Obligations.ResetCauseNamesTheLastReset := by
  refine ⟨fun straps s t he => ?power, fun s t hrst he => ?line, fun s t htakes he => ?restart,
    fun s t hstatus hcomplete he => ?finish, fun c s t => resetCause_changed, fun c s t => mask_changed,
    rfl, rfl, rfl⟩
  case power =>
    cases he
    exact ⟨rfl, rfl, rfl, topCause_of_causes rfl, attn_of_causes rfl, value_zero, rfl⟩
  case line =>
    rw [exec_lineReset_released hrst] at he
    cases he
    exact ⟨rfl, rfl, rfl, topCause_of_causes rfl, attn_of_causes rfl, rfl, rfl⟩
  case restart =>
    rw [exec_restart_taken htakes] at he
    cases he
    exact ⟨rfl, rfl, rfl, value_zero, rfl⟩
  case finish =>
    rw [exec_frameClearEnds_due hcomplete, finishRestart_running (s := s.remarked) hstatus] at he
    cases he
    exact ⟨rfl, command_pending_commandDone s.remarked 0, rfl⟩

end Sys2Proof.Machine
end

section
/-! The machine: its queue of commands (logs 3 and 9), O1 and O3: a step executes the command at the front on the rest
of the queue, and every command completes and leaves the commands that wait as they are. -/

namespace Sys2Proof.Machine

theorem step_of_pending {s : State} {c : Instr} {rest : List Instr} (hq : s.pending = c :: rest) :
    step s = exec c { s with pending := rest } := by
  simp only [step, hq]

/-- Settles O1: the case of `step` on a queue that is not empty. -/
theorem stepTakesTheFrontCommand : Obligations.StepTakesTheFrontCommand :=
  fun _ _ _ => step_of_pending rfl

/-- The queue of waiting commands is the model's own (log 9): no command, POWER and RESTART among them, may change
it. -/
theorem pending_notMem_touched (c : Instr) : Field.pending ∉ touched c := by
  cases c <;> (simp only [touched]; decide)

/-- Settles O3: every command completes within the fields it may change, and the queue is not one of them. -/
theorem everyCommandCompletesAndKeepsTheQueue : Obligations.EveryCommandCompletesAndKeepsTheQueue := by
  intro c s
  obtain ⟨t, he, hchanges⟩ := exec_changes c s
  exact ⟨t, he, hchanges .pending (pending_notMem_touched c)⟩

end Sys2Proof.Machine
end
